-- ==== Sys2Proof/Word.lean ====
section
/-! DEFINITION. The fixed-width words of the engine (00_scope.md rules R8 and R11): bytes, the 16-bit words of the
register transport, and the 32-bit quantities (command argument, DMA address, DMA length, response word). All
values are unsigned; naturals are used where the spec computes in naturals. -/

namespace Sys2Proof

/-- One byte of a command frame, a response buffer or arena memory. -/
abbrev Byte := BitVec 8

/-- One word of the register transport, and one word of an operation (R73, R100). -/
abbrev Word := BitVec 16

/-- A 32-bit quantity: argument, DMA address, DMA length, response word (R8). -/
abbrev Word32 := BitVec 32

end Sys2Proof
end

