-- ==== Sys2Proof/Syntax.lean ====
section
/-! DEFINITION. The names the spec gives registers, fields and objects (10_state.md R30, 30_encoding.md R102), the
request records (R104, R105), and the engine's 28 operations with their side operands (R102, opcode_table.json). -/

namespace Sys2Proof

/-- The registers of the Control Surface: the 27 that R30 names; the ninth of the response buffer, which a long response
of 17 bytes reads (R109, C1); and further ones, as many as there are fields, in which a `FieldMap` can put fields away
from the named registers (R140). -/
inductive RegId where
  | event | intMask | dmaAddrLo | dmaAddrHi | dmaLenLo | dmaLenHi | blkSize | blkCnt
  | cmdRspSize | ctrl | job | mode | status | bus | rst | rstSts
  | cmdBuf0 | cmdBuf1 | cmdBuf2
  | rspBuf0 | rspBuf1 | rspBuf2 | rspBuf3 | rspBuf4 | rspBuf5 | rspBuf6 | rspBuf7
  | rspBuf8
  | further (k : Fin 41)
  deriving DecidableEq, Repr

/-- The place of a register in a file of the 69 registers (the model's own numbering). -/
def RegId.idx : RegId → Fin 69
  | .event => 0 | .intMask => 1 | .dmaAddrLo => 2 | .dmaAddrHi => 3
  | .dmaLenLo => 4 | .dmaLenHi => 5 | .blkSize => 6 | .blkCnt => 7
  | .cmdRspSize => 8 | .ctrl => 9 | .job => 10 | .mode => 11
  | .status => 12 | .bus => 13 | .rst => 14 | .rstSts => 15
  | .cmdBuf0 => 16 | .cmdBuf1 => 17 | .cmdBuf2 => 18
  | .rspBuf0 => 19 | .rspBuf1 => 20 | .rspBuf2 => 21 | .rspBuf3 => 22
  | .rspBuf4 => 23 | .rspBuf5 => 24 | .rspBuf6 => 25 | .rspBuf7 => 26
  | .rspBuf8 => 27
  | .further k => ⟨28 + k, by omega⟩

/-- The registers R30 names, in the order of `RegId.idx`. -/
def RegId.namedAll : List RegId :=
  [.event, .intMask, .dmaAddrLo, .dmaAddrHi, .dmaLenLo, .dmaLenHi, .blkSize, .blkCnt,
   .cmdRspSize, .ctrl, .job, .mode, .status, .bus, .rst, .rstSts,
   .cmdBuf0, .cmdBuf1, .cmdBuf2, .rspBuf0, .rspBuf1, .rspBuf2, .rspBuf3, .rspBuf4,
   .rspBuf5, .rspBuf6, .rspBuf7]

/-- R30 names the register and gives it an id, so an operation can name it. -/
def RegId.named : RegId → Bool
  | .rspBuf8 => false
  | .further _ => false
  | _ => true

/-- Every register, in the order of `RegId.idx`. -/
def RegId.all : List RegId := RegId.namedAll ++ .rspBuf8 :: (List.finRange 41).map .further

/-- The logical fields of the Control Surface (R30), by name. -/
inductive FieldId where
  | evCmdEnd | evDataEnd | evBusyEnd | evErr | intMask
  | dmaAddrLo | dmaAddrHi | dmaLenLo | dmaLenHi | blkSize | blkCnt | cmdSize | rspSize
  | rspEn | rspLong | crcChkEn | busyDetEn | dtrxEn | jobDir | admaEn | jobStart | busWidth
  | stDatRdCrc | stDatWrCrc | stCmdRspCrc | stNoRsp | stCardBusy | busIdle | rstN | rstSts
  | cmdBuf0 | cmdBuf1 | cmdBuf2
  | rspBuf0 | rspBuf1 | rspBuf2 | rspBuf3 | rspBuf4 | rspBuf5 | rspBuf6 | rspBuf7
  deriving DecidableEq, Repr

/-- The place of a field in a table of the 41 fields (the model's own numbering). -/
def FieldId.idx : FieldId → Fin 41
  | .evCmdEnd => 0 | .evDataEnd => 1 | .evBusyEnd => 2 | .evErr => 3 | .intMask => 4
  | .dmaAddrLo => 5 | .dmaAddrHi => 6 | .dmaLenLo => 7 | .dmaLenHi => 8
  | .blkSize => 9 | .blkCnt => 10 | .cmdSize => 11 | .rspSize => 12
  | .rspEn => 13 | .rspLong => 14 | .crcChkEn => 15 | .busyDetEn => 16
  | .dtrxEn => 17 | .jobDir => 18 | .admaEn => 19 | .jobStart => 20 | .busWidth => 21
  | .stDatRdCrc => 22 | .stDatWrCrc => 23 | .stCmdRspCrc => 24 | .stNoRsp => 25
  | .stCardBusy => 26 | .busIdle => 27 | .rstN => 28 | .rstSts => 29
  | .cmdBuf0 => 30 | .cmdBuf1 => 31 | .cmdBuf2 => 32
  | .rspBuf0 => 33 | .rspBuf1 => 34 | .rspBuf2 => 35 | .rspBuf3 => 36
  | .rspBuf4 => 37 | .rspBuf5 => 38 | .rspBuf6 => 39 | .rspBuf7 => 40

/-- Every field, in the order of `FieldId.idx`. -/
def FieldId.all : List FieldId :=
  [.evCmdEnd, .evDataEnd, .evBusyEnd, .evErr, .intMask, .dmaAddrLo, .dmaAddrHi, .dmaLenLo,
   .dmaLenHi, .blkSize, .blkCnt, .cmdSize, .rspSize, .rspEn, .rspLong, .crcChkEn,
   .busyDetEn, .dtrxEn, .jobDir, .admaEn, .jobStart, .busWidth, .stDatRdCrc, .stDatWrCrc,
   .stCmdRspCrc, .stNoRsp, .stCardBusy, .busIdle, .rstN, .rstSts, .cmdBuf0, .cmdBuf1,
   .cmdBuf2, .rspBuf0, .rspBuf1, .rspBuf2, .rspBuf3, .rspBuf4, .rspBuf5, .rspBuf6,
   .rspBuf7]

/-- The four request objects (R13, object ids of R102). -/
inductive Obj where
  | sbc | cmd | stop | data
  deriving DecidableEq, Repr

/-- The three command objects, the operands of `CISSUE` and `CCAPT` (R190). -/
inductive CmdId where
  | sbc | cmd | stop
  deriving DecidableEq, Repr

/-- A command object as a request object. -/
def CmdId.toObj : CmdId → Obj
  | .sbc => .sbc
  | .cmd => .cmd
  | .stop => .stop

/-- The response kind of a command record (R104). `reserved` is the code `11`, which `SUBMIT` refuses (R116). -/
inductive Rsp where
  | none | short | long | reserved
  deriving DecidableEq, Repr

/-- The direction of a data record (R105). -/
inductive Dir where
  | unset | read | write
  deriving DecidableEq, Repr

/-- The input fields of a command object (R26, R104). `opcode` is held as a byte, so that the check of R261 item 1
(`opcode < 64`) has something to refuse; durations are naturals in milliseconds (R10). -/
structure Command where
  opcode  : Byte
  arg     : Word32
  rsp     : Rsp
  busy    : Bool
  crc     : Bool
  echo    : Bool
  busyTmo : Option Nat
  deriving DecidableEq, Repr

/-- The input fields of the data object (R26, R105). `buf` names the caller's buffer at the mapping service. -/
structure Data where
  dir    : Dir
  bs     : Nat
  blocks : Nat
  buf    : Nat
  tmo    : Nat
  deriving DecidableEq, Repr

/-- The shape bits of `SUBMIT` (R103), raw: the direction code `11` can be written and is refused (R116). -/
structure Shape where
  hasData : Bool
  dir     : BitVec 2
  hasSbc  : Bool
  hasStop : Bool
  deriving DecidableEq, Repr

/-- The widths `SET_BUS_WIDTH` may name (R270). -/
inductive BusWidth where
  | one | four | eight
  deriving DecidableEq, Repr

/-- The required set of an `AWAIT` (R162). -/
structure WaitSet where
  cmd  : Bool
  data : Bool
  busy : Bool
  deriving DecidableEq, Repr

/-- The engine's operations with their side operands, one constructor per row of opcode_table.json (R102). -/
inductive Instr where
  | submit (shape : Shape) (cmd : Command) (sbc : Option Command) (data : Option Data) (stop : Option Command)
  | setBusWidth (w : BusWidth)
  /-- `none` is `SET_CLOCK off`; a rate is in Hz. -/
  | setClock (rate : Option Nat)
  | hwReset
  | irq
  | regRead (r : RegId)
  | regWrite (r : RegId) (v : Word)
  | fieldRead (f : FieldId)
  | fieldWrite (f : FieldId) (v : Word)
  | fieldForce (f : FieldId) (v : Word)
  | clrev
  | await (need : WaitSet) (tobj : Obj)
  | wchk (o : Obj)
  | cissue (o : CmdId)
  | trig
  | ccapt (o : CmdId)
  | chkdir
  | dmap
  | dprep
  | darm
  | bidle
  | dstat
  | dunmap
  | jerr (o : Obj) (l : Nat)
  | jmp (l : Nat)
  | done
  | rstseq
  | init (irqOk : Bool)
  deriving DecidableEq, Repr

end Sys2Proof
end

