-- ==== Sys2Proof/Config.lean ====
section
/-! DEFINITION. What is fixed for one engine: the parameters of 00_scope.md R9 as one record, `FieldMap` among them,
and the FREE VALUES: what the device, the mapping service and time answer where the state does not say (R3, R12,
R166). A free value is a constant with no body, so nothing can be proved about which value it is. -/

namespace Sys2Proof

/-- Where a logical field stands: its register, its lowest bit and its width (R140). -/
structure FieldPos where
  reg   : RegId
  lo    : Nat
  width : Nat
  deriving DecidableEq, Repr

/-- The parameter `FieldMap` (R9, R30): every register's offset and every field's place, in the orders of
`RegId.idx` and `FieldId.idx`. A field can stand at any offset: in a named register, or in one of as many further
registers as there are fields (R140; notes/assumptions/33.md). -/
structure FieldMap where
  offsets : Vector Nat 69
  fields  : Vector FieldPos 41
  deriving DecidableEq, Repr

/-- The order of the four bytes of a descriptor word in arena memory, part of the descriptor layout (R76, D10):
`little` stores the least significant byte at the lowest address, `big` the most significant (DESIGN CHOICE: R76 names
no other order, notes/assumptions/37.md). -/
inductive ByteOrder where
  | little | big
  deriving DecidableEq, Repr

/-- The named parameters of R9, with the byte order that R76 makes part of the descriptor layout. `P_MODE` is not among
them: `INIT` sets it (R23). Durations are naturals in milliseconds and only name which timeout governs a wait (R10). -/
structure Config where
  /-- `P_MAX_SEGS` -/
  maxSegs           : Nat
  /-- `P_CMD_DEFAULT_TIMEOUT` -/
  cmdDefaultTimeout : Nat
  /-- `P_POLL_SETTLE` -/
  pollSettle        : Nat
  /-- `P_POLL_INTERVAL` -/
  pollInterval      : Nat
  /-- `P_POLL_TIMEOUT` -/
  pollTimeout       : Nat
  /-- `P_BIDLE_TIMEOUT` -/
  bidleTimeout      : Nat
  /-- `P_BIDLE_INTERVAL` -/
  bidleInterval     : Nat
  /-- `P_BIDLE_FATAL` -/
  bidleFatal        : Bool
  /-- `P_RST_RETRIES` -/
  rstRetries        : Nat
  /-- `P_RST_INTERVAL` -/
  rstInterval       : Nat
  /-- `P_RST_STS_WIDTH` -/
  rstStsWidth       : Nat
  /-- `P_CMD_SIZE` -/
  cmdSize           : Word
  /-- `P_FRAME_MARKER` -/
  frameMarker       : Byte
  /-- `P_LONG_RSP_READ` -/
  longRspRead       : Nat
  /-- `P_DESC_BYTES` -/
  descBytes         : Nat
  /-- The byte order of descriptor words, `little` unless a model changes it (R76, D10). -/
  descOrder         : ByteOrder
  /-- `P_ADMA_DMA_LEN` -/
  admaDmaLen        : Word32
  /-- `P_ADMA_BLKCNT` -/
  admaBlkcnt        : Nat
  /-- `FieldMap` -/
  fieldMap          : FieldMap
  /-- `P_CACHED(reg)`, in the order of `RegId.idx` -/
  cachedRegs        : Vector Bool 69
  /-- `P_EVENT_W1C` -/
  eventW1c          : Bool
  /-- `P_STATUS_W1C` -/
  statusW1c         : Bool
  /-- `P_SETTLE_IRQ` -/
  settleIrq         : Bool
  /-- `P_SHARED_BUF`: no engine rule depends on it (R44). -/
  sharedBuf         : Bool
  /-- `P_BW_CODE(1)` -/
  bwCode1           : Word
  /-- `P_BW_CODE(4)` -/
  bwCode4           : Word
  /-- `P_BW_CODE(8)` -/
  bwCode8           : Word
  /-- `W_BLKSIZE` -/
  wBlkSize          : Nat
  /-- `W_BLKCNT` -/
  wBlkCnt           : Nat
  /-- `W_JOBCNT` -/
  wJobCnt           : Nat
  deriving DecidableEq, Repr

/-- One segment a mapping yields: a device-visible address and a length (R105, R221). -/
structure Seg where
  addr : Word32
  len  : Word32
  deriving DecidableEq, Repr

namespace Config

/-- FREE VALUE: what the `n`-th draw answers when it is a register read (R12: device registers are draws). -/
opaque freeRead : Nat → Word

/-- FREE VALUE: whether the `n`-th draw of expiry is an expiry (R166); expiry draws have a count of their own. -/
opaque freeExpired : Nat → Bool

/-- FREE VALUE: the handle and segments of a buffer mapping at the `n`-th draw (R221). -/
opaque freeSegs : Nat → Nat × List Seg

/-- FREE VALUE: the handle and device address of an arena mapping at the `n`-th draw (R226). -/
opaque freeChain : Nat → Nat × Word32

/-- FREE VALUE: the arena's CPU-side address at the `n`-th draw (R352). -/
opaque freeBase : Nat → Nat

end Config

end Sys2Proof
end

