-- ==== Sys2Proof/Machine/Layout.lean ====
section
/-! DEFINITION. The reference layout of 10_state.md R30 and R31, the default parameters of 00_scope.md R9, the lookups
over a `FieldMap`, and its well-formedness (R32). -/

namespace Sys2Proof.Machine

open Sys2Proof

/-- A register's offset (R140). -/
def off (cfg : Config) (r : RegId) : Nat := cfg.fieldMap.offsets[r.idx]

/-- A field's place (R140). -/
def pos (cfg : Config) (f : FieldId) : FieldPos := cfg.fieldMap.fields[f.idx]

/-- `P_CACHED(reg)` (R31). -/
def cached (cfg : Config) (r : RegId) : Bool := cfg.cachedRegs[r.idx]

/-- The reference offsets of R30. It gives none for the ninth response register and the further ones, where no field of
the reference layout stands: theirs are a DESIGN CHOICE (notes/assumptions/33.md). -/
def refOffset : RegId → Nat
  | .event => 0x00 | .intMask => 0x02 | .dmaAddrLo => 0x04 | .dmaAddrHi => 0x06
  | .dmaLenLo => 0x08 | .dmaLenHi => 0x0A | .blkSize => 0x0C | .blkCnt => 0x0E
  | .cmdRspSize => 0x10 | .ctrl => 0x12 | .job => 0x14 | .mode => 0x16
  | .status => 0x18 | .bus => 0x1A | .rst => 0x1C | .rstSts => 0x1E
  | .cmdBuf0 => 0x20 | .cmdBuf1 => 0x22 | .cmdBuf2 => 0x24
  | .rspBuf0 => 0x30 | .rspBuf1 => 0x32 | .rspBuf2 => 0x34 | .rspBuf3 => 0x36
  | .rspBuf4 => 0x38 | .rspBuf5 => 0x3A | .rspBuf6 => 0x3C | .rspBuf7 => 0x3E
  | .rspBuf8 => 0x40 | .further k => 0x100 + 2 * k

/-- The reference field places of R30. -/
def refPos : FieldId → FieldPos
  | .evCmdEnd => ⟨.event, 0, 1⟩
  | .evDataEnd => ⟨.event, 1, 1⟩
  | .evBusyEnd => ⟨.event, 2, 1⟩
  | .evErr => ⟨.event, 3, 1⟩
  | .intMask => ⟨.intMask, 0, 4⟩
  | .dmaAddrLo => ⟨.dmaAddrLo, 0, 16⟩
  | .dmaAddrHi => ⟨.dmaAddrHi, 0, 16⟩
  | .dmaLenLo => ⟨.dmaLenLo, 0, 16⟩
  | .dmaLenHi => ⟨.dmaLenHi, 0, 16⟩
  | .blkSize => ⟨.blkSize, 0, 16⟩
  | .blkCnt => ⟨.blkCnt, 0, 16⟩
  | .cmdSize => ⟨.cmdRspSize, 8, 8⟩
  | .rspSize => ⟨.cmdRspSize, 0, 8⟩
  | .rspEn => ⟨.ctrl, 0, 1⟩
  | .rspLong => ⟨.ctrl, 1, 1⟩
  | .crcChkEn => ⟨.ctrl, 2, 1⟩
  | .busyDetEn => ⟨.ctrl, 3, 1⟩
  | .dtrxEn => ⟨.ctrl, 4, 1⟩
  | .jobDir => ⟨.ctrl, 5, 1⟩
  | .admaEn => ⟨.ctrl, 6, 1⟩
  | .jobStart => ⟨.job, 0, 1⟩
  | .busWidth => ⟨.mode, 0, 2⟩
  | .stDatRdCrc => ⟨.status, 0, 1⟩
  | .stDatWrCrc => ⟨.status, 1, 1⟩
  | .stCmdRspCrc => ⟨.status, 2, 1⟩
  | .stNoRsp => ⟨.status, 3, 1⟩
  | .stCardBusy => ⟨.status, 4, 1⟩
  | .busIdle => ⟨.bus, 0, 1⟩
  | .rstN => ⟨.rst, 0, 1⟩
  | .rstSts => ⟨.rstSts, 0, 3⟩
  | .cmdBuf0 => ⟨.cmdBuf0, 0, 16⟩
  | .cmdBuf1 => ⟨.cmdBuf1, 0, 16⟩
  | .cmdBuf2 => ⟨.cmdBuf2, 0, 16⟩
  | .rspBuf0 => ⟨.rspBuf0, 0, 16⟩
  | .rspBuf1 => ⟨.rspBuf1, 0, 16⟩
  | .rspBuf2 => ⟨.rspBuf2, 0, 16⟩
  | .rspBuf3 => ⟨.rspBuf3, 0, 16⟩
  | .rspBuf4 => ⟨.rspBuf4, 0, 16⟩
  | .rspBuf5 => ⟨.rspBuf5, 0, 16⟩
  | .rspBuf6 => ⟨.rspBuf6, 0, 16⟩
  | .rspBuf7 => ⟨.rspBuf7, 0, 16⟩

/-- The cached registers of R31; the registers R31 does not name are volatile (DESIGN CHOICE, notes/assumptions/33.md). -/
def refCached : RegId → Bool
  | .intMask => true | .dmaAddrLo => true | .dmaAddrHi => true | .dmaLenLo => true | .dmaLenHi => true
  | .blkSize => true | .blkCnt => true | .cmdRspSize => true | .ctrl => true | .job => true
  | .mode => true | .rst => true
  | .event => false | .status => false | .bus => false | .rstSts => false
  | .cmdBuf0 => false | .cmdBuf1 => false | .cmdBuf2 => false
  | .rspBuf0 => false | .rspBuf1 => false | .rspBuf2 => false | .rspBuf3 => false
  | .rspBuf4 => false | .rspBuf5 => false | .rspBuf6 => false | .rspBuf7 => false
  | .rspBuf8 => false | .further _ => false

/-- The reference `FieldMap` (R30). -/
def refMap : FieldMap :=
  { offsets := ⟨⟨RegId.all.map refOffset⟩, by decide⟩
    fields := ⟨⟨FieldId.all.map refPos⟩, by decide⟩ }

/-- The parameters at the defaults of R9. The parameters R9 leaves OPEN hold the values named in
notes/assumptions/5.md; no statement rests on them. -/
def refConfig : Config :=
  { maxSegs := 64, cmdDefaultTimeout := 100, pollSettle := 0, pollInterval := 0, pollTimeout := 0,
    bidleTimeout := 0, bidleInterval := 0, bidleFatal := true, rstRetries := 3, rstInterval := 0,
    rstStsWidth := 3, cmdSize := 5, frameMarker := 0x40, longRspRead := 16, descBytes := 16,
    descOrder := .little, admaDmaLen := 16, admaBlkcnt := 1, fieldMap := refMap,
    cachedRegs := ⟨⟨RegId.all.map refCached⟩, by decide⟩,
    eventW1c := true, statusW1c := true, settleIrq := false, sharedBuf := false,
    bwCode1 := 0, bwCode4 := 1, bwCode8 := 2, wBlkSize := 16, wBlkCnt := 16, wJobCnt := 16 }

/-! ## Well-formedness of the parameters (R32) -/

/-- R32 (a): the field's bits lie within its 16-bit register, and its width is at least 1. -/
def fieldFits (p : FieldPos) : Bool := 1 ≤ p.width && p.lo + p.width ≤ 16

/-- Two fields share no bit (R32 (b)). -/
def fieldsApart (p q : FieldPos) : Bool :=
  p.reg != q.reg || p.lo + p.width ≤ q.lo || q.lo + q.width ≤ p.lo

/-- A field that is one bit of a register (R32 (c), (d)). -/
def fieldIsBitOf (r : RegId) (p : FieldPos) : Bool := p.reg == r && p.width == 1

/-- A field that is a whole register (R32 (g)). -/
def fieldIsWhole (r : RegId) (p : FieldPos) : Bool := p.reg == r && p.lo == 0 && p.width == 16

/-- No two entries of a list break a symmetric condition. -/
def allPairs {α : Type} (ok : α → α → Bool) : List α → Bool
  | [] => true
  | a :: as => as.all (ok a) && allPairs ok as

/-- A value fits a field of this width. -/
def fitsWidth (v : Word) (width : Nat) : Bool := v.toNat < 2 ^ width

/-- The checks of R32 (a)-(g) on a `FieldMap`, and consistency checks of the model's own on the other parameters of R9
(DESIGN CHOICE, notes/assumptions/23.md), `W_JOBCNT` between `W_BLKCNT` and 16 and `P_LONG_RSP_READ` of at most 18,
which the nine response registers hold, too. `INIT` refuses an engine that fails one. -/
def configOk (cfg : Config) : Bool :=
  (FieldId.all.all fun f => fieldFits (pos cfg f)) &&
  allPairs (fun f g => fieldsApart (pos cfg f) (pos cfg g)) FieldId.all &&
  ([.evCmdEnd, .evDataEnd, .evBusyEnd, .evErr].all fun f => fieldIsBitOf .event (pos cfg f)) &&
  ((pos cfg .intMask).reg == .intMask && (pos cfg .intMask).width == 4) &&
  ([.stDatRdCrc, .stDatWrCrc, .stCmdRspCrc, .stNoRsp, .stCardBusy].all fun f =>
    fieldIsBitOf .status (pos cfg f)) &&
  ([.dmaAddrLo, .dmaAddrHi, .dmaLenLo, .dmaLenHi].all fun f => (pos cfg f).width == 16) &&
  (5 ≤ (pos cfg .rspSize).width && fitsWidth cfg.cmdSize (pos cfg .cmdSize).width) &&
  ([(.cmdBuf0, .cmdBuf0), (.cmdBuf1, .cmdBuf1), (.cmdBuf2, .cmdBuf2), (.rspBuf0, .rspBuf0),
      (.rspBuf1, .rspBuf1), (.rspBuf2, .rspBuf2), (.rspBuf3, .rspBuf3), (.rspBuf4, .rspBuf4),
      (.rspBuf5, .rspBuf5), (.rspBuf6, .rspBuf6), (.rspBuf7, .rspBuf7)].all
    fun (f, r) => fieldIsWhole r (pos cfg f)) &&
  allPairs (fun r q => off cfg r != off cfg q) RegId.all &&
  ([cfg.bwCode1, cfg.bwCode4, cfg.bwCode8].all fun c => fitsWidth c (pos cfg .busWidth).width) &&
  ((pos cfg .rstSts).width == cfg.rstStsWidth && (pos cfg .blkSize).width == cfg.wBlkSize &&
    (pos cfg .blkCnt).width == cfg.wBlkCnt) &&
  (1 ≤ cfg.rstRetries && cfg.longRspRead ≤ 18 && 16 ≤ cfg.descBytes && cfg.admaBlkcnt < 2 ^ cfg.wBlkCnt) &&
  (cfg.wBlkCnt ≤ cfg.wJobCnt && cfg.wJobCnt ≤ 16)

end Sys2Proof.Machine
end

