-- ==== Sys2Proof/Machine/State.lean ====
section
/-! DEFINITION. The engine's state as plain data (10_state.md R21-R29, R45-R50), the device's register file as the
engine sees it (R30-R44), arena memory (20_memory.md R70), the engine's ports, the reasons a step can stop (R314,
R115, R116), and the power-on state (R48, R350). -/

namespace Sys2Proof.Machine

open Sys2Proof

/-! ## Records of the request in flight -/

/-- The error kinds of R310. -/
inductive ErrKind where
  | noError | timeout | noResponse | crcMismatch | sequenceError | invalidRequest | tooManySegments | resetFailed
  deriving DecidableEq, Repr

/-- The four completion latches (R24). -/
structure Latches where
  cmd  : Bool
  data : Bool
  busy : Bool
  err  : Bool
  deriving DecidableEq, Repr

/-- All four latches false (R24, R161). -/
def Latches.clear : Latches := ⟨false, false, false, false⟩

/-- The diagnostic snapshot (R46): four shadows (`none` is `INVALID`) and the latches. -/
structure Diag where
  ctrl       : Option Word
  blkCnt     : Option Word
  blkSize    : Option Word
  cmdRspSize : Option Word
  flags      : Latches
  deriving DecidableEq, Repr

/-- The transfer plan (R47). -/
inductive Plan where
  | direct (addr len : Word32) (blocks : Nat)
  | chained (k : Nat) (chainAddr dmaLen : Word32) (blocks : Nat)
  deriving DecidableEq, Repr

/-- A command object: its record and its results (R26). -/
structure CommandObj where
  input    : Command
  expected : Nat
  resp     : Vector Word32 4
  error    : ErrKind
  diag     : Option Diag
  deriving DecidableEq, Repr

/-- The data object: its record and its results (R26). -/
structure DataObj where
  input : Data
  segs  : List Seg
  plan  : Option Plan
  bytes : Nat
  error : ErrKind
  diag  : Option Diag
  deriving DecidableEq, Repr

/-- The request slot `E.req` (R26): the objects of the request, each present or not. -/
structure Request where
  sbc  : Option CommandObj
  cmd  : Option CommandObj
  stop : Option CommandObj
  data : Option DataObj
  deriving DecidableEq, Repr

/-- A request slot with no object in it. -/
def Request.empty : Request := ⟨none, none, none, none⟩

/-- What a completion record says of a command object (R268). -/
structure CmdReport where
  error : ErrKind
  resp  : Vector Word32 4
  diag  : Option Diag
  deriving DecidableEq, Repr

/-- What a completion record says of the data object (R268). -/
structure DataReport where
  error : ErrKind
  bytes : Nat
  diag  : Option Diag
  deriving DecidableEq, Repr

/-- The completion record (R268). -/
structure Completion where
  sbc  : Option CmdReport
  cmd  : Option CmdReport
  stop : Option CmdReport
  data : Option DataReport
  deriving DecidableEq, Repr

/-! ## The engine's own state -/

/-- `E.mode` (R23). -/
inductive Mode where
  | interrupt | polling
  deriving DecidableEq, Repr

/-- `E.wres` (R25). -/
inductive WaitRes where
  | ok | timeout
  deriving DecidableEq, Repr

/-- The micro-operations that take more than one step (R50). -/
inductive SubOp where
  | await | bidle | rstseq
  deriving DecidableEq, Repr

/-- The phases of a multi-step micro-operation (R50). -/
inductive SubPhase where
  | settle | loop | assertReset | release
  deriving DecidableEq, Repr

/-- `E.sub` when it is not `IDLE` (R50). -/
structure Progress where
  op    : SubOp
  phase : SubPhase
  count : Nat
  deriving DecidableEq, Repr

/-- A slot of the descriptor arena (R28). -/
structure Slot where
  addr   : Word32
  len    : Word32
  isEnd  : Bool
  jobs   : Word
  deriving DecidableEq, Repr

/-- An entry of the diagnostic log (R45), each tag with its own information. -/
inductive LogEntry where
  | spuriousDup (f : FieldId)
  | unknownEvent (bits : Word)
  | unexpectedStatus (bits : Word)
  | rspCrcIgnored (opcode : Byte)
  | stopFailed (k : ErrKind)
  | bidleTimeout
  deriving DecidableEq, Repr

/-! ## The ports -/

/-- The direction of a mapping (R221, R226). -/
inductive MapDir where
  | fromDevice | toDevice
  deriving DecidableEq, Repr

/-- What the engine does at its ports (R12): register transactions, arena stores, mapping calls, delays, the
interrupt handler's answers, clock calls and completion reports. -/
inductive Event where
  | regRead (offset : Nat) (v : Word)
  | regWrite (offset : Nat) (v : Word)
  | memWrite (addr : Nat) (bytes : List Byte)
  | mapBuffer (buf : Nat) (dir : MapDir) (handle : Nat) (segs : List Seg)
  | mapArena (base len : Nat) (dir : MapDir) (handle : Nat) (addr : Word32)
  | unmap (handle : Nat)
  | delay (duration : Nat)
  | registerIrq
  | wake
  | handled
  | clock (rate : Option Nat)
  | report (r : Completion)
  | resetReturned (e : ErrKind)
  deriving DecidableEq, Repr

/-- The environment's answers still to come, one queue for each kind of draw, how many draws of expiry have been taken,
and how many of the other kinds. Where a queue is empty the answer is the free value of Config at that count (R3, R12).
Expiry draws have their own count, so that a wait takes consecutive ones and R166 (b) is a law about them. -/
structure Draws where
  reads     : List Word
  expiries  : List Bool
  segMaps   : List (Nat × List Seg)
  chainMaps : List (Nat × Word32)
  bases     : List Nat
  count     : Nat
  expiryCount : Nat
  deriving DecidableEq, Repr

/-- One value for each of the 69 registers, in the order of `RegId.idx`. -/
abbrev RegFile (α : Type) := Vector α 69

/-- Everything at the engine's pins: the Control Surface's shadows (R27; `none` is `INVALID`), the device's register
file as the last transactions left it (R30-R44), the draws, and the trace of what the engine did, oldest first. -/
structure Bus where
  shadow : RegFile (Option Word)
  dev    : RegFile Word
  draws  : Draws
  trace  : List Event
  deriving DecidableEq, Repr

/-- CPU-side memory (R70): bytes by address, addresses strictly rising. An address with no entry holds no value. -/
abbrev Memory := List Host.Cell

/-- A hand-written program presented for loading (R274): the records it chooses and its operations as words. -/
structure Load where
  sbc  : Option Command
  cmd  : Option Command
  stop : Option Command
  data : Option Data
  prog : List (List Word)
  deriving DecidableEq, Repr

/-- What moves next: the orchestrator, or an outside agent that presents an operation at the upstream port or on the
interrupt line, or a test harness that loads a program (R87, R100, R274). -/
inductive Input where
  | orchestrator
  | port (ws : List Word)
  | load (l : Load)
  deriving DecidableEq, Repr

/-- The whole machine: the record `E` of R21, the configuration, the ports, memory, and the model's own bookkeeping. -/
structure State where
  /-- The parameters of R9; no step changes them. -/
  cfg       : Config
  /-- `E.mode` (R23); `none` is unset. -/
  mode      : Option Mode
  /-- `E.busy` (R26). -/
  busy      : Bool
  /-- `E.prog` (R22). -/
  prog      : List Instr
  /-- `E.upc` (R22). -/
  upc       : Nat
  /-- `E.lat` (R24). -/
  lat       : Latches
  /-- `E.wres` (R25). -/
  wres      : Option WaitRes
  /-- `E.snap` (R25). -/
  snap      : Option Word
  /-- `E.req` (R26). -/
  req       : Request
  /-- `E.shadow` (R27), the device's registers (R30-R44), draws and trace. -/
  bus       : Bus
  /-- `E.arena` (R28). -/
  arena     : List Slot
  /-- `E.arena_base` (R28); `none` is unset. -/
  arenaBase : Option Nat
  /-- `E.arena_map` (R29). -/
  arenaMap  : Option Nat
  /-- `E.seg_map` (R29). -/
  segMap    : Option Nat
  /-- `E.settled` (R29). -/
  settled   : Bool
  /-- `E.log` (R45). -/
  log       : List LogEntry
  /-- `E.rst_err` (R49). -/
  rstErr    : ErrKind
  /-- `E.sub` (R50); `none` is `IDLE`. -/
  sub       : Option Progress
  /-- Arena memory (R70). -/
  mem       : Memory
  /-- `result` of the last `REG_READ` or `FIELD_READ` (R145, R147). -/
  result    : Word
  /-- The timeout that governs the last wait, recorded for diagnostics (R10, R162). -/
  waitTmo   : Option Nat
  /-- The timeout argument of the last `AWAIT`, recorded for diagnostics in either mode (C6, U31). -/
  waitArg   : Option Nat
  /-- The model's own: the upstream `HW_RESET` is running `RSTSEQ` (R272). -/
  inReset   : Bool
  /-- The model's own: a trigger was written, and the wait that follows it has not returned (R85, R369). -/
  armed     : Bool
  /-- The model's own: which agents move next, in order. -/
  inputs    : List Input
  deriving DecidableEq, Repr

/-! ## How a step can stop -/

/-- The model faults of R314. -/
inductive Fault where
  /-- A flag register read before the settle delay (R360, D34); raised by `REG_READ`, `FIELD_READ`, `IRQ`, `AWAIT`,
  `BIDLE` and `RSTSEQ`, and by the field writes of `FIELD_WRITE`, `FIELD_FORCE`, `SET_BUS_WIDTH`, `CISSUE`, `TRIG`,
  `DARM`, `RSTSEQ` and `HW_RESET` whose base is read from a flag register. Safe: DOC0 says nothing after it can be
  modelled. -/
  | earlyFlagRead
  /-- A micro-operation with its precondition false (R314, U11); raised by `CCAPT`, `DARM`, `DSTAT`, `DPREP`,
  `AWAIT`, `BIDLE`, `DONE`, by a program counter past the end of the program, and by any operation the orchestrator
  runs that writes a register between a trigger and the return of its wait (R369). Safe: no expansion does this. -/
  | unmodelled
  deriving DecidableEq, Repr

/-- The refusals: a rejected input that leaves the state unchanged (R115, R116, R314). -/
inductive Refusal where
  /-- An instruction with no meaning yet. Safe. -/
  | notModelled (mnemonic : String)
  /-- Words that spell no operation (R115); raised by the port and by the loader. Safe. -/
  | invalidOperation
  /-- A micro-operation presented at the upstream port, which takes only upstream operations, `IRQ` and `INIT`
  (R100, R274; DESIGN CHOICE, notes/assumptions/42.md). Safe. -/
  | notAtPort
  /-- An upstream operation or a load before `INIT` (R350). Safe. -/
  | notInitialised
  /-- A second `INIT` (R352). Safe. -/
  | alreadyInitialised
  /-- An upstream operation or a load while a request is in flight (R260, R270-R272, R274). Safe. -/
  | engineBusy
  /-- A `SUBMIT` that is not well-formed (R261), words of records its shape bits do not announce among it (R116); and
  `CISSUE` of a record with the reserved response kind. Safe. -/
  | illFormedRequest
  /-- An operation names an object the request does not contain (R190). Safe. -/
  | objectAbsent
  /-- A field value that does not fit its field (R148, R114). Safe. -/
  | valueTooWide
  /-- `IRQ` where no handler is registered (R169). Safe. -/
  | noHandler
  /-- `INIT` of an engine whose parameters fail R32. Safe. -/
  | badFieldMap
  /-- A hand-written program that breaks a condition of R274. Safe. -/
  | badProgram
  deriving DecidableEq, Repr

/-- The answer of a meaning or of a step. -/
abbrev Answer := Host.Outcome State Fault Refusal

/-! ## Power-on -/

/-- The ports at power-on: every shadow `INVALID` (R48), nothing drawn, nothing done. The device registers, whose
power-on values the spec leaves open, hold 0 until the first transaction (notes/assumptions/6.md); no read returns
that 0, since every read is a draw. -/
def Bus.reset : Bus :=
  { shadow := Vector.replicate 69 none
    dev := Vector.replicate 69 0
    draws := ⟨[], [], [], [], [], 0, 0⟩
    trace := [] }

/-- The machine at power-on (R48, R350). R48 and R26 give the request slot no value at power-on: that it holds no
object is a DESIGN CHOICE (notes/assumptions/11.md). -/
def State.reset : State :=
  { cfg := refConfig
    mode := none
    busy := false
    prog := []
    upc := 0
    lat := Latches.clear
    wres := none
    snap := none
    req := Request.empty
    bus := Bus.reset
    arena := List.replicate 64 ⟨0, 0, false, 0⟩
    arenaBase := none
    arenaMap := none
    segMap := none
    settled := true
    log := []
    rstErr := .noError
    sub := none
    mem := []
    result := 0
    waitTmo := none
    waitArg := none
    inReset := false
    armed := false
    inputs := [] }

end Sys2Proof.Machine
end

