-- ==== Sys2Proof/Machine/Operands.lean ====
section
/-! DEFINITION. The encodings the engine produces and consumes (30_encoding.md R106-R114): the command frame, the
response words, the descriptor chain entry, the splits and counts of the data unit, and field values. -/

namespace Sys2Proof.Machine

open Sys2Proof

/-! ## Field values (R114) -/

/-- The mask of a field: `((2^w - 1) << s)`. -/
def fieldMask (p : FieldPos) : Word := BitVec.ofNat 16 (2 ^ p.width - 1) <<< p.lo

/-- The register value with the field replaced: `(x AND NOT m) OR (v << s)`. -/
def putField (p : FieldPos) (x v : Word) : Word := (x &&& ~~~(fieldMask p)) ||| (v <<< p.lo)

/-- A field read of a register value: `(x AND m) >> s`. -/
def getField (p : FieldPos) (x : Word) : Word := (x &&& fieldMask p) >>> p.lo

/-- The value is below `2^w` (R114, R148). -/
def fieldFitsValue (cfg : Config) (f : FieldId) (v : Word) : Bool := v.toNat < 2 ^ (pos cfg f).width

/-- A truth value as a field value. -/
def bitValue (b : Bool) : Word := if b then 1 else 0

/-! ## Command frame (R106, R107) -/

/-- The six bytes of the frame: marker and opcode, the argument most significant byte first, and `0x00`. -/
def frame (marker opcode : Byte) (arg : Word32) : Vector Byte 6 :=
  #v[marker ||| opcode, arg.extractLsb' 24 8, arg.extractLsb' 16 8, arg.extractLsb' 8 8, arg.extractLsb' 0 8, 0x00]

/-- Two buffer bytes as a register: the even byte in bits 7:0 (R77). -/
def lanes (even odd : Byte) : Word := odd ++ even

/-- The values of `CMD_BUF0..2` (R107). -/
def frameWords (marker opcode : Byte) (arg : Word32) : Vector Word 3 :=
  let b := frame marker opcode arg
  #v[lanes b[0] b[1], lanes b[2] b[3], lanes b[4] b[5]]

/-! ## Response (R108, R109) -/

/-- The number of response bytes to expect (R108). `reserved` never runs: `SUBMIT` refuses it (R261). -/
def expectedBytes : Rsp → Nat
  | .none => 0
  | .short => 5
  | .long => 16
  | .reserved => 0

/-- The number of response bytes `CCAPT` reads (R109, R196). -/
def responseBytes (cfg : Config) (r : Rsp) : Nat :=
  match r with
  | .short => 5
  | .none => cfg.longRspRead
  | .long => cfg.longRspRead
  | .reserved => cfg.longRspRead

/-- The response registers in order (R44), and the ninth that a long response of 17 bytes reads (R109, C1). -/
def rspBufs : List RegId :=
  [.rspBuf0, .rspBuf1, .rspBuf2, .rspBuf3, .rspBuf4, .rspBuf5, .rspBuf6, .rspBuf7, .rspBuf8]

/-- The response registers `CCAPT` reads for `n` bytes: the first `(n + 1) / 2` (R196). -/
def rspRegs (n : Nat) : List RegId := rspBufs.take ((n + 1) / 2)

/-- The bytes of buffer registers, by the lanes of R77. -/
def laneBytes : List Word → List Byte
  | [] => []
  | x :: xs => x.extractLsb' 0 8 :: x.extractLsb' 8 8 :: laneBytes xs

/-- `b'[j]` of R109: byte `j` when `j < n`, else `0x00`. -/
def padded (b : List Byte) (n j : Nat) : Byte := if j < n then b.getD j 0 else 0

/-- Response word `i` (R109): bytes `4i+1` to `4i+4`, the first most significant. -/
def respWord (b : List Byte) (n i : Nat) : Word32 :=
  padded b n (4 * i + 1) ++ padded b n (4 * i + 2) ++ padded b n (4 * i + 3) ++ padded b n (4 * i + 4)

/-- `assemble(b, n)` (R109). -/
def assemble (b : List Byte) (n : Nat) : Vector Word32 4 :=
  #v[respWord b n 0, respWord b n 1, respWord b n 2, respWord b n 3]

/-- The response words before any capture (R191, R48). -/
def noResp : Vector Word32 4 := #v[0, 0, 0, 0]

/-! ## Data unit (R110-R112, R221) -/

/-- `LO` and `HI` of a 32-bit quantity (R111). -/
def lo16 (v : Word32) : Word := v.extractLsb' 0 16
def hi16 (v : Word32) : Word := v.extractLsb' 16 16

/-- `len / bs` (R112): natural floor division. -/
def blocksOf (len : Word32) (bs : Nat) : Nat := len.toNat / bs

/-- The laws of a mapped segment (R221): a positive whole number of blocks whose count fits the block-count width.
With a block size of 0, which only a hand-written program's record can have, no segment is lawful: DESIGN CHOICE,
notes/assumptions/34.md. -/
def lawfulSeg (cfg : Config) (bs : Nat) (g : Seg) : Bool :=
  1 ≤ g.len.toNat && g.len.toNat % bs == 0 && blocksOf g.len bs < 2 ^ cfg.wBlkCnt

/-- The sum of the mapped segment lengths (R228), in naturals. -/
def sumLens : List Seg → Nat
  | [] => 0
  | g :: gs => g.len.toNat + sumLens gs

/-- The chain entry of one segment (R225). -/
def slotOf (bs : Nat) (isLast : Bool) (g : Seg) : Slot :=
  { addr := g.addr, len := g.len, isEnd := isLast, jobs := BitVec.ofNat 16 (blocksOf g.len bs) }

/-- The chain entries of the segments: `end` on the last one only (R225). -/
def chainSlots (bs : Nat) : List Seg → List Slot
  | [] => []
  | [g] => [slotOf bs true g]
  | g :: h :: gs => slotOf bs false g :: chainSlots bs (h :: gs)

/-- The bytes of a 32-bit word in arena memory by rising address, in the order of the descriptor layout (R76). -/
def wordBytes (o : ByteOrder) (w : Word32) : List Byte :=
  match o with
  | .little => [w.extractLsb' 0 8, w.extractLsb' 8 8, w.extractLsb' 16 8, w.extractLsb' 24 8]
  | .big => [w.extractLsb' 24 8, w.extractLsb' 16 8, w.extractLsb' 8 8, w.extractLsb' 0 8]

/-- `w0` of a chain entry: `end` in bit 0, `jobs` in bits 31:16 (R110). -/
def slotWord0 (e : Slot) : Word32 := e.jobs ++ (0#15 ++ BitVec.ofBool e.isEnd)

/-- The sixteen bytes of a chain entry: `w0`, address, length and a zero word (R110). -/
def slotBytes (o : ByteOrder) (e : Slot) : List Byte :=
  wordBytes o (slotWord0 e) ++ wordBytes o e.addr ++ wordBytes o e.len ++ wordBytes o 0

/-! ## Bus width (R113) -/

/-- `P_BW_CODE(w)`. -/
def busWidthCode (cfg : Config) : BusWidth → Word
  | .one => cfg.bwCode1
  | .four => cfg.bwCode4
  | .eight => cfg.bwCode8

/-! ## Reset status (R300) -/

/-- The fully-asserted pattern, `2^P_RST_STS_WIDTH - 1` (R42). -/
def onesPattern (cfg : Config) : Word := BitVec.ofNat 16 (2 ^ cfg.rstStsWidth - 1)

/-! ## Error codes (R310) -/

/-- The numeric code of an error kind in the completion record. -/
def ErrKind.code : ErrKind → BitVec 4
  | .noError => 0
  | .timeout => 1
  | .noResponse => 2
  | .crcMismatch => 3
  | .sequenceError => 4
  | .invalidRequest => 5
  | .tooManySegments => 6
  | .resetFailed => 7

end Sys2Proof.Machine
end

