-- ==== Sys2Proof/Machine/Flags.lean ====
section
/-! DEFINITION. The engine's flags: the latches and the completion condition (41_completion.md R162, R165), and the
tests of the status snapshot (R40, R194, R195, R228). -/

namespace Sys2Proof.Machine

open Sys2Proof

/-! ## Latches -/

/-- `cond(L, req)` (R162): the error latch, or every required latch. -/
def cond (l : Latches) (need : WaitSet) : Bool :=
  l.err || ((!need.cmd || l.cmd) && (!need.data || l.data) && (!need.busy || l.busy))

/-- Any latch is set (R160). -/
def Latches.any (l : Latches) : Bool := l.cmd || l.data || l.busy || l.err

/-- A field of a register value is 1. -/
def fieldSet (cfg : Config) (v : Word) (f : FieldId) : Bool := getField (pos cfg f) v == 1

/-- The latches after `latch_merge(v, _)` (R165): each OR-ed with its EVENT bit. -/
def mergedLatches (cfg : Config) (v : Word) (l : Latches) : Latches :=
  { cmd := l.cmd || fieldSet cfg v .evCmdEnd
    data := l.data || fieldSet cfg v .evDataEnd
    busy := l.busy || fieldSet cfg v .evBusyEnd
    err := l.err || fieldSet cfg v .evErr }

/-- The mask of the four known EVENT bits (R165). -/
def eventMask (cfg : Config) : Word :=
  fieldMask (pos cfg .evCmdEnd) ||| fieldMask (pos cfg .evDataEnd) ||| fieldMask (pos cfg .evBusyEnd) |||
    fieldMask (pos cfg .evErr)

/-- The `SPURIOUS_DUP` entry of one EVENT bit that is seen while its latch is set (R165). -/
def dupEntry (cfg : Config) (v : Word) (f : FieldId) (latched : Bool) : List LogEntry :=
  if fieldSet cfg v f && latched then [.spuriousDup f] else []

/-- The log entries of `latch_merge(v, log_dups)` (R165): duplicates in the order of the bits, then unknown bits. -/
def mergeLog (cfg : Config) (v : Word) (logDups : Bool) (l : Latches) : List LogEntry :=
  (if logDups then
    dupEntry cfg v .evCmdEnd l.cmd ++ dupEntry cfg v .evDataEnd l.data ++ dupEntry cfg v .evBusyEnd l.busy ++
      dupEntry cfg v .evErr l.err
  else []) ++
  (if v &&& ~~~(eventMask cfg) ≠ 0 then [.unknownEvent (v &&& ~~~(eventMask cfg))] else [])

/-! ## Status -/

/-- The status bits `CCAPT` step 4 expects to see (R195). -/
def captMask (cfg : Config) : Word :=
  fieldMask (pos cfg .stNoRsp) ||| fieldMask (pos cfg .stCmdRspCrc) ||| fieldMask (pos cfg .stCardBusy)

/-- Either data-CRC bit (R228). -/
def dataCrc (cfg : Config) (v : Word) : Bool := fieldSet cfg v .stDatRdCrc || fieldSet cfg v .stDatWrCrc

/-- What `WCHK` calls a timeout (R194): the wait expired, or the error latch with an all-zero snapshot. -/
def waitFailed (wres : Option WaitRes) (err : Bool) (snap : Option Word) : Bool :=
  wres == some .timeout || (err && snap == some 0)

/-- The register is one whose early read is a hazard (R145, R360). -/
def isFlagReg (r : RegId) : Bool := r == .event || r == .status

/-- The interrupt line (R324): asserted while `(EVENT AND INT_MASK-bits) != 0`, from an EVENT value and an INT_MASK
value. Bit `i` of the INT_MASK field enables the `i`-th of the four events (R32 (c)). -/
def irqLine (cfg : Config) (ev mask : Word) : Bool :=
  let m := getField (pos cfg .intMask) mask
  (fieldSet cfg ev .evCmdEnd && m.getLsbD 0) || (fieldSet cfg ev .evDataEnd && m.getLsbD 1) ||
    (fieldSet cfg ev .evBusyEnd && m.getLsbD 2) || (fieldSet cfg ev .evErr && m.getLsbD 3)

end Sys2Proof.Machine
end

