-- ==== Sys2Proof/Machine/Memory.lean ====
section
/-! DEFINITION. Memory as a canonical list of cells (20_memory.md R70, R76): reading one byte, writing one byte, and
`MemWrite`, the one way the engine reaches memory. The engine's CPU-side address space is not bounded by the spec, so
an address is a natural. -/

namespace Sys2Proof.Machine

open Sys2Proof

/-- The canonical form: addresses strictly rising. An unlisted address holds no value, so no entry can equal it. -/
abbrev Memory.wf (m : Memory) : Prop := m.Pairwise fun c d => c.1 < d.1

/-- The byte at an address, if any was written there. -/
def Memory.read : Memory → Nat → Option Byte
  | [], _ => none
  | (k, b) :: m, a => if a = k then some b else Memory.read m a

/-- Writing one byte keeps the canonical form. -/
def Memory.write : Memory → Nat → Byte → Memory
  | [], a, b => [(a, b)]
  | (k, c) :: m, a, b =>
      if a < k then (a, b) :: (k, c) :: m
      else if a = k then (a, b) :: m
      else (k, c) :: Memory.write m a b

/-- `MemWrite(a, n, v)` (R12) with the bytes of `v` in address order. -/
def Memory.writeBytes (m : Memory) (a : Nat) : List Byte → Memory
  | [] => m
  | b :: bs => Memory.writeBytes (Memory.write m a b) (a + 1) bs

end Sys2Proof.Machine
end

