-- ==== Sys2Proof/Machine/Ops.lean ====
section
/-! DEFINITION. The shared operations of the meanings: draws (R12), register transactions and the Control Surface's
field accesses (R140-R150), the log and the program counter (R22, R45), and RAISING AN ERROR (R312, R319), this
engine's exception entry, with the branch and the report that return from it (R265, R320). -/

namespace Sys2Proof.Machine

open Sys2Proof

/-! ## Draws (R12, R166) -/

/-- A draw answered by the queue `q` when it holds an answer, else by the free value. -/
def drawn {α : Type} (q : List α) (free : α) : α := q.headD free

/-- The value of the next register read. -/
def Draws.nextRead (d : Draws) : Word := drawn d.reads (Config.freeRead d.count)

/-- Whether the next expiry draw is an expiry. -/
def Draws.nextExpired (d : Draws) : Bool := drawn d.expiries (Config.freeExpired d.expiryCount)

/-- The next buffer mapping: a handle and the segments that keep the laws of R221. -/
def Draws.nextSegs (cfg : Config) (bs : Nat) (d : Draws) : Nat × List Seg :=
  let m := drawn d.segMaps (Config.freeSegs d.count)
  (m.1, m.2.filter (lawfulSeg cfg bs))

/-- The next arena mapping: a handle and one device address (R226). -/
def Draws.nextChain (d : Draws) : Nat × Word32 := drawn d.chainMaps (Config.freeChain d.count)

/-- The next arena base, aligned to `P_DESC_BYTES` (R28, U24). -/
def Draws.nextBase (cfg : Config) (d : Draws) : Nat :=
  let a := drawn d.bases (Config.freeBase d.count)
  a - a % cfg.descBytes

/-! ## The trace -/

/-- The event is a register write. -/
def isRegWrite : Event → Bool
  | .regWrite _ _ => true
  | _ => false

/-- The engine does something at a port. -/
def Bus.emit (e : Event) (b : Bus) : Bus := { b with trace := b.trace ++ [e] }

/-! ## Register transactions (R12, R73, R75) -/

/-- A value of a register file. -/
def RegFile.at {α : Type} (v : RegFile α) (r : RegId) : α := v[r.idx]

/-- A register file with one value replaced. -/
def RegFile.put {α : Type} (v : RegFile α) (r : RegId) (x : α) : RegFile α := v.set r.idx x

/-- `RegRead(off(r))`: the device register has the drawn value. A read has no other side effect but the settle hazard
of EVENT and STATUS (R75), which `earlyRead` and `earlyBase` test before it. -/
def Bus.regRead (cfg : Config) (r : RegId) (b : Bus) : Word × Bus :=
  let v := b.draws.nextRead
  (v, { b with
    dev := RegFile.put b.dev r v
    draws := { b.draws with reads := b.draws.reads.tail, count := b.draws.count + 1 }
    trace := b.trace ++ [.regRead (off cfg r) v] })

/-- What the device holds after a write of `v` where it held `x` (R75): the bits written as 1 cleared in a
write-1-to-clear register, else the value written. -/
def deviceAfterWrite (cfg : Config) (r : RegId) (x v : Word) : Word :=
  match r with
  | .event => if cfg.eventW1c then x &&& ~~~v else v
  | .status => if cfg.statusW1c then x &&& ~~~v else v
  | _ => v

/-- `RegWrite(off(r), v)`: one write transaction. -/
def Bus.regWrite (cfg : Config) (r : RegId) (v : Word) (b : Bus) : Bus :=
  { b with
    dev := RegFile.put b.dev r (deviceAfterWrite cfg r (RegFile.at b.dev r) v)
    trace := b.trace ++ [.regWrite (off cfg r) v] }

/-- The shadow of a register takes a value, if the register is cached (R27). -/
def Bus.setShadow (cfg : Config) (r : RegId) (v : Word) (b : Bus) : Bus :=
  if cached cfg r then { b with shadow := RegFile.put b.shadow r (some v) } else b

/-- The valid shadow of a cached register (R27). -/
def Bus.validShadow (cfg : Config) (r : RegId) (b : Bus) : Option Word :=
  if cached cfg r then RegFile.at b.shadow r else none

/-- `base(r)` (R141): the valid shadow, or else a device read that fills the shadow. -/
def Bus.base (cfg : Config) (r : RegId) (b : Bus) : Word × Bus :=
  match b.validShadow cfg r with
  | some x => (x, b)
  | none => ((b.regRead cfg r).1, (b.regRead cfg r).2.setShadow cfg r (b.regRead cfg r).1)

/-- A write transaction and the shadow it leaves (R143, R146). -/
def Bus.store (cfg : Config) (r : RegId) (v : Word) (b : Bus) : Bus := (b.regWrite cfg r v).setShadow cfg r v

/-- A write that is elided when it would not change the base (R142). -/
def Bus.storeIfChanged (cfg : Config) (r : RegId) (x new : Word) (b : Bus) : Bus :=
  if new = x then b else b.store cfg r new

/-- A normal field write (R142, R148). -/
def Bus.fieldWrite (cfg : Config) (f : FieldId) (v : Word) (b : Bus) : Bus :=
  let r := (pos cfg f).reg
  let x := (b.base cfg r).1
  (b.base cfg r).2.storeIfChanged cfg r x (putField (pos cfg f) x v)

/-- A forced field write (R143, R149). -/
def Bus.fieldForce (cfg : Config) (f : FieldId) (v : Word) (b : Bus) : Bus :=
  let r := (pos cfg f).reg
  (b.base cfg r).2.store cfg r (putField (pos cfg f) (b.base cfg r).1 v)

/-! ## Grouped field write (R150) -/

/-- The writes of a group that fall in register `r`, applied to `x` in list order. -/
def groupValue (cfg : Config) (r : RegId) (x : Word) : List (FieldId × Word) → Word
  | [] => x
  | (f, v) :: ws =>
      groupValue cfg r (if (pos cfg f).reg = r then putField (pos cfg f) x v else x) ws

/-- The distinct registers of a group, in order of first appearance; `seen` holds those already taken. -/
def groupRegs (cfg : Config) (seen : List RegId) : List (FieldId × Word) → List RegId
  | [] => []
  | (f, _) :: ws =>
      if (pos cfg f).reg ∈ seen then groupRegs cfg seen ws
      else (pos cfg f).reg :: groupRegs cfg ((pos cfg f).reg :: seen) ws

/-- One register of a grouped write: one base, one write at most. -/
def Bus.groupOne (cfg : Config) (ws : List (FieldId × Word)) (b : Bus) (r : RegId) : Bus :=
  let x := (b.base cfg r).1
  (b.base cfg r).2.storeIfChanged cfg r x (groupValue cfg r x ws)

/-- `GW` (R150). -/
def Bus.groupWrite (cfg : Config) (ws : List (FieldId × Word)) (b : Bus) : Bus :=
  (groupRegs cfg [] ws).foldl (fun b r => b.groupOne cfg ws r) b

/-! ## Reads of flag registers (R145, R360) -/

/-- The settle hazard: a `REG_READ` of EVENT or STATUS before the settle delay, in polling mode or, with
`P_SETTLE_IRQ`, in any mode. -/
def earlyRead (s : State) (r : RegId) : Bool :=
  (s.mode == some .polling || s.cfg.settleIrq) && isFlagReg r && !s.settled

/-- `REG_READ r` (R145): the value and the ports after it, or the hazard's fault. -/
def readReg (s : State) (r : RegId) : Except Fault (Word × Bus) :=
  if earlyRead s r then .error .earlyFlagRead else .ok (s.bus.regRead s.cfg r)

/-- `FIELD_READ f` (R147): a cached register's field reads its valid shadow, else a `REG_READ` that fills it. -/
def readField (s : State) (f : FieldId) : Except Fault (Word × Bus) :=
  let r := (pos s.cfg f).reg
  match s.bus.validShadow s.cfg r with
  | some x => .ok (getField (pos s.cfg f) x, s.bus)
  | none =>
      match readReg s r with
      | .error e => .error e
      | .ok (x, b) => .ok (getField (pos s.cfg f) x, b.setShadow s.cfg r x)

/-! ## Bases of field writes (R141, R360) -/

/-- The settle hazard of a field write: the base of register `r` is a device read of EVENT or STATUS (R141) before the
settle delay, which is an early flag read as any other is (R75, R314, D34; DEDUCED, notes/assumptions/19.md). `b` is the
ports' state at the write. -/
def earlyBase (s : State) (b : Bus) (r : RegId) : Bool := earlyRead s r && (b.validShadow s.cfg r).isNone

/-- Some write of these fields, in any order from the ports `b` on, starts from an early flag read. A write of one
register changes no other register's base, so the ports before the first write decide it for all of them. -/
def earlyWrites (s : State) (b : Bus) (fs : List FieldId) : Bool := fs.any fun f => earlyBase s b (pos s.cfg f).reg

/-- The answer of writes of these fields: the hazard's fault, or the state `t` they leave. -/
def afterWrites (s : State) (b : Bus) (fs : List FieldId) (t : State) : Answer :=
  if earlyWrites s b fs then .fault .earlyFlagRead else .next t

/-! ## Small state operations -/

/-- The micro-program counter advances by 1 (R22). -/
def State.advance (s : State) : State := { s with upc := s.upc + 1 }

/-- The ports of a state change. -/
def State.onBus (f : Bus → Bus) (s : State) : State := { s with bus := f s.bus }

/-- Entries are appended to the log (R45). -/
def State.addLog (es : List LogEntry) (s : State) : State := { s with log := s.log ++ es }

/-- `CLREV` as an operation (R161): every EVENT bit cleared by one write, all latches false, no wait result. -/
def State.clearEvents (s : State) : State :=
  { s with
    bus := s.bus.store s.cfg .event 0xFFFF
    lat := Latches.clear
    wres := none
    snap := none }

/-- `latch_merge(v, log_dups)` (R165). -/
def State.latchMerge (v : Word) (logDups : Bool) (s : State) : State :=
  { s with
    lat := mergedLatches s.cfg v s.lat
    log := s.log ++ mergeLog s.cfg v logDups s.lat }

/-! ## Request objects (R26) -/

/-- A command object of the request. -/
def Request.command (q : Request) : CmdId → Option CommandObj
  | .sbc => q.sbc
  | .cmd => q.cmd
  | .stop => q.stop

/-- The request with a command object replaced. -/
def Request.setCommand (q : Request) (o : CmdId) (c : CommandObj) : Request :=
  match o with
  | .sbc => { q with sbc := some c }
  | .cmd => { q with cmd := some c }
  | .stop => { q with stop := some c }

/-- The request with the data object replaced. -/
def Request.setData (q : Request) (d : DataObj) : Request := { q with data := some d }

/-- An object's error, if the request contains the object. -/
def Request.errorOf (q : Request) : Obj → Option ErrKind
  | .sbc => q.sbc.map CommandObj.error
  | .cmd => q.cmd.map CommandObj.error
  | .stop => q.stop.map CommandObj.error
  | .data => q.data.map DataObj.error

/-- The request contains the object. -/
def Request.has (q : Request) (o : Obj) : Bool := (q.errorOf o).isSome

/-- A command object takes an error, and a diagnostic snapshot if there is one to take. -/
def CommandObj.fail (k : ErrKind) (dg : Option Diag) (c : CommandObj) : CommandObj :=
  { c with error := k, diag := if dg.isSome then dg else c.diag }

/-- The data object takes an error, and a diagnostic snapshot if there is one to take. -/
def DataObj.fail (k : ErrKind) (dg : Option Diag) (d : DataObj) : DataObj :=
  { d with error := k, diag := if dg.isSome then dg else d.diag }

/-- An object of the request takes an error. -/
def Request.fail (q : Request) (k : ErrKind) (dg : Option Diag) : Obj → Request
  | .sbc => { q with sbc := q.sbc.map (CommandObj.fail k dg) }
  | .cmd => { q with cmd := q.cmd.map (CommandObj.fail k dg) }
  | .stop => { q with stop := q.stop.map (CommandObj.fail k dg) }
  | .data => { q with data := q.data.map (DataObj.fail k dg) }

/-! ## Raising an error (R312, R319), and the return (R265, R320) -/

/-- The diagnostic snapshot (R46): shadows and latches, taken with no register transaction. -/
def State.diagnose (s : State) : Diag :=
  { ctrl := s.bus.validShadow s.cfg .ctrl
    blkCnt := s.bus.validShadow s.cfg .blkCnt
    blkSize := s.bus.validShadow s.cfg .blkSize
    cmdRspSize := s.bus.validShadow s.cfg .cmdRspSize
    flags := s.lat }

/-- The kinds that carry a diagnostic snapshot (R46, R312). -/
def ErrKind.diagnosed (k : ErrKind) : Bool := k == .timeout || k == .crcMismatch

/-- `raise K(o)` (R312): the engine's exception entry. The first error of an object is kept; Timeout and CRC errors
take the diagnostic snapshot; a stop command's error is logged. The program counter does not move: the next `JERR`
moves it (R319). -/
def State.raise (k : ErrKind) (o : Obj) (s : State) : State :=
  if s.req.errorOf o = some .noError then
    { s with
      req := s.req.fail k (if k.diagnosed then some s.diagnose else none) o
      log := if o = .stop then s.log ++ [.stopFailed k] else s.log }
  else s

/-- The branch that follows a raise (R265): to the label if the object has an error, else to the next operation. -/
def State.branchOnError (e : ErrKind) (l : Nat) (s : State) : State :=
  if e = .noError then s.advance else { s with upc := l }

/-- What a completion record says of a command object (R268). -/
def CommandObj.toReport (c : CommandObj) : CmdReport := ⟨c.error, c.resp, c.diag⟩

/-- What a completion record says of the data object (R268). -/
def DataObj.toReport (d : DataObj) : DataReport := ⟨d.error, d.bytes, d.diag⟩

/-- The completion record (R268). -/
def Request.completion (q : Request) : Completion :=
  { sbc := q.sbc.map CommandObj.toReport
    cmd := q.cmd.map CommandObj.toReport
    stop := q.stop.map CommandObj.toReport
    data := q.data.map DataObj.toReport }

/-- The end of a request (R267, R320): the record is reported and the engine is free, and no trigger of the program
has a wait to come. -/
def State.complete (s : State) : State :=
  { s with
    bus := s.bus.emit (.report s.req.completion)
    busy := false
    armed := false
    prog := []
    upc := 0 }

end Sys2Proof.Machine
end

