-- ==== Sys2Proof/Machine/Command.lean ====
section
/-! DEFINITION. The Command Unit operations (42_command_unit.md): `CISSUE` (R191), `TRIG` (R193) and `CCAPT`
(R195, R196). -/

namespace Sys2Proof.Machine

open Sys2Proof

/-! ## CISSUE -/

/-- The transfer-control fields `CISSUE` clears (R191). -/
def clearControl : List (FieldId × Word) :=
  [(.rspEn, 0), (.rspLong, 0), (.crcChkEn, 0), (.busyDetEn, 0), (.dtrxEn, 0), (.jobDir, 0), (.admaEn, 0)]

/-- The size fields of a command (R191). -/
def sizeFields (cfg : Config) (c : Command) : List (FieldId × Word) :=
  [(.cmdSize, cfg.cmdSize), (.rspSize, BitVec.ofNat 16 (expectedBytes c.rsp))]

/-- The control fields of a command (R191). -/
def controlFields (c : Command) : List (FieldId × Word) :=
  [(.rspEn, bitValue (c.rsp != .none)), (.rspLong, bitValue (c.rsp == .long)),
   (.crcChkEn, bitValue c.crc), (.busyDetEn, bitValue c.busy)]

/-- The fields `CISSUE` writes (R191). -/
def issueFields : List FieldId :=
  [.rspEn, .rspLong, .crcChkEn, .busyDetEn, .dtrxEn, .jobDir, .admaEn, .cmdSize, .rspSize]

/-- The three whole-register writes of the frame (R191, R107). -/
def Bus.writeFrame (cfg : Config) (c : Command) (b : Bus) : Bus :=
  let w := frameWords cfg.frameMarker c.opcode c.arg
  ((b.store cfg .cmdBuf0 w[0]).store cfg .cmdBuf1 w[1]).store cfg .cmdBuf2 w[2]

/-- The transactions of `CISSUE` after its `CLREV` (R191). -/
def Bus.issue (cfg : Config) (c : Command) (b : Bus) : Bus :=
  ((((b.groupWrite cfg clearControl).writeFrame cfg c).groupWrite cfg (sizeFields cfg c)).groupWrite cfg
    (controlFields c))

/-- The results `CISSUE` sets on the object (R191). -/
def CommandObj.issued (c : CommandObj) : CommandObj := { c with expected := expectedBytes c.input.rsp, resp := noResp }

/-- `CISSUE o` (R191). A record with the reserved response kind is refused (R116, U2). -/
def execCissue (o : CmdId) (s : State) : Answer :=
  match s.req.command o with
  | none => .refused .objectAbsent
  | some c =>
      if c.input.rsp = .reserved then .refused .illFormedRequest
      else
        afterWrites s s.clearEvents.bus issueFields
          ({ s.clearEvents with
            bus := s.clearEvents.bus.issue s.cfg c.input
            req := s.req.setCommand o c.issued } : State).advance

/-! ## TRIG -/

/-- `TRIG` (R193): the forced write of 1 to JOB_START, and the settle delay starts anew. The window that R85 and R369
keep free of register writes begins. That no `CLREV` need precede it (R370) is a DESIGN CHOICE
(notes/assumptions/43.md). -/
def execTrig (s : State) : Answer :=
  afterWrites s s.bus [.jobStart]
    { s with bus := s.bus.fieldForce s.cfg .jobStart 1, settled := false, armed := true, upc := s.upc + 1 }

/-! ## CCAPT -/

/-- Reads of buffer registers one after another. -/
def Bus.readRegs (cfg : Config) : List RegId → Bus → List Word × Bus
  | [], b => ([], b)
  | r :: rs, b =>
      let x := b.regRead cfg r
      let xs := Bus.readRegs cfg rs x.2
      (x.1 :: xs.1, xs.2)

/-- The response read, step 5 of the decision order (R196). With `P_LONG_RSP_READ` = 0 no byte is read, and the echo test
takes 0 for the first one (DESIGN CHOICE, notes/assumptions/38.md). -/
def State.readResponse (o : CmdId) (c : CommandObj) (s : State) : State :=
  if c.expected = 0 then s
  else
    let n := responseBytes s.cfg c.input.rsp
    let x := s.bus.readRegs s.cfg (rspRegs n)
    let b := laneBytes x.1
    let s1 := { s with bus := x.2 }
    if c.input.echo && b.getD 0 0 != c.input.opcode then s1.raise .sequenceError o.toObj
    else { s1 with req := s1.req.setCommand o { c with resp := assemble b n } }

/-- The response-CRC bit of a command without CRC is cleared in STATUS and in the snapshot, and logged (R195 step 2). -/
def State.ignoreCrc (c : CommandObj) (v : Word) (s : State) : State :=
  { s with
    bus := s.bus.store s.cfg .status (fieldMask (pos s.cfg .stCmdRspCrc))
    snap := some (v &&& ~~~(fieldMask (pos s.cfg .stCmdRspCrc)))
    log := s.log ++ [.rspCrcIgnored c.input.opcode] }

/-- Steps 3 to 5 of the decision order (R195), with the status value `v` as step 2 left it. -/
def State.captureRest (o : CmdId) (c : CommandObj) (v : Word) (s : State) : State :=
  if fieldSet s.cfg v .stCardBusy then s
  else
    let u := v &&& ~~~(captMask s.cfg)
    (if u ≠ 0 then s.addLog [.unexpectedStatus u] else s).readResponse o c

/-- `CCAPT` in DOC0's decision order (R195), with the snapshot `v`. -/
def State.capture (o : CmdId) (c : CommandObj) (v : Word) (s : State) : State :=
  if fieldSet s.cfg v .stNoRsp then s.raise .noResponse o.toObj
  else if fieldSet s.cfg v .stCmdRspCrc then
    if c.input.crc then s.raise .crcMismatch o.toObj
    else (s.ignoreCrc c v).captureRest o c (v &&& ~~~(fieldMask (pos s.cfg .stCmdRspCrc)))
  else s.captureRest o c v

/-- `CCAPT o` (R195, R196); without a successful wait it faults. -/
def execCcapt (o : CmdId) (s : State) : Answer :=
  match s.req.command o with
  | none => .refused .objectAbsent
  | some c =>
      match s.wres, s.snap with
      | some .ok, some v => .next (s.capture o c v).advance
      | _, _ => .fault .unmodelled

end Sys2Proof.Machine
end

