-- ==== Sys2Proof/Machine/Completion.lean ====
section
/-! DEFINITION. The Completion Signal operations (41_completion.md): the interrupt handler `IRQ` (R160), `CLREV`
(R161), the wait `AWAIT` in both modes (R162-R168), and `WCHK` (42_command_unit.md R194). -/

namespace Sys2Proof.Machine

open Sys2Proof

/-! ## IRQ and CLREV -/

/-- The handler wakes the waiter when any latch is set, and answers HANDLED (R160). -/
def State.wakeAndHandle (s : State) : State :=
  { s with bus := (if s.lat.any then s.bus.emit .wake else s.bus).emit .handled }

/-- The handler's body after EVENT was read as `v` and the ports left as `b`: the write-back, the merge with
duplicates logged, and the wake (R160). -/
def State.handleEvents (v : Word) (b : Bus) (s : State) : State :=
  (({ s with bus := b.store s.cfg .event v } : State).latchMerge v true).wakeAndHandle

/-- `IRQ` (R160, R169): one atomic step, enabled at any time in interrupt mode. -/
def execIrq (s : State) : Answer :=
  if s.mode = some .interrupt then
    match readReg s .event with
    | .error f => .fault f
    | .ok (v, b) => .next (s.handleEvents v b)
  else .refused .noHandler

/-- `CLREV` (R161). -/
def execClrev (s : State) : Answer := .next s.clearEvents.advance

/-! ## AWAIT -/

/-- The timeout argument of a wait (R162): the data descriptor's, or the command's, or the default. -/
def waitArgument (s : State) : Obj → Option Nat
  | .data => s.req.data.map fun d => d.input.tmo
  | .sbc => s.req.sbc.map fun c => c.input.busyTmo.getD s.cfg.cmdDefaultTimeout
  | .cmd => s.req.cmd.map fun c => c.input.busyTmo.getD s.cfg.cmdDefaultTimeout
  | .stop => s.req.stop.map fun c => c.input.busyTmo.getD s.cfg.cmdDefaultTimeout

/-- The timeout that governs a wait (R162, R164, C6): `P_POLL_TIMEOUT` in polling mode, else the argument. -/
def governingTimeout (s : State) (tobj : Obj) : Option Nat :=
  if s.mode = some .polling then some s.cfg.pollTimeout else waitArgument s tobj

/-- The timeouts of a wait are recorded for diagnostics (R10, R162). -/
def State.noteWait (tobj : Obj) (s : State) : State :=
  { s with waitTmo := governingTimeout s tobj, waitArg := waitArgument s tobj }

/-- The wait has begun its loop (R50). -/
def State.inAwaitLoop (s : State) : Bool :=
  match s.sub with
  | some p => p.op == .await && p.phase == .loop
  | none => false

/-- How many completion tests of the current loop have failed (R50). -/
def State.failedTests (op : SubOp) (s : State) : Nat :=
  match s.sub with
  | some p => if p.op = op ∧ p.phase = .loop then p.count else 0
  | none => 0

/-- The wait starts with the settle step (R163, R164): in polling mode, or with `P_SETTLE_IRQ`, when the delay since
the last trigger has not elapsed and the loop has not begun. -/
def State.mustSettle (s : State) : Bool :=
  (s.mode == some .polling || s.cfg.settleIrq) && !s.settled && !s.inAwaitLoop

/-- The settle step: the delay elapses (R164). -/
def State.settle (s : State) : State :=
  { s with
    bus := s.bus.emit (.delay s.cfg.pollSettle)
    settled := true
    sub := some ⟨.await, .settle, 0⟩ }

/-- The wait ends with `TIMEOUT`, with no status read (R168), and with it the window of R369. -/
def State.awaitTimedOut (s : State) : State :=
  { s with wres := some .timeout, snap := none, sub := none, armed := false, upc := s.upc + 1 }

/-- The wait ends with `OK` and the status value read (R168), and with it the window of R369. -/
def State.awaitDone (v : Word) (b : Bus) (s : State) : State :=
  { s with bus := b, wres := some .ok, snap := some v, sub := none, armed := false, upc := s.upc + 1 }

/-- The wait succeeds: exactly one `REG_READ STATUS` (R168). -/
def finishWait (s : State) : Answer :=
  match readReg s .status with
  | .error f => .fault f
  | .ok (v, b) => .next (s.awaitDone v b)

/-- One draw of `expired` (R166). -/
def Bus.drawExpired (b : Bus) : Bool × Bus :=
  (b.draws.nextExpired,
    { b with draws := { b.draws with expiries := b.draws.expiries.tail, expiryCount := b.draws.expiryCount + 1 } })

/-- The loop goes on: one more failed test (R50). -/
def State.awaitAgain (s : State) : State :=
  { s with sub := some ⟨.await, .loop, s.failedTests .await + 1⟩ }

/-- One pass of the interrupt-mode loop (R163). A blocked wait is no state of its own: each turn of the orchestrator is
another pass, whether or not a wake came (DESIGN CHOICE, notes/assumptions/41.md). -/
def awaitInterrupt (need : WaitSet) (s : State) : Answer :=
  if cond s.lat need then finishWait s
  else
    let d := s.bus.drawExpired
    let s1 := { s with bus := d.2 }
    .next (if d.1 then s1.awaitTimedOut else s1.awaitAgain)

/-- The rest of a polling pass after EVENT was read as `v` (R164). -/
def awaitPolled (need : WaitSet) (v : Word) (s : State) : Answer :=
  let s1 := s.latchMerge v false
  if cond s1.lat need then finishWait s1
  else
    let d := s1.bus.drawExpired
    let s2 := { s1 with bus := d.2 }
    .next (if d.1 then s2.awaitTimedOut else (s2.onBus (Bus.emit (.delay s.cfg.pollInterval))).awaitAgain)

/-- One pass of the polling loop (R164): the condition, else one EVENT read, the condition again, else the expiry. -/
def awaitPolling (need : WaitSet) (s : State) : Answer :=
  if cond s.lat need then finishWait s
  else
    match readReg s .event with
    | .error f => .fault f
    | .ok (v, b) => awaitPolled need v { s with bus := b }

/-- `AWAIT req, tobj` (R162-R164): one step of it. -/
def execAwait (need : WaitSet) (tobj : Obj) (s : State) : Answer :=
  if s.req.has tobj then
    let s1 := s.noteWait tobj
    match s.mode with
    | none => .fault .unmodelled
    | some .interrupt => if s1.mustSettle then .next s1.settle else awaitInterrupt need s1
    | some .polling => if s1.mustSettle then .next s1.settle else awaitPolling need s1
  else .refused .objectAbsent

/-! ## WCHK -/

/-- `WCHK o` (R194). -/
def execWchk (o : Obj) (s : State) : Answer :=
  if s.req.has o then
    .next (if waitFailed s.wres s.lat.err s.snap then s.raise .timeout o else s).advance
  else .refused .objectAbsent

end Sys2Proof.Machine
end

