-- ==== Sys2Proof/Machine/Data.lean ====
section
/-! DEFINITION. The Data Unit operations (43_data_unit.md): `CHKDIR`, `DMAP`, `DPREP`, `DARM`, `BIDLE`, `DSTAT` and
`DUNMAP` (R220-R230). -/

namespace Sys2Proof.Machine

open Sys2Proof

/-! ## CHKDIR and DMAP -/

/-- `CHKDIR` (R220). -/
def execChkdir (s : State) : Answer :=
  match s.req.data with
  | none => .refused .objectAbsent
  | some d => .next (if d.input.dir = .unset then s.raise .invalidRequest .data else s).advance

/-- The direction a buffer is mapped in (R221). -/
def mapDirOf (d : Dir) : MapDir := if d = .read then .fromDevice else .toDevice

/-- `Map(buf, dir)` of the caller's buffer (R12, R221): a handle and lawful segments. -/
def Bus.mapBuffer (cfg : Config) (d : Data) (b : Bus) : (Nat × List Seg) × Bus :=
  let m := b.draws.nextSegs cfg d.bs
  (m, { b with
    draws := { b.draws with segMaps := b.draws.segMaps.tail, count := b.draws.count + 1 }
    trace := b.trace ++ [.mapBuffer d.buf (mapDirOf d.dir) m.1 m.2] })

/-- `DMAP` (R221). -/
def execDmap (s : State) : Answer :=
  match s.req.data with
  | none => .refused .objectAbsent
  | some d =>
      let m := s.bus.mapBuffer s.cfg d.input
      .next { s with
        bus := m.2
        segMap := some m.1.1
        req := s.req.setData { d with segs := m.1.2 }
        upc := s.upc + 1 }

/-! ## DPREP -/

/-- The arena stores of a chain, in index order: entry `i` at `a + P_DESC_BYTES * i` (R225). -/
def Memory.writeChain (o : ByteOrder) (stride : Nat) (m : Memory) (a : Nat) : List Slot → Memory
  | [] => m
  | e :: es => Memory.writeChain o stride (Memory.writeBytes m a (slotBytes o e)) (a + stride) es

/-- The `MemWrite` transactions of a chain (R225). -/
def chainEvents (o : ByteOrder) (stride : Nat) (a : Nat) : List Slot → List Event
  | [] => []
  | e :: es => .memWrite a (slotBytes o e) :: chainEvents o stride (a + stride) es

/-- The stores of a chain and then `Map(arena, TO_DEVICE)` of its `k * P_DESC_BYTES` bytes (R225, R226). -/
def Bus.mapArena (cfg : Config) (a : Nat) (slots : List Slot) (b : Bus) : (Nat × Word32) × Bus :=
  let m := b.draws.nextChain
  (m, { b with
    draws := { b.draws with chainMaps := b.draws.chainMaps.tail, count := b.draws.count + 1 }
    trace := b.trace ++ chainEvents cfg.descOrder cfg.descBytes a slots ++
      [.mapArena a (slots.length * cfg.descBytes) .toDevice m.1 m.2] })

/-- The direct plan of one segment (R224). -/
def directPlan (bs : Nat) (g : Seg) : Plan := .direct g.addr g.len (blocksOf g.len bs)

/-- The chained plan of R225, with the arena at `a`. -/
def State.prepareChain (a : Nat) (d : DataObj) (s : State) : State :=
  let slots := chainSlots d.input.bs d.segs
  let m := s.bus.mapArena s.cfg a slots
  { s with
    bus := m.2
    arena := slots ++ s.arena.drop slots.length
    mem := Memory.writeChain s.cfg.descOrder s.cfg.descBytes s.mem a slots
    arenaMap := some m.1.1
    req := s.req.setData
      { d with plan := some (.chained d.segs.length m.1.2 s.cfg.admaDmaLen s.cfg.admaBlkcnt) } }

/-- `DPREP` (R223-R225): zero segments is tested first, then the capacity (R318). A hand-written program can run it
again while the arena is mapped, which R88 says no engine program does: it then rewrites the arena and takes the new
handle, a DESIGN CHOICE (notes/assumptions/35.md). -/
def execDprep (s : State) : Answer :=
  match s.req.data with
  | none => .refused .objectAbsent
  | some d =>
      if d.segs.length = 0 then .next (s.raise .invalidRequest .data).advance
      else if s.cfg.maxSegs < d.segs.length then .next (s.raise .tooManySegments .data).advance
      else
        match d.segs with
        | [g] => .next { s with
            req := s.req.setData { d with plan := some (directPlan d.input.bs g) }
            upc := s.upc + 1 }
        | _ =>
            match s.arenaBase with
            | some a => .next (s.prepareChain a d).advance
            | none => .fault .unmodelled

/-! ## DARM -/

/-- The DMA address a plan arms (R227). -/
def planAddr : Plan → Word32
  | .direct a _ _ => a
  | .chained _ a _ _ => a

/-- The DMA length a plan arms (R227): the segment's, or `P_ADMA_DMA_LEN`. -/
def planLen (cfg : Config) : Plan → Word32
  | .direct _ l _ => l
  | .chained _ _ _ _ => cfg.admaDmaLen

/-- The block count of a plan (R47). -/
def planBlocks : Plan → Nat
  | .direct _ _ n => n
  | .chained _ _ _ n => n

/-- The plan is chained (R227: ADMA mode). -/
def Plan.isChained : Plan → Bool
  | .direct _ _ _ => false
  | .chained _ _ _ _ => true

/-- The field writes of `DARM`, in DOC0's order (R227). -/
def armFields (cfg : Config) (d : Data) (p : Plan) : List (FieldId × Word) :=
  [(.jobDir, bitValue (d.dir == .write)), (.dtrxEn, 1), (.admaEn, bitValue p.isChained),
   (.blkSize, BitVec.ofNat 16 d.bs),
   (.dmaAddrLo, lo16 (planAddr p)), (.dmaAddrHi, hi16 (planAddr p)),
   (.dmaLenLo, lo16 (planLen cfg p)), (.dmaLenHi, hi16 (planLen cfg p)),
   (.blkCnt, BitVec.ofNat 16 (planBlocks p))]

/-- Normal field writes one after another (R148). -/
def Bus.fieldWrites (cfg : Config) (ws : List (FieldId × Word)) (b : Bus) : Bus :=
  ws.foldl (fun b w => b.fieldWrite cfg w.1 w.2) b

/-- The fields `DARM` writes (R227). -/
def armedFields : List FieldId :=
  [.jobDir, .dtrxEn, .admaEn, .blkSize, .dmaAddrLo, .dmaAddrHi, .dmaLenLo, .dmaLenHi, .blkCnt]

/-- The block size and block count fit their fields (R148, R36). -/
def armFits (cfg : Config) (d : Data) (p : Plan) : Bool :=
  d.bs < 2 ^ (pos cfg .blkSize).width && planBlocks p < 2 ^ (pos cfg .blkCnt).width

/-- `DARM` (R227); without a plan it faults, and a block size or count too wide for its field is refused. -/
def execDarm (s : State) : Answer :=
  match s.req.data with
  | none => .refused .objectAbsent
  | some d =>
      match d.plan with
      | none => .fault .unmodelled
      | some p =>
          if armFits s.cfg d.input p then
            afterWrites s s.clearEvents.bus armedFields
              ({ s.clearEvents with
                bus := s.clearEvents.bus.fieldWrites s.cfg (armFields s.cfg d.input p) } : State).advance
          else .refused .valueTooWide

/-! ## BIDLE -/

/-- The poll expires (R230): logged, and a Timeout on DATA with `P_BIDLE_FATAL`. -/
def State.bidleExpired (s : State) : State :=
  let s1 := s.addLog [.bidleTimeout]
  let s2 := if s.cfg.bidleFatal then s1.raise .timeout .data else s1
  { s2 with sub := none, upc := s2.upc + 1 }

/-- The poll expires in a request with no data object, and `P_BIDLE_FATAL` would raise on it (U11). -/
def State.bidleHasNoTarget (s : State) : Bool := s.cfg.bidleFatal && !s.req.has .data

/-- The poll goes on: one more failed test, and the interval (R230). -/
def State.bidleAgain (s : State) : State :=
  { s with
    bus := s.bus.emit (.delay s.cfg.bidleInterval)
    sub := some ⟨.bidle, .loop, s.failedTests .bidle + 1⟩ }

/-- The bus is idle: the poll ends (R230). -/
def State.bidleDone (s : State) : State := { s with sub := none, upc := s.upc + 1 }

/-- One pass of the poll after BUS_IDLE was read as `x` (R230). -/
def State.bidlePass (x : Word) (s : State) : Answer :=
  if x = 1 then .next s.bidleDone
  else
    let d := s.bus.drawExpired
    let s1 := { s with bus := d.2 }
    if d.1 then (if s1.bidleHasNoTarget then .fault .unmodelled else .next s1.bidleExpired)
    else .next s1.bidleAgain

/-- `BIDLE` (R230): one pass of it. It names no object, and runs whether or not the request has data. -/
def execBidle (s : State) : Answer :=
  match readField s .busIdle with
  | .error f => .fault f
  | .ok (x, b) => State.bidlePass x { s with bus := b, waitTmo := some s.cfg.bidleTimeout }

/-! ## DSTAT and DUNMAP -/

/-- `DSTAT` (R228): either data-CRC bit raises, and the bytes are counted all the same. -/
def execDstat (s : State) : Answer :=
  match s.req.data with
  | none => .refused .objectAbsent
  | some d =>
      match s.snap with
      | none => .fault .unmodelled
      | some v =>
          let s1 := if dataCrc s.cfg v then s.raise .crcMismatch .data else s
          .next { s1 with
            req := { s1.req with data := s1.req.data.map fun e => { e with bytes := sumLens d.segs } }
            upc := s1.upc + 1 }

/-- `Unmap` of a mapping that is held (R229). -/
def Bus.unmap (h : Option Nat) (b : Bus) : Bus :=
  match h with
  | some n => b.emit (.unmap n)
  | none => b

/-- `DUNMAP` (R229): the chain first, then the segments. A hand-written program can run it before its wait has ended,
which R367 says no program does (DESIGN CHOICE, notes/assumptions/43.md). -/
def execDunmap (s : State) : Answer :=
  .next { s with
    bus := (s.bus.unmap s.arenaMap).unmap s.segMap
    arenaMap := none
    segMap := none
    upc := s.upc + 1 }

end Sys2Proof.Machine
end

