-- ==== Sys2Proof/Machine/Init.lean ====
section
/-! DEFINITION. `INIT` (70_reset_and_hazards.md R352, R354). -/

namespace Sys2Proof.Machine

open Sys2Proof

/-- The mode `INIT` selects (R23). -/
def modeOf (irqOk : Bool) : Mode := if irqOk then .interrupt else .polling

/-- The mask `INIT` programs (R354). -/
def maskOf (irqOk : Bool) : Word := if irqOk then 0xF else 0x0

/-- The draw of the arena's base (R352). -/
def Bus.drawBase (cfg : Config) (b : Bus) : Nat × Bus :=
  (b.draws.nextBase cfg,
    { b with draws := { b.draws with bases := b.draws.bases.tail, count := b.draws.count + 1 } })

/-- Every shadow is `INVALID` (R352). -/
def Bus.invalidate (b : Bus) : Bus := { b with shadow := Vector.replicate 69 none }

/-- The ports after `INIT`'s transactions: every shadow invalid, then INT_MASK programmed (R352, R354). -/
def Bus.initMask (cfg : Config) (irqOk : Bool) (b : Bus) : Bus :=
  b.invalidate.fieldWrite cfg .intMask (maskOf irqOk)

/-- `INIT irq_ok` (R352): once per power-on, and only with parameters that pass R32. -/
def execInit (irqOk : Bool) (s : State) : Answer :=
  if s.mode.isSome then .refused .alreadyInitialised
  else if configOk s.cfg then
    let d := (s.bus.initMask s.cfg irqOk).drawBase s.cfg
    .next { s with
      mode := some (modeOf irqOk)
      bus := if irqOk then d.2.emit .registerIrq else d.2
      arenaBase := some d.1
      lat := Latches.clear
      wres := none
      snap := none
      busy := false
      settled := true
      sub := none
      rstErr := .noError
      arenaMap := none
      segMap := none
      inReset := false
      armed := false }
  else .refused .badFieldMap

end Sys2Proof.Machine
end

