-- ==== Sys2Proof/WellFormed.lean ====
section
/-! DEFINITION. When an instruction is well-formed AS SYNTAX: every operand fits the place the encoding gives it, and
a `SUBMIT`'s presence bits agree with the records that follow it (30_encoding.md R103, R104). Whether a well-formed
`SUBMIT` is a well-formed REQUEST (44_orchestrator.md R261) depends on the configuration and is checked by its
meaning. -/

namespace Sys2Proof

/-- A command record fits the packed form of R104: 6 opcode bits, and a duration of one 32-bit operand. -/
def Command.wf (c : Command) : Bool :=
  c.opcode.toNat < 64 && (c.busyTmo.all fun t => t < 2 ^ 32)

/-- A data record fits the model's layout of its side operand (notes/assumptions/2.md). -/
def Data.wf (d : Data) : Bool :=
  d.bs < 2 ^ 32 && d.blocks < 2 ^ 32 && d.buf < 2 ^ 32 && d.tmo < 2 ^ 32

/-- The presence bits announce exactly the records given (R103). -/
def Shape.announces (sh : Shape) (sbc : Option Command) (data : Option Data) (stop : Option Command) : Bool :=
  sh.hasSbc == sbc.isSome && sh.hasData == data.isSome && sh.hasStop == stop.isSome

/-- A register the instruction names is one R30 gives an id. -/
def Instr.regNamed : Instr → Bool
  | .regRead r => r.named
  | .regWrite r _ => r.named
  | .submit _ _ _ _ _ => true
  | .setBusWidth _ => true
  | .setClock _ => true
  | .hwReset => true
  | .irq => true
  | .fieldRead _ => true
  | .fieldWrite _ _ => true
  | .fieldForce _ _ => true
  | .clrev => true
  | .await _ _ => true
  | .wchk _ => true
  | .cissue _ => true
  | .trig => true
  | .ccapt _ => true
  | .chkdir => true
  | .dmap => true
  | .dprep => true
  | .darm => true
  | .bidle => true
  | .dstat => true
  | .dunmap => true
  | .jerr _ _ => true
  | .jmp _ => true
  | .done => true
  | .rstseq => true
  | .init _ => true

/-- An instruction whose every operand fits its place in the encoding. -/
def Instr.wf : Instr → Bool
  | .submit sh cmd sbc data stop =>
      cmd.wf && sbc.all Command.wf && data.all Data.wf && stop.all Command.wf && sh.announces sbc data stop
  | .setClock rate => rate.all fun hz => hz < 2 ^ 32
  | .jerr _ l => l < 2 ^ 16
  | .jmp l => l < 2 ^ 16
  | .setBusWidth _ => true
  | .hwReset => true
  | .irq => true
  | .regRead r => r.named
  | .regWrite r _ => r.named
  | .fieldRead _ => true
  | .fieldWrite _ _ => true
  | .fieldForce _ _ => true
  | .clrev => true
  | .await _ _ => true
  | .wchk _ => true
  | .cissue _ => true
  | .trig => true
  | .ccapt _ => true
  | .chkdir => true
  | .dmap => true
  | .dprep => true
  | .darm => true
  | .bidle => true
  | .dstat => true
  | .dunmap => true
  | .done => true
  | .rstseq => true
  | .init _ => true

end Sys2Proof
end

