-- ==== Sys2Proof/Decode.lean ====
section
/-! DEFINITION. The operation word and its side operands (30_encoding.md R100-R104, R115): the decoder, total on any
list of 16-bit words and rejecting by name, and after it the encoder. Side operands follow the operation word in the
order of R102; each is a run of 16-bit words, the least significant word first (notes/assumptions/2.md). -/

namespace Sys2Proof

/-! ## Register, field and object codes (R30, R102) -/

/-- The register id of R30; for a register R30 gives none, the selector 0xFF, which names no register. -/
def RegId.code : RegId → BitVec 8
  | .event => 0x00 | .intMask => 0x01 | .dmaAddrLo => 0x02 | .dmaAddrHi => 0x03
  | .dmaLenLo => 0x04 | .dmaLenHi => 0x05 | .blkSize => 0x06 | .blkCnt => 0x07
  | .cmdRspSize => 0x08 | .ctrl => 0x09 | .job => 0x0A | .mode => 0x0B
  | .status => 0x0C | .bus => 0x0D | .rst => 0x0E | .rstSts => 0x0F
  | .cmdBuf0 => 0x10 | .cmdBuf1 => 0x11 | .cmdBuf2 => 0x12
  | .rspBuf0 => 0x20 | .rspBuf1 => 0x21 | .rspBuf2 => 0x22 | .rspBuf3 => 0x23
  | .rspBuf4 => 0x24 | .rspBuf5 => 0x25 | .rspBuf6 => 0x26 | .rspBuf7 => 0x27
  | .rspBuf8 => 0xFF | .further _ => 0xFF

/-- The register a register id names, if any. -/
def RegId.ofCode (c : BitVec 8) : Option RegId := RegId.namedAll.find? fun r => r.code == c

/-- The field id of R30. -/
def FieldId.code : FieldId → BitVec 8
  | .evCmdEnd => 0x00 | .evDataEnd => 0x01 | .evBusyEnd => 0x02 | .evErr => 0x03 | .intMask => 0x04
  | .dmaAddrLo => 0x05 | .dmaAddrHi => 0x06 | .dmaLenLo => 0x07 | .dmaLenHi => 0x08
  | .blkSize => 0x09 | .blkCnt => 0x0A | .cmdSize => 0x0B | .rspSize => 0x0C
  | .rspEn => 0x0D | .rspLong => 0x0E | .crcChkEn => 0x0F | .busyDetEn => 0x10
  | .dtrxEn => 0x11 | .jobDir => 0x12 | .admaEn => 0x13 | .jobStart => 0x14 | .busWidth => 0x15
  | .stDatRdCrc => 0x16 | .stDatWrCrc => 0x17 | .stCmdRspCrc => 0x18 | .stNoRsp => 0x19
  | .stCardBusy => 0x1A | .busIdle => 0x1B | .rstN => 0x1C | .rstSts => 0x1D
  | .cmdBuf0 => 0x20 | .cmdBuf1 => 0x21 | .cmdBuf2 => 0x22
  | .rspBuf0 => 0x30 | .rspBuf1 => 0x31 | .rspBuf2 => 0x32 | .rspBuf3 => 0x33
  | .rspBuf4 => 0x34 | .rspBuf5 => 0x35 | .rspBuf6 => 0x36 | .rspBuf7 => 0x37

/-- The field a field id names, if any. -/
def FieldId.ofCode (c : BitVec 8) : Option FieldId := FieldId.all.find? fun f => f.code == c

/-- Object ids (R102): 0 SBC, 1 CMD, 2 STOP, 3 DATA. -/
def Obj.code : Obj → BitVec 2
  | .sbc => 0 | .cmd => 1 | .stop => 2 | .data => 3

def Obj.ofCode : BitVec 2 → Obj
  | 0 => .sbc | 1 => .cmd | 2 => .stop | _ => .data

def CmdId.code (o : CmdId) : BitVec 2 := o.toObj.code

/-- A command object's id; id 3 is `DATA`, which `CISSUE` and `CCAPT` do not take (R115). -/
def CmdId.ofCode : BitVec 2 → Option CmdId
  | 0 => some .sbc | 1 => some .cmd | 2 => some .stop | _ => none

/-- The response kind's code in the packed record (R104). -/
def Rsp.code : Rsp → BitVec 2
  | .none => 0 | .short => 1 | .long => 2 | .reserved => 3

def Rsp.ofCode : BitVec 2 → Rsp
  | 0 => .none | 1 => .short | 2 => .long | _ => .reserved

/-- The direction code of R103. -/
def Dir.code : Dir → BitVec 2
  | .unset => 0 | .read => 1 | .write => 2

/-- The direction a code names; `11` is reserved (R103). -/
def Dir.ofCode : BitVec 2 → Option Dir
  | 0 => some .unset | 1 => some .read | 2 => some .write | _ => none

/-- The selector of `SET_BUS_WIDTH` (R102). -/
def BusWidth.code : BusWidth → BitVec 8
  | .one => 0x01 | .four => 0x04 | .eight => 0x08

def BusWidth.ofCode (c : BitVec 8) : Option BusWidth :=
  if c = 0x01 then some .one else if c = 0x04 then some .four else if c = 0x08 then some .eight else none

/-- The shape bits of `SUBMIT` (R103): HAS_DATA, DIR, HAS_SBC, HAS_STOP from bit 0 up, bits 7:5 zero. -/
def Shape.code (sh : Shape) : BitVec 8 :=
  0#3 ++ BitVec.ofBool sh.hasStop ++ BitVec.ofBool sh.hasSbc ++ sh.dir ++ BitVec.ofBool sh.hasData

def Shape.ofCode (c : BitVec 8) : Shape :=
  ⟨c.getLsbD 0, c.extractLsb' 1 2, c.getLsbD 3, c.getLsbD 4⟩

/-! ## Side operands -/

/-- Why a list of words spells no operation (R115): the decoder's rejections by name. -/
inductive DecodeError where
  /-- There is no operation word. -/
  | noWord
  /-- The class and function bits name no operation (R102). -/
  | unlisted
  /-- A reserved selector bit is set (R102, R103). -/
  | reservedSel
  /-- The selector names no register, field or bus width (R115, R116). -/
  | undefinedId
  /-- `CISSUE` or `CCAPT` names object 3 (R115). -/
  | notCommand
  /-- A side operand's words are missing. -/
  | missingOperand
  /-- A reserved bit or code of a packed record is set (R104, R103). -/
  | reservedRecord
  deriving DecidableEq, Repr

/-- What a reader of words answers: a value and the words after it, or a rejection. -/
abbrev Parsed (α : Type) := Except DecodeError (α × List Word)

/-- One 16-bit operand. -/
def takeWord : List Word → Parsed Word
  | [] => .error .missingOperand
  | w :: ws => .ok (w, ws)

/-- One 32-bit operand, its low word first. -/
def takeWord32 : List Word → Parsed Word32
  | lo :: hi :: ws => .ok (hi ++ lo, ws)
  | _ => .error .missingOperand

/-- A natural carried in one 32-bit operand. -/
def takeNat (ws : List Word) : Parsed Nat :=
  match takeWord32 ws with
  | .ok (v, rest) => .ok (v.toNat, rest)
  | .error e => .error e

/-- A command record in the packed form of R104, with its duration operand when `has_busy_tmo` is set. -/
def takeCommand : List Word → Parsed Command
  | w :: lo :: hi :: ws =>
      if w.extractLsb' 12 4 ≠ 0 then .error .reservedRecord
      else
        let record := fun tmo : Option Nat =>
          { opcode := (w.extractLsb' 0 6).setWidth 8, arg := hi ++ lo, rsp := Rsp.ofCode (w.extractLsb' 6 2),
            busy := w.getLsbD 8, crc := w.getLsbD 9, echo := w.getLsbD 10, busyTmo := tmo : Command }
        if w.getLsbD 11 then
          match takeNat ws with
          | .ok (t, rest) => .ok (record (some t), rest)
          | .error e => .error e
        else .ok (record none, ws)
  | _ => .error .missingOperand

/-- A data record in the model's layout: direction word, then block size, block count, buffer and timeout. -/
def takeData : List Word → Parsed Data
  | w :: bl :: bh :: cl :: ch :: ul :: uh :: tl :: th :: ws =>
      if w.extractLsb' 2 14 ≠ 0 then .error .reservedRecord
      else
        match Dir.ofCode (w.extractLsb' 0 2) with
        | none => .error .reservedRecord
        | some d =>
            .ok ({ dir := d, bs := (bh ++ bl : Word32).toNat, blocks := (ch ++ cl : Word32).toNat,
                   buf := (uh ++ ul : Word32).toNat, tmo := (th ++ tl : Word32).toNat }, ws)
  | _ => .error .missingOperand

/-- A record that is present only when its shape bit is set. -/
def takeIf {α : Type} (present : Bool) (take : List Word → Parsed α) (ws : List Word) : Parsed (Option α) :=
  if present then
    match take ws with
    | .ok (a, rest) => .ok (some a, rest)
    | .error e => .error e
  else .ok (none, ws)

/-! ## The decoder -/

/-- A register operand in the selector. -/
def withReg (sel : BitVec 8) (k : RegId → Parsed Instr) : Parsed Instr :=
  match RegId.ofCode sel with
  | some r => k r
  | none => .error .undefinedId

/-- A field operand in the selector. -/
def withField (sel : BitVec 8) (k : FieldId → Parsed Instr) : Parsed Instr :=
  match FieldId.ofCode sel with
  | some f => k f
  | none => .error .undefinedId

/-- An operation with no selector and no side operand. -/
def bare (sel : BitVec 8) (i : Instr) (ws : List Word) : Parsed Instr :=
  if sel = 0 then .ok (i, ws) else .error .reservedSel

/-- An object operand in `sel[1:0]`, with `sel[7:2] = 0`. -/
def withObj (sel : BitVec 8) (k : Obj → Parsed Instr) : Parsed Instr :=
  if sel.extractLsb' 2 6 = 0 then k (Obj.ofCode (sel.extractLsb' 0 2)) else .error .reservedSel

/-- A command object operand in `sel[1:0]`, with `sel[7:2] = 0`. -/
def withCmd (sel : BitVec 8) (k : CmdId → Parsed Instr) : Parsed Instr :=
  if sel.extractLsb' 2 6 = 0 then
    match CmdId.ofCode (sel.extractLsb' 0 2) with
    | some o => k o
    | none => .error .notCommand
  else .error .reservedSel

/-- The 16-bit value operand. -/
def withValue (ws : List Word) (k : Word → Instr) : Parsed Instr :=
  match takeWord ws with
  | .ok (v, rest) => .ok (k v, rest)
  | .error e => .error e

/-- `SUBMIT`: the records in the order CMD, SBC, DATA, STOP (R260). -/
def decodeSubmit (sel : BitVec 8) (ws : List Word) : Parsed Instr :=
  if sel.extractLsb' 5 3 ≠ 0 then .error .reservedSel
  else
    let sh := Shape.ofCode sel
    match takeCommand ws with
    | .error e => .error e
    | .ok (cmd, ws) =>
      match takeIf sh.hasSbc takeCommand ws with
      | .error e => .error e
      | .ok (sbc, ws) =>
        match takeIf sh.hasData takeData ws with
        | .error e => .error e
        | .ok (data, ws) =>
          match takeIf sh.hasStop takeCommand ws with
          | .error e => .error e
          | .ok (stop, ws) => .ok (.submit sh cmd sbc data stop, ws)

/-- `SET_BUS_WIDTH`: the selector is the width (R102, R116). -/
def decodeBusWidth (sel : BitVec 8) (ws : List Word) : Parsed Instr :=
  match BusWidth.ofCode sel with
  | some w => .ok (.setBusWidth w, ws)
  | none => .error .undefinedId

/-- `SET_CLOCK`: `sel[0]` is OFF; a rate follows when OFF = 0 (R102). -/
def decodeSetClock (sel : BitVec 8) (ws : List Word) : Parsed Instr :=
  if sel.extractLsb' 1 7 ≠ 0 then .error .reservedSel
  else if sel.getLsbD 0 then .ok (.setClock none, ws)
  else
    match takeNat ws with
    | .ok (hz, rest) => .ok (.setClock (some hz), rest)
    | .error e => .error e

/-- `AWAIT`: the required set in `sel[2:0]`, the timeout object in `sel[5:4]` (R102). -/
def decodeAwait (sel : BitVec 8) (ws : List Word) : Parsed Instr :=
  if sel.getLsbD 3 || sel.extractLsb' 6 2 != 0 then .error .reservedSel
  else .ok (.await ⟨sel.getLsbD 0, sel.getLsbD 1, sel.getLsbD 2⟩ (Obj.ofCode (sel.extractLsb' 4 2)), ws)

/-- `INIT`: `sel[0]` is irq_ok (R102). -/
def decodeInit (sel : BitVec 8) (ws : List Word) : Parsed Instr :=
  if sel.extractLsb' 1 7 ≠ 0 then .error .reservedSel else .ok (.init (sel.getLsbD 0), ws)

/-- One operation from its class and function (bits 15:8 of the operation word), its selector and the words after it:
the opcode map of R102. Everything it does not list is rejected (R115). -/
def decodeOp (op sel : BitVec 8) (ws : List Word) : Parsed Instr :=
  match op with
  | 0x10 => decodeSubmit sel ws
  | 0x11 => decodeBusWidth sel ws
  | 0x12 => decodeSetClock sel ws
  | 0x13 => bare sel .hwReset ws
  | 0x20 => bare sel .irq ws
  | 0x80 => withReg sel fun r => .ok (.regRead r, ws)
  | 0x81 => withReg sel fun r => withValue ws (.regWrite r)
  | 0x82 => withField sel fun f => .ok (.fieldRead f, ws)
  | 0x83 => withField sel fun f => withValue ws (.fieldWrite f)
  | 0x84 => withField sel fun f => withValue ws (.fieldForce f)
  | 0x90 => bare sel .clrev ws
  | 0x91 => decodeAwait sel ws
  | 0x92 => withObj sel fun o => .ok (.wchk o, ws)
  | 0xA0 => withCmd sel fun o => .ok (.cissue o, ws)
  | 0xA1 => bare sel .trig ws
  | 0xA2 => withCmd sel fun o => .ok (.ccapt o, ws)
  | 0xB0 => bare sel .chkdir ws
  | 0xB1 => bare sel .dmap ws
  | 0xB2 => bare sel .dprep ws
  | 0xB3 => bare sel .darm ws
  | 0xB4 => bare sel .bidle ws
  | 0xB5 => bare sel .dstat ws
  | 0xB6 => bare sel .dunmap ws
  | 0xC0 => withObj sel fun o => withValue ws fun l => .jerr o l.toNat
  | 0xC1 => if sel = 0 then withValue ws fun l => .jmp l.toNat else .error .reservedSel
  | 0xC2 => bare sel .done ws
  | 0xC3 => bare sel .rstseq ws
  | 0xC4 => decodeInit sel ws
  | _ => .error .unlisted

/-- The decoder: one operation and the words after it, or a rejection by name. Total on any words. -/
def decode : List Word → Parsed Instr
  | [] => .error .noWord
  | w :: ws => decodeOp (w.extractLsb' 8 8) (w.extractLsb' 0 8) ws

/-! ## The encoder -/

/-- The two words of a 32-bit operand, the low word first. -/
def words32 (v : Word32) : List Word := [v.extractLsb' 0 16, v.extractLsb' 16 16]

/-- The words of a natural carried in one 32-bit operand. -/
def wordsNat (n : Nat) : List Word := words32 (BitVec.ofNat 32 n)

/-- The packed form of R104, low word first, and the duration operand when there is one. -/
def Command.words (c : Command) : List Word :=
  (0#4 ++ BitVec.ofBool c.busyTmo.isSome ++ BitVec.ofBool c.echo ++ BitVec.ofBool c.crc ++ BitVec.ofBool c.busy ++
      c.rsp.code ++ c.opcode.extractLsb' 0 6 : BitVec 16) ::
    words32 c.arg ++ (match c.busyTmo with | some t => wordsNat t | none => [])

/-- The model's layout of a data record. -/
def Data.words (d : Data) : List Word :=
  (0#14 ++ d.dir.code : BitVec 16) :: wordsNat d.bs ++ wordsNat d.blocks ++ wordsNat d.buf ++ wordsNat d.tmo

/-- An operation word from its class and function, and its selector (R101). -/
def opWord (op sel : BitVec 8) : Word := op ++ sel

/-- An object selector. -/
def objSel (c : BitVec 2) : BitVec 8 := 0#6 ++ c

/-- A flag selector. -/
def flagSel (b : Bool) : BitVec 8 := 0#7 ++ BitVec.ofBool b

/-- The selector of an `AWAIT`. -/
def awaitSel (need : WaitSet) (tobj : Obj) : BitVec 8 :=
  0#2 ++ tobj.code ++ 0#1 ++ BitVec.ofBool need.busy ++ BitVec.ofBool need.data ++ BitVec.ofBool need.cmd

/-- The words of a well-formed instruction: its operation word, then its side operands. -/
def encode : Instr → List Word
  | .submit sh cmd sbc data stop =>
      opWord 0x10 sh.code :: (cmd.words ++ (sbc.elim [] Command.words ++
        (data.elim [] Data.words ++ stop.elim [] Command.words)))
  | .setBusWidth w => [opWord 0x11 w.code]
  | .setClock none => [opWord 0x12 (flagSel true)]
  | .setClock (some hz) => opWord 0x12 (flagSel false) :: wordsNat hz
  | .hwReset => [opWord 0x13 0]
  | .irq => [opWord 0x20 0]
  | .regRead r => [opWord 0x80 r.code]
  | .regWrite r v => [opWord 0x81 r.code, v]
  | .fieldRead f => [opWord 0x82 f.code]
  | .fieldWrite f v => [opWord 0x83 f.code, v]
  | .fieldForce f v => [opWord 0x84 f.code, v]
  | .clrev => [opWord 0x90 0]
  | .await need tobj => [opWord 0x91 (awaitSel need tobj)]
  | .wchk o => [opWord 0x92 (objSel o.code)]
  | .cissue o => [opWord 0xA0 (objSel o.code)]
  | .trig => [opWord 0xA1 0]
  | .ccapt o => [opWord 0xA2 (objSel o.code)]
  | .chkdir => [opWord 0xB0 0]
  | .dmap => [opWord 0xB1 0]
  | .dprep => [opWord 0xB2 0]
  | .darm => [opWord 0xB3 0]
  | .bidle => [opWord 0xB4 0]
  | .dstat => [opWord 0xB5 0]
  | .dunmap => [opWord 0xB6 0]
  | .jerr o l => [opWord 0xC0 (objSel o.code), BitVec.ofNat 16 l]
  | .jmp l => [opWord 0xC1 0, BitVec.ofNat 16 l]
  | .done => [opWord 0xC2 0]
  | .rstseq => [opWord 0xC3 0]
  | .init irqOk => [opWord 0xC4 (flagSel irqOk)]

/-! ## The opcode table -/

/-- What a row of opcode_table.json lets the selector be beyond its mask. -/
inductive SelRule where
  | any | width | register | field | command
  deriving DecidableEq, Repr

/-- A row of opcode_table.json: its mnemonic, mask, match value and selector constraint. -/
structure OpRow where
  mnemonic : String
  mask     : Word
  value    : Word
  sel      : SelRule
  deriving DecidableEq, Repr

/-- The row of each instruction. -/
def Instr.row : Instr → OpRow
  | .submit _ _ _ _ _ => ⟨"SUBMIT", 0xFFE0, 0x1000, .any⟩
  | .setBusWidth _ => ⟨"SET_BUS_WIDTH", 0xFF00, 0x1100, .width⟩
  | .setClock _ => ⟨"SET_CLOCK", 0xFFFE, 0x1200, .any⟩
  | .hwReset => ⟨"HW_RESET", 0xFFFF, 0x1300, .any⟩
  | .irq => ⟨"IRQ", 0xFFFF, 0x2000, .any⟩
  | .regRead _ => ⟨"REG_READ", 0xFF00, 0x8000, .register⟩
  | .regWrite _ _ => ⟨"REG_WRITE", 0xFF00, 0x8100, .register⟩
  | .fieldRead _ => ⟨"FIELD_READ", 0xFF00, 0x8200, .field⟩
  | .fieldWrite _ _ => ⟨"FIELD_WRITE", 0xFF00, 0x8300, .field⟩
  | .fieldForce _ _ => ⟨"FIELD_FORCE", 0xFF00, 0x8400, .field⟩
  | .clrev => ⟨"CLREV", 0xFFFF, 0x9000, .any⟩
  | .await _ _ => ⟨"AWAIT", 0xFFC8, 0x9100, .any⟩
  | .wchk _ => ⟨"WCHK", 0xFFFC, 0x9200, .any⟩
  | .cissue _ => ⟨"CISSUE", 0xFFFC, 0xA000, .command⟩
  | .trig => ⟨"TRIG", 0xFFFF, 0xA100, .any⟩
  | .ccapt _ => ⟨"CCAPT", 0xFFFC, 0xA200, .command⟩
  | .chkdir => ⟨"CHKDIR", 0xFFFF, 0xB000, .any⟩
  | .dmap => ⟨"DMAP", 0xFFFF, 0xB100, .any⟩
  | .dprep => ⟨"DPREP", 0xFFFF, 0xB200, .any⟩
  | .darm => ⟨"DARM", 0xFFFF, 0xB300, .any⟩
  | .bidle => ⟨"BIDLE", 0xFFFF, 0xB400, .any⟩
  | .dstat => ⟨"DSTAT", 0xFFFF, 0xB500, .any⟩
  | .dunmap => ⟨"DUNMAP", 0xFFFF, 0xB600, .any⟩
  | .jerr _ _ => ⟨"JERR", 0xFFFC, 0xC000, .any⟩
  | .jmp _ => ⟨"JMP", 0xFFFF, 0xC100, .any⟩
  | .done => ⟨"DONE", 0xFFFF, 0xC200, .any⟩
  | .rstseq => ⟨"RSTSEQ", 0xFFFF, 0xC300, .any⟩
  | .init _ => ⟨"INIT", 0xFFFE, 0xC400, .any⟩

/-- The rows of opcode_table.json, in its order. -/
def opcodeTable : List OpRow :=
  [⟨"SUBMIT", 0xFFE0, 0x1000, .any⟩, ⟨"SET_BUS_WIDTH", 0xFF00, 0x1100, .width⟩,
   ⟨"SET_CLOCK", 0xFFFE, 0x1200, .any⟩, ⟨"HW_RESET", 0xFFFF, 0x1300, .any⟩, ⟨"IRQ", 0xFFFF, 0x2000, .any⟩,
   ⟨"REG_READ", 0xFF00, 0x8000, .register⟩, ⟨"REG_WRITE", 0xFF00, 0x8100, .register⟩,
   ⟨"FIELD_READ", 0xFF00, 0x8200, .field⟩, ⟨"FIELD_WRITE", 0xFF00, 0x8300, .field⟩,
   ⟨"FIELD_FORCE", 0xFF00, 0x8400, .field⟩] ++
  [⟨"CLREV", 0xFFFF, 0x9000, .any⟩, ⟨"AWAIT", 0xFFC8, 0x9100, .any⟩, ⟨"WCHK", 0xFFFC, 0x9200, .any⟩,
   ⟨"CISSUE", 0xFFFC, 0xA000, .command⟩, ⟨"TRIG", 0xFFFF, 0xA100, .any⟩,
   ⟨"CCAPT", 0xFFFC, 0xA200, .command⟩, ⟨"CHKDIR", 0xFFFF, 0xB000, .any⟩, ⟨"DMAP", 0xFFFF, 0xB100, .any⟩,
   ⟨"DPREP", 0xFFFF, 0xB200, .any⟩, ⟨"DARM", 0xFFFF, 0xB300, .any⟩] ++
  [⟨"BIDLE", 0xFFFF, 0xB400, .any⟩, ⟨"DSTAT", 0xFFFF, 0xB500, .any⟩, ⟨"DUNMAP", 0xFFFF, 0xB600, .any⟩,
   ⟨"JERR", 0xFFFC, 0xC000, .any⟩, ⟨"JMP", 0xFFFF, 0xC100, .any⟩, ⟨"DONE", 0xFFFF, 0xC200, .any⟩,
   ⟨"RSTSEQ", 0xFFFF, 0xC300, .any⟩, ⟨"INIT", 0xFFFE, 0xC400, .any⟩]

/-- A word has the row's fixed bits. -/
def OpRow.fits (row : OpRow) (w : Word) : Bool := w &&& row.mask == row.value

/-- The selector keeps the row's constraint: the widths of R270, the register and field ids of R30, the object ids of
R190. -/
def SelRule.ok (rule : SelRule) (sel : Nat) : Bool :=
  match rule with
  | .any => true
  | .width => sel == 1 || sel == 4 || sel == 8
  | .register => sel ≤ 0x12 || (0x20 ≤ sel && sel ≤ 0x27)
  | .field => sel ≤ 0x1D || (0x20 ≤ sel && sel ≤ 0x22) || (0x30 ≤ sel && sel ≤ 0x37)
  | .command => sel % 4 != 3

/-- The operation words that R102 lists, by the table: every other word spells no operation (R115). -/
def listedWord (w : Word) : Bool :=
  opcodeTable.any fun row => row.fits w && row.sel.ok (w.extractLsb' 0 8).toNat

/-! ## The host's numbering of an instruction's bits -/

/-- How many words the longest instruction takes: an operation word, three command records of five words and a data
record of nine. -/
def maxWords : Nat := 25

/-- The `k`-th 16-bit word of the number `w`. -/
def nthWord (w k : Nat) : Word := BitVec.ofNat 16 (w / 2 ^ (16 * k))

/-- The words of the longest instruction whose low `nbits` bits are those of `w` and whose other bits are zero. -/
def tableWords (nbits w : Nat) : List Word :=
  (List.range maxWords).map (nthWord (w % 2 ^ nbits))

/-- The instruction the decoder reads from a word numbered as opcode_table.json numbers it. -/
def decodeTableWord (nbits w : Nat) : Option Instr :=
  match decode (tableWords nbits w) with
  | .ok (i, _) => some i
  | .error _ => none

end Sys2Proof
end

