-- ==== Sys2Proof/Machine/Orchestrator.lean ====
section
/-! DEFINITION. The Transfer Orchestrator (44_orchestrator.md): the well-formedness of a request (R261), its expansion
(R263), `SUBMIT` (R260), `SET_BUS_WIDTH` (R270), `SET_CLOCK` (R271), `JERR` (R265), `JMP` (R266), `DONE` (R267), and
the phases of R262. -/

namespace Sys2Proof.Machine

open Sys2Proof

/-! ## Requests (R261) -/

/-- R261 item 1. -/
def commandOk (c : Command) : Bool := c.opcode.toNat < 64 && c.rsp != .reserved

/-- R261 item 5. -/
def dataOk (cfg : Config) (d : Data) : Bool :=
  1 ≤ d.bs && d.bs ≤ 2 ^ cfg.wBlkSize - 1 && d.blocks < 2 ^ cfg.wBlkCnt

/-- The direction code the shape bits must give (R261 item 2). -/
def dirCodeOf (data : Option Data) : BitVec 2 := data.elim 0 fun d => d.dir.code

/-- A request is well-formed (R261). -/
def requestOk (cfg : Config) (sh : Shape) (cmd : Command) (sbc : Option Command) (data : Option Data)
    (stop : Option Command) : Bool :=
  (commandOk cmd && sbc.all commandOk && stop.all commandOk) &&
  (sh.announces sbc data stop && sh.dir == dirCodeOf data) &&
  sh.dir != 3 &&
  (sh.hasData || (!sh.hasSbc && !sh.hasStop)) &&
  data.all (dataOk cfg)

/-- A command object at acceptance: its record, with its results initialised (R48). -/
def CommandObj.fresh (c : Command) : CommandObj :=
  { input := c, expected := 0, resp := noResp, error := .noError, diag := none }

/-- The data object at acceptance (R48). -/
def DataObj.fresh (d : Data) : DataObj :=
  { input := d, segs := [], plan := none, bytes := 0, error := .noError, diag := none }

/-- The objects of a request at acceptance. -/
def Request.fresh (cmd sbc stop : Option Command) (data : Option Data) : Request :=
  { sbc := sbc.map CommandObj.fresh, cmd := cmd.map CommandObj.fresh, stop := stop.map CommandObj.fresh,
    data := data.map DataObj.fresh }

/-! ## Expansion (R263) -/

/-- The pseudo-instruction `cphase OBJ` (R120) placed at index `at_` of a program, with its own `L_skip`. -/
def cphase (o : CmdId) (busy : Bool) (at_ : Nat) : List Instr :=
  [.cissue o, .trig, .await ⟨true, false, busy⟩ o.toObj, .wchk o.toObj, .jerr o.toObj (at_ + 6), .ccapt o]

/-- Program (a): command only. -/
def commandProgram (cmd : Command) : List Instr := cphase .cmd cmd.busy 0 ++ [.done]

/-- How many operations the set-block-count phase takes. -/
def sbcLength (sbc : Option Command) : Nat := if sbc.isSome then 7 else 0

/-- How many operations issue the main command before `dmap`. -/
def issueLength : Dir → Nat
  | .unset => 0
  | .read => 1
  | .write => 7

/-- How many operations capture a read's response. -/
def captureLength : Dir → Nat
  | .unset => 0
  | .read => 2
  | .write => 0

/-- The index of `L_STOP` in program (b). -/
def stopLabel (sbc : Option Command) (d : Dir) : Nat :=
  2 + sbcLength sbc + issueLength d + 8 + captureLength d + 3

/-- The set-block-count phase. -/
def sbcPart (sbc : Option Command) (lStop : Nat) : List Instr :=
  match sbc with
  | some c => cphase .sbc c.busy 2 ++ [.jerr .sbc lStop]
  | none => []

/-- The main command before the data is armed: complete for a write, only configured for a read (R365). -/
def issuePart (cmd : Command) (d : Dir) (at_ lStop : Nat) : List Instr :=
  match d with
  | .unset => []
  | .read => [.cissue .cmd]
  | .write => cphase .cmd cmd.busy at_ ++ [.jerr .cmd lStop]

/-- Mapping, plan, arming, trigger, wait and its classification. -/
def armPart (cmd : Command) (d : Dir) (lStop : Nat) : List Instr :=
  [.dmap, .dprep, .jerr .data lStop, .darm, .trig,
   .await ⟨d == .read, true, d == .read && cmd.busy⟩ .data, .wchk .data, .jerr .data lStop]

/-- The response capture of a read. -/
def capturePart (d : Dir) (lStop : Nat) : List Instr :=
  match d with
  | .unset => []
  | .read => [.ccapt .cmd, .jerr .cmd lStop]
  | .write => []

/-- The stop phase: present when the request has a stop command and no set-block-count command (C2). -/
def stopPart (sbc stop : Option Command) (lStop : Nat) : List Instr :=
  match sbc, stop with
  | none, some c => cphase .stop c.busy lStop
  | _, _ => []

/-- Program (b): command and data. -/
def dataProgram (cmd : Command) (sbc : Option Command) (data : Data) (stop : Option Command) : List Instr :=
  let l := stopLabel sbc data.dir
  [.chkdir, .jerr .data l] ++ sbcPart sbc l ++ issuePart cmd data.dir (2 + sbcLength sbc) l ++
    armPart cmd data.dir l ++ capturePart data.dir l ++ [.bidle, .jerr .data l, .dstat] ++
    stopPart sbc stop l ++ [.dunmap, .done]

/-- `expand(shape, req)` (R263). -/
def expand (cmd : Command) (sbc : Option Command) (data : Option Data) (stop : Option Command) : List Instr :=
  match data with
  | none => commandProgram cmd
  | some d => dataProgram cmd sbc d stop

/-! ## SUBMIT and the configuration calls -/

/-- The state after an accepted request (R260, and the last column of R48). -/
def State.accept (cmd : Command) (sbc : Option Command) (data : Option Data) (stop : Option Command)
    (s : State) : State :=
  { s with
    req := Request.fresh (some cmd) sbc stop data
    prog := expand cmd sbc data stop
    upc := 0
    busy := true
    wres := none
    snap := none
    arenaMap := none
    segMap := none
    sub := none }

/-- `SUBMIT` (R260). -/
def execSubmit (sh : Shape) (cmd : Command) (sbc : Option Command) (data : Option Data) (stop : Option Command)
    (s : State) : Answer :=
  if s.mode = none then .refused .notInitialised
  else if s.busy then .refused .engineBusy
  else if requestOk s.cfg sh cmd sbc data stop then .next (s.accept cmd sbc data stop)
  else .refused .illFormedRequest

/-- `SET_BUS_WIDTH w` (R270). -/
def execSetBusWidth (w : BusWidth) (s : State) : Answer :=
  if s.mode = none then .refused .notInitialised
  else if s.busy then .refused .engineBusy
  else afterWrites s s.bus [.busWidth] { s with bus := s.bus.fieldWrite s.cfg .busWidth (busWidthCode s.cfg w) }

/-- `SET_CLOCK rate | off` (R271): a call of the external clock service, recorded on the host port. -/
def execSetClock (rate : Option Nat) (s : State) : Answer :=
  if s.mode = none then .refused .notInitialised
  else if s.busy then .refused .engineBusy
  else .next { s with bus := s.bus.emit (.clock rate) }

/-! ## Sequencing -/

/-- `JERR o, L` (R265). -/
def execJerr (o : Obj) (l : Nat) (s : State) : Answer :=
  match s.req.errorOf o with
  | none => .refused .objectAbsent
  | some e => .next (s.branchOnError e l)

/-- `JMP L` (R266). -/
def execJmp (l : Nat) (s : State) : Answer := .next { s with upc := l }

/-- `DONE` (R267): with a mapping still held it faults. -/
def execDone (s : State) : Answer :=
  if s.segMap = none ∧ s.arenaMap = none then .next s.complete else .fault .unmodelled

/-! ## Phases (R262) -/

/-- DOC0's named states. -/
inductive Phase where
  | idle | commandOnly | setBlockCount | commandIssued | dataArmed | dataComplete | busyWait | stopIssued | done
  | error
  deriving DecidableEq, Repr

/-- The state of each operation of a request's program, in order; `none` where the table of R262 names no state. -/
def phaseTable (sbc data stop : Bool) (d : Dir) : List (Option Phase) :=
  if data then
    [none, none] ++ (if sbc then List.replicate 7 (some Phase.setBlockCount) else []) ++
    (match d with
      | .unset => []
      | .read => [some Phase.commandIssued]
      | .write => List.replicate 6 (some Phase.commandIssued) ++ [none]) ++
    List.replicate 6 (some Phase.dataArmed) ++ List.replicate 2 (some Phase.dataComplete) ++
    (if d = .read then List.replicate 2 (some Phase.dataComplete) else []) ++
    List.replicate 2 (some Phase.busyWait) ++ [none] ++
    (if stop && !sbc then List.replicate 6 (some Phase.stopIssued) else []) ++
    List.replicate 2 (some Phase.done)
  else List.replicate 6 (some Phase.commandOnly) ++ [some Phase.done]

/-- Some object of the request has an error. -/
def Request.failed (q : Request) : Bool :=
  [Obj.sbc, .cmd, .stop, .data].any fun o => (q.errorOf o).any fun e => e != .noError

/-- The index an error's path leads to: `L_STOP`, or the `done` of a request without data. -/
def Request.errorTarget (q : Request) : Nat :=
  match q.data with
  | none => 6
  | some d => stopLabel (q.sbc.map CommandObj.input) d.input.dir

/-- The phase of the orchestrator (R262), for a program that is the expansion of its request. R262's table names no
state while `HW_RESET` runs in a busy engine with no program; that there is none then is a DESIGN CHOICE
(notes/assumptions/26.md). -/
def State.phase (s : State) : Option Phase :=
  if !s.busy then some .idle
  else if s.inReset then none
  else if s.req.failed && decide (s.upc ≤ s.req.errorTarget) then some .error
  else
    ((phaseTable s.req.sbc.isSome s.req.data.isSome s.req.stop.isSome
      (s.req.data.elim .unset fun d => d.input.dir))[s.upc]?).join

end Sys2Proof.Machine
end

