-- ==== Sys2Proof/Machine/Reset.lean ====
section
/-! DEFINITION. The Reset Sequencer `RSTSEQ` (45_reset_sequencer.md R300-R302) and the upstream call that runs it,
`HW_RESET` (44_orchestrator.md R272). -/

namespace Sys2Proof.Machine

open Sys2Proof

/-- The sequence starts (R300): no reset error, the line forced low, the assert phase with no failed test. -/
def State.resetStart (s : State) : State :=
  { s with
    rstErr := .noError
    bus := s.bus.fieldForce s.cfg .rstN 0
    sub := some ⟨.rstseq, .assertReset, 0⟩ }

/-- The line is forced high, and the release phase starts with no failed test (R300). -/
def State.resetRelease (s : State) : State :=
  { s with
    bus := s.bus.fieldForce s.cfg .rstN 1
    sub := some ⟨.rstseq, .release, 0⟩ }

/-- The sequence ends (R300). Run by `HW_RESET`, the call returns and the engine is free (R272); run as a
micro-operation, the program goes on. -/
def State.resetEnd (s : State) : State :=
  if s.inReset then
    { s with
      sub := none
      busy := false
      inReset := false
      bus := s.bus.emit (.resetReturned s.rstErr) }
  else { s with sub := none, upc := s.upc + 1 }

/-- A failed test (R300, R301): the retry bound ends the sequence with `ResetFailed`, the line left as it is; else the
interval. -/
def State.resetFailedTest (phase : SubPhase) (count : Nat) (s : State) : State :=
  if s.cfg.rstRetries ≤ count + 1 then ({ s with rstErr := .resetFailed } : State).resetEnd
  else
    { s with
      bus := s.bus.emit (.delay s.cfg.rstInterval)
      sub := some ⟨.rstseq, phase, count + 1⟩ }

/-- One pass of the assert phase after RST_STS was read as `x` (R300). -/
def State.assertPass (x : Word) (count : Nat) (s : State) : Answer :=
  if x = onesPattern s.cfg then afterWrites s s.bus [.rstN] s.resetRelease
  else .next (s.resetFailedTest .assertReset count)

/-- One pass of the release phase after RST_STS was read as `x` (R300). -/
def State.releasePass (x : Word) (count : Nat) (s : State) : State :=
  if x = 0 then s.resetEnd else s.resetFailedTest .release count

/-- One step of the sequence (R300): the start, or one pass of the phase it is in. -/
def resetStep (s : State) : Answer :=
  match s.sub with
  | some ⟨.rstseq, .assertReset, n⟩ =>
      match readField s .rstSts with
      | .error f => .fault f
      | .ok (x, b) => State.assertPass x n { s with bus := b }
  | some ⟨.rstseq, .release, n⟩ =>
      match readField s .rstSts with
      | .error f => .fault f
      | .ok (x, b) => .next (State.releasePass x n { s with bus := b })
  | _ => afterWrites s s.bus [.rstN] s.resetStart

/-- `RSTSEQ` (R300). -/
def execRstseq (s : State) : Answer := resetStep s

/-- `HW_RESET` (R272): refused before `INIT` and while busy; else the engine is busy and the sequence starts. -/
def execHwReset (s : State) : Answer :=
  if s.mode = none then .refused .notInitialised
  else if s.busy then .refused .engineBusy
  else afterWrites s s.bus [.rstN] ({ s with busy := true, inReset := true } : State).resetStart

end Sys2Proof.Machine
end

