-- ==== Sys2Proof/Machine/Surface.lean ====
section
/-! DEFINITION. The Control Surface operations (40_control_surface.md R145-R149) as micro-operations. -/

namespace Sys2Proof.Machine

open Sys2Proof

/-- `REG_READ reg` (R145). -/
def execRegRead (r : RegId) (s : State) : Answer :=
  match readReg s r with
  | .error f => .fault f
  | .ok (v, b) => .next { s with bus := b, result := v, upc := s.upc + 1 }

/-- `REG_WRITE reg, v` (R146). -/
def execRegWrite (r : RegId) (v : Word) (s : State) : Answer :=
  .next { s with bus := s.bus.store s.cfg r v, upc := s.upc + 1 }

/-- `FIELD_READ f` (R147). -/
def execFieldRead (f : FieldId) (s : State) : Answer :=
  match readField s f with
  | .error e => .fault e
  | .ok (v, b) => .next { s with bus := b, result := v, upc := s.upc + 1 }

/-- `FIELD_WRITE f, v` (R148); a value that does not fit the field is refused, and an early read of the base faults. -/
def execFieldWrite (f : FieldId) (v : Word) (s : State) : Answer :=
  if fieldFitsValue s.cfg f v then
    afterWrites s s.bus [f] { s with bus := s.bus.fieldWrite s.cfg f v, upc := s.upc + 1 }
  else .refused .valueTooWide

/-- `FIELD_FORCE f, v` (R149); a value that does not fit the field is refused, and an early read of the base faults. -/
def execFieldForce (f : FieldId) (v : Word) (s : State) : Answer :=
  if fieldFitsValue s.cfg f v then
    afterWrites s s.bus [f] { s with bus := s.bus.fieldForce s.cfg f v, upc := s.upc + 1 }
  else .refused .valueTooWide

end Sys2Proof.Machine
end

