-- ==== Sys2Proof/Machine/Dispatch.lean ====
section
/-! DEFINITION. One operation's meaning: one arm per constructor of Instr (30_encoding.md R102). -/

namespace Sys2Proof.Machine

open Sys2Proof

def exec (i : Instr) (s : State) : Host.Outcome State Fault Refusal :=
  match i with
  | .submit shape cmd sbc data stop => Sys2Proof.Machine.execSubmit shape cmd sbc data stop s
  | .setBusWidth w => Sys2Proof.Machine.execSetBusWidth w s
  | .setClock rate => Sys2Proof.Machine.execSetClock rate s
  | .hwReset => Sys2Proof.Machine.execHwReset s
  | .irq => Sys2Proof.Machine.execIrq s
  | .regRead r => Sys2Proof.Machine.execRegRead r s
  | .regWrite r v => Sys2Proof.Machine.execRegWrite r v s
  | .fieldRead f => Sys2Proof.Machine.execFieldRead f s
  | .fieldWrite f v => Sys2Proof.Machine.execFieldWrite f v s
  | .fieldForce f v => Sys2Proof.Machine.execFieldForce f v s
  | .clrev => Sys2Proof.Machine.execClrev s
  | .await need tobj => Sys2Proof.Machine.execAwait need tobj s
  | .wchk o => Sys2Proof.Machine.execWchk o s
  | .cissue o => Sys2Proof.Machine.execCissue o s
  | .trig => Sys2Proof.Machine.execTrig s
  | .ccapt o => Sys2Proof.Machine.execCcapt o s
  | .chkdir => Sys2Proof.Machine.execChkdir s
  | .dmap => Sys2Proof.Machine.execDmap s
  | .dprep => Sys2Proof.Machine.execDprep s
  | .darm => Sys2Proof.Machine.execDarm s
  | .bidle => Sys2Proof.Machine.execBidle s
  | .dstat => Sys2Proof.Machine.execDstat s
  | .dunmap => Sys2Proof.Machine.execDunmap s
  | .jerr o l => Sys2Proof.Machine.execJerr o l s
  | .jmp l => Sys2Proof.Machine.execJmp l s
  | .done => Sys2Proof.Machine.execDone s
  | .rstseq => Sys2Proof.Machine.execRstseq s
  | .init irqOk => Sys2Proof.Machine.execInit irqOk s

end Sys2Proof.Machine
end

