-- ==== Sys2Proof/Machine/Fetch.lean ====
section
/-! DEFINITION. Where the next operation comes from (30_encoding.md R100): the micro-program under `E.upc` (R22), the
upstream port and the interrupt line, the loader of hand-written programs (44_orchestrator.md R274), and how the
host's table word is placed there. -/

namespace Sys2Proof.Machine

open Sys2Proof

/-! ## The orchestrator's next operation -/

/-- The operation the orchestrator executes next: the reset sequence while `HW_RESET` runs it (R272), else the
operation `E.upc` points at (R22). -/
def nextOp (s : State) : Option Instr := if s.inReset then some .rstseq else s.prog[s.upc]?

/-! ## No register write while armed (R85, R369) -/

/-- A step from `s` to `t` writes a register. -/
def wroteRegister (s t : State) : Bool := (t.bus.trace.drop s.bus.trace.length).any isRegWrite

/-- What an operation the orchestrator runs in state `s` comes to: its answer `a`, but between a trigger and the return
of its wait the orchestrator writes no register, and an operation that does is not this engine's (R369; DEDUCED,
notes/assumptions/39.md). -/
def holdWhileArmed (s : State) (a : Answer) : Answer :=
  match a with
  | .next t => if s.armed && wroteRegister s t then .fault .unmodelled else .next t
  | .fault f => .fault f
  | .refused r => .refused r

/-! ## The port -/

/-- The operations an outside agent may present: the upstream operations, `IRQ`, and `INIT` (R100, R351). -/
def atPort : Instr → Bool
  | .submit _ _ _ _ _ => true
  | .setBusWidth _ => true
  | .setClock _ => true
  | .hwReset => true
  | .irq => true
  | .init _ => true
  | .regRead _ => false
  | .regWrite _ _ => false
  | .fieldRead _ => false
  | .fieldWrite _ _ => false
  | .fieldForce _ _ => false
  | .clrev => false
  | .await _ _ => false
  | .wchk _ => false
  | .cissue _ => false
  | .trig => false
  | .ccapt _ => false
  | .chkdir => false
  | .dmap => false
  | .dprep => false
  | .darm => false
  | .bidle => false
  | .dstat => false
  | .dunmap => false
  | .jerr _ _ => false
  | .jmp _ => false
  | .done => false
  | .rstseq => false

/-- The operation is `SUBMIT`. -/
def isSubmit (i : Instr) : Bool := i.row.value == 0x1000

/-- The operation the words at the port spell, or the port's refusal (R115). R100 gives the port the upstream operations
and says nothing of a micro-operation presented there, which is refused (DESIGN CHOICE, notes/assumptions/42.md). Words
after the records a `SUBMIT` announces are a record its shape bits do not announce, which makes the request ill-formed
(R261 item 2, R116); words after any other operation are ignored (notes/assumptions/25.md). -/
def portOp (ws : List Word) : Except Refusal Instr :=
  match decode ws with
  | .ok (i, rest) =>
      if !atPort i then .error .notAtPort
      else if isSubmit i && !rest.isEmpty then .error .illFormedRequest
      else .ok i
  | .error _ => .error .invalidOperation

/-! ## Hand-written programs (R274) -/

/-- The operations of a program given as words, if every entry spells one. -/
def decodeProgram : List (List Word) → Option (List Instr)
  | [] => some []
  | ws :: rest =>
      match decode ws, decodeProgram rest with
      | .ok (i, _), some is => some (i :: is)
      | _, _ => none

/-- The objects an operation names (R274 condition 3). -/
def namedObjects : Instr → List Obj
  | .submit _ _ _ _ _ => []
  | .setBusWidth _ => []
  | .setClock _ => []
  | .hwReset => []
  | .irq => []
  | .regRead _ => []
  | .regWrite _ _ => []
  | .fieldRead _ => []
  | .fieldWrite _ _ => []
  | .fieldForce _ _ => []
  | .clrev => []
  | .await _ o => [o]
  | .wchk o => [o]
  | .cissue o => [o.toObj]
  | .trig => []
  | .ccapt o => [o.toObj]
  | .chkdir => [.data]
  | .dmap => [.data]
  | .dprep => [.data]
  | .darm => [.data]
  | .bidle => []
  | .dstat => [.data]
  | .dunmap => []
  | .jerr o _ => [o]
  | .jmp _ => []
  | .done => []
  | .rstseq => []
  | .init _ => []

/-- The label an operation branches to. -/
def labelOf : Instr → Option Nat
  | .jerr _ l => some l
  | .jmp l => some l
  | .submit _ _ _ _ _ => none
  | .setBusWidth _ => none
  | .setClock _ => none
  | .hwReset => none
  | .irq => none
  | .regRead _ => none
  | .regWrite _ _ => none
  | .fieldRead _ => none
  | .fieldWrite _ _ => none
  | .fieldForce _ _ => none
  | .clrev => none
  | .await _ _ => none
  | .wchk _ => none
  | .cissue _ => none
  | .trig => none
  | .ccapt _ => none
  | .chkdir => none
  | .dmap => none
  | .dprep => none
  | .darm => none
  | .bidle => none
  | .dstat => none
  | .dunmap => none
  | .done => none
  | .rstseq => none
  | .init _ => none

/-- The operations that R274 condition 4 keeps out of a program. -/
def upstreamOnly : Instr → Bool
  | .init _ => false
  | i => atPort i

/-- Condition 1 of R274, for the operations from index `k` on of a program of `n`: every label is a later index. -/
def labelsLater (n : Nat) : Nat → List Instr → Bool
  | _, [] => true
  | k, i :: is => (labelOf i).all (fun l => decide (k < l ∧ l < n)) && labelsLater n (k + 1) is

/-- Conditions 1 to 4 of R274 on a program and the request it runs over. -/
def programOk (q : Request) (prog : List Instr) : Bool :=
  labelsLater prog.length 0 prog && (prog.getLast? == some .done) &&
  prog.all (fun i => (namedObjects i).all q.has) && prog.all (fun i => !upstreamOnly i)

/-- Loading a hand-written program (R274): `E.req`, `E.prog`, `E.upc` and `E.busy` in one step. Its command records are
those a request may have (R116, U2; notes/assumptions/17.md). Its data record may have any block size, 0 too, which
R261 refuses at `SUBMIT` only (DESIGN CHOICE, notes/assumptions/34.md). -/
def loadProgram (l : Load) (s : State) : Answer :=
  if s.mode = none then .refused .notInitialised
  else if s.busy then .refused .engineBusy
  else
    let q := Request.fresh l.cmd l.sbc l.stop l.data
    match decodeProgram l.prog with
    | none => .refused .invalidOperation
    | some prog =>
        if programOk q prog && l.sbc.all commandOk && l.cmd.all commandOk && l.stop.all commandOk then
          .next { s with req := q, prog := prog, upc := 0, busy := true }
        else .refused .badProgram

/-! ## Placing one operation for the next step -/

/-- The records a placed micro-operation runs over where the request has none: a command of zeros, and a read of one
block of one byte. -/
def placedCommand : Command := ⟨0, 0, .none, false, false, false, none⟩
def placedData : Data := ⟨.read, 1, 1, 0, 0⟩

/-- The request with every absent object present. -/
def Request.filled (q : Request) : Request :=
  { sbc := some (q.sbc.getD (CommandObj.fresh placedCommand))
    cmd := some (q.cmd.getD (CommandObj.fresh placedCommand))
    stop := some (q.stop.getD (CommandObj.fresh placedCommand))
    data := some (q.data.getD (DataObj.fresh placedData)) }

/-- The mode a placed operation runs in: an engine that is not initialised accepts `INIT` only (R350), so any other
operation is placed in an engine that is. -/
def placedMode (i : Instr) (m : Option Mode) : Option Mode :=
  match i with
  | .init _ => m
  | _ => some (m.getD .interrupt)

/-- The state in which the very next step runs the operation, whose own words are `ws`: at the port, or loaded as a
one-operation program. -/
def State.place (i : Instr) (ws : List Word) (s : State) : State :=
  if atPort i then { s with mode := placedMode i s.mode, inputs := .port ws :: s.inputs }
  else
    { s with
      mode := placedMode i s.mode
      req := s.req.filled
      prog := [i, .done]
      upc := 0
      busy := true
      inReset := false
      armed := false
      sub := none
      inputs := .orchestrator :: s.inputs }

/-- The state in which the very next step runs the operation the words spell. Words that spell none are put at the
port, which refuses them. -/
def State.placeWords (ws : List Word) (s : State) : State :=
  match decode ws with
  | .ok (i, rest) => s.place i (ws.take (ws.length - rest.length))
  | .error _ => { s with inputs := .port ws :: s.inputs }

end Sys2Proof.Machine
end

