-- ==== Sys2Proof/Machine/Step.lean ====
section
/-! DEFINITION. One step of the machine (20_memory.md R87): the agent whose turn it is moves, one operation or one pass
of a multi-step operation at a time. -/

namespace Sys2Proof.Machine

open Sys2Proof

/-- The orchestrator's move: one operation while a request is in flight, which writes no register while a wait is to
come (R369); an idle engine waits (R22, R26). -/
def orchestrate (s : State) : Answer :=
  if s.busy then
    match nextOp s with
    | some i => holdWhileArmed s (exec i s)
    | none => .fault .unmodelled
  else .next s

/-- An operation presented at the port is decoded and runs (R100). -/
def runPort (ws : List Word) (s : State) : Answer :=
  match portOp ws with
  | .ok i => exec i s
  | .error r => .refused r

/-- One step: the first of the inputs moves; with none, the orchestrator does. -/
def step (s : State) : Host.Outcome State Fault Refusal :=
  match s.inputs with
  | [] => orchestrate s
  | .orchestrator :: rest => orchestrate { s with inputs := rest }
  | .port ws :: rest => runPort ws { s with inputs := rest }
  | .load l :: rest => loadProgram l { s with inputs := rest }

/-- The state in which the next step runs the operation whose bits are `w` (opcode_table.json's numbering). -/
def State.withFetchWord (s : State) (nbits w : Nat) : State := s.placeWords (tableWords nbits w)

end Sys2Proof.Machine
end

