-- ==== Sys2Proof/Safety.lean ====
section
/-! DEFINITION. What counts as a safe run: runs of `step` from power-on, the invariants of the engine's state, each
from a rule of the spec, when a run is free of the settle hazard, and the environment's fairness law
(41_completion.md R166). -/

namespace Sys2Proof

open Machine

/-! ## Runs -/

/-- `n` steps, stopping at the first fault or refusal. -/
def runFor : Nat → State → Answer
  | 0, s => .next s
  | n + 1, s =>
      match step s with
      | .next t => runFor n t
      | .fault f => .fault f
      | .refused r => .refused r

/-- A power-on state (R48, R350), whatever the parameters, the arena's unspecified contents, the device's unspecified
registers, and what the environment will do. That the request slot then holds no object, and with it no error, is the
model's choice (notes/assumptions/11.md). -/
def PowerOn (s : State) : Prop :=
  s.arena.length = s.cfg.maxSegs ∧
  s = { State.reset with
    cfg := s.cfg
    arena := s.arena
    inputs := s.inputs
    bus := { Bus.reset with dev := s.bus.dev, draws := s.bus.draws } }

/-- A state that some run from a power-on state reaches. -/
def Reachable (s : State) : Prop := ∃ (n : Nat) (p : State), PowerOn p ∧ runFor n p = .next s

/-- Weak fairness of the expiry draws (R166 (b)): from every point on, some later draw of expiry is an expiry. The draws
of expiry have a count of their own and every failing pass takes the next one, so a loop that never ends would take an
expiry. An assumption about the environment, for claims that a wait ends. -/
def FairExpiries : Prop := ∀ n, ∃ m, n ≤ m ∧ Config.freeExpired m = true

/-! ## Invariants -/

/-- Memory is in its canonical form, and the arena has its fixed capacity (R28). -/
def MemoryInv (s : State) : Prop := s.mem.wf ∧ s.arena.length = s.cfg.maxSegs

/-- A snapshot is held exactly after a successful wait (R25). -/
def WaitInv (s : State) : Prop := s.wres = some .ok ↔ s.snap.isSome = true

/-- Both mappings are `NONE` outside a transfer (R29), and `HW_RESET` runs only in a busy engine (R272). -/
def MappingInv (s : State) : Prop :=
  (s.inReset = true → s.busy = true) ∧
  (s.busy = false ∨ s.inReset = true → s.arenaMap = none ∧ s.segMap = none)

/-- While a program runs it is one the conditions of R274 allow, and the counter points into it (R22). -/
def ProgramInv (s : State) : Prop :=
  s.busy = true → s.inReset = false → programOk s.req s.prog = true ∧ s.upc < s.prog.length

/-- A volatile register has no shadow (R27). -/
def ShadowInv (s : State) : Prop :=
  ∀ r, cached s.cfg r = false → RegFile.at s.bus.shadow r = none

/-- The errors a command object can hold (R310). -/
def commandError (k : ErrKind) : Bool :=
  match k with
  | .noError => true
  | .timeout => true
  | .noResponse => true
  | .crcMismatch => true
  | .sequenceError => true
  | .invalidRequest => false
  | .tooManySegments => false
  | .resetFailed => false

/-- The errors the data object can hold (R310). -/
def dataError (k : ErrKind) : Bool :=
  match k with
  | .noError => true
  | .timeout => true
  | .crcMismatch => true
  | .invalidRequest => true
  | .tooManySegments => true
  | .noResponse => false
  | .sequenceError => false
  | .resetFailed => false

/-- A diagnostic snapshot is attached exactly to a Timeout or CRC error (R46, R312). -/
def diagOk (k : ErrKind) (dg : Option Diag) : Bool := dg.isSome == k.diagnosed

/-- Every object's error is one R310 lets it hold, with a diagnostic snapshot exactly where R312 takes one, and
`E.rst_err` is `NONE` or `ResetFailed` (R49). -/
def ErrorInv (s : State) : Prop :=
  (∀ o c, s.req.command o = some c → commandError c.error = true ∧ diagOk c.error c.diag = true) ∧
  (∀ d, s.req.data = some d → dataError d.error = true ∧ diagOk d.error d.diag = true) ∧
  (s.rstErr = .noError ∨ s.rstErr = .resetFailed)

/-- A plan is one `DPREP` builds (R47, R224, R225): a direct plan of a lawful segment, or a chain of 2 to `P_MAX_SEGS`
entries with the fixed DMA length and block count. -/
def planOk (cfg : Config) (bs : Nat) : Plan → Prop
  | .direct a l n => lawfulSeg cfg bs ⟨a, l⟩ = true ∧ n = l.toNat / bs
  | .chained k _ l n => 2 ≤ k ∧ k ≤ cfg.maxSegs ∧ l = cfg.admaDmaLen ∧ n = cfg.admaBlkcnt

/-- Mapped segments keep the laws of R221, a plan is one `DPREP` builds, and each object's expected response size is
0, 5 or 16 (R26, R108). -/
def DataInv (s : State) : Prop :=
  (∀ d, s.req.data = some d →
    (∀ g ∈ d.segs, lawfulSeg s.cfg d.input.bs g = true) ∧ (∀ p, d.plan = some p → planOk s.cfg d.input.bs p)) ∧
  (∀ o c, s.req.command o = some c → c.expected = 0 ∨ c.expected = 5 ∨ c.expected = 16)

/-- A wait is to come only while a program runs (R85). -/
def ArmedInv (s : State) : Prop := s.armed = true → s.busy = true ∧ s.inReset = false

/-- All of the engine's invariants. -/
def EngineInv (s : State) : Prop :=
  MemoryInv s ∧ WaitInv s ∧ MappingInv s ∧ ProgramInv s ∧ ShadowInv s ∧ ErrorInv s ∧ DataInv s ∧ ArmedInv s

/-! ## The settle hazard (R360) -/

/-- The operation a multi-step progress record belongs to (R50). -/
def progressOf (p : Progress) : Instr → Bool
  | .await _ _ => p.op == .await
  | .bidle => p.op == .bidle
  | .rstseq => p.op == .rstseq
  | _ => false

/-- The input loads no hand-written program. -/
def notLoad : Input → Bool
  | .orchestrator => true
  | .port _ => true
  | .load _ => false

/-- The next operation is a wait. -/
def AtWait (s : State) : Prop := s.busy = true ∧ ∃ need o, nextOp s = some (.await need o)

/-- A run of the engine's own programs, whatever the field map: no hand-written program is to be loaded, the settle
hazard is not extended to interrupt mode, each trigger of the program is followed by a wait, progress belongs to the
running operation, a wait that has begun its loop has passed its settle step, and except where a wait is next the delay
has elapsed, in polling mode, and no wait is to come. -/
def OwnRun (s : State) : Prop :=
  s.cfg.settleIrq = false ∧ (∀ i ∈ s.inputs, notLoad i = true) ∧
  (∀ k, s.prog[k]? = some .trig → ∃ need o, s.prog[k + 1]? = some (.await need o)) ∧
  (∀ p, s.sub = some p → s.busy = true ∧ ∃ i, nextOp s = some i ∧ progressOf p i = true) ∧
  (s.inAwaitLoop = true → s.mode = some .polling → s.settled = true) ∧
  (s.mode = some .polling → s.settled = false → AtWait s) ∧ (s.armed = true → AtWait s)

/-! ## Words of the statements -/

/-- The value a field write of register `r` starts from, and the transactions that takes (R141): the valid shadow of a
cached register with none, else one read. -/
def BaseOf (cfg : Config) (b : Bus) (r : RegId) (x : Word) (reads : List Event) : Prop :=
  (cached cfg r = true ∧ RegFile.at b.shadow r = some x ∧ reads = []) ∨
  ((cached cfg r = false ∨ RegFile.at b.shadow r = none) ∧ x = b.draws.nextRead ∧
    reads = [.regRead (off cfg r) x])

/-- A field write of register `r` from the ports `b` starts from an early flag read (R141, R360, D34): the settle delay
has not elapsed in polling mode, or in any with `P_SETTLE_IRQ`, and the base of EVENT or STATUS is a device read. -/
def EarlyBase (s : State) (b : Bus) (r : RegId) : Prop :=
  ((s.mode = some .polling ∨ s.cfg.settleIrq = true) ∧ (r = .event ∨ r = .status) ∧ s.settled = false) ∧
  (cached s.cfg r = false ∨ RegFile.at b.shadow r = none)

/-- The draws left after this many register reads. -/
def drawsAfter (n : Nat) (d : Draws) : Draws := { d with reads := d.reads.drop n, count := d.count + n }

/-- The draws left after this many draws of expiry. -/
def afterExpiries (n : Nat) (d : Draws) : Draws :=
  { d with expiries := d.expiries.drop n, expiryCount := d.expiryCount + n }

/-- Every shadow and every device register but those of `rs` is as before. -/
def OnlyRegisters (rs : List RegId) (b b' : Bus) : Prop :=
  ∀ q, q ∉ rs → RegFile.at b'.shadow q = RegFile.at b.shadow q ∧ RegFile.at b'.dev q = RegFile.at b.dev q

/-- A register's shadow is `new` if the register is cached; a volatile register's shadow is as before (R27). -/
def ShadowIs (cfg : Config) (r : RegId) (new : Word) (b b' : Bus) : Prop :=
  (cached cfg r = true → RegFile.at b'.shadow r = some new) ∧
  (cached cfg r = false → RegFile.at b'.shadow r = RegFile.at b.shadow r)

/-- The engine uses the reference layout and its cached registers (R30, R31). -/
def ReferenceLayout (cfg : Config) : Prop :=
  cfg.fieldMap = refMap ∧ ∀ r, cached cfg r = refCached r

/-- A well-formed request, item by item as R261 lists it. -/
def WellFormedRequest (cfg : Config) (sh : Shape) (cmd : Command) (sbc : Option Command) (data : Option Data)
    (stop : Option Command) : Prop :=
  (∀ c, (c = cmd ∨ sbc = some c ∨ stop = some c) → c.opcode.toNat < 64 ∧ c.rsp ≠ .reserved) ∧
  ((sh.hasSbc = true ↔ sbc ≠ none) ∧ (sh.hasStop = true ↔ stop ≠ none) ∧ (sh.hasData = true ↔ data ≠ none) ∧
    (∀ d, data = some d → sh.dir = d.dir.code) ∧ (data = none → sh.dir = 0)) ∧
  sh.dir ≠ 3 ∧
  (sh.hasData = false → sh.hasSbc = false ∧ sh.hasStop = false) ∧
  (∀ d, data = some d → 1 ≤ d.bs ∧ d.bs ≤ 2 ^ cfg.wBlkSize - 1 ∧ d.blocks < 2 ^ cfg.wBlkCnt)

/-- The conditions of R274 on a program and the request it runs over. -/
def LoadableProgram (q : Request) (prog : List Instr) : Prop :=
  (∀ (k : Nat) (i : Instr) (l : Nat), prog[k]? = some i → labelOf i = some l → k < l ∧ l < prog.length) ∧
  prog.getLast? = some .done ∧
  (∀ i ∈ prog, ∀ o ∈ namedObjects i, q.has o = true) ∧
  (∀ i ∈ prog, upstreamOnly i = false)

/-! ## Stops -/

/-- The answer is a next state. -/
def Completes (a : Answer) : Prop := ∃ t, a = .next t

end Sys2Proof
end

