-- ==== Sys2Proof/Certificates/Slice0/Obligations.lean ====
section
/-! DEFINITION. The statements for the provers, each a `def Obligations.<Name> : Prop`. A statement about an
instruction's effect says that `exec` answers a next state, which state that is, and, by a record equation, that every
other part of the state is as before. -/

open Sys2Proof Sys2Proof.Machine

/-! ## Encoding -/

/-- R100 to R104: decoding an encoded well-formed instruction gives it back, with every operand at every value the
encoding admits, and leaves the words after it. -/
def Obligations.DecodeOfEncodeGivesTheInstructionBack : Prop :=
  ∀ (i : Instr) (rest : List Word), i.wf = true → decode (encode i ++ rest) = .ok (i, rest)

/-- Each list of words the decoder accepts is the encoding of exactly one well-formed instruction: no encoding has two
spellings, and no reserved bit is dropped. -/
def Obligations.AcceptedWordsAreAnEncoding : Prop :=
  ∀ (ws rest : List Word) (i : Instr), decode ws = .ok (i, rest) → i.wf = true ∧ ws = encode i ++ rest

/-- R115: a word the opcode table does not list spells no operation whatever follows it, and the port refuses it; each
listed word spells one. -/
def Obligations.OnlyListedWordsDecode : Prop :=
  ∀ w : Word,
    (listedWord w = false → ∀ ws, (∃ e, decode (w :: ws) = .error e) ∧
      ∀ (s : State) (rest : List Input), s.inputs = .port (w :: ws) :: rest → step s = .refused .invalidOperation) ∧
    (listedWord w = true → ∃ ws i, decode (w :: ws) = .ok (i, []) ∧ i.row.fits w = true)

/-- Operation words written out bit by bit from R101 to R104 decode to the operations they stand for. The words after
them (the rate of `SET_CLOCK`, low word first, the label of `JERR` and the command record of `SUBMIT`) are laid out as
the model chooses (notes/assumptions/2.md). -/
def Obligations.WrittenOutWordsDecode : Prop :=
  decode [0b1001_0001_0011_0011] = .ok (.await ⟨true, true, false⟩ .data, []) ∧
  decode [0b1001_0001_0010_0101] = .ok (.await ⟨true, false, true⟩ .stop, []) ∧
  decode [0b1000_0011_0001_0001, 1] = .ok (.fieldWrite .dtrxEn 1, []) ∧
  decode [0b0001_0010_0000_0000, 0x1A80, 0x0006] = .ok (.setClock (some 400000), []) ∧
  decode [0b1100_0000_0000_0011, 16] = .ok (.jerr .data 16, []) ∧
  decode [0b0001_0000_0000_0000, 0b0000_0110_0101_0001, 0, 0] =
    .ok (.submit ⟨false, 0, false, false⟩ ⟨17, 0, .short, false, true, true, none⟩ none none none, [])

/-! ## Steps -/

/-- A step whose turn is the port's runs the operation the words at the port spell, with the port's turn taken (R100).
That an operation that is no upstream operation, `IRQ` or `INIT` is refused there is the model's choice
(notes/assumptions/42.md). -/
def Obligations.StepRunsTheOperationAtThePort : Prop :=
  ∀ (i : Instr) (s : State) (rest : List Input), i.wf = true → s.inputs = .port (encode i) :: rest →
    (atPort i = true → step s = exec i { s with inputs := rest }) ∧
    (atPort i = false → step s = .refused .notAtPort)

/-- A step whose turn is the orchestrator's runs the operation the micro-program counter points at (R22), or, while the
upstream reset runs, the reset sequence (R272). Between a trigger and the return of its wait an operation that would
write a register faults instead (R369; the fault and its name are the model's reading of U11 and R314,
notes/assumptions/39.md). An idle engine waits (the model's choice, notes/assumptions/8.md). -/
def Obligations.StepRunsTheOperationTheCounterPointsAt : Prop :=
  ∀ (s : State) (rest : List Input), (s.inputs = [] ∧ rest = [] ∨ s.inputs = .orchestrator :: rest) →
    (∀ i, s.busy = true → s.inReset = false ∧ s.prog[s.upc]? = some i ∨ s.inReset = true ∧ i = .rstseq →
      (s.armed = false → step s = exec i { s with inputs := rest }) ∧
      (∀ f, exec i { s with inputs := rest } = .fault f → step s = .fault f) ∧
      (∀ r, exec i { s with inputs := rest } = .refused r → step s = .refused r) ∧
      (∀ t es, exec i { s with inputs := rest } = .next t → t.bus.trace = s.bus.trace ++ es →
        ((∀ e ∈ es, isRegWrite e = false) → step s = .next t) ∧
        (s.armed = true → (∃ e ∈ es, isRegWrite e = true) → step s = .fault .unmodelled))) ∧
    (s.busy = false → step s = .next { s with inputs := rest })

/-- The word the host places is the instruction the next step runs: at the port, or as the first operation of a
one-operation program over the request's records. -/
def Obligations.PlacedWordRunsNext : Prop :=
  ∀ (s : State) (nbits w : Nat) (i : Instr), decodeTableWord nbits w = some i →
    (atPort i = true → step (s.withFetchWord nbits w) = exec i { s with mode := placedMode i s.mode }) ∧
    (atPort i = false → step (s.withFetchWord nbits w) =
      exec i { s with
        mode := some (s.mode.getD .interrupt), req := s.req.filled, prog := [i, .done], upc := 0, busy := true,
        inReset := false, armed := false, sub := none })

/-- R274: a hand-written program that keeps the four conditions is loaded in one step into an initialised, idle
engine; any other load is refused. That a record with the reserved response kind or an opcode above 63 is refused
here too is the model's choice (notes/assumptions/17.md). -/
def Obligations.LoadRunsOnlyProgramsThatKeepTheConditions : Prop :=
  ∀ (l : Load) (prog : List Instr) (s : State) (rest : List Input),
    s.inputs = .load l :: rest → l.prog = prog.map encode → (∀ i ∈ prog, i.wf = true) →
    (∀ c, (l.sbc = some c ∨ l.cmd = some c ∨ l.stop = some c) → c.opcode.toNat < 64 ∧ c.rsp ≠ .reserved) →
    (s.mode ≠ none ∧ s.busy = false ∧ LoadableProgram (Request.fresh l.cmd l.sbc l.stop l.data) prog →
      step s = .next { s with
        inputs := rest, req := Request.fresh l.cmd l.sbc l.stop l.data, prog := prog, upc := 0, busy := true }) ∧
    (¬ (s.mode ≠ none ∧ s.busy = false ∧ LoadableProgram (Request.fresh l.cmd l.sbc l.stop l.data) prog) →
      ∃ r, step s = .refused r)

/-! ## Power-on and initialisation -/

/-- R48: the engine's state at power-on, after `INIT`, and at the acceptance of a `SUBMIT`. -/
def Obligations.StateAtPowerOnAfterInitAndAtSubmit : Prop :=
  PowerOn State.reset ∧
  (∀ s, PowerOn s →
    s.mode = none ∧ s.busy = false ∧ s.lat = ⟨false, false, false, false⟩ ∧ s.wres = none ∧ s.snap = none ∧
    (∀ r, RegFile.at s.bus.shadow r = none) ∧ s.arenaBase = none ∧ s.arenaMap = none ∧ s.segMap = none ∧
    s.settled = true ∧ s.log = [] ∧ s.rstErr = .noError ∧ s.sub = none) ∧
  (∀ s irqOk, PowerOn s → configOk s.cfg = true → ∃ t, exec (.init irqOk) s = .next t ∧
    t.mode = some (if irqOk then .interrupt else .polling) ∧ t.busy = false ∧
    t.lat = ⟨false, false, false, false⟩ ∧ t.wres = none ∧ t.snap = none ∧
    (∀ r, r ≠ .intMask → RegFile.at t.bus.shadow r = none) ∧ t.arena = s.arena ∧
    (∃ a, t.arenaBase = some a ∧ a % s.cfg.descBytes = 0) ∧ t.arenaMap = none ∧ t.segMap = none ∧
    t.settled = true ∧ t.log = [] ∧ t.rstErr = .noError ∧ t.sub = none) ∧
  (∀ sh cmd sbc data stop s, s.mode ≠ none → s.busy = false → WellFormedRequest s.cfg sh cmd sbc data stop →
    ∃ t, exec (.submit sh cmd sbc data stop) s = .next t ∧
      t.mode = s.mode ∧ t.busy = true ∧ t.prog = expand cmd sbc data stop ∧ t.upc = 0 ∧ t.lat = s.lat ∧
      t.wres = none ∧ t.snap = none ∧ t.bus.shadow = s.bus.shadow ∧ t.arena = s.arena ∧
      t.arenaBase = s.arenaBase ∧ t.arenaMap = none ∧ t.segMap = none ∧ t.settled = s.settled ∧ t.log = s.log ∧
      t.rstErr = s.rstErr ∧ t.sub = none ∧
      (∀ o c, t.req.command o = some c →
        c.error = .noError ∧ c.resp = #v[0, 0, 0, 0] ∧ c.expected = 0 ∧ c.diag = none) ∧
      (∀ d, t.req.data = some d → d.error = .noError ∧ d.bytes = 0 ∧ d.segs = [] ∧ d.plan = none ∧ d.diag = none))

/-- R350: power-on fixes no device register, and before initialisation `INIT` is the one operation accepted: the
upstream operations refuse, the port refuses everything else, nothing can be loaded, and no program runs. That an
idle engine's orchestrator step answers a next state, waiting, is the model's choice (notes/assumptions/8.md). -/
def Obligations.OnlyInitIsAcceptedBeforeInitialisation : Prop :=
  (∀ s dev, PowerOn s → PowerOn { s with bus := { s.bus with dev := dev } }) ∧
  (∀ s sh cmd sbc data stop, s.mode = none → exec (.submit sh cmd sbc data stop) s = .refused .notInitialised) ∧
  (∀ s w, s.mode = none → exec (.setBusWidth w) s = .refused .notInitialised) ∧
  (∀ s rate, s.mode = none → exec (.setClock rate) s = .refused .notInitialised) ∧
  (∀ s, s.mode = none → exec .hwReset s = .refused .notInitialised) ∧
  (∀ s, s.mode = none → exec .irq s = .refused .noHandler) ∧
  (∀ s ws rest, s.mode = none → s.inputs = .port ws :: rest →
    (∃ r, step s = .refused r) ∨ ∃ b ws', decode ws = .ok (.init b, ws')) ∧
  (∀ s l rest, s.mode = none → s.inputs = .load l :: rest → step s = .refused .notInitialised) ∧
  (∀ s rest, PowerOn s → s.inputs = .orchestrator :: rest → step s = .next { s with inputs := rest }) ∧
  (∀ s irqOk, PowerOn s → configOk s.cfg = true → ∃ t, exec (.init irqOk) s = .next t)

/-- R352, R354: `INIT` sets the mode once, invalidates the shadows, programs INT_MASK with a field write that reads
the register (its shadow is invalid) and writes it only where that changes it, draws an aligned arena base, clears
the latches and the rest, and registers the handler last. A second `INIT` is refused, and so are parameters that fail
R32; the checks `configOk` adds to R32 are the model's choice (notes/assumptions/23.md). -/
def Obligations.InitProgramsTheMaskAndSelectsTheMode : Prop :=
  ∀ (s : State) (irqOk : Bool),
    (s.mode ≠ none → exec (.init irqOk) s = .refused .alreadyInitialised) ∧
    (s.mode = none → configOk s.cfg = false → exec (.init irqOk) s = .refused .badFieldMap) ∧
    (s.mode = none → configOk s.cfg = true →
      ∃ t new, exec (.init irqOk) s = .next t ∧
        new = putField (pos s.cfg .intMask) s.bus.draws.nextRead (if irqOk then 0xF else 0x0) ∧
        t = { s with
          bus := t.bus, arenaBase := t.arenaBase, mode := some (if irqOk then .interrupt else .polling),
          lat := ⟨false, false, false, false⟩, wres := none, snap := none, busy := false, settled := true,
          sub := none, rstErr := .noError, arenaMap := none, segMap := none, inReset := false, armed := false } ∧
        (∃ a, t.arenaBase = some a ∧ a % s.cfg.descBytes = 0) ∧
        t.bus.trace = s.bus.trace ++ [.regRead (off s.cfg .intMask) s.bus.draws.nextRead] ++
          (if new = s.bus.draws.nextRead then [] else [.regWrite (off s.cfg .intMask) new]) ++
          (if irqOk then [.registerIrq] else []) ∧
        (∀ r, r ≠ .intMask → RegFile.at t.bus.shadow r = none ∧ RegFile.at t.bus.dev r = RegFile.at s.bus.dev r) ∧
        (cached s.cfg .intMask = true → RegFile.at t.bus.shadow .intMask = some new) ∧
        RegFile.at t.bus.dev .intMask = new)

/-- R23: the mode is set by `INIT` alone, and only from unset. That no step changes the parameters is the model's
reading of R9, which R23 does not say (notes/assumptions/1.md). -/
def Obligations.ModeIsSetOnceAndParametersAreFixed : Prop :=
  ∀ (s t : State), step s = .next t →
    t.cfg = s.cfg ∧
    (t.mode = s.mode ∨
      s.mode = none ∧ ∃ b, t.mode = some (if b then .interrupt else .polling) ∧
        exec (.init b) { s with inputs := t.inputs } = .next t)

/-! ## Requests -/

/-- R260, R261: `SUBMIT` accepts exactly the well-formed requests of an initialised, idle engine, in one step that
fills the request slot and starts the expansion; every other one is refused, and so is one whose shape bits announce
fewer records than the port presents (R261 item 2, R116). That words after the announced records are taken for more
records is the model's reading (notes/assumptions/25.md). -/
def Obligations.SubmitAcceptsExactlyWellFormedRequests : Prop :=
  ∀ (sh : Shape) (cmd : Command) (sbc : Option Command) (data : Option Data) (stop : Option Command) (s : State),
    (s.mode ≠ none → s.busy = false → WellFormedRequest s.cfg sh cmd sbc data stop →
      exec (.submit sh cmd sbc data stop) s = .next { s with
        req := {
          sbc := sbc.map fun c => ⟨c, 0, #v[0, 0, 0, 0], .noError, none⟩
          cmd := some ⟨cmd, 0, #v[0, 0, 0, 0], .noError, none⟩
          stop := stop.map fun c => ⟨c, 0, #v[0, 0, 0, 0], .noError, none⟩
          data := data.map fun d => ⟨d, [], none, 0, .noError, none⟩ }
        prog := expand cmd sbc data stop
        upc := 0
        busy := true
        wres := none
        snap := none
        arenaMap := none
        segMap := none
        sub := none }) ∧
    (s.mode = none ∨ s.busy = true ∨ ¬ WellFormedRequest s.cfg sh cmd sbc data stop →
      ∃ r, exec (.submit sh cmd sbc data stop) s = .refused r) ∧
    (∀ (w : Word) (ws : List Word) (rest : List Input), (Instr.submit sh cmd sbc data stop).wf = true →
      s.inputs = .port (encode (.submit sh cmd sbc data stop) ++ w :: ws) :: rest →
      step s = .refused .illFormedRequest)

/-- R263: the program of every request shape, operation by operation, with `L_STOP` the index after the data steps
and each `L_skip` the index after its own `ccapt`. -/
def Obligations.ExpansionIsTheProgramOfTheShape : Prop :=
  (∀ cmd sbc stop, expand cmd sbc none stop =
    [.cissue .cmd, .trig, .await ⟨true, false, cmd.busy⟩ .cmd, .wchk .cmd, .jerr .cmd 6, .ccapt .cmd, .done]) ∧
  (∀ cmd sbc d stop, ∃ front : List Instr,
    front =
      [.chkdir, .jerr .data front.length] ++
      (sbc.elim [] fun c =>
        [.cissue .sbc, .trig, .await ⟨true, false, c.busy⟩ .sbc, .wchk .sbc, .jerr .sbc 8, .ccapt .sbc,
         .jerr .sbc front.length]) ++
      (if d.dir = .write then
        [.cissue .cmd, .trig, .await ⟨true, false, cmd.busy⟩ .cmd, .wchk .cmd,
         .jerr .cmd (if sbc = none then 8 else 15), .ccapt .cmd, .jerr .cmd front.length]
      else if d.dir = .read then [.cissue .cmd] else []) ++
      [.dmap, .dprep, .jerr .data front.length, .darm, .trig,
       .await ⟨decide (d.dir = .read), true, decide (d.dir = .read) && cmd.busy⟩ .data, .wchk .data,
       .jerr .data front.length] ++
      (if d.dir = .read then [.ccapt .cmd, .jerr .cmd front.length] else []) ++
      [.bidle, .jerr .data front.length, .dstat] ∧
    expand cmd sbc (some d) stop =
      front ++
      (if sbc = none then
        stop.elim [] fun c =>
          [.cissue .stop, .trig, .await ⟨true, false, c.busy⟩ .stop, .wchk .stop,
           .jerr .stop (front.length + 6), .ccapt .stop]
      else []) ++
      [.dunmap, .done])

/-- R22, R265, R269: every accepted request's program is finite and loop-free: it ends in `DONE`, each label is a
later index, it names only objects the request has, and no upstream operation stands in it. -/
def Obligations.ExpansionIsLoopFreeAndEndsInDone : Prop :=
  ∀ (cfg : Config) (sh : Shape) (cmd : Command) (sbc : Option Command) (data : Option Data) (stop : Option Command),
    WellFormedRequest cfg sh cmd sbc data stop →
      LoadableProgram (Request.fresh (some cmd) sbc stop data) (expand cmd sbc data stop)

/-! ## Configuration calls -/

/-- R270, R113: `SET_BUS_WIDTH` writes the width's code into BUS_WIDTH by a normal field write; it is refused before
`INIT` and while busy. A width other than 1, 4 or 8 spells no operation. That an early read of its base faults, where
BUS_WIDTH stands in a flag register, is the model's reading of D34 (notes/assumptions/19.md). -/
def Obligations.SetBusWidthWritesTheCode : Prop :=
  (∀ (w : BusWidth) (s : State), s.mode ≠ none → s.busy = false →
    EarlyBase s s.bus (pos s.cfg .busWidth).reg → exec (.setBusWidth w) s = .fault .earlyFlagRead) ∧
  (∀ (w : BusWidth) (s : State) (x new : Word) (reads : List Event) (r : RegId), s.mode ≠ none → s.busy = false →
    r = (pos s.cfg .busWidth).reg → ¬ EarlyBase s s.bus r → BaseOf s.cfg s.bus r x reads →
    new = putField (pos s.cfg .busWidth) x
      (match w with | .one => s.cfg.bwCode1 | .four => s.cfg.bwCode4 | .eight => s.cfg.bwCode8) →
    ∃ t, exec (.setBusWidth w) s = .next t ∧ t = { s with bus := t.bus } ∧
      t.bus.trace = s.bus.trace ++ reads ++ (if new = x then [] else [.regWrite (off s.cfg r) new]) ∧
      t.bus.draws = drawsAfter reads.length s.bus.draws ∧
      ShadowIs s.cfg r new s.bus t.bus ∧ OnlyRegisters [r] s.bus t.bus) ∧
  (∀ (w : BusWidth) (s : State), s.mode = none ∨ s.busy = true → ∃ r, exec (.setBusWidth w) s = .refused r) ∧
  (∀ (sel : BitVec 8) (ws : List Word), sel ≠ 1 → sel ≠ 4 → sel ≠ 8 →
    ∃ e, decode (((0x11 : BitVec 8) ++ sel) :: ws) = .error e) ∧
  (refConfig.bwCode1 = 0 ∧ refConfig.bwCode4 = 1 ∧ refConfig.bwCode8 = 2)

/-- R271: `SET_CLOCK` is a call of the external clock service, recorded on the host port, with no register
transaction; it is refused before `INIT` and while busy. That the rate follows as two words, the low word first, is
the model's choice (notes/assumptions/2.md). -/
def Obligations.SetClockOnlyCallsTheClockService : Prop :=
  (∀ (rate : Option Nat) (s : State), s.mode ≠ none → s.busy = false →
    exec (.setClock rate) s = .next { s with bus := { s.bus with trace := s.bus.trace ++ [.clock rate] } }) ∧
  (∀ (rate : Option Nat) (s : State), s.mode = none ∨ s.busy = true → ∃ r, exec (.setClock rate) s = .refused r) ∧
  (∀ hz, encode (.setClock (some hz)) =
    [0x1200, (BitVec.ofNat 32 hz).extractLsb' 0 16, (BitVec.ofNat 32 hz).extractLsb' 16 16]) ∧
  encode (.setClock none) = [0x1201]

/-! ## The Control Surface -/

/-- R145: `REG_READ` is one read whose value is a device draw; it touches no shadow. A read of EVENT or STATUS before
the settle delay, in polling mode or with `P_SETTLE_IRQ`, faults with no transaction. -/
def Obligations.RegReadReturnsTheDrawOrFaultsEarly : Prop :=
  ∀ (r : RegId) (s : State),
    ((s.mode = some .polling ∨ s.cfg.settleIrq = true) ∧ (r = .event ∨ r = .status) ∧ s.settled = false →
      exec (.regRead r) s = .fault .earlyFlagRead) ∧
    (¬ ((s.mode = some .polling ∨ s.cfg.settleIrq = true) ∧ (r = .event ∨ r = .status) ∧ s.settled = false) →
      ∃ t, exec (.regRead r) s = .next t ∧
        t = { s with bus := t.bus, result := s.bus.draws.nextRead, upc := s.upc + 1 } ∧
        t.bus.trace = s.bus.trace ++ [.regRead (off s.cfg r) s.bus.draws.nextRead] ∧
        t.bus.shadow = s.bus.shadow ∧ t.bus.draws = drawsAfter 1 s.bus.draws ∧
        RegFile.at t.bus.dev r = s.bus.draws.nextRead ∧
        ∀ q, q ≠ r → RegFile.at t.bus.dev q = RegFile.at s.bus.dev q)

/-- R146: `REG_WRITE` always writes, and leaves a cached register's shadow at the value; in EVENT or STATUS with
write-1-to-clear it clears the bits written as 1. This is the operation's own effect; what the orchestrator makes of
one that writes a register while a wait is to come (R369) is said of its step. -/
def Obligations.RegWriteAlwaysWrites : Prop :=
  ∀ (r : RegId) (v : Word) (s : State),
    ∃ t, exec (.regWrite r v) s = .next t ∧ t = { s with bus := t.bus, upc := s.upc + 1 } ∧
      t.bus.trace = s.bus.trace ++ [.regWrite (off s.cfg r) v] ∧ t.bus.draws = s.bus.draws ∧
      ShadowIs s.cfg r v s.bus t.bus ∧ OnlyRegisters [r] s.bus t.bus ∧
      (r = .event ∧ s.cfg.eventW1c = true ∨ r = .status ∧ s.cfg.statusW1c = true →
        RegFile.at t.bus.dev r = RegFile.at s.bus.dev r &&& ~~~v) ∧
      (r ≠ .event → r ≠ .status → RegFile.at t.bus.dev r = v)

/-- R147: `FIELD_READ` of a cached register with a valid shadow reads the shadow with no transaction; any other reads
the register, with its hazard, and fills a cached register's shadow. -/
def Obligations.FieldReadUsesTheShadowOrReads : Prop :=
  ∀ (f : FieldId) (s : State),
    (∀ x, cached s.cfg (pos s.cfg f).reg = true → RegFile.at s.bus.shadow (pos s.cfg f).reg = some x →
      exec (.fieldRead f) s = .next { s with result := getField (pos s.cfg f) x, upc := s.upc + 1 }) ∧
    (∀ r, r = (pos s.cfg f).reg → cached s.cfg r = false ∨ RegFile.at s.bus.shadow r = none →
      ((s.mode = some .polling ∨ s.cfg.settleIrq = true) ∧ (r = .event ∨ r = .status) ∧ s.settled = false →
        exec (.fieldRead f) s = .fault .earlyFlagRead) ∧
      (¬ ((s.mode = some .polling ∨ s.cfg.settleIrq = true) ∧ (r = .event ∨ r = .status) ∧ s.settled = false) →
        ∃ t, exec (.fieldRead f) s = .next t ∧
          t = { s with
            bus := t.bus, result := getField (pos s.cfg f) s.bus.draws.nextRead, upc := s.upc + 1 } ∧
          t.bus.trace = s.bus.trace ++ [.regRead (off s.cfg r) s.bus.draws.nextRead] ∧
          t.bus.draws = drawsAfter 1 s.bus.draws ∧
          ShadowIs s.cfg r s.bus.draws.nextRead s.bus t.bus ∧ OnlyRegisters [r] s.bus t.bus))

/-- R148, R141, R142: `FIELD_WRITE` computes the register's new value from the base and writes it only where it
differs; a cached register's shadow holds the new value either way, and no other register is touched. A value that does
not fit the field is refused. That an early read of the base from EVENT or STATUS faults is the model's reading of D34
and R314 (notes/assumptions/19.md). -/
def Obligations.FieldWriteElidesAWriteThatChangesNothing : Prop :=
  ∀ (f : FieldId) (v : Word) (s : State) (r : RegId) (x new : Word) (reads : List Event),
    r = (pos s.cfg f).reg → BaseOf s.cfg s.bus r x reads → new = putField (pos s.cfg f) x v →
    (v.toNat < 2 ^ (pos s.cfg f).width → EarlyBase s s.bus r → exec (.fieldWrite f v) s = .fault .earlyFlagRead) ∧
    (v.toNat < 2 ^ (pos s.cfg f).width → ¬ EarlyBase s s.bus r →
      ∃ t, exec (.fieldWrite f v) s = .next t ∧ t = { s with bus := t.bus, upc := s.upc + 1 } ∧
        t.bus.trace = s.bus.trace ++ reads ++ (if new = x then [] else [.regWrite (off s.cfg r) new]) ∧
        t.bus.draws = drawsAfter reads.length s.bus.draws ∧
        ShadowIs s.cfg r new s.bus t.bus ∧ OnlyRegisters [r] s.bus t.bus) ∧
    (2 ^ (pos s.cfg f).width ≤ v.toNat → exec (.fieldWrite f v) s = .refused .valueTooWide)

/-- R149, R143: `FIELD_FORCE` always writes the register's new value, computed from the base. A value that does not fit
the field is refused. That an early read of the base from EVENT or STATUS faults is the model's reading of D34 and R314
(notes/assumptions/19.md). -/
def Obligations.FieldForceAlwaysWrites : Prop :=
  ∀ (f : FieldId) (v : Word) (s : State) (r : RegId) (x new : Word) (reads : List Event),
    r = (pos s.cfg f).reg → BaseOf s.cfg s.bus r x reads → new = putField (pos s.cfg f) x v →
    (v.toNat < 2 ^ (pos s.cfg f).width → EarlyBase s s.bus r → exec (.fieldForce f v) s = .fault .earlyFlagRead) ∧
    (v.toNat < 2 ^ (pos s.cfg f).width → ¬ EarlyBase s s.bus r →
      ∃ t, exec (.fieldForce f v) s = .next t ∧ t = { s with bus := t.bus, upc := s.upc + 1 } ∧
        t.bus.trace = s.bus.trace ++ reads ++ [.regWrite (off s.cfg r) new] ∧
        t.bus.draws = drawsAfter reads.length s.bus.draws ∧
        ShadowIs s.cfg r new s.bus t.bus ∧ OnlyRegisters [r] s.bus t.bus) ∧
    (2 ^ (pos s.cfg f).width ≤ v.toNat → exec (.fieldForce f v) s = .refused .valueTooWide)

/-- R114, bit by bit: writing a value that fits puts its bits in the field's place and keeps every other bit of the
base; reading gives the field's bits, low, and zeros above. -/
def Obligations.FieldValueAssembly : Prop :=
  ∀ (p : FieldPos) (x v : Word) (i : Nat), fieldFits p = true → i < 16 →
    (v.toNat < 2 ^ p.width →
      (putField p x v).getLsbD i = if p.lo ≤ i ∧ i < p.lo + p.width then v.getLsbD (i - p.lo) else x.getLsbD i) ∧
    (getField p x).getLsbD i = (decide (i < p.width) && x.getLsbD (p.lo + i))

/-- After a completed field write, forced or not, of a cached register under well-formed parameters (R32, R114), the
shadow's field reads as the value written, and every other field reads as the base did. -/
def Obligations.FieldWritesReadBackAndKeepSiblings : Prop :=
  ∀ (f : FieldId) (v : Word) (s t : State) (x : Word) (reads : List Event),
    configOk s.cfg = true → cached s.cfg (pos s.cfg f).reg = true →
    BaseOf s.cfg s.bus (pos s.cfg f).reg x reads →
    exec (.fieldWrite f v) s = .next t ∨ exec (.fieldForce f v) s = .next t →
    ∃ y, RegFile.at t.bus.shadow (pos s.cfg f).reg = some y ∧ getField (pos s.cfg f) y = v ∧
      ∀ g, g ≠ f → (pos s.cfg g).reg = (pos s.cfg f).reg → getField (pos s.cfg g) y = getField (pos s.cfg g) x

/-- R150: a grouped write does one read-modify-write for the register of its first field, with every field of that
register in list order and one write only where the value changes, and then the rest of the group. -/
def Obligations.GroupedWriteTouchesEachRegisterOnce : Prop :=
  ∀ (cfg : Config) (f : FieldId) (v : Word) (ws : List (FieldId × Word)) (b : Bus) (x new : Word)
    (reads : List Event) (r : RegId),
    r = (pos cfg f).reg → BaseOf cfg b r x reads →
    new = (((f, v) :: ws).filter fun w => (pos cfg w.1).reg == r).foldl
      (fun y w => putField (pos cfg w.1) y w.2) x →
    b.groupWrite cfg [] = b ∧
    ∃ b1, b.groupWrite cfg ((f, v) :: ws) = b1.groupWrite cfg (ws.filter fun w => (pos cfg w.1).reg != r) ∧
      b1.trace = b.trace ++ reads ++ (if new = x then [] else [.regWrite (off cfg r) new]) ∧
      b1.draws = drawsAfter reads.length b.draws ∧
      ShadowIs cfg r new b b1 ∧ OnlyRegisters [r] b b1

/-! ## The Completion Signal -/

/-- R160, R165, R169: in interrupt mode `IRQ` reads EVENT, writes the value back, ORs its four bits into the latches,
logs duplicates and unknown bits, wakes the waiter when a latch is set, and answers HANDLED; it changes nothing else.
With `P_SETTLE_IRQ` an early one faults. Without a handler it has no step. -/
def Obligations.IrqLatchesAndClearsWhatItRead : Prop :=
  ∀ (s : State) (v u : Word), v = s.bus.draws.nextRead →
    u = v &&& ~~~(fieldMask (pos s.cfg .evCmdEnd) ||| fieldMask (pos s.cfg .evDataEnd) |||
      fieldMask (pos s.cfg .evBusyEnd) ||| fieldMask (pos s.cfg .evErr)) →
    (s.mode ≠ some .interrupt → exec .irq s = .refused .noHandler) ∧
    (s.mode = some .interrupt → s.cfg.settleIrq = true → s.settled = false →
      exec .irq s = .fault .earlyFlagRead) ∧
    (s.mode = some .interrupt → s.cfg.settleIrq = false ∨ s.settled = true →
      ∃ t, exec .irq s = .next t ∧ t = { s with bus := t.bus, lat := t.lat, log := t.log } ∧
        t.lat = ⟨s.lat.cmd || getField (pos s.cfg .evCmdEnd) v == 1,
          s.lat.data || getField (pos s.cfg .evDataEnd) v == 1,
          s.lat.busy || getField (pos s.cfg .evBusyEnd) v == 1,
          s.lat.err || getField (pos s.cfg .evErr) v == 1⟩ ∧
        t.log = s.log ++
          ([(FieldId.evCmdEnd, s.lat.cmd), (.evDataEnd, s.lat.data), (.evBusyEnd, s.lat.busy),
            (.evErr, s.lat.err)].filterMap fun w =>
              if getField (pos s.cfg w.1) v == 1 && w.2 then some (.spuriousDup w.1) else none) ++
          (if u = 0 then [] else [.unknownEvent u]) ∧
        t.bus.trace = s.bus.trace ++ [.regRead (off s.cfg .event) v, .regWrite (off s.cfg .event) v] ++
          (if t.lat.cmd || t.lat.data || t.lat.busy || t.lat.err then [.wake] else []) ++ [.handled] ∧
        ShadowIs s.cfg .event v s.bus t.bus ∧ OnlyRegisters [.event] s.bus t.bus)

/-- R161: `CLREV` clears every event bit by one write, all four latches, and the wait's result; running it twice leaves
the engine as running it once does, but for the second write. -/
def Obligations.ClrevClearsEventsAndLatches : Prop :=
  ∀ (s : State),
    ∃ t, exec .clrev s = .next t ∧
      t = { s with bus := t.bus, lat := ⟨false, false, false, false⟩, wres := none, snap := none, upc := s.upc + 1 } ∧
      t.bus.trace = s.bus.trace ++ [.regWrite (off s.cfg .event) 0xFFFF] ∧ t.bus.draws = s.bus.draws ∧
      (s.cfg.eventW1c = true → RegFile.at t.bus.dev .event = 0) ∧
      ShadowIs s.cfg .event 0xFFFF s.bus t.bus ∧ OnlyRegisters [.event] s.bus t.bus ∧
      ∃ u, exec .clrev t = .next u ∧ u.bus.shadow = t.bus.shadow ∧ u.bus.dev = t.bus.dev ∧
        u = { t with bus := u.bus, upc := t.upc + 1 }

/-- R167, R168: where the completion condition holds and no settle is due, `AWAIT` succeeds in its first pass in
either mode: one read of STATUS, no read of EVENT, no expiry drawn, and the value is the final status. -/
def Obligations.AwaitReturnsAtOnceWhenItsConditionHolds : Prop :=
  ∀ (need : WaitSet) (tobj : Obj) (s : State), s.req.has tobj = true → s.mode ≠ none →
    (s.settled = true ∨ s.mode = some .interrupt ∧ s.cfg.settleIrq = false) →
    (s.lat.err = true ∨ (need.cmd = true → s.lat.cmd = true) ∧ (need.data = true → s.lat.data = true) ∧
      (need.busy = true → s.lat.busy = true)) →
    ∃ t, exec (.await need tobj) s = .next t ∧
      t = { s with
        bus := t.bus, wres := some .ok, snap := some s.bus.draws.nextRead, sub := none, armed := false,
        upc := s.upc + 1, waitTmo := t.waitTmo, waitArg := t.waitArg } ∧
      t.bus.trace = s.bus.trace ++ [.regRead (off s.cfg .status) s.bus.draws.nextRead] ∧
      t.bus.draws = drawsAfter 1 s.bus.draws ∧ t.bus.shadow = s.bus.shadow

/-- R163: one step of `AWAIT` in interrupt mode. With `P_SETTLE_IRQ` and the delay not elapsed the wait starts with the
settle step. While the condition fails, one draw of expiry decides between `TIMEOUT`, with no status read, and another
pass; where it holds, STATUS is read once and the wait succeeds. That the settle step is a step of its own that leaves
`{AWAIT, SETTLE, 0}`, and the count a failed pass leaves, are the model's reading of R50 and R87
(notes/assumptions/16.md). So is that a blocked wait is no state, and every step is another pass, whether or not a wake
came (notes/assumptions/41.md). -/
def Obligations.AwaitInInterruptModeWaitsForALatch : Prop :=
  ∀ (need : WaitSet) (tobj : Obj) (s : State), s.req.has tobj = true → s.mode = some .interrupt →
    (s.cfg.settleIrq = true → s.settled = false → s.inAwaitLoop = false →
      ∃ t, exec (.await need tobj) s = .next t ∧
        t = { s with
          bus := { s.bus with trace := s.bus.trace ++ [.delay s.cfg.pollSettle] }, settled := true,
          sub := some ⟨.await, .settle, 0⟩, waitTmo := t.waitTmo, waitArg := t.waitArg }) ∧
    (s.cfg.settleIrq = false ∨ s.settled = true → cond s.lat need = true →
      ∃ t, exec (.await need tobj) s = .next t ∧
        t = { s with
          bus := t.bus, wres := some .ok, snap := some s.bus.draws.nextRead, sub := none, armed := false,
          upc := s.upc + 1, waitTmo := t.waitTmo, waitArg := t.waitArg } ∧
        t.bus.trace = s.bus.trace ++ [.regRead (off s.cfg .status) s.bus.draws.nextRead] ∧
        t.bus.shadow = s.bus.shadow) ∧
    (s.cfg.settleIrq = false ∨ s.settled = true → cond s.lat need = false →
      ∃ t, exec (.await need tobj) s = .next t ∧
        t.bus = { s.bus with draws := { s.bus.draws with
          expiries := s.bus.draws.expiries.tail, expiryCount := s.bus.draws.expiryCount + 1 } } ∧
        (s.bus.draws.nextExpired = true →
          t = { s with
            bus := t.bus, wres := some .timeout, snap := none, sub := none, armed := false, upc := s.upc + 1,
            waitTmo := t.waitTmo, waitArg := t.waitArg }) ∧
        (s.bus.draws.nextExpired = false →
          t = { s with
            bus := t.bus, sub := some ⟨.await, .loop, s.failedTests .await + 1⟩,
            waitTmo := t.waitTmo, waitArg := t.waitArg }))

/-- R164: one step of `AWAIT` in polling mode. An elapsed delay is needed first. Then, while the condition fails, one
read of EVENT, with no write of it, is ORed into the latches; if the condition holds, before that or then, STATUS is
read and the wait succeeds, else one draw of expiry decides between `TIMEOUT` and, after the interval, another pass.
Unknown bits are logged, duplicates are not. That the settle step is a step of its own that leaves
`{AWAIT, SETTLE, 0}`, and that a pass that tests twice counts one failed test, are the model's reading of R50 and R87
(notes/assumptions/16.md). -/
def Obligations.AwaitInPollingModeReadsEvents : Prop :=
  ∀ (need : WaitSet) (tobj : Obj) (s : State) (v w : Word) (e : Bool) (l : Latches) (d : Draws) (log : List LogEntry),
    s.req.has tobj = true → s.mode = some .polling → v = s.bus.draws.nextRead →
    d = drawsAfter 1 s.bus.draws → w = d.nextRead → e = d.nextExpired →
    l = ⟨s.lat.cmd || getField (pos s.cfg .evCmdEnd) v == 1, s.lat.data || getField (pos s.cfg .evDataEnd) v == 1,
      s.lat.busy || getField (pos s.cfg .evBusyEnd) v == 1, s.lat.err || getField (pos s.cfg .evErr) v == 1⟩ →
    log = (if v &&& ~~~(eventMask s.cfg) = 0 then [] else [.unknownEvent (v &&& ~~~(eventMask s.cfg))]) →
    (s.settled = false → s.inAwaitLoop = false →
      ∃ t, exec (.await need tobj) s = .next t ∧
        t = { s with
          bus := { s.bus with trace := s.bus.trace ++ [.delay s.cfg.pollSettle] }, settled := true,
          sub := some ⟨.await, .settle, 0⟩, waitTmo := t.waitTmo, waitArg := t.waitArg }) ∧
    (s.settled = true → cond s.lat need = true →
      ∃ t, exec (.await need tobj) s = .next t ∧
        t = { s with
          bus := t.bus, wres := some .ok, snap := some v, sub := none, armed := false, upc := s.upc + 1,
          waitTmo := t.waitTmo, waitArg := t.waitArg } ∧
        t.bus.trace = s.bus.trace ++ [.regRead (off s.cfg .status) v] ∧ t.bus.shadow = s.bus.shadow) ∧
    (s.settled = true → cond s.lat need = false →
      ∃ t, exec (.await need tobj) s = .next t ∧ t.bus.shadow = s.bus.shadow ∧
        (cond l need = true →
          t = { s with
            bus := t.bus, lat := l, log := s.log ++ log, wres := some .ok, snap := some w, sub := none,
            armed := false, upc := s.upc + 1, waitTmo := t.waitTmo, waitArg := t.waitArg } ∧
          t.bus.trace = s.bus.trace ++ [.regRead (off s.cfg .event) v, .regRead (off s.cfg .status) w]) ∧
        (cond l need = false → e = true →
          t = { s with
            bus := t.bus, lat := l, log := s.log ++ log, wres := some .timeout, snap := none, sub := none,
            armed := false, upc := s.upc + 1, waitTmo := t.waitTmo, waitArg := t.waitArg } ∧
          t.bus.trace = s.bus.trace ++ [.regRead (off s.cfg .event) v]) ∧
        (cond l need = false → e = false →
          t = { s with
            bus := t.bus, lat := l, log := s.log ++ log, sub := some ⟨.await, .loop, s.failedTests .await + 1⟩,
            waitTmo := t.waitTmo, waitArg := t.waitArg } ∧
          t.bus.trace = s.bus.trace ++ [.regRead (off s.cfg .event) v, .delay s.cfg.pollInterval]))

/-- R162 (the governing timeout and the condition), C6: every step of an `AWAIT` that answers a next state records
the object's own timeout, the default for a command that gives none, and as governing timeout that one in interrupt
mode and `P_POLL_TIMEOUT` in polling mode; and the condition is the error latch or every required latch. -/
def Obligations.AwaitRecordsItsTimeout : Prop :=
  (∀ (need : WaitSet) (tobj : Obj) (s t : State), exec (.await need tobj) s = .next t →
    t.waitTmo = (if s.mode = some .polling then some s.cfg.pollTimeout else t.waitArg) ∧
    (∀ d, tobj = .data → s.req.data = some d → t.waitArg = some d.input.tmo) ∧
    (∀ o c, tobj = CmdId.toObj o → s.req.command o = some c →
      t.waitArg = some (match c.input.busyTmo with | some m => m | none => s.cfg.cmdDefaultTimeout))) ∧
  (∀ (l : Latches) (need : WaitSet), cond l need = true ↔
    l.err = true ∨ (need.cmd = true → l.cmd = true) ∧ (need.data = true → l.data = true) ∧
      (need.busy = true → l.busy = true)) ∧
  refConfig.cmdDefaultTimeout = 100

/-- R85, R369: a step of `AWAIT`, of any kind and in either mode, writes no register and changes no shadow, no
mapping, no memory and no object: its only transactions are reads. Between a trigger and the return of its wait no step
of a busy engine writes a register, but for the handler's clear of EVENT. -/
def Obligations.AwaitWritesNoRegister : Prop :=
  (∀ (need : WaitSet) (tobj : Obj) (s t : State), exec (.await need tobj) s = .next t →
    (∃ es, t.bus.trace = s.bus.trace ++ es ∧ ∀ e ∈ es, isRegWrite e = false) ∧
    t.bus.shadow = s.bus.shadow ∧ t.req = s.req ∧ t.mem = s.mem ∧ t.arena = s.arena ∧
    t.arenaMap = s.arenaMap ∧ t.segMap = s.segMap ∧ t.busy = s.busy ∧ t.prog = s.prog) ∧
  (∀ (s t : State), s.armed = true → s.busy = true → s.mode ≠ none → step s = .next t →
    ∃ es, t.bus.trace = s.bus.trace ++ es ∧
      ∀ o v, .regWrite o v ∈ es →
        o = off s.cfg .event ∧ exec .irq { s with inputs := t.inputs } = .next t)

/-- R194: `WCHK` raises Timeout where the wait timed out, or where the error latch is set and the whole final status
is zero; otherwise it has no effect. -/
def Obligations.WchkClassifiesTheWait : Prop :=
  ∀ (o : Obj) (s : State), s.req.has o = true →
    (s.wres = some .timeout ∨ s.wres ≠ some .timeout ∧ s.lat.err = true ∧ s.snap = some 0 →
      exec (.wchk o) s = .next (s.raise .timeout o).advance) ∧
    (¬ (s.wres = some .timeout ∨ s.lat.err = true ∧ s.snap = some 0) →
      exec (.wchk o) s = .next { s with upc := s.upc + 1 })

/-! ## The Command Unit -/

/-- R106, R107: the frame's bytes in the three command buffer registers, each pair with its even byte low. -/
def Obligations.FrameIsMarkedBigEndianAndPaired : Prop :=
  ∀ (marker opcode : Byte) (arg : Word32),
    (frameWords marker opcode arg)[0] = arg.extractLsb' 24 8 ++ (marker ||| opcode) ∧
    (frameWords marker opcode arg)[1] = arg.extractLsb' 8 8 ++ arg.extractLsb' 16 8 ∧
    (frameWords marker opcode arg)[2] = (0x00 : Byte) ++ arg.extractLsb' 0 8 ∧
    (opcode.toNat < 64 → (frameWords 0x40 opcode arg)[0].toNat =
      0x100 * (arg.toNat / 2 ^ 24) + 0x40 + opcode.toNat)

/-- R191: `CISSUE` is `CLREV`, the grouped clear of the seven control fields, the three frame writes, the size fields,
the command's control fields, and the object's results; nothing else changes. That an early read of the base of one of
those fields, after the `CLREV`, faults where it stands in a flag register is the model's reading of D34
(notes/assumptions/19.md). -/
def Obligations.CissueConfiguresTheCommand : Prop :=
  ∀ (o : CmdId) (c : CommandObj) (s : State), s.req.command o = some c → c.input.rsp ≠ .reserved →
    ((∃ f ∈ [FieldId.rspEn, .rspLong, .crcChkEn, .busyDetEn, .dtrxEn, .jobDir, .admaEn, .cmdSize, .rspSize],
        EarlyBase s (s.bus.store s.cfg .event 0xFFFF) (pos s.cfg f).reg) →
      exec (.cissue o) s = .fault .earlyFlagRead) ∧
    ((∀ f ∈ [FieldId.rspEn, .rspLong, .crcChkEn, .busyDetEn, .dtrxEn, .jobDir, .admaEn, .cmdSize, .rspSize],
        ¬ EarlyBase s (s.bus.store s.cfg .event 0xFFFF) (pos s.cfg f).reg) →
    ∃ t, exec (.cissue o) s = .next t ∧
      t = { s with
        bus := t.bus, lat := ⟨false, false, false, false⟩, wres := none, snap := none, upc := s.upc + 1,
        req := t.req } ∧
      t.req.command o = some { c with
        expected := (match c.input.rsp with | .none => 0 | .short => 5 | .long => 16 | .reserved => 0)
        resp := #v[0, 0, 0, 0] } ∧
      (∀ p, p ≠ o → t.req.command p = s.req.command p) ∧ t.req.data = s.req.data ∧
      t.bus = (((((s.bus.store s.cfg .event 0xFFFF).groupWrite s.cfg
          [(.rspEn, 0), (.rspLong, 0), (.crcChkEn, 0), (.busyDetEn, 0), (.dtrxEn, 0), (.jobDir, 0), (.admaEn, 0)]
        |>.store s.cfg .cmdBuf0 (frameWords s.cfg.frameMarker c.input.opcode c.input.arg)[0])
        |>.store s.cfg .cmdBuf1 (frameWords s.cfg.frameMarker c.input.opcode c.input.arg)[1])
        |>.store s.cfg .cmdBuf2 (frameWords s.cfg.frameMarker c.input.opcode c.input.arg)[2])
        |>.groupWrite s.cfg
          [(.cmdSize, s.cfg.cmdSize),
           (.rspSize, match c.input.rsp with | .none => 0 | .short => 5 | .long => 16 | .reserved => 0)]).groupWrite
        s.cfg
        [(.rspEn, if c.input.rsp = .none then 0 else 1), (.rspLong, if c.input.rsp = .long then 1 else 0),
         (.crcChkEn, if c.input.crc then 1 else 0), (.busyDetEn, if c.input.busy then 1 else 0)])

/-- In the reference layout (R30), the transactions of `CISSUE` one by one: the event clear, the base of CTRL and its
clear, the three frame writes, the base of CMD_RSP_SIZE and its write, and the write of CTRL, each normal write left
out where it changes nothing (R191, R142). -/
def Obligations.CissueTransactionsInTheReferenceLayout : Prop :=
  ∀ (o : CmdId) (c : CommandObj) (s t : State) (c0 z0 c1 z1 c2 : Word) (r0 r1 : List Event) (n : Nat),
    ReferenceLayout s.cfg → s.cfg.cmdSize.toNat < 256 → s.req.command o = some c →
    exec (.cissue o) s = .next t →
    BaseOf s.cfg s.bus .ctrl c0 r0 →
    BaseOf s.cfg { s.bus with draws := drawsAfter r0.length s.bus.draws } .cmdRspSize z0 r1 →
    n = (match c.input.rsp with | .none => 0 | .short => 5 | .long => 16 | .reserved => 0) →
    c1 = c0 &&& 0xFF80 → z1 = (s.cfg.cmdSize <<< 8) ||| BitVec.ofNat 16 n →
    c2 = c1 ||| (if c.input.rsp = .none then 0 else 1) ||| (if c.input.rsp = .long then 2 else 0) |||
      (if c.input.crc then 4 else 0) ||| (if c.input.busy then 8 else 0) →
    t.bus.trace = s.bus.trace ++ [.regWrite 0x00 0xFFFF] ++ r0 ++ (if c1 = c0 then [] else [.regWrite 0x12 c1]) ++
      [.regWrite 0x20 (c.input.arg.extractLsb' 24 8 ++ (s.cfg.frameMarker ||| c.input.opcode)),
       .regWrite 0x22 (c.input.arg.extractLsb' 8 8 ++ c.input.arg.extractLsb' 16 8),
       .regWrite 0x24 ((0x00 : Byte) ++ c.input.arg.extractLsb' 0 8)] ++
      r1 ++ (if z1 = z0 then [] else [.regWrite 0x10 z1]) ++ (if c2 = c1 then [] else [.regWrite 0x12 c2]) ∧
    RegFile.at t.bus.shadow .ctrl = some c2 ∧ RegFile.at t.bus.shadow .cmdRspSize = some z1 ∧
    OnlyRegisters [.event, .ctrl, .cmdRspSize, .cmdBuf0, .cmdBuf1, .cmdBuf2] s.bus t.bus

/-- R193: `TRIG` is a forced write of 1 to JOB_START, never left out, and the settle delay starts anew. That an early
read of its base faults, where JOB_START stands in a flag register, is the model's reading of D34
(notes/assumptions/19.md). -/
def Obligations.TrigAlwaysWritesJobStart : Prop :=
  ∀ (s : State) (r : RegId) (x : Word) (reads : List Event),
    r = (pos s.cfg .jobStart).reg → BaseOf s.cfg s.bus r x reads →
    (EarlyBase s s.bus r → exec .trig s = .fault .earlyFlagRead) ∧
    (¬ EarlyBase s s.bus r →
    ∃ t, exec .trig s = .next t ∧ t = { s with bus := t.bus, settled := false, armed := true, upc := s.upc + 1 } ∧
      t.bus.trace = s.bus.trace ++ reads ++ [.regWrite (off s.cfg r) (putField (pos s.cfg .jobStart) x 1)] ∧
      t.bus.draws = drawsAfter reads.length s.bus.draws ∧
      ShadowIs s.cfg r (putField (pos s.cfg .jobStart) x 1) s.bus t.bus ∧ OnlyRegisters [r] s.bus t.bus)

/-- R195: `CCAPT`'s decision order over the final status: no response; a response CRC error, fatal only with CRC
checking, else cleared and logged; card busy; other bits logged; then the response read (R196). Without a successful
wait it faults. -/
def Obligations.CcaptDecidesInOrder : Prop :=
  ∀ (o : CmdId) (c : CommandObj) (s : State), s.req.command o = some c →
    (s.wres ≠ some .ok → exec (.ccapt o) s = .fault .unmodelled) ∧
    (∀ v, s.wres = some .ok → s.snap = some v →
      let noRsp := getField (pos s.cfg .stNoRsp) v == 1
      let crc := getField (pos s.cfg .stCmdRspCrc) v == 1
      let m := fieldMask (pos s.cfg .stCmdRspCrc)
      let w := if crc then v &&& ~~~m else v
      let s2 : State := if crc then
        { s with
          bus := s.bus.store s.cfg .status m, snap := some w, log := s.log ++ [.rspCrcIgnored c.input.opcode] }
        else s
      let u := w &&& ~~~(fieldMask (pos s.cfg .stNoRsp) ||| m ||| fieldMask (pos s.cfg .stCardBusy))
      (noRsp = true → exec (.ccapt o) s = .next (s.raise .noResponse o.toObj).advance) ∧
      (noRsp = false → crc = true → c.input.crc = true →
        exec (.ccapt o) s = .next (s.raise .crcMismatch o.toObj).advance) ∧
      (noRsp = false → crc = false ∨ c.input.crc = false →
        (getField (pos s.cfg .stCardBusy) w = 1 → exec (.ccapt o) s = .next s2.advance) ∧
        (getField (pos s.cfg .stCardBusy) w ≠ 1 →
          exec (.ccapt o) s = .next
            (State.readResponse o c
              (if u = 0 then s2 else { s2 with log := s2.log ++ [.unexpectedStatus u] })).advance)))

/-- R196, R197 (a), (b): the response read. No byte is read where none is expected. Else the registers of 5, or of
`P_LONG_RSP_READ`, bytes are read in order, all of them before the echo test; a command that asks for the echo and gets
another first byte raises SequenceError and keeps its response; any other takes the response words. That the echo test
takes 0 for the first byte where `P_LONG_RSP_READ` is 0 and none is read is the model's choice
(notes/assumptions/38.md). -/
def Obligations.ResponseReadChecksTheEcho : Prop :=
  ∀ (o : CmdId) (c : CommandObj) (s : State) (n : Nat), s.req.command o = some c →
    n = (if c.input.rsp = .short then 5 else s.cfg.longRspRead) → n ≤ 18 →
    (c.expected = 0 → State.readResponse o c s = s) ∧
    (c.expected ≠ 0 →
      ∃ b : Bus, b.shadow = s.bus.shadow ∧ b.draws = drawsAfter ((n + 1) / 2) s.bus.draws ∧
        ∃ xs : List Word, xs.length = (n + 1) / 2 ∧
          b.trace = s.bus.trace ++ List.zipWith (fun r x => .regRead (off s.cfg r) x)
            [.rspBuf0, .rspBuf1, .rspBuf2, .rspBuf3, .rspBuf4, .rspBuf5, .rspBuf6, .rspBuf7, .rspBuf8] xs ∧
          (∀ k x, xs[k]? = some x → x = (drawsAfter k s.bus.draws).nextRead) ∧
          (c.input.echo = true → (xs.headD 0).extractLsb' 0 8 ≠ c.input.opcode →
            State.readResponse o c s = State.raise .sequenceError o.toObj { s with bus := b }) ∧
          (c.input.echo = false ∨ (xs.headD 0).extractLsb' 0 8 = c.input.opcode →
            State.readResponse o c s = { s with
              bus := b, req := s.req.setCommand o { c with resp := assemble (laneBytes xs) n } }))

/-- R109, R77, R197 (c): decoding gives back what a response buffer encodes. For a short response any word survives;
for a long one the first three words survive, and the fourth but for its low byte (C1), which a seventeenth byte
gives where `P_LONG_RSP_READ` is 17. -/
def Obligations.ResponseWordsRoundTrip : Prop :=
  (∀ (op pad : Byte) (w : Word32),
    assemble (laneBytes [w.extractLsb' 24 8 ++ op, w.extractLsb' 8 8 ++ w.extractLsb' 16 8, pad ++ w.extractLsb' 0 8])
      5 = #v[w, 0, 0, 0]) ∧
  (∀ (op : Byte) (w0 w1 w2 w3 : Word32),
    assemble (laneBytes
      [w0.extractLsb' 24 8 ++ op, w0.extractLsb' 8 8 ++ w0.extractLsb' 16 8,
       w1.extractLsb' 24 8 ++ w0.extractLsb' 0 8, w1.extractLsb' 8 8 ++ w1.extractLsb' 16 8,
       w2.extractLsb' 24 8 ++ w1.extractLsb' 0 8, w2.extractLsb' 8 8 ++ w2.extractLsb' 16 8,
       w3.extractLsb' 24 8 ++ w2.extractLsb' 0 8, w3.extractLsb' 8 8 ++ w3.extractLsb' 16 8]) 16 =
      #v[w0, w1, w2, w3 &&& 0xFFFFFF00]) ∧
  (∀ (op pad : Byte) (w0 w1 w2 w3 : Word32),
    assemble (laneBytes
      [w0.extractLsb' 24 8 ++ op, w0.extractLsb' 8 8 ++ w0.extractLsb' 16 8,
       w1.extractLsb' 24 8 ++ w0.extractLsb' 0 8, w1.extractLsb' 8 8 ++ w1.extractLsb' 16 8,
       w2.extractLsb' 24 8 ++ w1.extractLsb' 0 8, w2.extractLsb' 8 8 ++ w2.extractLsb' 16 8,
       w3.extractLsb' 24 8 ++ w2.extractLsb' 0 8, w3.extractLsb' 8 8 ++ w3.extractLsb' 16 8,
       pad ++ w3.extractLsb' 0 8]) 17 = #v[w0, w1, w2, w3])

/-! ## The Data Unit -/

/-- R220: `CHKDIR` raises InvalidRequest for an unset direction, with no transaction, and nothing otherwise. -/
def Obligations.ChkdirRejectsAnUnsetDirection : Prop :=
  ∀ (d : DataObj) (s : State), s.req.data = some d →
    (d.input.dir = .unset → exec .chkdir s = .next (s.raise .invalidRequest .data).advance) ∧
    (d.input.dir ≠ .unset → exec .chkdir s = .next { s with upc := s.upc + 1 })

/-- R221: `DMAP` calls the mapping service once, in the direction of the transfer, and keeps the handle and the
segments, which obey the laws of the draw; nothing else changes. Whatever lawful mapping the service answers is taken
as it is: the draw is free within the laws. -/
def Obligations.DmapKeepsTheHandleAndLawfulSegments : Prop :=
  ∀ (d : DataObj) (s : State), s.req.data = some d →
    ∃ (t : State) (h : Nat) (segs : List Seg), exec .dmap s = .next t ∧
      t = { s with
        bus := t.bus, segMap := some h, req := { s.req with data := some { d with segs := segs } },
        upc := s.upc + 1 } ∧
      t.bus.trace = s.bus.trace ++
        [.mapBuffer d.input.buf (if d.input.dir = .read then .fromDevice else .toDevice) h segs] ∧
      t.bus.shadow = s.bus.shadow ∧ t.bus.dev = s.bus.dev ∧
      (∀ g ∈ segs, 1 ≤ g.len.toNat ∧ g.len.toNat % d.input.bs = 0 ∧ g.len.toNat / d.input.bs < 2 ^ s.cfg.wBlkCnt) ∧
      (∀ m rest, s.bus.draws.segMaps = m :: rest →
        (∀ g ∈ m.2, 1 ≤ g.len.toNat ∧ g.len.toNat % d.input.bs = 0 ∧
          g.len.toNat / d.input.bs < 2 ^ s.cfg.wBlkCnt) →
        (h, segs) = m ∧ t.bus.draws.segMaps = rest)

/-- R223, R224: `DPREP` rejects no segment, then too many, with no store and no mapping; one segment gives the direct
plan with that segment's address and length and the exact block count, and no chain. -/
def Obligations.DprepRejectsOrPlansDirectly : Prop :=
  ∀ (d : DataObj) (s : State), s.req.data = some d →
    (d.segs = [] → exec .dprep s = .next (s.raise .invalidRequest .data).advance) ∧
    (d.segs ≠ [] → s.cfg.maxSegs < d.segs.length →
      exec .dprep s = .next (s.raise .tooManySegments .data).advance) ∧
    (∀ g, d.segs = [g] → 1 ≤ s.cfg.maxSegs →
      exec .dprep s = .next { s with
        req := { s.req with data := some { d with plan := some (.direct g.addr g.len (g.len.toNat / d.input.bs)) } }
        upc := s.upc + 1 })

/-- R225, R226, R110: for 2 to `P_MAX_SEGS` segments `DPREP` writes one entry per segment, `end` on the last one only,
maps exactly those entries for the device to read, and plans a chained transfer. The stored bytes stand at `A +
P_DESC_BYTES * i + j`, each word's bytes in the order of the descriptor layout, little-endian by R76; that another
order is the most significant byte first is the model's choice (notes/assumptions/37.md). Every other byte of memory
reads as before. That it also runs, and replaces the handle, while the arena is still mapped, which R88 says the engine
must not do, is the model's choice (notes/assumptions/35.md). -/
def Obligations.DprepStoresTheChain : Prop :=
  ∀ (d : DataObj) (s : State) (base : Nat), s.req.data = some d → s.arenaBase = some base →
    2 ≤ d.segs.length → d.segs.length ≤ s.cfg.maxSegs → 16 ≤ s.cfg.descBytes →
    s.arena.length = s.cfg.maxSegs →
    ∃ (t : State) (h : Nat) (c : Word32), exec .dprep s = .next t ∧
      t = { s with
        bus := t.bus, arena := t.arena, mem := t.mem, arenaMap := some h, upc := s.upc + 1,
        req := { s.req with data := some { d with
          plan := some (.chained d.segs.length c s.cfg.admaDmaLen s.cfg.admaBlkcnt) } } } ∧
      (∀ i g, d.segs[i]? = some g → t.arena[i]? = some
        (⟨g.addr, g.len, decide (i + 1 = d.segs.length), BitVec.ofNat 16 (g.len.toNat / d.input.bs)⟩ : Slot)) ∧
      (∀ i, d.segs.length ≤ i → t.arena[i]? = s.arena[i]?) ∧
      (∀ i g j, d.segs[i]? = some g → j < 16 →
        t.mem.read (base + s.cfg.descBytes * i + j) =
          some (((0 : Word32) ++ g.len ++ g.addr ++
            (BitVec.ofNat 16 (g.len.toNat / d.input.bs) ++
              BitVec.ofNat 16 (if i + 1 = d.segs.length then 1 else 0))).extractLsb'
            (8 * (match s.cfg.descOrder with | .little => j | .big => 4 * (j / 4) + (3 - j % 4))) 8)) ∧
      (∀ a, (∀ i < d.segs.length, a < base + s.cfg.descBytes * i ∨ base + s.cfg.descBytes * i + 16 ≤ a) →
        t.mem.read a = s.mem.read a) ∧
      t.bus.shadow = s.bus.shadow ∧ t.bus.dev = s.bus.dev ∧
      ∃ es : List Event, t.bus.trace = s.bus.trace ++ es ++
          [.mapArena base (d.segs.length * s.cfg.descBytes) .toDevice h c] ∧
        es.length = d.segs.length ∧ ∀ i e, es[i]? = some e →
          ∃ bytes : List Byte, e = .memWrite (base + s.cfg.descBytes * i) bytes ∧ bytes.length = 16 ∧
            ∀ j b, bytes[j]? = some b → t.mem.read (base + s.cfg.descBytes * i + j) = some b

/-- R227: `DARM` clears the events and then writes, one normal field write after another, the direction, data mode,
ADMA mode, block size, DMA address and length low half first, and block count; without a plan it faults. R148 refuses a
value too wide for its field; that `DARM` is then refused as a whole, before its first transaction, is the model's
choice (notes/assumptions/21.md), and happens with parameters or records no request has. That an early read of the base
of an armed field, after the event clear, faults where it stands in a flag register is the model's reading of D34
(notes/assumptions/19.md). -/
def Obligations.DarmProgramsTheTransfer : Prop :=
  ∀ (d : DataObj) (s : State), s.req.data = some d →
    (d.plan = none → exec .darm s = .fault .unmodelled) ∧
    (∀ (p : Plan) (a l : Word32) (n : Nat), d.plan = some p →
      (a, l, n) = (match p with | .direct a l n => (a, l, n) | .chained _ a _ n => (a, s.cfg.admaDmaLen, n)) →
      (d.input.bs < 2 ^ (pos s.cfg .blkSize).width → n < 2 ^ (pos s.cfg .blkCnt).width →
        (∃ f ∈ [FieldId.jobDir, .dtrxEn, .admaEn, .blkSize, .dmaAddrLo, .dmaAddrHi, .dmaLenLo, .dmaLenHi, .blkCnt],
          EarlyBase s (s.bus.store s.cfg .event 0xFFFF) (pos s.cfg f).reg) →
        exec .darm s = .fault .earlyFlagRead) ∧
      (d.input.bs < 2 ^ (pos s.cfg .blkSize).width → n < 2 ^ (pos s.cfg .blkCnt).width →
        (∀ f ∈ [FieldId.jobDir, .dtrxEn, .admaEn, .blkSize, .dmaAddrLo, .dmaAddrHi, .dmaLenLo, .dmaLenHi, .blkCnt],
          ¬ EarlyBase s (s.bus.store s.cfg .event 0xFFFF) (pos s.cfg f).reg) →
        ∃ t, exec .darm s = .next t ∧
          t = { s with
            bus := t.bus, lat := ⟨false, false, false, false⟩, wres := none, snap := none, upc := s.upc + 1 } ∧
          t.bus = [(FieldId.jobDir, if d.input.dir = .write then (1 : Word) else 0), (.dtrxEn, 1),
              (.admaEn, match p with | .direct _ _ _ => 0 | .chained _ _ _ _ => 1),
              (.blkSize, BitVec.ofNat 16 d.input.bs), (.dmaAddrLo, a.extractLsb' 0 16),
              (.dmaAddrHi, a.extractLsb' 16 16), (.dmaLenLo, l.extractLsb' 0 16), (.dmaLenHi, l.extractLsb' 16 16),
              (.blkCnt, BitVec.ofNat 16 n)].foldl
            (fun b w => b.fieldWrite s.cfg w.1 w.2) (s.bus.store s.cfg .event 0xFFFF)) ∧
      (2 ^ (pos s.cfg .blkSize).width ≤ d.input.bs ∨ 2 ^ (pos s.cfg .blkCnt).width ≤ n →
        exec .darm s = .refused .valueTooWide))

/-- After `DARM` under well-formed parameters whose DMA, block and control registers are cached, the shadows hold the
armed transfer: the address and length halves, the block size and count, and the three control fields (R35, R36,
R38, R227). -/
def Obligations.DarmLeavesTheTransferInTheShadows : Prop :=
  ∀ (d : DataObj) (p : Plan) (a l : Word32) (n : Nat) (s t : State) (f : FieldId) (v : Word),
    s.req.data = some d → d.plan = some p → configOk s.cfg = true → exec .darm s = .next t →
    (a, l, n) = (match p with | .direct a l n => (a, l, n) | .chained _ a _ n => (a, s.cfg.admaDmaLen, n)) →
    (f, v) ∈ [(FieldId.jobDir, if d.input.dir = .write then (1 : Word) else 0), (.dtrxEn, 1),
      (.admaEn, match p with | .direct _ _ _ => 0 | .chained _ _ _ _ => 1),
      (.blkSize, BitVec.ofNat 16 d.input.bs), (.dmaAddrLo, a.extractLsb' 0 16),
      (.dmaAddrHi, a.extractLsb' 16 16), (.dmaLenLo, l.extractLsb' 0 16), (.dmaLenHi, l.extractLsb' 16 16),
      (.blkCnt, BitVec.ofNat 16 n)] →
    (cached s.cfg (pos s.cfg f).reg = true) →
    ∃ y, RegFile.at t.bus.shadow (pos s.cfg f).reg = some y ∧ getField (pos s.cfg f) y = v

/-- R230: one pass of `BIDLE`, whether or not the request has data. A bus that reads idle ends it. Else one draw of
expiry decides: expiry is logged, and with `P_BIDLE_FATAL` raises Timeout on DATA; no expiry goes on after the
interval. That an expiry which would raise on an absent DATA faults is the treatment of U11
(notes/assumptions/15.md). -/
def Obligations.BidlePollsTheBus : Prop :=
  ∀ (s : State) (x : Word) (e : Bool) (r : RegId),
    r = (pos s.cfg .busIdle).reg → cached s.cfg r = false → earlyRead s r = false →
    x = s.bus.draws.nextRead → e = (drawsAfter 1 s.bus.draws).nextExpired →
    (getField (pos s.cfg .busIdle) x = 1 →
      ∃ t, exec .bidle s = .next t ∧
        t = { s with bus := t.bus, sub := none, upc := s.upc + 1, waitTmo := some s.cfg.bidleTimeout } ∧
        t.bus.trace = s.bus.trace ++ [.regRead (off s.cfg r) x] ∧ t.bus.shadow = s.bus.shadow) ∧
    (getField (pos s.cfg .busIdle) x ≠ 1 → e = false →
      ∃ t, exec .bidle s = .next t ∧
        t = { s with
          bus := t.bus, sub := some ⟨.bidle, .loop, s.failedTests .bidle + 1⟩,
          waitTmo := some s.cfg.bidleTimeout } ∧
        t.bus.trace = s.bus.trace ++ [.regRead (off s.cfg r) x, .delay s.cfg.bidleInterval] ∧
        t.bus.shadow = s.bus.shadow) ∧
    (getField (pos s.cfg .busIdle) x ≠ 1 → e = true → s.cfg.bidleFatal = true → s.req.data = none →
      exec .bidle s = .fault .unmodelled) ∧
    (getField (pos s.cfg .busIdle) x ≠ 1 → e = true → s.cfg.bidleFatal = false ∨ s.req.data ≠ none →
      ∃ t s1 : State, exec .bidle s = .next t ∧
        s1 = { s with bus := t.bus, log := s.log ++ [.bidleTimeout], waitTmo := some s.cfg.bidleTimeout } ∧
        t = { (if s.cfg.bidleFatal then s1.raise .timeout .data else s1) with sub := none, upc := s.upc + 1 } ∧
        t.bus.trace = s.bus.trace ++ [.regRead (off s.cfg r) x] ∧ t.bus.shadow = s.bus.shadow)

/-- R228: `DSTAT` raises CrcMismatch where either data CRC bit of the final status is set, and counts the bytes of
the mapped segments either way. That it faults without a final status is the treatment of U11
(notes/assumptions/15.md). -/
def Obligations.DstatJudgesAndCounts : Prop :=
  ∀ (d : DataObj) (s : State), s.req.data = some d →
    (s.snap = none → exec .dstat s = .fault .unmodelled) ∧
    (∀ v, s.snap = some v →
      ∃ t s1, exec .dstat s = .next t ∧
        s1 = (if getField (pos s.cfg .stDatRdCrc) v = 1 ∨ getField (pos s.cfg .stDatWrCrc) v = 1
          then s.raise .crcMismatch .data else s) ∧
        (∃ d1, s1.req.data = some d1 ∧ t = { s1 with
          req := { s1.req with data := some { d1 with bytes := (d.segs.map fun g => g.len.toNat).sum } }
          upc := s.upc + 1 }))

/-- R229: `DUNMAP` unmaps the chain first and then the segments, each where it is mapped, and holds neither after; run
again it does nothing. That it also runs before a wait has ended, which R367 says no program does, is the model's
choice (notes/assumptions/43.md). -/
def Obligations.DunmapReleasesTheChainFirst : Prop :=
  ∀ (s : State),
    ∃ t, exec .dunmap s = .next t ∧
      t = { s with
        bus := { s.bus with trace := s.bus.trace ++ (s.arenaMap.elim [] fun h => [.unmap h]) ++
          (s.segMap.elim [] fun h => [.unmap h]) },
        arenaMap := none, segMap := none, upc := s.upc + 1 } ∧
      exec .dunmap t = .next { t with upc := t.upc + 1 }

/-! ## Sequencing -/

/-- R265, R266: `JERR` moves the counter to its label where the object has an error and to the next operation where it
has none; `JMP` moves it to its label. -/
def Obligations.BranchesMoveOnlyTheCounter : Prop :=
  (∀ (o : Obj) (l : Nat) (e : ErrKind) (s : State), s.req.errorOf o = some e →
    exec (.jerr o l) s = .next { s with upc := if e = .noError then s.upc + 1 else l }) ∧
  (∀ (l : Nat) (s : State), exec (.jmp l) s = .next { s with upc := l })

/-- R267, R268: `DONE` reports every object's error, response or byte count, and diagnostic snapshot, and frees the
engine; with a mapping still held it faults. -/
def Obligations.DoneReportsAndFreesTheEngine : Prop :=
  ∀ (s : State),
    (s.segMap = none → s.arenaMap = none →
      exec .done s = .next { s with
        bus := { s.bus with trace := s.bus.trace ++ [.report {
          sbc := s.req.sbc.map fun c => ⟨c.error, c.resp, c.diag⟩
          cmd := s.req.cmd.map fun c => ⟨c.error, c.resp, c.diag⟩
          stop := s.req.stop.map fun c => ⟨c.error, c.resp, c.diag⟩
          data := s.req.data.map fun d => ⟨d.error, d.bytes, d.diag⟩ }] }
        busy := false
        armed := false
        prog := []
        upc := 0 }) ∧
    (s.segMap ≠ none ∨ s.arenaMap ≠ none → exec .done s = .fault .unmodelled)

/-- R312, R46: raising an error on an object without one records it, with a diagnostic snapshot of four shadows and
the latches for Timeout and CRC errors only, and logs a stop command's; it moves no counter and changes no other
state. An object that has an error keeps it. -/
def Obligations.RaiseKeepsTheFirstError : Prop :=
  ∀ (k : ErrKind) (o : Obj) (s : State),
    (∀ e, s.req.errorOf o = some e → e ≠ .noError → s.raise k o = s) ∧
    (s.req.errorOf o = some .noError →
      ∃ dg : Option Diag,
        (k = .timeout ∨ k = .crcMismatch → ∃ g, dg = some g ∧
          (∀ r x, (r, x) ∈ [(RegId.ctrl, g.ctrl), (.blkCnt, g.blkCnt), (.blkSize, g.blkSize),
            (.cmdRspSize, g.cmdRspSize)] →
            x = if cached s.cfg r then RegFile.at s.bus.shadow r else none) ∧
          g.flags = s.lat) ∧
        (k ≠ .timeout → k ≠ .crcMismatch → dg = none) ∧
        s.raise k o = { s with
          req := (s.raise k o).req, log := if o = .stop then s.log ++ [.stopFailed k] else s.log } ∧
        (∀ p, (s.raise k o).req.errorOf p = if p = o then some k else s.req.errorOf p) ∧
        (∀ p c, s.req.command p = some c → (s.raise k o).req.command p =
          some (if p.toObj = o then { c with error := k, diag := if dg = none then c.diag else dg } else c)) ∧
        (∀ d, s.req.data = some d → (s.raise k o).req.data =
          some (if o = .data then { d with error := k, diag := if dg = none then d.diag else dg } else d)))

/-! ## The Reset Sequencer -/

/-- R300, R301: the start of `RSTSEQ` forces the line low. Each pass of the assert phase reads RST_STS once: the
fully-asserted pattern forces the line high and starts the release phase; the release phase ends at zero. Any other
value is a failed test; the one that reaches `P_RST_RETRIES` ends the sequence with ResetFailed and the line as it is,
and any other waits the interval. That the start is one step, and that the line is forced high in the step of the read
that ends the assert phase, is the model's reading of R50 and R87 (notes/assumptions/18.md). That an early read of the
base of RST_N faults, where it stands in a flag register, is the model's reading of D34 (notes/assumptions/19.md). -/
def Obligations.RstseqDrivesTheLineAndCountsRetries : Prop :=
  ∀ (s : State) (r rl : RegId) (v x : Word) (b1 : Bus),
    r = (pos s.cfg .rstSts).reg → rl = (pos s.cfg .rstN).reg → v = s.bus.draws.nextRead →
    x = getField (pos s.cfg .rstSts) v → b1 = (s.bus.regRead s.cfg r).2 →
    (∀ y reads, (∀ n, s.sub ≠ some ⟨.rstseq, .assertReset, n⟩ ∧ s.sub ≠ some ⟨.rstseq, .release, n⟩) →
      BaseOf s.cfg s.bus rl y reads →
      (EarlyBase s s.bus rl → exec .rstseq s = .fault .earlyFlagRead) ∧
      (¬ EarlyBase s s.bus rl → ∃ t, exec .rstseq s = .next t ∧
        t = { s with bus := t.bus, rstErr := .noError, sub := some ⟨.rstseq, .assertReset, 0⟩ } ∧
        t.bus.trace = s.bus.trace ++ reads ++ [.regWrite (off s.cfg rl) (putField (pos s.cfg .rstN) y 0)] ∧
        ShadowIs s.cfg rl (putField (pos s.cfg .rstN) y 0) s.bus t.bus ∧ OnlyRegisters [rl] s.bus t.bus)) ∧
    (cached s.cfg r = false → earlyRead s r = false →
      (∀ n y reads, s.sub = some ⟨.rstseq, .assertReset, n⟩ → x = BitVec.ofNat 16 (2 ^ s.cfg.rstStsWidth - 1) →
        BaseOf s.cfg b1 rl y reads →
        (EarlyBase s b1 rl → exec .rstseq s = .fault .earlyFlagRead) ∧
        (¬ EarlyBase s b1 rl → ∃ t, exec .rstseq s = .next t ∧
          t = { s with bus := t.bus, sub := some ⟨.rstseq, .release, 0⟩ } ∧
          t.bus.trace = s.bus.trace ++ [.regRead (off s.cfg r) v] ++ reads ++
            [.regWrite (off s.cfg rl) (putField (pos s.cfg .rstN) y 1)] ∧
          ShadowIs s.cfg rl (putField (pos s.cfg .rstN) y 1) s.bus t.bus ∧ OnlyRegisters [r, rl] s.bus t.bus)) ∧
      (∀ n, s.sub = some ⟨.rstseq, .release, n⟩ → x = 0 → s.inReset = false →
        exec .rstseq s = .next { s with bus := b1, sub := none, upc := s.upc + 1 }) ∧
      (∀ ph n, s.sub = some ⟨.rstseq, ph, n⟩ →
        (ph = .assertReset ∧ x ≠ BitVec.ofNat 16 (2 ^ s.cfg.rstStsWidth - 1) ∨ ph = .release ∧ x ≠ 0) →
        (n + 1 < s.cfg.rstRetries →
          exec .rstseq s = .next { s with
            bus := { b1 with trace := b1.trace ++ [.delay s.cfg.rstInterval] },
            sub := some ⟨.rstseq, ph, n + 1⟩ }) ∧
        (s.cfg.rstRetries ≤ n + 1 → s.inReset = false →
          exec .rstseq s = .next { s with bus := b1, rstErr := .resetFailed, sub := none, upc := s.upc + 1 })))

/-- R272: `HW_RESET` makes the engine busy and starts the reset sequence; when the sequence ends the engine is free and
the call returns `E.rst_err`. It is refused before `INIT` and while busy. That its own step runs the start of the
sequence and later steps the passes is the model's reading of R50 and R87 (notes/assumptions/18.md). That an early read of the base
of RST_N faults, where it stands in a flag register, is the model's reading of D34 (notes/assumptions/19.md). -/
def Obligations.HwResetRunsTheSequenceAndReturns : Prop :=
  (∀ (s : State), s.mode = none ∨ s.busy = true → ∃ r, exec .hwReset s = .refused r) ∧
  (∀ (s : State) (rl : RegId) (y : Word) (reads : List Event), s.mode ≠ none → s.busy = false →
    rl = (pos s.cfg .rstN).reg → BaseOf s.cfg s.bus rl y reads →
    (EarlyBase s s.bus rl → exec .hwReset s = .fault .earlyFlagRead) ∧
    (¬ EarlyBase s s.bus rl → ∃ t, exec .hwReset s = .next t ∧
      t = { s with
        bus := t.bus, busy := true, inReset := true, rstErr := .noError, sub := some ⟨.rstseq, .assertReset, 0⟩ } ∧
      t.bus.trace = s.bus.trace ++ reads ++ [.regWrite (off s.cfg rl) (putField (pos s.cfg .rstN) y 0)] ∧
      ShadowIs s.cfg rl (putField (pos s.cfg .rstN) y 0) s.bus t.bus ∧ OnlyRegisters [rl] s.bus t.bus)) ∧
  (∀ (s t u : State), exec .rstseq { s with inReset := false } = .next t → t.sub = none →
    s.inReset = true → exec .rstseq s = .next u →
    u = { t with
      bus := { t.bus with trace := t.bus.trace ++ [.resetReturned t.rstErr] }, busy := false, inReset := false,
      upc := s.upc })

/-- R302, R356: no step of the reset sequence changes engine state other than `E.rst_err`, `E.sub` and the shadow of
RST (and the status field's, if its register is cached), the counter that moves past it, and what `HW_RESET` holds
while it runs (R272). -/
def Obligations.ResetTouchesOnlyItsOwnState : Prop :=
  ∀ (i : Instr) (s t : State), i = .rstseq ∨ i = .hwReset → exec i s = .next t →
    t = { s with
      bus := t.bus, rstErr := t.rstErr, sub := t.sub, upc := t.upc, busy := t.busy, inReset := t.inReset } ∧
    OnlyRegisters [(pos s.cfg .rstN).reg, (pos s.cfg .rstSts).reg] s.bus t.bus ∧
    (cached s.cfg (pos s.cfg .rstSts).reg = false →
      ∀ q, q ≠ (pos s.cfg .rstN).reg → RegFile.at t.bus.shadow q = RegFile.at s.bus.shadow q)

/-! ## Rules about the whole machine -/

/-- R24: no operation sets a latch to false but `CLREV`, the two operations that run it, `CISSUE` and `DARM` (R355),
and `INIT` (R352). -/
def Obligations.OnlyClearingOperationsClearLatches : Prop :=
  ∀ (i : Instr) (s t : State), exec i s = .next t →
    i = .clrev ∨ (∃ o, i = .cissue o) ∨ i = .darm ∨ (∃ b, i = .init b) ∨
    ((s.lat.cmd = true → t.lat.cmd = true) ∧ (s.lat.data = true → t.lat.data = true) ∧
      (s.lat.busy = true → t.lat.busy = true) ∧ (s.lat.err = true → t.lat.err = true))

/-- R231, R70: `DPREP` alone stores to arena memory or rewrites the arena: after any other operation every byte reads
as before. R45, R12: the log and the trace only grow. R49: `E.rst_err` is written by the reset sequence, and by `INIT`
(R352). R29: the settle flag is cleared by `TRIG` alone, and set by `AWAIT` and `INIT` alone. The window in which R369
forbids register writes begins with `TRIG` alone and ends with a wait, and, the model's reading
(notes/assumptions/39.md), with the program or `INIT`. -/
def Obligations.StateIsWrittenOnlyWhereTheRulesSay : Prop :=
  ∀ (i : Instr) (s t : State), exec i s = .next t →
    (i ≠ .dprep → t.arena = s.arena ∧ ∀ a, t.mem.read a = s.mem.read a) ∧
    ((∀ b, i ≠ .init b) → t.arenaBase = s.arenaBase) ∧
    (∃ es, t.log = s.log ++ es) ∧ (∃ es, t.bus.trace = s.bus.trace ++ es) ∧
    (t.rstErr ≠ s.rstErr → i = .rstseq ∨ i = .hwReset ∨ ∃ b, i = .init b) ∧
    (s.settled = true → t.settled = false → i = .trig) ∧
    (s.settled = false → t.settled = true → (∃ need o, i = .await need o) ∨ ∃ b, i = .init b) ∧
    (s.armed = false → t.armed = true → i = .trig) ∧
    (s.armed = true → t.armed = false → (∃ need o, i = .await need o) ∨ i = .done ∨ ∃ b, i = .init b)

/-- At power-on the engine's invariants hold. That the request slot then holds no object, to which R48 gives no value
and on which the invariants of its errors and data rest, is the model's choice (notes/assumptions/11.md). -/
def Obligations.EngineInvHoldsAtPowerOn : Prop :=
  (∀ s, PowerOn s → EngineInv s) ∧ EngineInv State.reset

/-- Every step keeps the engine's invariants: the memory's canonical form and the arena's capacity (R28), a snapshot
exactly after a successful wait (R25), no mapping outside a transfer (R29), a counter that stays in its program (R22),
no shadow of a volatile register (R27), the errors each object may have (R310, R312), lawful segments and plans (R221,
R224, R225), and no wait to come outside a program (R85). -/
def Obligations.EveryStepKeepsTheEngineInvariants : Prop :=
  ∀ (s t : State), EngineInv s → step s = .next t → EngineInv t

/-- R360, R85: the engine's own programs never read a flag register early, whatever the field map, and between a
trigger and the return of its wait they run nothing but the wait. In a run that loads no hand-written program no step
faults with `EARLY_FLAG_READ`, and the condition that says both, which every power-on state of such a run has, is kept
by every step. -/
def Obligations.OwnProgramsNeverReadFlagsEarly : Prop :=
  (∀ (s : State), PowerOn s → s.cfg.settleIrq = false → (∀ i ∈ s.inputs, notLoad i = true) → OwnRun s) ∧
  ∀ (s : State), OwnRun s →
    (s.armed = true → AtWait s) ∧ step s ≠ .fault .earlyFlagRead ∧ ∀ t, step s = .next t → OwnRun t
end

