-- ==== Sys2Proof/Laws/Bus.lean ====
section
/-! SUPPORT. The Control Surface on the ports: register files, and for each register operation what it leaves of the
shadows, the draws and the trace. -/

namespace Sys2Proof.Machine

open Sys2Proof

/-! ## Register files -/

theorem all_at_idx (r : RegId) : RegId.all[r.idx.val]? = some r := by
  cases r with
  | further k => revert k; decide
  | _ => rfl

theorem idx_injective {r q : RegId} (h : r.idx = q.idx) : r = q :=
  Option.some.inj ((all_at_idx r).symm.trans (h ▸ all_at_idx q))

@[simp] theorem RegFile.at_put_same {α : Type} (v : RegFile α) (r : RegId) (x : α) :
    RegFile.at (RegFile.put v r x) r = x := by
  simp [RegFile.at, RegFile.put]

theorem RegFile.at_put_other {α : Type} (v : RegFile α) {r q : RegId} (x : α) (h : q ≠ r) :
    RegFile.at (RegFile.put v r x) q = RegFile.at v q := by
  have : r.idx.val ≠ q.idx.val := fun e => h (idx_injective (Fin.ext e.symm))
  simp [RegFile.at, RegFile.put, Vector.getElem_set_ne, this]

@[simp] theorem RegFile.at_replicate {α : Type} (x : α) (r : RegId) :
    RegFile.at (Vector.replicate 69 x : RegFile α) r = x := by
  simp [RegFile.at]

/-! ## Reads and writes: what each leaves -/

@[simp] theorem Bus.regRead_value (cfg : Config) (r : RegId) (b : Bus) : (b.regRead cfg r).1 = b.draws.nextRead := rfl
@[simp] theorem Bus.regRead_shadow (cfg : Config) (r : RegId) (b : Bus) : (b.regRead cfg r).2.shadow = b.shadow := rfl
@[simp] theorem Bus.regRead_dev (cfg : Config) (r : RegId) (b : Bus) :
    (b.regRead cfg r).2.dev = RegFile.put b.dev r b.draws.nextRead := rfl
@[simp] theorem Bus.regRead_draws (cfg : Config) (r : RegId) (b : Bus) :
    (b.regRead cfg r).2.draws = { b.draws with reads := b.draws.reads.tail, count := b.draws.count + 1 } := rfl
@[simp] theorem Bus.regRead_trace (cfg : Config) (r : RegId) (b : Bus) :
    (b.regRead cfg r).2.trace = b.trace ++ [.regRead (off cfg r) b.draws.nextRead] := rfl

@[simp] theorem Bus.regWrite_shadow (cfg : Config) (r : RegId) (v : Word) (b : Bus) :
    (b.regWrite cfg r v).shadow = b.shadow := rfl
@[simp] theorem Bus.regWrite_dev (cfg : Config) (r : RegId) (v : Word) (b : Bus) :
    (b.regWrite cfg r v).dev = RegFile.put b.dev r (deviceAfterWrite cfg r (RegFile.at b.dev r) v) := rfl
@[simp] theorem Bus.regWrite_draws (cfg : Config) (r : RegId) (v : Word) (b : Bus) :
    (b.regWrite cfg r v).draws = b.draws := rfl
@[simp] theorem Bus.regWrite_trace (cfg : Config) (r : RegId) (v : Word) (b : Bus) :
    (b.regWrite cfg r v).trace = b.trace ++ [.regWrite (off cfg r) v] := rfl

@[simp] theorem Bus.emit_shadow (e : Event) (b : Bus) : (b.emit e).shadow = b.shadow := rfl
@[simp] theorem Bus.emit_dev (e : Event) (b : Bus) : (b.emit e).dev = b.dev := rfl
@[simp] theorem Bus.emit_draws (e : Event) (b : Bus) : (b.emit e).draws = b.draws := rfl
@[simp] theorem Bus.emit_trace (e : Event) (b : Bus) : (b.emit e).trace = b.trace ++ [e] := rfl

theorem Bus.setShadow_cached {cfg : Config} {r : RegId} (h : cached cfg r = true) (v : Word) (b : Bus) :
    b.setShadow cfg r v = { b with shadow := RegFile.put b.shadow r (some v) } := by
  simp [Bus.setShadow, h]

theorem Bus.setShadow_volatile {cfg : Config} {r : RegId} (h : cached cfg r = false) (v : Word) (b : Bus) :
    b.setShadow cfg r v = b := by
  simp [Bus.setShadow, h]

@[simp] theorem Bus.setShadow_dev (cfg : Config) (r : RegId) (v : Word) (b : Bus) :
    (b.setShadow cfg r v).dev = b.dev := by
  unfold Bus.setShadow; split <;> rfl
@[simp] theorem Bus.setShadow_draws (cfg : Config) (r : RegId) (v : Word) (b : Bus) :
    (b.setShadow cfg r v).draws = b.draws := by
  unfold Bus.setShadow; split <;> rfl
@[simp] theorem Bus.setShadow_trace (cfg : Config) (r : RegId) (v : Word) (b : Bus) :
    (b.setShadow cfg r v).trace = b.trace := by
  unfold Bus.setShadow; split <;> rfl

theorem Bus.setShadow_other (cfg : Config) {r q : RegId} (v : Word) (b : Bus) (h : q ≠ r) :
    RegFile.at (b.setShadow cfg r v).shadow q = RegFile.at b.shadow q := by
  unfold Bus.setShadow; split
  · exact RegFile.at_put_other _ _ h
  · rfl

@[simp] theorem Bus.store_draws (cfg : Config) (r : RegId) (v : Word) (b : Bus) :
    (b.store cfg r v).draws = b.draws := by simp [Bus.store]
@[simp] theorem Bus.store_trace (cfg : Config) (r : RegId) (v : Word) (b : Bus) :
    (b.store cfg r v).trace = b.trace ++ [.regWrite (off cfg r) v] := by simp [Bus.store]
@[simp] theorem Bus.store_dev (cfg : Config) (r : RegId) (v : Word) (b : Bus) :
    (b.store cfg r v).dev = RegFile.put b.dev r (deviceAfterWrite cfg r (RegFile.at b.dev r) v) := by
  simp [Bus.store]

/-- A write leaves every other shadow alone. -/
theorem Bus.store_shadow_other (cfg : Config) {r q : RegId} (v : Word) (b : Bus) (h : q ≠ r) :
    RegFile.at (b.store cfg r v).shadow q = RegFile.at b.shadow q := by
  simpa [Bus.store] using Bus.setShadow_other cfg v (b.regWrite cfg r v) h

/-- A write of a cached register leaves its shadow at the value written (R146). -/
theorem Bus.store_shadow_same {cfg : Config} {r : RegId} (h : cached cfg r = true) (v : Word) (b : Bus) :
    RegFile.at (b.store cfg r v).shadow r = some v := by
  simp [Bus.store, Bus.setShadow_cached h]

/-- A write of a volatile register touches no shadow (R144). -/
theorem Bus.store_shadow_volatile {cfg : Config} {r : RegId} (h : cached cfg r = false) (v : Word) (b : Bus) :
    (b.store cfg r v).shadow = b.shadow := by
  simp [Bus.store, Bus.setShadow_volatile h]

/-! ## The base of a field write (R141) -/

/-- Everything `base` can do: the valid shadow with no transaction, or one read that fills the shadow. -/
theorem Bus.base_cases (cfg : Config) (r : RegId) (b : Bus) :
    (∃ x, b.validShadow cfg r = some x ∧ b.base cfg r = (x, b)) ∨
    (b.validShadow cfg r = none ∧
      b.base cfg r = (b.draws.nextRead, (b.regRead cfg r).2.setShadow cfg r b.draws.nextRead)) := by
  unfold Bus.base
  cases h : b.validShadow cfg r with
  | some x => exact .inl ⟨x, rfl, rfl⟩
  | none => exact .inr ⟨rfl, rfl⟩

theorem Bus.base_of_valid {cfg : Config} {r : RegId} {b : Bus} {x : Word} (h : b.validShadow cfg r = some x) :
    b.base cfg r = (x, b) := by
  simp [Bus.base, h]

theorem Bus.base_of_invalid {cfg : Config} {r : RegId} {b : Bus} (h : b.validShadow cfg r = none) :
    b.base cfg r = (b.draws.nextRead, (b.regRead cfg r).2.setShadow cfg r b.draws.nextRead) := by
  simp [Bus.base, h]

theorem Bus.base_shadow_other (cfg : Config) {r q : RegId} (b : Bus) (h : q ≠ r) :
    RegFile.at (b.base cfg r).2.shadow q = RegFile.at b.shadow q := by
  obtain ⟨x, -, e⟩ | ⟨-, e⟩ := b.base_cases cfg r
  · rw [e]
  · rw [e, Bus.setShadow_other _ _ _ h]; rfl

/-- After `base`, a cached register's shadow is the base value. -/
theorem Bus.base_shadow_same {cfg : Config} {r : RegId} (hc : cached cfg r = true) (b : Bus) :
    RegFile.at (b.base cfg r).2.shadow r = some (b.base cfg r).1 := by
  obtain ⟨x, hx, e⟩ | ⟨-, e⟩ := b.base_cases cfg r
  · rw [e]; simpa [Bus.validShadow, hc] using hx
  · rw [e]; simp [Bus.setShadow_cached hc]

theorem Bus.base_shadow_volatile {cfg : Config} {r : RegId} (hc : cached cfg r = false) (b : Bus) :
    (b.base cfg r).2.shadow = b.shadow := by
  obtain ⟨x, hx, e⟩ | ⟨-, e⟩ := b.base_cases cfg r
  · rw [e]
  · rw [e]; simp [Bus.setShadow_volatile hc]

/-! ## Field writes (R142, R143) -/

theorem Bus.storeIfChanged_shadow_other (cfg : Config) {r q : RegId} (x new : Word) (b : Bus) (h : q ≠ r) :
    RegFile.at (b.storeIfChanged cfg r x new).shadow q = RegFile.at b.shadow q := by
  unfold Bus.storeIfChanged; split
  · rfl
  · exact Bus.store_shadow_other cfg new b h

/-- After a base and its write, a cached register's shadow is the new value, whether or not the write was elided. -/
theorem Bus.storeIfChanged_shadow_same {cfg : Config} {r : RegId} (hc : cached cfg r = true) (b : Bus) (new : Word) :
    RegFile.at ((b.base cfg r).2.storeIfChanged cfg r (b.base cfg r).1 new).shadow r = some new := by
  unfold Bus.storeIfChanged; split
  · rename_i h; rw [h, Bus.base_shadow_same hc]
  · exact Bus.store_shadow_same hc new _

theorem Bus.storeIfChanged_shadow_volatile {cfg : Config} {r : RegId} (hc : cached cfg r = false) (x new : Word)
    (b : Bus) : (b.storeIfChanged cfg r x new).shadow = b.shadow := by
  unfold Bus.storeIfChanged; split
  · rfl
  · exact Bus.store_shadow_volatile hc new b

/-- A normal field write leaves every other register's shadow alone. -/
theorem Bus.fieldWrite_shadow_other (cfg : Config) (f : FieldId) (v : Word) (b : Bus) {q : RegId}
    (h : q ≠ (pos cfg f).reg) : RegFile.at (b.fieldWrite cfg f v).shadow q = RegFile.at b.shadow q := by
  simp only [Bus.fieldWrite]
  rw [Bus.storeIfChanged_shadow_other _ _ _ _ h, Bus.base_shadow_other _ _ h]

/-- A normal field write leaves a cached register's shadow at the base with the field replaced (R142). -/
theorem Bus.fieldWrite_shadow_same {cfg : Config} {f : FieldId} (hc : cached cfg (pos cfg f).reg = true) (v : Word)
    (b : Bus) :
    RegFile.at (b.fieldWrite cfg f v).shadow (pos cfg f).reg =
      some (putField (pos cfg f) (b.base cfg (pos cfg f).reg).1 v) :=
  Bus.storeIfChanged_shadow_same hc b _

/-- A forced field write leaves every other register's shadow alone. -/
theorem Bus.fieldForce_shadow_other (cfg : Config) (f : FieldId) (v : Word) (b : Bus) {q : RegId}
    (h : q ≠ (pos cfg f).reg) : RegFile.at (b.fieldForce cfg f v).shadow q = RegFile.at b.shadow q := by
  simp only [Bus.fieldForce]
  rw [Bus.store_shadow_other _ _ _ h, Bus.base_shadow_other _ _ h]

/-- A forced field write leaves a cached register's shadow at the base with the field replaced (R143). -/
theorem Bus.fieldForce_shadow_same {cfg : Config} {f : FieldId} (hc : cached cfg (pos cfg f).reg = true) (v : Word)
    (b : Bus) :
    RegFile.at (b.fieldForce cfg f v).shadow (pos cfg f).reg =
      some (putField (pos cfg f) (b.base cfg (pos cfg f).reg).1 v) :=
  Bus.store_shadow_same hc _ _

/-- One register of a grouped write leaves every other shadow alone. -/
theorem Bus.groupOne_shadow_other (cfg : Config) (ws : List (FieldId × Word)) (b : Bus) {r q : RegId} (h : q ≠ r) :
    RegFile.at (b.groupOne cfg ws r).shadow q = RegFile.at b.shadow q := by
  simp only [Bus.groupOne]
  rw [Bus.storeIfChanged_shadow_other _ _ _ _ h, Bus.base_shadow_other _ _ h]

/-! ## Volatile registers keep no shadow -/

/-- No volatile register has a shadow. -/
def Bus.volatileClear (cfg : Config) (b : Bus) : Prop := ∀ r, cached cfg r = false → RegFile.at b.shadow r = none

theorem Bus.volatileClear_of_shadow {cfg : Config} {b b' : Bus} (h : b.volatileClear cfg) (e : b'.shadow = b.shadow) :
    b'.volatileClear cfg := fun r hr => by rw [e]; exact h r hr

theorem Bus.volatileClear_setShadow {cfg : Config} {b : Bus} (h : b.volatileClear cfg) (r : RegId) (v : Word) :
    (b.setShadow cfg r v).volatileClear cfg := fun q hq => by
  unfold Bus.setShadow; split
  · rename_i hc
    have : q ≠ r := fun e => by rw [e, hc] at hq; cases hq
    rw [show ({ b with shadow := RegFile.put b.shadow r (some v) } : Bus).shadow = RegFile.put b.shadow r (some v)
      from rfl, RegFile.at_put_other _ _ this]
    exact h q hq
  · exact h q hq

theorem Bus.volatileClear_store {cfg : Config} {b : Bus} (h : b.volatileClear cfg) (r : RegId) (v : Word) :
    (b.store cfg r v).volatileClear cfg := 
  Bus.volatileClear_setShadow (b := b.regWrite cfg r v) h r v

theorem Bus.volatileClear_base {cfg : Config} {b : Bus} (h : b.volatileClear cfg) (r : RegId) :
    (b.base cfg r).2.volatileClear cfg := by
  obtain ⟨x, -, e⟩ | ⟨-, e⟩ := b.base_cases cfg r
  · rw [e]; exact h
  · rw [e]; exact Bus.volatileClear_setShadow (b := (b.regRead cfg r).2) h r _

theorem Bus.volatileClear_storeIfChanged {cfg : Config} {b : Bus} (h : b.volatileClear cfg) (r : RegId)
    (x new : Word) : (b.storeIfChanged cfg r x new).volatileClear cfg := by
  unfold Bus.storeIfChanged; split
  · exact h
  · exact Bus.volatileClear_store h r new

theorem Bus.volatileClear_fieldWrite {cfg : Config} {b : Bus} (h : b.volatileClear cfg) (f : FieldId) (v : Word) :
    (b.fieldWrite cfg f v).volatileClear cfg :=
  Bus.volatileClear_storeIfChanged (Bus.volatileClear_base h _) _ _ _

theorem Bus.volatileClear_fieldForce {cfg : Config} {b : Bus} (h : b.volatileClear cfg) (f : FieldId) (v : Word) :
    (b.fieldForce cfg f v).volatileClear cfg :=
  Bus.volatileClear_store (Bus.volatileClear_base h _) _ _

theorem Bus.volatileClear_groupWrite {cfg : Config} {b : Bus} (h : b.volatileClear cfg) (ws : List (FieldId × Word)) :
    (b.groupWrite cfg ws).volatileClear cfg := by
  unfold Bus.groupWrite
  generalize groupRegs cfg [] ws = rs
  induction rs generalizing b with
  | nil => exact h
  | cons r rs ih => exact ih (Bus.volatileClear_storeIfChanged (Bus.volatileClear_base h r) r _ _)

/-! ## The trace only grows -/

/-- What the engine did before is still there: the trace of `b` starts with that of `a`. -/
def Bus.continues (a b : Bus) : Prop := ∃ es, b.trace = a.trace ++ es

theorem Bus.continues_refl (a : Bus) : a.continues a := ⟨[], (List.append_nil _).symm⟩

theorem Bus.continues_trans {a b c : Bus} (h : a.continues b) (h' : b.continues c) : a.continues c := by
  obtain ⟨es, h⟩ := h
  obtain ⟨fs, h'⟩ := h'
  exact ⟨es ++ fs, by rw [h', h, List.append_assoc]⟩

theorem Bus.continues_emit (e : Event) (b : Bus) : b.continues (b.emit e) := ⟨[e], rfl⟩
theorem Bus.continues_regRead (cfg : Config) (r : RegId) (b : Bus) : b.continues (b.regRead cfg r).2 := ⟨_, rfl⟩
theorem Bus.continues_store (cfg : Config) (r : RegId) (v : Word) (b : Bus) : b.continues (b.store cfg r v) :=
  ⟨_, Bus.store_trace cfg r v b⟩

theorem Bus.continues_base (cfg : Config) (r : RegId) (b : Bus) : b.continues (b.base cfg r).2 := by
  obtain ⟨x, -, e⟩ | ⟨-, e⟩ := b.base_cases cfg r
  · rw [e]; exact b.continues_refl
  · rw [e]; exact ⟨_, by rw [Bus.setShadow_trace]; rfl⟩

theorem Bus.continues_storeIfChanged (cfg : Config) (r : RegId) (x new : Word) (b : Bus) :
    b.continues (b.storeIfChanged cfg r x new) := by
  unfold Bus.storeIfChanged; split
  · exact b.continues_refl
  · exact b.continues_store cfg r new

theorem Bus.continues_fieldWrite (cfg : Config) (f : FieldId) (v : Word) (b : Bus) :
    b.continues (b.fieldWrite cfg f v) :=
  Bus.continues_trans (b.continues_base cfg _) (Bus.continues_storeIfChanged cfg _ _ _ _)

theorem Bus.continues_fieldForce (cfg : Config) (f : FieldId) (v : Word) (b : Bus) :
    b.continues (b.fieldForce cfg f v) :=
  Bus.continues_trans (b.continues_base cfg _) (Bus.continues_store cfg _ _ _)

theorem Bus.continues_groupWrite (cfg : Config) (ws : List (FieldId × Word)) (b : Bus) :
    b.continues (b.groupWrite cfg ws) := by
  unfold Bus.groupWrite
  generalize groupRegs cfg [] ws = rs
  induction rs generalizing b with
  | nil => exact b.continues_refl
  | cons r rs ih =>
    exact Bus.continues_trans
      (Bus.continues_trans (b.continues_base cfg r) (Bus.continues_storeIfChanged cfg _ _ _ _))
      (ih (b.groupOne cfg ws r))

end Sys2Proof.Machine
end

