-- ==== Sys2Proof/Laws/Decode.lean ====
section
/-! SUPPORT. The codes of the encoding round trip, and each reader of side operands gives back what its writer wrote
(30_encoding.md R100-R104). -/

namespace Sys2Proof

/-! ## Halves of a concatenation -/

theorem append_low {m n : Nat} (a : BitVec m) (b : BitVec n) : (a ++ b).extractLsb' 0 n = b := by
  refine BitVec.eq_of_getLsbD_eq fun i hi => ?_
  simp [BitVec.getLsbD_append, hi]

theorem append_high {m n : Nat} (a : BitVec m) (b : BitVec n) : (a ++ b).extractLsb' n m = a := by
  refine BitVec.eq_of_getLsbD_eq fun i hi => ?_
  simp [BitVec.getLsbD_append, hi]

/-- A field that lies in the high part. -/
theorem append_field_high {m n : Nat} (a : BitVec m) (b : BitVec n) (k len : Nat) :
    (a ++ b).extractLsb' (n + k) len = a.extractLsb' k len := by
  refine BitVec.eq_of_getLsbD_eq fun i hi => ?_
  simp only [BitVec.getLsbD_append, BitVec.getLsbD_extractLsb']
  rw [if_neg (by omega), show n + k + i - n = k + i by omega]

/-- A field that lies in the low part. -/
theorem append_field_low {m n : Nat} (a : BitVec m) (b : BitVec n) {k len : Nat} (h : k + len ≤ n) :
    (a ++ b).extractLsb' k len = b.extractLsb' k len := by
  refine BitVec.eq_of_getLsbD_eq fun i hi => ?_
  simp only [BitVec.getLsbD_append, BitVec.getLsbD_extractLsb']
  rw [if_pos (by omega)]

theorem append_bit_low {m n : Nat} (a : BitVec m) (b : BitVec n) {k : Nat} (h : k < n) :
    (a ++ b).getLsbD k = b.getLsbD k := by
  rw [BitVec.getLsbD_append, if_pos h]

theorem append_bit_high {m n : Nat} (a : BitVec m) (b : BitVec n) (k : Nat) :
    (a ++ b).getLsbD (n + k) = a.getLsbD k := by
  rw [BitVec.getLsbD_append, if_neg (by omega), Nat.add_sub_cancel_left]

/-! ## Codes -/

@[simp] theorem RegId.ofCode_code {r : RegId} (h : r.named = true) : RegId.ofCode r.code = some r := by
  cases r <;> first | cases h; done | decide
@[simp] theorem FieldId.ofCode_code (f : FieldId) : FieldId.ofCode f.code = some f := by cases f <;> decide
@[simp] theorem Obj.ofCode_code (o : Obj) : Obj.ofCode o.code = o := by cases o <;> decide
@[simp] theorem CmdId.ofCode_code (o : CmdId) : CmdId.ofCode o.code = some o := by cases o <;> decide
@[simp] theorem Rsp.ofCode_code (r : Rsp) : Rsp.ofCode r.code = r := by cases r <;> decide
@[simp] theorem Dir.ofCode_code (d : Dir) : Dir.ofCode d.code = some d := by cases d <;> decide
@[simp] theorem BusWidth.ofCode_code (w : BusWidth) : BusWidth.ofCode w.code = some w := by cases w <;> decide

theorem RegId.code_of_ofCode {c : BitVec 8} {r : RegId} (h : RegId.ofCode c = some r) : r.code = c := by
  simpa using List.find?_some h

theorem RegId.named_of_ofCode {c : BitVec 8} {r : RegId} (h : RegId.ofCode c = some r) : r.named = true :=
  (by decide : ∀ r ∈ RegId.namedAll, r.named = true) r (List.mem_of_find?_eq_some h)

theorem FieldId.code_of_ofCode {c : BitVec 8} {f : FieldId} (h : FieldId.ofCode c = some f) : f.code = c := by
  simpa using List.find?_some h

@[simp] theorem Obj.code_ofCode (c : BitVec 2) : (Obj.ofCode c).code = c := by revert c; decide
@[simp] theorem Rsp.code_ofCode (c : BitVec 2) : (Rsp.ofCode c).code = c := by revert c; decide

theorem CmdId.code_of_ofCode {c : BitVec 2} {o : CmdId} (h : CmdId.ofCode c = some o) : o.code = c := by
  revert c o; decide

theorem Dir.code_of_ofCode {c : BitVec 2} {d : Dir} (h : Dir.ofCode c = some d) : d.code = c := by
  revert c; cases d <;> decide

theorem BusWidth.code_of_ofCode {c : BitVec 8} {w : BusWidth} (h : BusWidth.ofCode c = some w) : w.code = c := by
  unfold BusWidth.ofCode at h
  split at h
  · cases h; subst_vars; rfl
  · split at h
    · cases h; subst_vars; rfl
    · split at h
      · cases h; subst_vars; rfl
      · cases h

@[simp] theorem Shape.ofCode_code (sh : Shape) : Shape.ofCode sh.code = sh := by
  obtain ⟨a, d, b, c⟩ := sh
  cases a <;> cases b <;> cases c <;> revert d <;> decide

theorem Shape.code_reserved (sh : Shape) : sh.code.extractLsb' 5 3 = 0 := by
  obtain ⟨a, d, b, c⟩ := sh
  cases a <;> cases b <;> cases c <;> revert d <;> decide

theorem Shape.code_ofCode {c : BitVec 8} (h : c.extractLsb' 5 3 = 0) : (Shape.ofCode c).code = c := by
  revert c; decide

/-! ## The operation word -/

@[simp] theorem opWord_op (op sel : BitVec 8) : (opWord op sel).extractLsb' 8 8 = op :=   append_high op sel

@[simp] theorem opWord_sel (op sel : BitVec 8) : (opWord op sel).extractLsb' 0 8 = sel := 
  append_low op sel

theorem opWord_parts (w : Word) : opWord (w.extractLsb' 8 8) (w.extractLsb' 0 8) = w := by
  refine BitVec.eq_of_getLsbD_eq fun i hi => ?_
  simp only [opWord, BitVec.getLsbD_append, BitVec.getLsbD_extractLsb']
  by_cases h : i < 8
  · simp [h]
  · simp [h, show i - 8 < 8 by omega, show 8 + (i - 8) = i by omega]

/-- Decoding an operation word reads its two halves. -/
@[simp] theorem decode_opWord (op sel : BitVec 8) (ws : List Word) :
    decode (opWord op sel :: ws) = decodeOp op sel ws := by
  simp [decode]

/-! ## Side operands -/

theorem words32_join (v : Word32) : v.extractLsb' 16 16 ++ v.extractLsb' 0 16 = v := by
  refine BitVec.eq_of_getLsbD_eq fun i hi => ?_
  simp only [BitVec.getLsbD_append, BitVec.getLsbD_extractLsb']
  by_cases h : i < 16
  · simp [h]
  · simp [h, show i - 16 < 16 by omega, show 16 + (i - 16) = i by omega]

@[simp] theorem takeWord32_words (v : Word32) (ws : List Word) : takeWord32 (words32 v ++ ws) = .ok (v, ws) := by
  simp [takeWord32, words32, words32_join]

theorem takeWord32_ok {ws rest : List Word} {v : Word32} (h : takeWord32 ws = .ok (v, rest)) :
    ws = words32 v ++ rest := by
  match ws, h with
  | lo :: hi :: ws', h =>
    simp only [takeWord32, Except.ok.injEq, Prod.mk.injEq] at h
    obtain ⟨rfl, rfl⟩ := h
    simp [words32, append_low (n := 16) hi lo, append_high (n := 16) hi lo]

theorem takeNat_words {n : Nat} (h : n < 2 ^ 32) (ws : List Word) : takeNat (wordsNat n ++ ws) = .ok (n, ws) := by
  simp [takeNat, wordsNat, Nat.mod_eq_of_lt (show n < 4294967296 from h)]

theorem takeNat_ok {ws rest : List Word} {n : Nat} (h : takeNat ws = .ok (n, rest)) :
    n < 2 ^ 32 ∧ ws = wordsNat n ++ rest := by
  unfold takeNat at h
  split at h
  · rename_i v r hv
    simp only [Except.ok.injEq, Prod.mk.injEq] at h
    obtain ⟨rfl, rfl⟩ := h
    exact ⟨v.isLt, by simpa [wordsNat] using takeWord32_ok hv⟩
  · cases h

/-- The packed word of a command record (R104), its fields named. -/
def packedWord (op : BitVec 6) (rsp : BitVec 2) (busy crc echo tmo : Bool) : Word :=
  0#4 ++ BitVec.ofBool tmo ++ BitVec.ofBool echo ++ BitVec.ofBool crc ++ BitVec.ofBool busy ++ rsp ++ op

theorem packedWord_fields (op : BitVec 6) (rsp : BitVec 2) (busy crc echo tmo : Bool) :
    (packedWord op rsp busy crc echo tmo).extractLsb' 12 4 = 0 ∧
    (packedWord op rsp busy crc echo tmo).extractLsb' 0 6 = op ∧
    (packedWord op rsp busy crc echo tmo).extractLsb' 6 2 = rsp ∧
    (packedWord op rsp busy crc echo tmo).getLsbD 8 = busy ∧
    (packedWord op rsp busy crc echo tmo).getLsbD 9 = crc ∧
    (packedWord op rsp busy crc echo tmo).getLsbD 10 = echo ∧
    (packedWord op rsp busy crc echo tmo).getLsbD 11 = tmo := by
  have bit : ∀ x : Bool, (BitVec.ofBool x).getLsbD 0 = x := by decide
  have up : ∀ {m : Nat} (a : BitVec m) (x : Bool) (k : Nat), (a ++ BitVec.ofBool x).getLsbD (1 + k) = a.getLsbD k :=
    fun a x k => append_bit_high a (BitVec.ofBool x) k
  have here : ∀ {m : Nat} (a : BitVec m) (x : Bool), (a ++ BitVec.ofBool x).getLsbD 0 = x := fun a x => by
    rw [append_bit_low a (BitVec.ofBool x) (by decide), bit]
  have past : ∀ k, (packedWord op rsp busy crc echo tmo).getLsbD (6 + (2 + k)) =
      (0#4 ++ BitVec.ofBool tmo ++ BitVec.ofBool echo ++ BitVec.ofBool crc ++ BitVec.ofBool busy).getLsbD k := fun k =>
    (append_bit_high _ op (2 + k)).trans (append_bit_high _ rsp k)
  refine ⟨?_, append_low _ op, (append_field_high _ op 0 2).trans (append_low _ rsp), ?_, ?_, ?_, ?_⟩
  · refine (append_field_high (n := 6) _ op 6 4).trans ((append_field_high (n := 2) _ rsp 4 4).trans ?_)
    cases busy <;> cases crc <;> cases echo <;> cases tmo <;> decide
  · exact (past 0).trans (here _ busy)
  · exact (past 1).trans ((up _ busy 0).trans (here _ crc))
  · exact (past 2).trans ((up _ busy 1).trans ((up _ crc 0).trans (here _ echo)))
  · exact (past 3).trans ((up _ busy 2).trans ((up _ crc 1).trans ((up _ echo 0).trans (here _ tmo))))

theorem packedWord_of_fields {w : Word} (h : w.extractLsb' 12 4 = 0) :
    packedWord (w.extractLsb' 0 6) (w.extractLsb' 6 2) (w.getLsbD 8) (w.getLsbD 9) (w.getLsbD 10) (w.getLsbD 11) = w := by
  obtain ⟨h1, h2, h3, h4, h5, h6, h7⟩ := packedWord_fields (w.extractLsb' 0 6) (w.extractLsb' 6 2) (w.getLsbD 8)
    (w.getLsbD 9) (w.getLsbD 10) (w.getLsbD 11)
  generalize packedWord (w.extractLsb' 0 6) (w.extractLsb' 6 2) (w.getLsbD 8) (w.getLsbD 9) (w.getLsbD 10)
    (w.getLsbD 11) = p at *
  have field : ∀ {k len i : Nat}, p.extractLsb' k len = w.extractLsb' k len → k ≤ i → i < k + len →
      p.getLsbD i = w.getLsbD i := by
    intro k len i e hk hi
    have := congrArg (fun v => v.getLsbD (i - k)) e
    simpa [show i - k < len by omega, show k + (i - k) = i by omega] using this
  refine BitVec.eq_of_getLsbD_eq fun i hi => ?_
  by_cases c1 : i < 6
  · exact field h2 (by omega) (by omega)
  by_cases c2 : i < 8
  · exact field h3 (by omega) (by omega)
  by_cases c3 : i < 12
  · obtain rfl | rfl | rfl | rfl : i = 8 ∨ i = 9 ∨ i = 10 ∨ i = 11 := by omega
    · exact h4
    · exact h5
    · exact h6
    · exact h7
  · exact field (h1.trans h.symm) (by omega) (by omega)

theorem Command.words_eq (c : Command) :
    c.words = packedWord (c.opcode.extractLsb' 0 6) c.rsp.code c.busy c.crc c.echo c.busyTmo.isSome ::
      words32 c.arg ++ (match c.busyTmo with | some t => wordsNat t | none => []) := rfl

/-- Reading a command record gives back what was written (R104). -/
theorem takeCommand_words {c : Command} (h : c.wf = true) (ws : List Word) :
    takeCommand (c.words ++ ws) = .ok (c, ws) := by
  simp only [Command.wf, Bool.and_eq_true, decide_eq_true_eq] at h
  obtain ⟨ho, ht⟩ := h
  have hop : (c.opcode.extractLsb' 0 6).setWidth 8 = c.opcode := by
    apply BitVec.eq_of_toNat_eq
    simp only [BitVec.toNat_setWidth, BitVec.extractLsb'_toNat, Nat.shiftRight_zero]
    omega
  obtain ⟨h1, h2, h3, h4, h5, h6, h7⟩ :=
    packedWord_fields (c.opcode.extractLsb' 0 6) c.rsp.code c.busy c.crc c.echo c.busyTmo.isSome
  obtain ⟨op, arg, rsp, busy, crc, echo, tmo⟩ := c
  cases tmo with
  | none =>
    simp_all [Command.words_eq, takeCommand, words32, words32_join]
  | some t =>
    have ht' : t < 2 ^ 32 := by simpa using ht
    simp_all [Command.words_eq, takeCommand, words32, words32_join, takeNat_words]

/-- A command record read is the one its words write. -/
theorem takeCommand_ok {ws rest : List Word} {c : Command} (h : takeCommand ws = .ok (c, rest)) :
    c.wf = true ∧ ws = c.words ++ rest := by
  match ws, h with
  | w :: lo :: hi :: ws', h =>
    simp only [takeCommand] at h
    split at h
    · cases h
    · rename_i hz
      have hz' : w.extractLsb' 12 4 = 0 := by simpa using hz
      have hw := packedWord_of_fields hz'
      have hlt : ((w.extractLsb' 0 6).setWidth 8).toNat < 64 := by
        simp only [BitVec.toNat_setWidth, BitVec.extractLsb'_toNat]; omega
      have hop : ((w.extractLsb' 0 6).setWidth 8 : Byte).extractLsb' 0 6 = w.extractLsb' 0 6 := by
        apply BitVec.eq_of_toNat_eq
        simp only [BitVec.toNat_setWidth, BitVec.extractLsb'_toNat]; omega
      have hj := append_low (n := 16) hi lo
      have hk := append_high (n := 16) hi lo
      split at h
      · rename_i ht
        split at h
        · rename_i t r hr
          simp only [Except.ok.injEq, Prod.mk.injEq] at h
          obtain ⟨rfl, rfl⟩ := h
          obtain ⟨hb, rfl⟩ := takeNat_ok hr
          refine ⟨by rw [Command.wf, Bool.and_eq_true]; exact ⟨decide_eq_true hlt, decide_eq_true hb⟩, ?_⟩
          rw [ht] at hw
          simp only [Command.words_eq, words32, hop, hj, hk, Rsp.code_ofCode, Option.isSome_some, hw]
          rfl
        · cases h
      · rename_i ht
        simp only [Except.ok.injEq, Prod.mk.injEq] at h
        obtain ⟨rfl, rfl⟩ := h
        refine ⟨by rw [Command.wf, Bool.and_eq_true]; exact ⟨decide_eq_true hlt, rfl⟩, ?_⟩
        rw [Bool.not_eq_true] at ht
        rw [ht] at hw
        simp only [Command.words_eq, words32, hop, hj, hk, Rsp.code_ofCode, Option.isSome_none, hw]
        rfl

/-- Reading a data record gives back what was written. -/
theorem takeData_words {d : Data} (h : d.wf = true) (ws : List Word) : takeData (d.words ++ ws) = .ok (d, ws) := by
  simp only [Data.wf, Bool.and_eq_true, decide_eq_true_eq] at h
  obtain ⟨⟨⟨h1, h2⟩, h3⟩, h4⟩ := h
  obtain ⟨dir, bs, blocks, buf, tmo⟩ := d
  have e1 : (0#14 ++ dir.code : BitVec 16).extractLsb' 2 14 = 0#14 := append_high _ _
  have e2 : (0#14 ++ dir.code : BitVec 16).extractLsb' 0 2 = dir.code := append_low _ _
  have e : ∀ n : Nat, n < 2 ^ 32 → n % 4294967296 = n := fun n hn => Nat.mod_eq_of_lt hn
  simp [Data.words, takeData, wordsNat, words32, e1, e2, words32_join, e _ h1, e _ h2, e _ h3, e _ h4]

/-- A data record read is the one its words write. -/
theorem takeData_ok {ws rest : List Word} {d : Data} (h : takeData ws = .ok (d, rest)) :
    d.wf = true ∧ ws = d.words ++ rest := by
  match ws, h with
  | w :: bl :: bh :: cl :: ch :: ul :: uh :: tl :: th :: ws', h =>
    simp only [takeData] at h
    split at h
    · cases h
    · rename_i hz
      split at h
      · cases h
      · rename_i dir hd
        simp only [Except.ok.injEq, Prod.mk.injEq] at h
        obtain ⟨rfl, rfl⟩ := h
        have hc := Dir.code_of_ofCode hd
        have hw : (0#14 ++ dir.code : BitVec 16) = w := by
          have hz' : w.extractLsb' 2 14 = 0#14 := by simpa using hz
          rw [hc, ← hz']
          refine BitVec.eq_of_getLsbD_eq fun i hi => ?_
          simp only [BitVec.getLsbD_append, BitVec.getLsbD_extractLsb']
          by_cases h : i < 2
          · simp [h]
          · simp [h, show i - 2 < 14 by omega, show 2 + (i - 2) = i by omega]
        have hlt : ∀ v : Word32, v.toNat < 2 ^ 32 := fun v => v.isLt
        refine ⟨by simp only [Data.wf, hlt, decide_true, Bool.and_self], ?_⟩
        simp [Data.words, wordsNat, words32, hw, append_low (n := 16), append_high (n := 16)]

theorem takeIf_true {α : Type} (take : List Word → Parsed α) (ws : List Word) {a : α} {rest : List Word}
    (h : take ws = .ok (a, rest)) : takeIf true take ws = .ok (some a, rest) := by
  simp [takeIf, h]

@[simp] theorem takeIf_false {α : Type} (take : List Word → Parsed α) (ws : List Word) :
    takeIf false take ws = .ok (none, ws) := rfl

end Sys2Proof
end

