-- ==== Sys2Proof/Laws/State.lean ====
section
/-! SUPPORT. One lemma per field of State for each shared operation on states: what the field holds after it. -/

namespace Sys2Proof.Machine

open Sys2Proof


/-! ## State.advance -/

@[simp] theorem State.advance_cfg (s : State) : s.advance.cfg = s.cfg := rfl
@[simp] theorem State.advance_mode (s : State) : s.advance.mode = s.mode := rfl
@[simp] theorem State.advance_busy (s : State) : s.advance.busy = s.busy := rfl
@[simp] theorem State.advance_prog (s : State) : s.advance.prog = s.prog := rfl
@[simp] theorem State.advance_upc (s : State) : s.advance.upc = s.upc + 1 := rfl
@[simp] theorem State.advance_lat (s : State) : s.advance.lat = s.lat := rfl
@[simp] theorem State.advance_wres (s : State) : s.advance.wres = s.wres := rfl
@[simp] theorem State.advance_snap (s : State) : s.advance.snap = s.snap := rfl
@[simp] theorem State.advance_req (s : State) : s.advance.req = s.req := rfl
@[simp] theorem State.advance_bus (s : State) : s.advance.bus = s.bus := rfl
@[simp] theorem State.advance_arena (s : State) : s.advance.arena = s.arena := rfl
@[simp] theorem State.advance_arenaBase (s : State) : s.advance.arenaBase = s.arenaBase := rfl
@[simp] theorem State.advance_arenaMap (s : State) : s.advance.arenaMap = s.arenaMap := rfl
@[simp] theorem State.advance_segMap (s : State) : s.advance.segMap = s.segMap := rfl
@[simp] theorem State.advance_settled (s : State) : s.advance.settled = s.settled := rfl
@[simp] theorem State.advance_log (s : State) : s.advance.log = s.log := rfl
@[simp] theorem State.advance_rstErr (s : State) : s.advance.rstErr = s.rstErr := rfl
@[simp] theorem State.advance_sub (s : State) : s.advance.sub = s.sub := rfl
@[simp] theorem State.advance_mem (s : State) : s.advance.mem = s.mem := rfl
@[simp] theorem State.advance_result (s : State) : s.advance.result = s.result := rfl
@[simp] theorem State.advance_waitTmo (s : State) : s.advance.waitTmo = s.waitTmo := rfl
@[simp] theorem State.advance_waitArg (s : State) : s.advance.waitArg = s.waitArg := rfl
@[simp] theorem State.advance_inReset (s : State) : s.advance.inReset = s.inReset := rfl
@[simp] theorem State.advance_armed (s : State) : s.advance.armed = s.armed := rfl
@[simp] theorem State.advance_inputs (s : State) : s.advance.inputs = s.inputs := rfl

/-! ## State.onBus -/

@[simp] theorem State.onBus_cfg (f : Bus → Bus) (s : State) : (s.onBus f).cfg = s.cfg := rfl
@[simp] theorem State.onBus_mode (f : Bus → Bus) (s : State) : (s.onBus f).mode = s.mode := rfl
@[simp] theorem State.onBus_busy (f : Bus → Bus) (s : State) : (s.onBus f).busy = s.busy := rfl
@[simp] theorem State.onBus_prog (f : Bus → Bus) (s : State) : (s.onBus f).prog = s.prog := rfl
@[simp] theorem State.onBus_upc (f : Bus → Bus) (s : State) : (s.onBus f).upc = s.upc := rfl
@[simp] theorem State.onBus_lat (f : Bus → Bus) (s : State) : (s.onBus f).lat = s.lat := rfl
@[simp] theorem State.onBus_wres (f : Bus → Bus) (s : State) : (s.onBus f).wres = s.wres := rfl
@[simp] theorem State.onBus_snap (f : Bus → Bus) (s : State) : (s.onBus f).snap = s.snap := rfl
@[simp] theorem State.onBus_req (f : Bus → Bus) (s : State) : (s.onBus f).req = s.req := rfl
@[simp] theorem State.onBus_bus (f : Bus → Bus) (s : State) : (s.onBus f).bus = f s.bus := rfl
@[simp] theorem State.onBus_arena (f : Bus → Bus) (s : State) : (s.onBus f).arena = s.arena := rfl
@[simp] theorem State.onBus_arenaBase (f : Bus → Bus) (s : State) : (s.onBus f).arenaBase = s.arenaBase := rfl
@[simp] theorem State.onBus_arenaMap (f : Bus → Bus) (s : State) : (s.onBus f).arenaMap = s.arenaMap := rfl
@[simp] theorem State.onBus_segMap (f : Bus → Bus) (s : State) : (s.onBus f).segMap = s.segMap := rfl
@[simp] theorem State.onBus_settled (f : Bus → Bus) (s : State) : (s.onBus f).settled = s.settled := rfl
@[simp] theorem State.onBus_log (f : Bus → Bus) (s : State) : (s.onBus f).log = s.log := rfl
@[simp] theorem State.onBus_rstErr (f : Bus → Bus) (s : State) : (s.onBus f).rstErr = s.rstErr := rfl
@[simp] theorem State.onBus_sub (f : Bus → Bus) (s : State) : (s.onBus f).sub = s.sub := rfl
@[simp] theorem State.onBus_mem (f : Bus → Bus) (s : State) : (s.onBus f).mem = s.mem := rfl
@[simp] theorem State.onBus_result (f : Bus → Bus) (s : State) : (s.onBus f).result = s.result := rfl
@[simp] theorem State.onBus_waitTmo (f : Bus → Bus) (s : State) : (s.onBus f).waitTmo = s.waitTmo := rfl
@[simp] theorem State.onBus_waitArg (f : Bus → Bus) (s : State) : (s.onBus f).waitArg = s.waitArg := rfl
@[simp] theorem State.onBus_inReset (f : Bus → Bus) (s : State) : (s.onBus f).inReset = s.inReset := rfl
@[simp] theorem State.onBus_armed (f : Bus → Bus) (s : State) : (s.onBus f).armed = s.armed := rfl
@[simp] theorem State.onBus_inputs (f : Bus → Bus) (s : State) : (s.onBus f).inputs = s.inputs := rfl

/-! ## State.addLog -/

@[simp] theorem State.addLog_cfg (es : List LogEntry) (s : State) : (s.addLog es).cfg = s.cfg := rfl
@[simp] theorem State.addLog_mode (es : List LogEntry) (s : State) : (s.addLog es).mode = s.mode := rfl
@[simp] theorem State.addLog_busy (es : List LogEntry) (s : State) : (s.addLog es).busy = s.busy := rfl
@[simp] theorem State.addLog_prog (es : List LogEntry) (s : State) : (s.addLog es).prog = s.prog := rfl
@[simp] theorem State.addLog_upc (es : List LogEntry) (s : State) : (s.addLog es).upc = s.upc := rfl
@[simp] theorem State.addLog_lat (es : List LogEntry) (s : State) : (s.addLog es).lat = s.lat := rfl
@[simp] theorem State.addLog_wres (es : List LogEntry) (s : State) : (s.addLog es).wres = s.wres := rfl
@[simp] theorem State.addLog_snap (es : List LogEntry) (s : State) : (s.addLog es).snap = s.snap := rfl
@[simp] theorem State.addLog_req (es : List LogEntry) (s : State) : (s.addLog es).req = s.req := rfl
@[simp] theorem State.addLog_bus (es : List LogEntry) (s : State) : (s.addLog es).bus = s.bus := rfl
@[simp] theorem State.addLog_arena (es : List LogEntry) (s : State) : (s.addLog es).arena = s.arena := rfl
@[simp] theorem State.addLog_arenaBase (es : List LogEntry) (s : State) : (s.addLog es).arenaBase = s.arenaBase := rfl
@[simp] theorem State.addLog_arenaMap (es : List LogEntry) (s : State) : (s.addLog es).arenaMap = s.arenaMap := rfl
@[simp] theorem State.addLog_segMap (es : List LogEntry) (s : State) : (s.addLog es).segMap = s.segMap := rfl
@[simp] theorem State.addLog_settled (es : List LogEntry) (s : State) : (s.addLog es).settled = s.settled := rfl
@[simp] theorem State.addLog_log (es : List LogEntry) (s : State) : (s.addLog es).log = s.log ++ es := rfl
@[simp] theorem State.addLog_rstErr (es : List LogEntry) (s : State) : (s.addLog es).rstErr = s.rstErr := rfl
@[simp] theorem State.addLog_sub (es : List LogEntry) (s : State) : (s.addLog es).sub = s.sub := rfl
@[simp] theorem State.addLog_mem (es : List LogEntry) (s : State) : (s.addLog es).mem = s.mem := rfl
@[simp] theorem State.addLog_result (es : List LogEntry) (s : State) : (s.addLog es).result = s.result := rfl
@[simp] theorem State.addLog_waitTmo (es : List LogEntry) (s : State) : (s.addLog es).waitTmo = s.waitTmo := rfl
@[simp] theorem State.addLog_waitArg (es : List LogEntry) (s : State) : (s.addLog es).waitArg = s.waitArg := rfl
@[simp] theorem State.addLog_inReset (es : List LogEntry) (s : State) : (s.addLog es).inReset = s.inReset := rfl
@[simp] theorem State.addLog_armed (es : List LogEntry) (s : State) : (s.addLog es).armed = s.armed := rfl
@[simp] theorem State.addLog_inputs (es : List LogEntry) (s : State) : (s.addLog es).inputs = s.inputs := rfl

/-! ## State.clearEvents -/

@[simp] theorem State.clearEvents_cfg (s : State) : s.clearEvents.cfg = s.cfg := rfl
@[simp] theorem State.clearEvents_mode (s : State) : s.clearEvents.mode = s.mode := rfl
@[simp] theorem State.clearEvents_busy (s : State) : s.clearEvents.busy = s.busy := rfl
@[simp] theorem State.clearEvents_prog (s : State) : s.clearEvents.prog = s.prog := rfl
@[simp] theorem State.clearEvents_upc (s : State) : s.clearEvents.upc = s.upc := rfl
@[simp] theorem State.clearEvents_lat (s : State) : s.clearEvents.lat = Latches.clear := rfl
@[simp] theorem State.clearEvents_wres (s : State) : s.clearEvents.wres = none := rfl
@[simp] theorem State.clearEvents_snap (s : State) : s.clearEvents.snap = none := rfl
@[simp] theorem State.clearEvents_req (s : State) : s.clearEvents.req = s.req := rfl
@[simp] theorem State.clearEvents_bus (s : State) : s.clearEvents.bus = s.bus.store s.cfg .event 0xFFFF := rfl
@[simp] theorem State.clearEvents_arena (s : State) : s.clearEvents.arena = s.arena := rfl
@[simp] theorem State.clearEvents_arenaBase (s : State) : s.clearEvents.arenaBase = s.arenaBase := rfl
@[simp] theorem State.clearEvents_arenaMap (s : State) : s.clearEvents.arenaMap = s.arenaMap := rfl
@[simp] theorem State.clearEvents_segMap (s : State) : s.clearEvents.segMap = s.segMap := rfl
@[simp] theorem State.clearEvents_settled (s : State) : s.clearEvents.settled = s.settled := rfl
@[simp] theorem State.clearEvents_log (s : State) : s.clearEvents.log = s.log := rfl
@[simp] theorem State.clearEvents_rstErr (s : State) : s.clearEvents.rstErr = s.rstErr := rfl
@[simp] theorem State.clearEvents_sub (s : State) : s.clearEvents.sub = s.sub := rfl
@[simp] theorem State.clearEvents_mem (s : State) : s.clearEvents.mem = s.mem := rfl
@[simp] theorem State.clearEvents_result (s : State) : s.clearEvents.result = s.result := rfl
@[simp] theorem State.clearEvents_waitTmo (s : State) : s.clearEvents.waitTmo = s.waitTmo := rfl
@[simp] theorem State.clearEvents_waitArg (s : State) : s.clearEvents.waitArg = s.waitArg := rfl
@[simp] theorem State.clearEvents_inReset (s : State) : s.clearEvents.inReset = s.inReset := rfl
@[simp] theorem State.clearEvents_armed (s : State) : s.clearEvents.armed = s.armed := rfl
@[simp] theorem State.clearEvents_inputs (s : State) : s.clearEvents.inputs = s.inputs := rfl

/-! ## State.latchMerge -/

@[simp] theorem State.latchMerge_cfg (v : Word) (d : Bool) (s : State) : (s.latchMerge v d).cfg = s.cfg := rfl
@[simp] theorem State.latchMerge_mode (v : Word) (d : Bool) (s : State) : (s.latchMerge v d).mode = s.mode := rfl
@[simp] theorem State.latchMerge_busy (v : Word) (d : Bool) (s : State) : (s.latchMerge v d).busy = s.busy := rfl
@[simp] theorem State.latchMerge_prog (v : Word) (d : Bool) (s : State) : (s.latchMerge v d).prog = s.prog := rfl
@[simp] theorem State.latchMerge_upc (v : Word) (d : Bool) (s : State) : (s.latchMerge v d).upc = s.upc := rfl
@[simp] theorem State.latchMerge_lat (v : Word) (d : Bool) (s : State) :
    (s.latchMerge v d).lat = mergedLatches s.cfg v s.lat := rfl
@[simp] theorem State.latchMerge_wres (v : Word) (d : Bool) (s : State) : (s.latchMerge v d).wres = s.wres := rfl
@[simp] theorem State.latchMerge_snap (v : Word) (d : Bool) (s : State) : (s.latchMerge v d).snap = s.snap := rfl
@[simp] theorem State.latchMerge_req (v : Word) (d : Bool) (s : State) : (s.latchMerge v d).req = s.req := rfl
@[simp] theorem State.latchMerge_bus (v : Word) (d : Bool) (s : State) : (s.latchMerge v d).bus = s.bus := rfl
@[simp] theorem State.latchMerge_arena (v : Word) (d : Bool) (s : State) : (s.latchMerge v d).arena = s.arena := rfl
@[simp] theorem State.latchMerge_arenaBase (v : Word) (d : Bool) (s : State) :
    (s.latchMerge v d).arenaBase = s.arenaBase := rfl
@[simp] theorem State.latchMerge_arenaMap (v : Word) (d : Bool) (s : State) :
    (s.latchMerge v d).arenaMap = s.arenaMap := rfl
@[simp] theorem State.latchMerge_segMap (v : Word) (d : Bool) (s : State) :
    (s.latchMerge v d).segMap = s.segMap := rfl
@[simp] theorem State.latchMerge_settled (v : Word) (d : Bool) (s : State) :
    (s.latchMerge v d).settled = s.settled := rfl
@[simp] theorem State.latchMerge_log (v : Word) (d : Bool) (s : State) :
    (s.latchMerge v d).log = s.log ++ mergeLog s.cfg v d s.lat := rfl
@[simp] theorem State.latchMerge_rstErr (v : Word) (d : Bool) (s : State) :
    (s.latchMerge v d).rstErr = s.rstErr := rfl
@[simp] theorem State.latchMerge_sub (v : Word) (d : Bool) (s : State) : (s.latchMerge v d).sub = s.sub := rfl
@[simp] theorem State.latchMerge_mem (v : Word) (d : Bool) (s : State) : (s.latchMerge v d).mem = s.mem := rfl
@[simp] theorem State.latchMerge_result (v : Word) (d : Bool) (s : State) :
    (s.latchMerge v d).result = s.result := rfl
@[simp] theorem State.latchMerge_waitTmo (v : Word) (d : Bool) (s : State) :
    (s.latchMerge v d).waitTmo = s.waitTmo := rfl
@[simp] theorem State.latchMerge_waitArg (v : Word) (d : Bool) (s : State) :
    (s.latchMerge v d).waitArg = s.waitArg := rfl
@[simp] theorem State.latchMerge_inReset (v : Word) (d : Bool) (s : State) :
    (s.latchMerge v d).inReset = s.inReset := rfl
@[simp] theorem State.latchMerge_armed (v : Word) (d : Bool) (s : State) : (s.latchMerge v d).armed = s.armed := rfl
@[simp] theorem State.latchMerge_inputs (v : Word) (d : Bool) (s : State) :
    (s.latchMerge v d).inputs = s.inputs := rfl

/-! ## State.complete -/

@[simp] theorem State.complete_cfg (s : State) : s.complete.cfg = s.cfg := rfl
@[simp] theorem State.complete_mode (s : State) : s.complete.mode = s.mode := rfl
@[simp] theorem State.complete_busy (s : State) : s.complete.busy = false := rfl
@[simp] theorem State.complete_prog (s : State) : s.complete.prog = [] := rfl
@[simp] theorem State.complete_upc (s : State) : s.complete.upc = 0 := rfl
@[simp] theorem State.complete_lat (s : State) : s.complete.lat = s.lat := rfl
@[simp] theorem State.complete_wres (s : State) : s.complete.wres = s.wres := rfl
@[simp] theorem State.complete_snap (s : State) : s.complete.snap = s.snap := rfl
@[simp] theorem State.complete_req (s : State) : s.complete.req = s.req := rfl
@[simp] theorem State.complete_bus (s : State) : s.complete.bus = s.bus.emit (.report s.req.completion) := rfl
@[simp] theorem State.complete_arena (s : State) : s.complete.arena = s.arena := rfl
@[simp] theorem State.complete_arenaBase (s : State) : s.complete.arenaBase = s.arenaBase := rfl
@[simp] theorem State.complete_arenaMap (s : State) : s.complete.arenaMap = s.arenaMap := rfl
@[simp] theorem State.complete_segMap (s : State) : s.complete.segMap = s.segMap := rfl
@[simp] theorem State.complete_settled (s : State) : s.complete.settled = s.settled := rfl
@[simp] theorem State.complete_log (s : State) : s.complete.log = s.log := rfl
@[simp] theorem State.complete_rstErr (s : State) : s.complete.rstErr = s.rstErr := rfl
@[simp] theorem State.complete_sub (s : State) : s.complete.sub = s.sub := rfl
@[simp] theorem State.complete_mem (s : State) : s.complete.mem = s.mem := rfl
@[simp] theorem State.complete_result (s : State) : s.complete.result = s.result := rfl
@[simp] theorem State.complete_waitTmo (s : State) : s.complete.waitTmo = s.waitTmo := rfl
@[simp] theorem State.complete_waitArg (s : State) : s.complete.waitArg = s.waitArg := rfl
@[simp] theorem State.complete_inReset (s : State) : s.complete.inReset = s.inReset := rfl
@[simp] theorem State.complete_armed (s : State) : s.complete.armed = false := rfl
@[simp] theorem State.complete_inputs (s : State) : s.complete.inputs = s.inputs := rfl

/-! ## State.wakeAndHandle -/

@[simp] theorem State.wakeAndHandle_cfg (s : State) : s.wakeAndHandle.cfg = s.cfg := rfl
@[simp] theorem State.wakeAndHandle_mode (s : State) : s.wakeAndHandle.mode = s.mode := rfl
@[simp] theorem State.wakeAndHandle_busy (s : State) : s.wakeAndHandle.busy = s.busy := rfl
@[simp] theorem State.wakeAndHandle_prog (s : State) : s.wakeAndHandle.prog = s.prog := rfl
@[simp] theorem State.wakeAndHandle_upc (s : State) : s.wakeAndHandle.upc = s.upc := rfl
@[simp] theorem State.wakeAndHandle_lat (s : State) : s.wakeAndHandle.lat = s.lat := rfl
@[simp] theorem State.wakeAndHandle_wres (s : State) : s.wakeAndHandle.wres = s.wres := rfl
@[simp] theorem State.wakeAndHandle_snap (s : State) : s.wakeAndHandle.snap = s.snap := rfl
@[simp] theorem State.wakeAndHandle_req (s : State) : s.wakeAndHandle.req = s.req := rfl
@[simp] theorem State.wakeAndHandle_bus (s : State) : s.wakeAndHandle.bus = (if s.lat.any then s.bus.emit .wake else s.bus).emit .handled := rfl
@[simp] theorem State.wakeAndHandle_arena (s : State) : s.wakeAndHandle.arena = s.arena := rfl
@[simp] theorem State.wakeAndHandle_arenaBase (s : State) : s.wakeAndHandle.arenaBase = s.arenaBase := rfl
@[simp] theorem State.wakeAndHandle_arenaMap (s : State) : s.wakeAndHandle.arenaMap = s.arenaMap := rfl
@[simp] theorem State.wakeAndHandle_segMap (s : State) : s.wakeAndHandle.segMap = s.segMap := rfl
@[simp] theorem State.wakeAndHandle_settled (s : State) : s.wakeAndHandle.settled = s.settled := rfl
@[simp] theorem State.wakeAndHandle_log (s : State) : s.wakeAndHandle.log = s.log := rfl
@[simp] theorem State.wakeAndHandle_rstErr (s : State) : s.wakeAndHandle.rstErr = s.rstErr := rfl
@[simp] theorem State.wakeAndHandle_sub (s : State) : s.wakeAndHandle.sub = s.sub := rfl
@[simp] theorem State.wakeAndHandle_mem (s : State) : s.wakeAndHandle.mem = s.mem := rfl
@[simp] theorem State.wakeAndHandle_result (s : State) : s.wakeAndHandle.result = s.result := rfl
@[simp] theorem State.wakeAndHandle_waitTmo (s : State) : s.wakeAndHandle.waitTmo = s.waitTmo := rfl
@[simp] theorem State.wakeAndHandle_waitArg (s : State) : s.wakeAndHandle.waitArg = s.waitArg := rfl
@[simp] theorem State.wakeAndHandle_inReset (s : State) : s.wakeAndHandle.inReset = s.inReset := rfl
@[simp] theorem State.wakeAndHandle_armed (s : State) : s.wakeAndHandle.armed = s.armed := rfl
@[simp] theorem State.wakeAndHandle_inputs (s : State) : s.wakeAndHandle.inputs = s.inputs := rfl

/-! ## State.noteWait -/

@[simp] theorem State.noteWait_cfg (o : Obj) (s : State) : (s.noteWait o).cfg = s.cfg := rfl
@[simp] theorem State.noteWait_mode (o : Obj) (s : State) : (s.noteWait o).mode = s.mode := rfl
@[simp] theorem State.noteWait_busy (o : Obj) (s : State) : (s.noteWait o).busy = s.busy := rfl
@[simp] theorem State.noteWait_prog (o : Obj) (s : State) : (s.noteWait o).prog = s.prog := rfl
@[simp] theorem State.noteWait_upc (o : Obj) (s : State) : (s.noteWait o).upc = s.upc := rfl
@[simp] theorem State.noteWait_lat (o : Obj) (s : State) : (s.noteWait o).lat = s.lat := rfl
@[simp] theorem State.noteWait_wres (o : Obj) (s : State) : (s.noteWait o).wres = s.wres := rfl
@[simp] theorem State.noteWait_snap (o : Obj) (s : State) : (s.noteWait o).snap = s.snap := rfl
@[simp] theorem State.noteWait_req (o : Obj) (s : State) : (s.noteWait o).req = s.req := rfl
@[simp] theorem State.noteWait_bus (o : Obj) (s : State) : (s.noteWait o).bus = s.bus := rfl
@[simp] theorem State.noteWait_arena (o : Obj) (s : State) : (s.noteWait o).arena = s.arena := rfl
@[simp] theorem State.noteWait_arenaBase (o : Obj) (s : State) : (s.noteWait o).arenaBase = s.arenaBase := rfl
@[simp] theorem State.noteWait_arenaMap (o : Obj) (s : State) : (s.noteWait o).arenaMap = s.arenaMap := rfl
@[simp] theorem State.noteWait_segMap (o : Obj) (s : State) : (s.noteWait o).segMap = s.segMap := rfl
@[simp] theorem State.noteWait_settled (o : Obj) (s : State) : (s.noteWait o).settled = s.settled := rfl
@[simp] theorem State.noteWait_log (o : Obj) (s : State) : (s.noteWait o).log = s.log := rfl
@[simp] theorem State.noteWait_rstErr (o : Obj) (s : State) : (s.noteWait o).rstErr = s.rstErr := rfl
@[simp] theorem State.noteWait_sub (o : Obj) (s : State) : (s.noteWait o).sub = s.sub := rfl
@[simp] theorem State.noteWait_mem (o : Obj) (s : State) : (s.noteWait o).mem = s.mem := rfl
@[simp] theorem State.noteWait_result (o : Obj) (s : State) : (s.noteWait o).result = s.result := rfl
@[simp] theorem State.noteWait_waitTmo (o : Obj) (s : State) : (s.noteWait o).waitTmo = governingTimeout s o := rfl
@[simp] theorem State.noteWait_waitArg (o : Obj) (s : State) : (s.noteWait o).waitArg = waitArgument s o := rfl
@[simp] theorem State.noteWait_inReset (o : Obj) (s : State) : (s.noteWait o).inReset = s.inReset := rfl
@[simp] theorem State.noteWait_armed (o : Obj) (s : State) : (s.noteWait o).armed = s.armed := rfl
@[simp] theorem State.noteWait_inputs (o : Obj) (s : State) : (s.noteWait o).inputs = s.inputs := rfl

/-! ## State.settle -/

@[simp] theorem State.settle_cfg (s : State) : s.settle.cfg = s.cfg := rfl
@[simp] theorem State.settle_mode (s : State) : s.settle.mode = s.mode := rfl
@[simp] theorem State.settle_busy (s : State) : s.settle.busy = s.busy := rfl
@[simp] theorem State.settle_prog (s : State) : s.settle.prog = s.prog := rfl
@[simp] theorem State.settle_upc (s : State) : s.settle.upc = s.upc := rfl
@[simp] theorem State.settle_lat (s : State) : s.settle.lat = s.lat := rfl
@[simp] theorem State.settle_wres (s : State) : s.settle.wres = s.wres := rfl
@[simp] theorem State.settle_snap (s : State) : s.settle.snap = s.snap := rfl
@[simp] theorem State.settle_req (s : State) : s.settle.req = s.req := rfl
@[simp] theorem State.settle_bus (s : State) : s.settle.bus = s.bus.emit (.delay s.cfg.pollSettle) := rfl
@[simp] theorem State.settle_arena (s : State) : s.settle.arena = s.arena := rfl
@[simp] theorem State.settle_arenaBase (s : State) : s.settle.arenaBase = s.arenaBase := rfl
@[simp] theorem State.settle_arenaMap (s : State) : s.settle.arenaMap = s.arenaMap := rfl
@[simp] theorem State.settle_segMap (s : State) : s.settle.segMap = s.segMap := rfl
@[simp] theorem State.settle_settled (s : State) : s.settle.settled = true := rfl
@[simp] theorem State.settle_log (s : State) : s.settle.log = s.log := rfl
@[simp] theorem State.settle_rstErr (s : State) : s.settle.rstErr = s.rstErr := rfl
@[simp] theorem State.settle_sub (s : State) : s.settle.sub = some ⟨.await, .settle, 0⟩ := rfl
@[simp] theorem State.settle_mem (s : State) : s.settle.mem = s.mem := rfl
@[simp] theorem State.settle_result (s : State) : s.settle.result = s.result := rfl
@[simp] theorem State.settle_waitTmo (s : State) : s.settle.waitTmo = s.waitTmo := rfl
@[simp] theorem State.settle_waitArg (s : State) : s.settle.waitArg = s.waitArg := rfl
@[simp] theorem State.settle_inReset (s : State) : s.settle.inReset = s.inReset := rfl
@[simp] theorem State.settle_armed (s : State) : s.settle.armed = s.armed := rfl
@[simp] theorem State.settle_inputs (s : State) : s.settle.inputs = s.inputs := rfl

/-! ## State.awaitTimedOut -/

@[simp] theorem State.awaitTimedOut_cfg (s : State) : s.awaitTimedOut.cfg = s.cfg := rfl
@[simp] theorem State.awaitTimedOut_mode (s : State) : s.awaitTimedOut.mode = s.mode := rfl
@[simp] theorem State.awaitTimedOut_busy (s : State) : s.awaitTimedOut.busy = s.busy := rfl
@[simp] theorem State.awaitTimedOut_prog (s : State) : s.awaitTimedOut.prog = s.prog := rfl
@[simp] theorem State.awaitTimedOut_upc (s : State) : s.awaitTimedOut.upc = s.upc + 1 := rfl
@[simp] theorem State.awaitTimedOut_lat (s : State) : s.awaitTimedOut.lat = s.lat := rfl
@[simp] theorem State.awaitTimedOut_wres (s : State) : s.awaitTimedOut.wres = some .timeout := rfl
@[simp] theorem State.awaitTimedOut_snap (s : State) : s.awaitTimedOut.snap = none := rfl
@[simp] theorem State.awaitTimedOut_req (s : State) : s.awaitTimedOut.req = s.req := rfl
@[simp] theorem State.awaitTimedOut_bus (s : State) : s.awaitTimedOut.bus = s.bus := rfl
@[simp] theorem State.awaitTimedOut_arena (s : State) : s.awaitTimedOut.arena = s.arena := rfl
@[simp] theorem State.awaitTimedOut_arenaBase (s : State) : s.awaitTimedOut.arenaBase = s.arenaBase := rfl
@[simp] theorem State.awaitTimedOut_arenaMap (s : State) : s.awaitTimedOut.arenaMap = s.arenaMap := rfl
@[simp] theorem State.awaitTimedOut_segMap (s : State) : s.awaitTimedOut.segMap = s.segMap := rfl
@[simp] theorem State.awaitTimedOut_settled (s : State) : s.awaitTimedOut.settled = s.settled := rfl
@[simp] theorem State.awaitTimedOut_log (s : State) : s.awaitTimedOut.log = s.log := rfl
@[simp] theorem State.awaitTimedOut_rstErr (s : State) : s.awaitTimedOut.rstErr = s.rstErr := rfl
@[simp] theorem State.awaitTimedOut_sub (s : State) : s.awaitTimedOut.sub = none := rfl
@[simp] theorem State.awaitTimedOut_mem (s : State) : s.awaitTimedOut.mem = s.mem := rfl
@[simp] theorem State.awaitTimedOut_result (s : State) : s.awaitTimedOut.result = s.result := rfl
@[simp] theorem State.awaitTimedOut_waitTmo (s : State) : s.awaitTimedOut.waitTmo = s.waitTmo := rfl
@[simp] theorem State.awaitTimedOut_waitArg (s : State) : s.awaitTimedOut.waitArg = s.waitArg := rfl
@[simp] theorem State.awaitTimedOut_inReset (s : State) : s.awaitTimedOut.inReset = s.inReset := rfl
@[simp] theorem State.awaitTimedOut_armed (s : State) : s.awaitTimedOut.armed = false := rfl
@[simp] theorem State.awaitTimedOut_inputs (s : State) : s.awaitTimedOut.inputs = s.inputs := rfl

/-! ## State.awaitDone -/

@[simp] theorem State.awaitDone_cfg (v : Word) (b : Bus) (s : State) : (s.awaitDone v b).cfg = s.cfg := rfl
@[simp] theorem State.awaitDone_mode (v : Word) (b : Bus) (s : State) : (s.awaitDone v b).mode = s.mode := rfl
@[simp] theorem State.awaitDone_busy (v : Word) (b : Bus) (s : State) : (s.awaitDone v b).busy = s.busy := rfl
@[simp] theorem State.awaitDone_prog (v : Word) (b : Bus) (s : State) : (s.awaitDone v b).prog = s.prog := rfl
@[simp] theorem State.awaitDone_upc (v : Word) (b : Bus) (s : State) : (s.awaitDone v b).upc = s.upc + 1 := rfl
@[simp] theorem State.awaitDone_lat (v : Word) (b : Bus) (s : State) : (s.awaitDone v b).lat = s.lat := rfl
@[simp] theorem State.awaitDone_wres (v : Word) (b : Bus) (s : State) : (s.awaitDone v b).wres = some .ok := rfl
@[simp] theorem State.awaitDone_snap (v : Word) (b : Bus) (s : State) : (s.awaitDone v b).snap = some v := rfl
@[simp] theorem State.awaitDone_req (v : Word) (b : Bus) (s : State) : (s.awaitDone v b).req = s.req := rfl
@[simp] theorem State.awaitDone_bus (v : Word) (b : Bus) (s : State) : (s.awaitDone v b).bus = b := rfl
@[simp] theorem State.awaitDone_arena (v : Word) (b : Bus) (s : State) : (s.awaitDone v b).arena = s.arena := rfl
@[simp] theorem State.awaitDone_arenaBase (v : Word) (b : Bus) (s : State) :
    (s.awaitDone v b).arenaBase = s.arenaBase := rfl
@[simp] theorem State.awaitDone_arenaMap (v : Word) (b : Bus) (s : State) :
    (s.awaitDone v b).arenaMap = s.arenaMap := rfl
@[simp] theorem State.awaitDone_segMap (v : Word) (b : Bus) (s : State) : (s.awaitDone v b).segMap = s.segMap := rfl
@[simp] theorem State.awaitDone_settled (v : Word) (b : Bus) (s : State) :
    (s.awaitDone v b).settled = s.settled := rfl
@[simp] theorem State.awaitDone_log (v : Word) (b : Bus) (s : State) : (s.awaitDone v b).log = s.log := rfl
@[simp] theorem State.awaitDone_rstErr (v : Word) (b : Bus) (s : State) : (s.awaitDone v b).rstErr = s.rstErr := rfl
@[simp] theorem State.awaitDone_sub (v : Word) (b : Bus) (s : State) : (s.awaitDone v b).sub = none := rfl
@[simp] theorem State.awaitDone_mem (v : Word) (b : Bus) (s : State) : (s.awaitDone v b).mem = s.mem := rfl
@[simp] theorem State.awaitDone_result (v : Word) (b : Bus) (s : State) : (s.awaitDone v b).result = s.result := rfl
@[simp] theorem State.awaitDone_waitTmo (v : Word) (b : Bus) (s : State) :
    (s.awaitDone v b).waitTmo = s.waitTmo := rfl
@[simp] theorem State.awaitDone_waitArg (v : Word) (b : Bus) (s : State) :
    (s.awaitDone v b).waitArg = s.waitArg := rfl
@[simp] theorem State.awaitDone_inReset (v : Word) (b : Bus) (s : State) :
    (s.awaitDone v b).inReset = s.inReset := rfl
@[simp] theorem State.awaitDone_armed (v : Word) (b : Bus) (s : State) : (s.awaitDone v b).armed = false := rfl
@[simp] theorem State.awaitDone_inputs (v : Word) (b : Bus) (s : State) : (s.awaitDone v b).inputs = s.inputs := rfl

/-! ## State.awaitAgain -/

@[simp] theorem State.awaitAgain_cfg (s : State) : s.awaitAgain.cfg = s.cfg := rfl
@[simp] theorem State.awaitAgain_mode (s : State) : s.awaitAgain.mode = s.mode := rfl
@[simp] theorem State.awaitAgain_busy (s : State) : s.awaitAgain.busy = s.busy := rfl
@[simp] theorem State.awaitAgain_prog (s : State) : s.awaitAgain.prog = s.prog := rfl
@[simp] theorem State.awaitAgain_upc (s : State) : s.awaitAgain.upc = s.upc := rfl
@[simp] theorem State.awaitAgain_lat (s : State) : s.awaitAgain.lat = s.lat := rfl
@[simp] theorem State.awaitAgain_wres (s : State) : s.awaitAgain.wres = s.wres := rfl
@[simp] theorem State.awaitAgain_snap (s : State) : s.awaitAgain.snap = s.snap := rfl
@[simp] theorem State.awaitAgain_req (s : State) : s.awaitAgain.req = s.req := rfl
@[simp] theorem State.awaitAgain_bus (s : State) : s.awaitAgain.bus = s.bus := rfl
@[simp] theorem State.awaitAgain_arena (s : State) : s.awaitAgain.arena = s.arena := rfl
@[simp] theorem State.awaitAgain_arenaBase (s : State) : s.awaitAgain.arenaBase = s.arenaBase := rfl
@[simp] theorem State.awaitAgain_arenaMap (s : State) : s.awaitAgain.arenaMap = s.arenaMap := rfl
@[simp] theorem State.awaitAgain_segMap (s : State) : s.awaitAgain.segMap = s.segMap := rfl
@[simp] theorem State.awaitAgain_settled (s : State) : s.awaitAgain.settled = s.settled := rfl
@[simp] theorem State.awaitAgain_log (s : State) : s.awaitAgain.log = s.log := rfl
@[simp] theorem State.awaitAgain_rstErr (s : State) : s.awaitAgain.rstErr = s.rstErr := rfl
@[simp] theorem State.awaitAgain_sub (s : State) : s.awaitAgain.sub = some ⟨.await, .loop, s.failedTests .await + 1⟩ := rfl
@[simp] theorem State.awaitAgain_mem (s : State) : s.awaitAgain.mem = s.mem := rfl
@[simp] theorem State.awaitAgain_result (s : State) : s.awaitAgain.result = s.result := rfl
@[simp] theorem State.awaitAgain_waitTmo (s : State) : s.awaitAgain.waitTmo = s.waitTmo := rfl
@[simp] theorem State.awaitAgain_waitArg (s : State) : s.awaitAgain.waitArg = s.waitArg := rfl
@[simp] theorem State.awaitAgain_inReset (s : State) : s.awaitAgain.inReset = s.inReset := rfl
@[simp] theorem State.awaitAgain_armed (s : State) : s.awaitAgain.armed = s.armed := rfl
@[simp] theorem State.awaitAgain_inputs (s : State) : s.awaitAgain.inputs = s.inputs := rfl

/-! ## State.bidleAgain -/

@[simp] theorem State.bidleAgain_cfg (s : State) : s.bidleAgain.cfg = s.cfg := rfl
@[simp] theorem State.bidleAgain_mode (s : State) : s.bidleAgain.mode = s.mode := rfl
@[simp] theorem State.bidleAgain_busy (s : State) : s.bidleAgain.busy = s.busy := rfl
@[simp] theorem State.bidleAgain_prog (s : State) : s.bidleAgain.prog = s.prog := rfl
@[simp] theorem State.bidleAgain_upc (s : State) : s.bidleAgain.upc = s.upc := rfl
@[simp] theorem State.bidleAgain_lat (s : State) : s.bidleAgain.lat = s.lat := rfl
@[simp] theorem State.bidleAgain_wres (s : State) : s.bidleAgain.wres = s.wres := rfl
@[simp] theorem State.bidleAgain_snap (s : State) : s.bidleAgain.snap = s.snap := rfl
@[simp] theorem State.bidleAgain_req (s : State) : s.bidleAgain.req = s.req := rfl
@[simp] theorem State.bidleAgain_bus (s : State) : s.bidleAgain.bus = s.bus.emit (.delay s.cfg.bidleInterval) := rfl
@[simp] theorem State.bidleAgain_arena (s : State) : s.bidleAgain.arena = s.arena := rfl
@[simp] theorem State.bidleAgain_arenaBase (s : State) : s.bidleAgain.arenaBase = s.arenaBase := rfl
@[simp] theorem State.bidleAgain_arenaMap (s : State) : s.bidleAgain.arenaMap = s.arenaMap := rfl
@[simp] theorem State.bidleAgain_segMap (s : State) : s.bidleAgain.segMap = s.segMap := rfl
@[simp] theorem State.bidleAgain_settled (s : State) : s.bidleAgain.settled = s.settled := rfl
@[simp] theorem State.bidleAgain_log (s : State) : s.bidleAgain.log = s.log := rfl
@[simp] theorem State.bidleAgain_rstErr (s : State) : s.bidleAgain.rstErr = s.rstErr := rfl
@[simp] theorem State.bidleAgain_sub (s : State) : s.bidleAgain.sub = some ⟨.bidle, .loop, s.failedTests .bidle + 1⟩ := rfl
@[simp] theorem State.bidleAgain_mem (s : State) : s.bidleAgain.mem = s.mem := rfl
@[simp] theorem State.bidleAgain_result (s : State) : s.bidleAgain.result = s.result := rfl
@[simp] theorem State.bidleAgain_waitTmo (s : State) : s.bidleAgain.waitTmo = s.waitTmo := rfl
@[simp] theorem State.bidleAgain_waitArg (s : State) : s.bidleAgain.waitArg = s.waitArg := rfl
@[simp] theorem State.bidleAgain_inReset (s : State) : s.bidleAgain.inReset = s.inReset := rfl
@[simp] theorem State.bidleAgain_armed (s : State) : s.bidleAgain.armed = s.armed := rfl
@[simp] theorem State.bidleAgain_inputs (s : State) : s.bidleAgain.inputs = s.inputs := rfl

/-! ## State.bidleDone -/

@[simp] theorem State.bidleDone_cfg (s : State) : s.bidleDone.cfg = s.cfg := rfl
@[simp] theorem State.bidleDone_mode (s : State) : s.bidleDone.mode = s.mode := rfl
@[simp] theorem State.bidleDone_busy (s : State) : s.bidleDone.busy = s.busy := rfl
@[simp] theorem State.bidleDone_prog (s : State) : s.bidleDone.prog = s.prog := rfl
@[simp] theorem State.bidleDone_upc (s : State) : s.bidleDone.upc = s.upc + 1 := rfl
@[simp] theorem State.bidleDone_lat (s : State) : s.bidleDone.lat = s.lat := rfl
@[simp] theorem State.bidleDone_wres (s : State) : s.bidleDone.wres = s.wres := rfl
@[simp] theorem State.bidleDone_snap (s : State) : s.bidleDone.snap = s.snap := rfl
@[simp] theorem State.bidleDone_req (s : State) : s.bidleDone.req = s.req := rfl
@[simp] theorem State.bidleDone_bus (s : State) : s.bidleDone.bus = s.bus := rfl
@[simp] theorem State.bidleDone_arena (s : State) : s.bidleDone.arena = s.arena := rfl
@[simp] theorem State.bidleDone_arenaBase (s : State) : s.bidleDone.arenaBase = s.arenaBase := rfl
@[simp] theorem State.bidleDone_arenaMap (s : State) : s.bidleDone.arenaMap = s.arenaMap := rfl
@[simp] theorem State.bidleDone_segMap (s : State) : s.bidleDone.segMap = s.segMap := rfl
@[simp] theorem State.bidleDone_settled (s : State) : s.bidleDone.settled = s.settled := rfl
@[simp] theorem State.bidleDone_log (s : State) : s.bidleDone.log = s.log := rfl
@[simp] theorem State.bidleDone_rstErr (s : State) : s.bidleDone.rstErr = s.rstErr := rfl
@[simp] theorem State.bidleDone_sub (s : State) : s.bidleDone.sub = none := rfl
@[simp] theorem State.bidleDone_mem (s : State) : s.bidleDone.mem = s.mem := rfl
@[simp] theorem State.bidleDone_result (s : State) : s.bidleDone.result = s.result := rfl
@[simp] theorem State.bidleDone_waitTmo (s : State) : s.bidleDone.waitTmo = s.waitTmo := rfl
@[simp] theorem State.bidleDone_waitArg (s : State) : s.bidleDone.waitArg = s.waitArg := rfl
@[simp] theorem State.bidleDone_inReset (s : State) : s.bidleDone.inReset = s.inReset := rfl
@[simp] theorem State.bidleDone_armed (s : State) : s.bidleDone.armed = s.armed := rfl
@[simp] theorem State.bidleDone_inputs (s : State) : s.bidleDone.inputs = s.inputs := rfl

/-! ## State.resetStart -/

@[simp] theorem State.resetStart_cfg (s : State) : s.resetStart.cfg = s.cfg := rfl
@[simp] theorem State.resetStart_mode (s : State) : s.resetStart.mode = s.mode := rfl
@[simp] theorem State.resetStart_busy (s : State) : s.resetStart.busy = s.busy := rfl
@[simp] theorem State.resetStart_prog (s : State) : s.resetStart.prog = s.prog := rfl
@[simp] theorem State.resetStart_upc (s : State) : s.resetStart.upc = s.upc := rfl
@[simp] theorem State.resetStart_lat (s : State) : s.resetStart.lat = s.lat := rfl
@[simp] theorem State.resetStart_wres (s : State) : s.resetStart.wres = s.wres := rfl
@[simp] theorem State.resetStart_snap (s : State) : s.resetStart.snap = s.snap := rfl
@[simp] theorem State.resetStart_req (s : State) : s.resetStart.req = s.req := rfl
@[simp] theorem State.resetStart_bus (s : State) : s.resetStart.bus = s.bus.fieldForce s.cfg .rstN 0 := rfl
@[simp] theorem State.resetStart_arena (s : State) : s.resetStart.arena = s.arena := rfl
@[simp] theorem State.resetStart_arenaBase (s : State) : s.resetStart.arenaBase = s.arenaBase := rfl
@[simp] theorem State.resetStart_arenaMap (s : State) : s.resetStart.arenaMap = s.arenaMap := rfl
@[simp] theorem State.resetStart_segMap (s : State) : s.resetStart.segMap = s.segMap := rfl
@[simp] theorem State.resetStart_settled (s : State) : s.resetStart.settled = s.settled := rfl
@[simp] theorem State.resetStart_log (s : State) : s.resetStart.log = s.log := rfl
@[simp] theorem State.resetStart_rstErr (s : State) : s.resetStart.rstErr = .noError := rfl
@[simp] theorem State.resetStart_sub (s : State) : s.resetStart.sub = some ⟨.rstseq, .assertReset, 0⟩ := rfl
@[simp] theorem State.resetStart_mem (s : State) : s.resetStart.mem = s.mem := rfl
@[simp] theorem State.resetStart_result (s : State) : s.resetStart.result = s.result := rfl
@[simp] theorem State.resetStart_waitTmo (s : State) : s.resetStart.waitTmo = s.waitTmo := rfl
@[simp] theorem State.resetStart_waitArg (s : State) : s.resetStart.waitArg = s.waitArg := rfl
@[simp] theorem State.resetStart_inReset (s : State) : s.resetStart.inReset = s.inReset := rfl
@[simp] theorem State.resetStart_armed (s : State) : s.resetStart.armed = s.armed := rfl
@[simp] theorem State.resetStart_inputs (s : State) : s.resetStart.inputs = s.inputs := rfl

/-! ## State.resetRelease -/

@[simp] theorem State.resetRelease_cfg (s : State) : s.resetRelease.cfg = s.cfg := rfl
@[simp] theorem State.resetRelease_mode (s : State) : s.resetRelease.mode = s.mode := rfl
@[simp] theorem State.resetRelease_busy (s : State) : s.resetRelease.busy = s.busy := rfl
@[simp] theorem State.resetRelease_prog (s : State) : s.resetRelease.prog = s.prog := rfl
@[simp] theorem State.resetRelease_upc (s : State) : s.resetRelease.upc = s.upc := rfl
@[simp] theorem State.resetRelease_lat (s : State) : s.resetRelease.lat = s.lat := rfl
@[simp] theorem State.resetRelease_wres (s : State) : s.resetRelease.wres = s.wres := rfl
@[simp] theorem State.resetRelease_snap (s : State) : s.resetRelease.snap = s.snap := rfl
@[simp] theorem State.resetRelease_req (s : State) : s.resetRelease.req = s.req := rfl
@[simp] theorem State.resetRelease_bus (s : State) : s.resetRelease.bus = s.bus.fieldForce s.cfg .rstN 1 := rfl
@[simp] theorem State.resetRelease_arena (s : State) : s.resetRelease.arena = s.arena := rfl
@[simp] theorem State.resetRelease_arenaBase (s : State) : s.resetRelease.arenaBase = s.arenaBase := rfl
@[simp] theorem State.resetRelease_arenaMap (s : State) : s.resetRelease.arenaMap = s.arenaMap := rfl
@[simp] theorem State.resetRelease_segMap (s : State) : s.resetRelease.segMap = s.segMap := rfl
@[simp] theorem State.resetRelease_settled (s : State) : s.resetRelease.settled = s.settled := rfl
@[simp] theorem State.resetRelease_log (s : State) : s.resetRelease.log = s.log := rfl
@[simp] theorem State.resetRelease_rstErr (s : State) : s.resetRelease.rstErr = s.rstErr := rfl
@[simp] theorem State.resetRelease_sub (s : State) : s.resetRelease.sub = some ⟨.rstseq, .release, 0⟩ := rfl
@[simp] theorem State.resetRelease_mem (s : State) : s.resetRelease.mem = s.mem := rfl
@[simp] theorem State.resetRelease_result (s : State) : s.resetRelease.result = s.result := rfl
@[simp] theorem State.resetRelease_waitTmo (s : State) : s.resetRelease.waitTmo = s.waitTmo := rfl
@[simp] theorem State.resetRelease_waitArg (s : State) : s.resetRelease.waitArg = s.waitArg := rfl
@[simp] theorem State.resetRelease_inReset (s : State) : s.resetRelease.inReset = s.inReset := rfl
@[simp] theorem State.resetRelease_armed (s : State) : s.resetRelease.armed = s.armed := rfl
@[simp] theorem State.resetRelease_inputs (s : State) : s.resetRelease.inputs = s.inputs := rfl

/-! ## State.ignoreCrc -/

@[simp] theorem State.ignoreCrc_cfg (c : CommandObj) (v : Word) (s : State) : (s.ignoreCrc c v).cfg = s.cfg := rfl
@[simp] theorem State.ignoreCrc_mode (c : CommandObj) (v : Word) (s : State) : (s.ignoreCrc c v).mode = s.mode := rfl
@[simp] theorem State.ignoreCrc_busy (c : CommandObj) (v : Word) (s : State) : (s.ignoreCrc c v).busy = s.busy := rfl
@[simp] theorem State.ignoreCrc_prog (c : CommandObj) (v : Word) (s : State) : (s.ignoreCrc c v).prog = s.prog := rfl
@[simp] theorem State.ignoreCrc_upc (c : CommandObj) (v : Word) (s : State) : (s.ignoreCrc c v).upc = s.upc := rfl
@[simp] theorem State.ignoreCrc_lat (c : CommandObj) (v : Word) (s : State) : (s.ignoreCrc c v).lat = s.lat := rfl
@[simp] theorem State.ignoreCrc_wres (c : CommandObj) (v : Word) (s : State) : (s.ignoreCrc c v).wres = s.wres := rfl
@[simp] theorem State.ignoreCrc_snap (c : CommandObj) (v : Word) (s : State) :
    (s.ignoreCrc c v).snap = some (v &&& ~~~(fieldMask (pos s.cfg .stCmdRspCrc))) := rfl
@[simp] theorem State.ignoreCrc_req (c : CommandObj) (v : Word) (s : State) : (s.ignoreCrc c v).req = s.req := rfl
@[simp] theorem State.ignoreCrc_bus (c : CommandObj) (v : Word) (s : State) :
    (s.ignoreCrc c v).bus = s.bus.store s.cfg .status (fieldMask (pos s.cfg .stCmdRspCrc)) := rfl
@[simp] theorem State.ignoreCrc_arena (c : CommandObj) (v : Word) (s : State) :
    (s.ignoreCrc c v).arena = s.arena := rfl
@[simp] theorem State.ignoreCrc_arenaBase (c : CommandObj) (v : Word) (s : State) :
    (s.ignoreCrc c v).arenaBase = s.arenaBase := rfl
@[simp] theorem State.ignoreCrc_arenaMap (c : CommandObj) (v : Word) (s : State) :
    (s.ignoreCrc c v).arenaMap = s.arenaMap := rfl
@[simp] theorem State.ignoreCrc_segMap (c : CommandObj) (v : Word) (s : State) :
    (s.ignoreCrc c v).segMap = s.segMap := rfl
@[simp] theorem State.ignoreCrc_settled (c : CommandObj) (v : Word) (s : State) :
    (s.ignoreCrc c v).settled = s.settled := rfl
@[simp] theorem State.ignoreCrc_log (c : CommandObj) (v : Word) (s : State) :
    (s.ignoreCrc c v).log = s.log ++ [.rspCrcIgnored c.input.opcode] := rfl
@[simp] theorem State.ignoreCrc_rstErr (c : CommandObj) (v : Word) (s : State) :
    (s.ignoreCrc c v).rstErr = s.rstErr := rfl
@[simp] theorem State.ignoreCrc_sub (c : CommandObj) (v : Word) (s : State) : (s.ignoreCrc c v).sub = s.sub := rfl
@[simp] theorem State.ignoreCrc_mem (c : CommandObj) (v : Word) (s : State) : (s.ignoreCrc c v).mem = s.mem := rfl
@[simp] theorem State.ignoreCrc_result (c : CommandObj) (v : Word) (s : State) :
    (s.ignoreCrc c v).result = s.result := rfl
@[simp] theorem State.ignoreCrc_waitTmo (c : CommandObj) (v : Word) (s : State) :
    (s.ignoreCrc c v).waitTmo = s.waitTmo := rfl
@[simp] theorem State.ignoreCrc_waitArg (c : CommandObj) (v : Word) (s : State) :
    (s.ignoreCrc c v).waitArg = s.waitArg := rfl
@[simp] theorem State.ignoreCrc_inReset (c : CommandObj) (v : Word) (s : State) :
    (s.ignoreCrc c v).inReset = s.inReset := rfl
@[simp] theorem State.ignoreCrc_armed (c : CommandObj) (v : Word) (s : State) :
    (s.ignoreCrc c v).armed = s.armed := rfl
@[simp] theorem State.ignoreCrc_inputs (c : CommandObj) (v : Word) (s : State) :
    (s.ignoreCrc c v).inputs = s.inputs := rfl

/-! ## State.raise and State.branchOnError -/

@[simp] theorem State.raise_cfg (k : ErrKind) (o : Obj) (s : State) : (s.raise k o).cfg = s.cfg := by
  unfold State.raise; split <;> rfl
@[simp] theorem State.raise_mode (k : ErrKind) (o : Obj) (s : State) : (s.raise k o).mode = s.mode := by
  unfold State.raise; split <;> rfl
@[simp] theorem State.raise_busy (k : ErrKind) (o : Obj) (s : State) : (s.raise k o).busy = s.busy := by
  unfold State.raise; split <;> rfl
@[simp] theorem State.raise_prog (k : ErrKind) (o : Obj) (s : State) : (s.raise k o).prog = s.prog := by
  unfold State.raise; split <;> rfl
@[simp] theorem State.raise_upc (k : ErrKind) (o : Obj) (s : State) : (s.raise k o).upc = s.upc := by
  unfold State.raise; split <;> rfl
@[simp] theorem State.raise_lat (k : ErrKind) (o : Obj) (s : State) : (s.raise k o).lat = s.lat := by
  unfold State.raise; split <;> rfl
@[simp] theorem State.raise_wres (k : ErrKind) (o : Obj) (s : State) : (s.raise k o).wres = s.wres := by
  unfold State.raise; split <;> rfl
@[simp] theorem State.raise_snap (k : ErrKind) (o : Obj) (s : State) : (s.raise k o).snap = s.snap := by
  unfold State.raise; split <;> rfl
@[simp] theorem State.raise_bus (k : ErrKind) (o : Obj) (s : State) : (s.raise k o).bus = s.bus := by
  unfold State.raise; split <;> rfl
@[simp] theorem State.raise_arena (k : ErrKind) (o : Obj) (s : State) : (s.raise k o).arena = s.arena := by
  unfold State.raise; split <;> rfl
@[simp] theorem State.raise_arenaBase (k : ErrKind) (o : Obj) (s : State) :
    (s.raise k o).arenaBase = s.arenaBase := by
  unfold State.raise; split <;> rfl
@[simp] theorem State.raise_arenaMap (k : ErrKind) (o : Obj) (s : State) : (s.raise k o).arenaMap = s.arenaMap := by
  unfold State.raise; split <;> rfl
@[simp] theorem State.raise_segMap (k : ErrKind) (o : Obj) (s : State) : (s.raise k o).segMap = s.segMap := by
  unfold State.raise; split <;> rfl
@[simp] theorem State.raise_settled (k : ErrKind) (o : Obj) (s : State) : (s.raise k o).settled = s.settled := by
  unfold State.raise; split <;> rfl
@[simp] theorem State.raise_rstErr (k : ErrKind) (o : Obj) (s : State) : (s.raise k o).rstErr = s.rstErr := by
  unfold State.raise; split <;> rfl
@[simp] theorem State.raise_sub (k : ErrKind) (o : Obj) (s : State) : (s.raise k o).sub = s.sub := by
  unfold State.raise; split <;> rfl
@[simp] theorem State.raise_mem (k : ErrKind) (o : Obj) (s : State) : (s.raise k o).mem = s.mem := by
  unfold State.raise; split <;> rfl
@[simp] theorem State.raise_result (k : ErrKind) (o : Obj) (s : State) : (s.raise k o).result = s.result := by
  unfold State.raise; split <;> rfl
@[simp] theorem State.raise_waitTmo (k : ErrKind) (o : Obj) (s : State) : (s.raise k o).waitTmo = s.waitTmo := by
  unfold State.raise; split <;> rfl
@[simp] theorem State.raise_waitArg (k : ErrKind) (o : Obj) (s : State) : (s.raise k o).waitArg = s.waitArg := by
  unfold State.raise; split <;> rfl
@[simp] theorem State.raise_inReset (k : ErrKind) (o : Obj) (s : State) : (s.raise k o).inReset = s.inReset := by
  unfold State.raise; split <;> rfl
@[simp] theorem State.raise_armed (k : ErrKind) (o : Obj) (s : State) : (s.raise k o).armed = s.armed := by
  unfold State.raise; split <;> rfl
@[simp] theorem State.raise_inputs (k : ErrKind) (o : Obj) (s : State) : (s.raise k o).inputs = s.inputs := by
  unfold State.raise; split <;> rfl
@[simp] theorem State.branchOnError_cfg (e : ErrKind) (l : Nat) (s : State) :
    (s.branchOnError e l).cfg = s.cfg := by
  unfold State.branchOnError; split <;> rfl
@[simp] theorem State.branchOnError_mode (e : ErrKind) (l : Nat) (s : State) :
    (s.branchOnError e l).mode = s.mode := by
  unfold State.branchOnError; split <;> rfl
@[simp] theorem State.branchOnError_busy (e : ErrKind) (l : Nat) (s : State) :
    (s.branchOnError e l).busy = s.busy := by
  unfold State.branchOnError; split <;> rfl
@[simp] theorem State.branchOnError_prog (e : ErrKind) (l : Nat) (s : State) :
    (s.branchOnError e l).prog = s.prog := by
  unfold State.branchOnError; split <;> rfl
@[simp] theorem State.branchOnError_lat (e : ErrKind) (l : Nat) (s : State) :
    (s.branchOnError e l).lat = s.lat := by
  unfold State.branchOnError; split <;> rfl
@[simp] theorem State.branchOnError_wres (e : ErrKind) (l : Nat) (s : State) :
    (s.branchOnError e l).wres = s.wres := by
  unfold State.branchOnError; split <;> rfl
@[simp] theorem State.branchOnError_snap (e : ErrKind) (l : Nat) (s : State) :
    (s.branchOnError e l).snap = s.snap := by
  unfold State.branchOnError; split <;> rfl
@[simp] theorem State.branchOnError_req (e : ErrKind) (l : Nat) (s : State) :
    (s.branchOnError e l).req = s.req := by
  unfold State.branchOnError; split <;> rfl
@[simp] theorem State.branchOnError_bus (e : ErrKind) (l : Nat) (s : State) :
    (s.branchOnError e l).bus = s.bus := by
  unfold State.branchOnError; split <;> rfl
@[simp] theorem State.branchOnError_arena (e : ErrKind) (l : Nat) (s : State) :
    (s.branchOnError e l).arena = s.arena := by
  unfold State.branchOnError; split <;> rfl
@[simp] theorem State.branchOnError_arenaBase (e : ErrKind) (l : Nat) (s : State) :
    (s.branchOnError e l).arenaBase = s.arenaBase := by
  unfold State.branchOnError; split <;> rfl
@[simp] theorem State.branchOnError_arenaMap (e : ErrKind) (l : Nat) (s : State) :
    (s.branchOnError e l).arenaMap = s.arenaMap := by
  unfold State.branchOnError; split <;> rfl
@[simp] theorem State.branchOnError_segMap (e : ErrKind) (l : Nat) (s : State) :
    (s.branchOnError e l).segMap = s.segMap := by
  unfold State.branchOnError; split <;> rfl
@[simp] theorem State.branchOnError_settled (e : ErrKind) (l : Nat) (s : State) :
    (s.branchOnError e l).settled = s.settled := by
  unfold State.branchOnError; split <;> rfl
@[simp] theorem State.branchOnError_log (e : ErrKind) (l : Nat) (s : State) :
    (s.branchOnError e l).log = s.log := by
  unfold State.branchOnError; split <;> rfl
@[simp] theorem State.branchOnError_rstErr (e : ErrKind) (l : Nat) (s : State) :
    (s.branchOnError e l).rstErr = s.rstErr := by
  unfold State.branchOnError; split <;> rfl
@[simp] theorem State.branchOnError_sub (e : ErrKind) (l : Nat) (s : State) :
    (s.branchOnError e l).sub = s.sub := by
  unfold State.branchOnError; split <;> rfl
@[simp] theorem State.branchOnError_mem (e : ErrKind) (l : Nat) (s : State) :
    (s.branchOnError e l).mem = s.mem := by
  unfold State.branchOnError; split <;> rfl
@[simp] theorem State.branchOnError_result (e : ErrKind) (l : Nat) (s : State) :
    (s.branchOnError e l).result = s.result := by
  unfold State.branchOnError; split <;> rfl
@[simp] theorem State.branchOnError_waitTmo (e : ErrKind) (l : Nat) (s : State) :
    (s.branchOnError e l).waitTmo = s.waitTmo := by
  unfold State.branchOnError; split <;> rfl
@[simp] theorem State.branchOnError_waitArg (e : ErrKind) (l : Nat) (s : State) :
    (s.branchOnError e l).waitArg = s.waitArg := by
  unfold State.branchOnError; split <;> rfl
@[simp] theorem State.branchOnError_inReset (e : ErrKind) (l : Nat) (s : State) :
    (s.branchOnError e l).inReset = s.inReset := by
  unfold State.branchOnError; split <;> rfl
@[simp] theorem State.branchOnError_armed (e : ErrKind) (l : Nat) (s : State) :
    (s.branchOnError e l).armed = s.armed := by
  unfold State.branchOnError; split <;> rfl
@[simp] theorem State.branchOnError_inputs (e : ErrKind) (l : Nat) (s : State) :
    (s.branchOnError e l).inputs = s.inputs := by
  unfold State.branchOnError; split <;> rfl

/-- The counter after a branch (R265). -/
theorem State.branchOnError_upc (e : ErrKind) (l : Nat) (s : State) :
    (s.branchOnError e l).upc = if e = .noError then s.upc + 1 else l := by
  unfold State.branchOnError; split <;> rfl

end Sys2Proof.Machine
end

