-- ==== Sys2Proof/Laws/Fields.lean ====
section
/-! SUPPORT. Field values (30_encoding.md R114): a field written reads back, every bit outside its mask is kept, and
fields that share no bit do not disturb each other. -/

namespace Sys2Proof.Machine

open Sys2Proof

theorem fieldMask_bit {p : FieldPos} (h : fieldFits p = true) (i : Nat) :
    (fieldMask p).getLsbD i = decide (p.lo ≤ i ∧ i < p.lo + p.width) := by
  simp only [fieldFits, Bool.and_eq_true, decide_eq_true_eq] at h
  rw [Bool.eq_iff_iff]
  simp [fieldMask, BitVec.getLsbD_shiftLeft, BitVec.getLsbD_ofNat, Nat.testBit_two_pow_sub_one]
  omega

/-- A value that fits has no bit at or above the field's width. -/
theorem bit_of_fits {v : Word} {w i : Nat} (hv : v.toNat < 2 ^ w) (hi : w ≤ i) : v.getLsbD i = false := by
  rw [← BitVec.testBit_toNat]
  exact Nat.testBit_lt_two_pow (Nat.lt_of_lt_of_le hv (Nat.pow_le_pow_right (by decide) hi))

theorem putField_bit {p : FieldPos} (h : fieldFits p = true) (x : Word) {v : Word} (hv : v.toNat < 2 ^ p.width)
    (i : Nat) (hi : i < 16) :
    (putField p x v).getLsbD i =
      if p.lo ≤ i ∧ i < p.lo + p.width then v.getLsbD (i - p.lo) else x.getLsbD i := by
  have hm := fieldMask_bit h i
  simp only [putField, BitVec.getLsbD_or, BitVec.getLsbD_and, BitVec.getLsbD_not, hm, BitVec.getLsbD_shiftLeft, hi,
    decide_true, Bool.true_and]
  by_cases h1 : p.lo ≤ i
  · by_cases h2 : i < p.lo + p.width
    · simp [h1, h2, Nat.not_lt.2 h1]
    · simp [h1, h2, bit_of_fits hv (show p.width ≤ i - p.lo by omega)]
  · simp [h1, show i < p.lo by omega]

theorem getField_bit {p : FieldPos} (h : fieldFits p = true) (x : Word) (i : Nat) :
    (getField p x).getLsbD i = (decide (i < p.width) && x.getLsbD (p.lo + i)) := by
  simp only [getField, BitVec.getLsbD_ushiftRight, BitVec.getLsbD_and, fieldMask_bit h]
  by_cases hi : i < p.width
  · simp [hi]
  · simp [hi]

/-- A field written reads back. -/
theorem getField_putField_same {p : FieldPos} (h : fieldFits p = true) (x : Word) {v : Word}
    (hv : v.toNat < 2 ^ p.width) : getField p (putField p x v) = v := by
  have hp := h
  simp only [fieldFits, Bool.and_eq_true, decide_eq_true_eq] at hp
  refine BitVec.eq_of_getLsbD_eq fun i hi => ?_
  rw [getField_bit h]
  by_cases hw : i < p.width
  · rw [putField_bit h x hv _ (by omega)]
    simp [hw]
  · simp [hw, bit_of_fits hv (Nat.not_lt.1 hw)]

/-- A field that shares no bit with the one written reads as before. -/
theorem getField_putField_apart {p q : FieldPos} (h : fieldFits p = true) (hq : fieldFits q = true)
    (hd : p.lo + p.width ≤ q.lo ∨ q.lo + q.width ≤ p.lo) (x : Word) {v : Word} (hv : v.toNat < 2 ^ p.width) :
    getField q (putField p x v) = getField q x := by
  have hq' := hq
  simp only [fieldFits, Bool.and_eq_true, decide_eq_true_eq] at hq'
  refine BitVec.eq_of_getLsbD_eq fun i hi => ?_
  rw [getField_bit hq, getField_bit hq]
  by_cases hw : i < q.width
  · rw [putField_bit h x hv _ (by omega), if_neg (by omega)]
  · simp [hw]

/-- Every bit outside the field's mask is kept (R30: reserved bits are written with the base's value). -/
theorem putField_keeps {p : FieldPos} (h : fieldFits p = true) (x : Word) {v : Word} (hv : v.toNat < 2 ^ p.width) :
    putField p x v &&& ~~~(fieldMask p) = x &&& ~~~(fieldMask p) := by
  refine BitVec.eq_of_getLsbD_eq fun i hi => ?_
  simp only [BitVec.getLsbD_and, BitVec.getLsbD_not, hi, decide_true, Bool.true_and, fieldMask_bit h,
    putField_bit h x hv i hi]
  by_cases hb : p.lo ≤ i ∧ i < p.lo + p.width
  · simp [hb]
  · simp [hb]

/-! ## What a well-formed configuration says of its fields (R32) -/

theorem configOk_parts {cfg : Config} (h : configOk cfg = true) :
    (∀ f, fieldFits (pos cfg f) = true) ∧
    allPairs (fun f g => fieldsApart (pos cfg f) (pos cfg g)) FieldId.all = true ∧
    (pos cfg .intMask).reg = .intMask ∧ (pos cfg .intMask).width = 4 ∧
    fitsWidth cfg.bwCode1 (pos cfg .busWidth).width = true ∧ fitsWidth cfg.bwCode4 (pos cfg .busWidth).width = true ∧
    fitsWidth cfg.bwCode8 (pos cfg .busWidth).width = true ∧
    1 ≤ cfg.rstRetries ∧ 16 ≤ cfg.descBytes := by
  have hmem : ∀ f : FieldId, f ∈ FieldId.all := by intro f; cases f <;> decide
  simp only [configOk, Bool.and_eq_true, List.all_eq_true, beq_iff_eq, decide_eq_true_eq] at h
  obtain ⟨⟨⟨⟨⟨⟨⟨⟨⟨⟨⟨⟨h1, h2⟩, h3⟩, h4⟩, h5⟩, h6⟩, h7⟩, h8⟩, h9⟩, h10⟩, h11⟩, h12⟩, h13⟩ := h
  exact ⟨fun f => h1 f (hmem f), h2, h4.1, h4.2, h10 _ (by simp), h10 _ (by simp), h10 _ (by simp),
    h12.1.1.1, h12.1.2⟩

/-- What `allPairs` says of two different entries. -/
theorem allPairs_mem {α : Type} {ok : α → α → Bool} (hsymm : ∀ a b, ok a b = ok b a) {l : List α}
    (h : allPairs ok l = true) {a b : α} (ha : a ∈ l) (hb : b ∈ l) (hab : a ≠ b) : ok a b = true := by
  induction l with
  | nil => cases ha
  | cons c l ih =>
    simp only [allPairs, Bool.and_eq_true, List.all_eq_true] at h
    rcases List.mem_cons.1 ha with ea | ha' <;> rcases List.mem_cons.1 hb with eb | hb'
    · exact absurd (ea.trans eb.symm) hab
    · rw [ea]; exact h.1 b hb'
    · rw [hsymm, eb]; exact h.1 a ha'
    · exact ih h.2 ha' hb'

/-- Two fields of one register share no bit (R32 (b)). -/
theorem fieldsApart_of_configOk {cfg : Config} (h : configOk cfg = true) {f g : FieldId} (hfg : g ≠ f)
    (hr : (pos cfg g).reg = (pos cfg f).reg) :
    (pos cfg f).lo + (pos cfg f).width ≤ (pos cfg g).lo ∨ (pos cfg g).lo + (pos cfg g).width ≤ (pos cfg f).lo := by
  have hmem : ∀ f : FieldId, f ∈ FieldId.all := by intro f; cases f <;> decide
  have hs : ∀ f g, fieldsApart (pos cfg f) (pos cfg g) = fieldsApart (pos cfg g) (pos cfg f) := by
    intro f g
    rw [Bool.eq_iff_iff]
    simp only [fieldsApart, Bool.or_eq_true, bne_iff_ne, decide_eq_true_eq]
    rw [ne_comm]; tauto
  have := allPairs_mem hs (configOk_parts h).2.1 (hmem f) (hmem g) (Ne.symm hfg)
  simpa [fieldsApart, hr] using this

end Sys2Proof.Machine
end

