-- ==== Sys2Proof/Laws/Surface.lean ====
section
/-! SUPPORT. One lemma for each register operation of the Control Surface that says everything it leaves: the base
(R141), a whole-register write (R146), a normal field write (R142), a forced one (R143), and one register of a grouped
write (R150). -/

namespace Sys2Proof.Machine

open Sys2Proof

/-! ## Draws and frames -/

@[simp] theorem drawsAfter_zero (d : Draws) : drawsAfter 0 d = d := rfl

theorem drawsAfter_one (d : Draws) : drawsAfter 1 d = { d with reads := d.reads.tail, count := d.count + 1 } := by
  simp [drawsAfter]

theorem OnlyRegisters.refl (rs : List RegId) (b : Bus) : OnlyRegisters rs b b := fun _ _ => ⟨rfl, rfl⟩

theorem OnlyRegisters.trans {rs : List RegId} {a b c : Bus} (h : OnlyRegisters rs a b) (h' : OnlyRegisters rs b c) :
    OnlyRegisters rs a c := fun q hq => ⟨(h' q hq).1.trans (h q hq).1, (h' q hq).2.trans (h q hq).2⟩

theorem OnlyRegisters.mono {rs rs' : List RegId} {a b : Bus} (h : OnlyRegisters rs a b) (hs : ∀ r ∈ rs, r ∈ rs') :
    OnlyRegisters rs' a b := fun q hq => h q fun hm => hq (hs q hm)

/-! ## What each operation leaves -/

/-- Everything `base` leaves (R141). -/
theorem Bus.base_spec {cfg : Config} {b : Bus} {r : RegId} {x : Word} {reads : List Event}
    (h : BaseOf cfg b r x reads) :
    (b.base cfg r).1 = x ∧ (b.base cfg r).2.trace = b.trace ++ reads ∧
    (b.base cfg r).2.draws = drawsAfter reads.length b.draws ∧
    ShadowIs cfg r x b (b.base cfg r).2 ∧ OnlyRegisters [r] b (b.base cfg r).2 := by
  obtain ⟨hc, hx, rfl⟩ | ⟨hv, rfl, rfl⟩ := h
  · have hb : b.base cfg r = (x, b) := Bus.base_of_valid (by simp [Bus.validShadow, hc, hx])
    rw [hb]
    exact ⟨rfl, by simp, rfl, ⟨fun _ => hx, fun h => rfl⟩, OnlyRegisters.refl _ _⟩
  · have hv' : b.validShadow cfg r = none := by
      rcases hv with hv | hv <;> simp [Bus.validShadow, hv]
    rw [Bus.base_of_invalid hv']
    refine ⟨rfl, by simp, by simp [drawsAfter_one], ⟨fun hc => by simp [Bus.setShadow_cached hc],
      fun hc => by simp [Bus.setShadow_volatile hc]⟩, fun q hq => ?_⟩
    have hqr : q ≠ r := fun e => hq (by simp [e])
    refine ⟨?_, ?_⟩
    · rw [Bus.setShadow_other _ _ _ hqr]; rfl
    · rw [Bus.setShadow_dev, Bus.regRead_dev]; exact RegFile.at_put_other _ _ hqr

/-- After `base` took a read, the device register holds the value read. -/
theorem Bus.base_dev_of_read {cfg : Config} {b : Bus} {r : RegId} (h : b.validShadow cfg r = none) :
    RegFile.at (b.base cfg r).2.dev r = b.draws.nextRead := by
  simp [Bus.base_of_invalid h]

/-- Everything a whole-register write leaves (R146). -/
theorem Bus.store_spec (cfg : Config) (r : RegId) (v : Word) (b : Bus) :
    (b.store cfg r v).trace = b.trace ++ [.regWrite (off cfg r) v] ∧ (b.store cfg r v).draws = b.draws ∧
    ShadowIs cfg r v b (b.store cfg r v) ∧ OnlyRegisters [r] b (b.store cfg r v) := by
  refine ⟨Bus.store_trace .., Bus.store_draws .., ⟨fun hc => Bus.store_shadow_same hc v b,
    fun hc => by rw [Bus.store_shadow_volatile hc]⟩, fun q hq => ?_⟩
  have hqr : q ≠ r := fun e => hq (by simp [e])
  exact ⟨Bus.store_shadow_other cfg v b hqr, by rw [Bus.store_dev]; exact RegFile.at_put_other _ _ hqr⟩

/-- Everything a write leaves that is left out where it would not change the base (R142). -/
theorem Bus.storeIfChanged_spec (cfg : Config) {r : RegId} {x : Word} (new : Word) {b : Bus}
    (hs : cached cfg r = true → RegFile.at b.shadow r = some x) :
    (b.storeIfChanged cfg r x new).trace = b.trace ++ (if new = x then [] else [.regWrite (off cfg r) new]) ∧
    (b.storeIfChanged cfg r x new).draws = b.draws ∧
    ShadowIs cfg r new b (b.storeIfChanged cfg r x new) ∧ OnlyRegisters [r] b (b.storeIfChanged cfg r x new) := by
  unfold Bus.storeIfChanged
  by_cases h : new = x
  · subst h
    simp only [if_true]
    exact ⟨by simp, trivial, ⟨hs, fun _ => rfl⟩, OnlyRegisters.refl _ _⟩
  · simp only [h, if_false]
    exact Bus.store_spec cfg r new b

/-- A base and then an operation on its register, together. -/
theorem Bus.after_base {cfg : Config} {b b' : Bus} {r : RegId} {x new : Word} {reads ws : List Event}
    (h : BaseOf cfg b r x reads) (ht : b'.trace = (b.base cfg r).2.trace ++ ws)
    (hd : b'.draws = (b.base cfg r).2.draws) (hs : ShadowIs cfg r new (b.base cfg r).2 b')
    (ho : OnlyRegisters [r] (b.base cfg r).2 b') :
    b'.trace = b.trace ++ reads ++ ws ∧ b'.draws = drawsAfter reads.length b.draws ∧
    ShadowIs cfg r new b b' ∧ OnlyRegisters [r] b b' := by
  obtain ⟨-, h2, h3, h4, h5⟩ := Bus.base_spec h
  exact ⟨by rw [ht, h2], by rw [hd, h3], ⟨hs.1, fun hc => (hs.2 hc).trans (h4.2 hc)⟩, OnlyRegisters.trans h5 ho⟩

/-- Everything a normal field write leaves (R142, R148). -/
theorem Bus.fieldWrite_spec {cfg : Config} {b : Bus} {f : FieldId} (v : Word) {x : Word} {reads : List Event}
    (h : BaseOf cfg b (pos cfg f).reg x reads) :
    (b.fieldWrite cfg f v).trace = b.trace ++ reads ++
      (if putField (pos cfg f) x v = x then [] else [.regWrite (off cfg (pos cfg f).reg) (putField (pos cfg f) x v)]) ∧
    (b.fieldWrite cfg f v).draws = drawsAfter reads.length b.draws ∧
    ShadowIs cfg (pos cfg f).reg (putField (pos cfg f) x v) b (b.fieldWrite cfg f v) ∧
    OnlyRegisters [(pos cfg f).reg] b (b.fieldWrite cfg f v) := by
  obtain ⟨h1, -, -, h4, -⟩ := Bus.base_spec h
  simp only [Bus.fieldWrite, h1]
  obtain ⟨k1, k2, k3, k4⟩ := Bus.storeIfChanged_spec cfg (putField (pos cfg f) x v) h4.1
  exact Bus.after_base h k1 k2 k3 k4

/-- Everything a forced field write leaves (R143, R149). -/
theorem Bus.fieldForce_spec {cfg : Config} {b : Bus} {f : FieldId} (v : Word) {x : Word} {reads : List Event}
    (h : BaseOf cfg b (pos cfg f).reg x reads) :
    (b.fieldForce cfg f v).trace = b.trace ++ reads ++
      [.regWrite (off cfg (pos cfg f).reg) (putField (pos cfg f) x v)] ∧
    (b.fieldForce cfg f v).draws = drawsAfter reads.length b.draws ∧
    ShadowIs cfg (pos cfg f).reg (putField (pos cfg f) x v) b (b.fieldForce cfg f v) ∧
    OnlyRegisters [(pos cfg f).reg] b (b.fieldForce cfg f v) := by
  obtain ⟨h1, -, -, -, -⟩ := Bus.base_spec h
  simp only [Bus.fieldForce, h1]
  obtain ⟨k1, k2, k3, k4⟩ := Bus.store_spec cfg (pos cfg f).reg (putField (pos cfg f) x v)
    (b.base cfg (pos cfg f).reg).2
  exact Bus.after_base h k1 k2 k3 k4

/-- Everything one register of a grouped write leaves (R150). -/
theorem Bus.groupOne_spec {cfg : Config} {b : Bus} {r : RegId} (ws : List (FieldId × Word)) {x : Word}
    {reads : List Event} (h : BaseOf cfg b r x reads) :
    (b.groupOne cfg ws r).trace = b.trace ++ reads ++
      (if groupValue cfg r x ws = x then [] else [.regWrite (off cfg r) (groupValue cfg r x ws)]) ∧
    (b.groupOne cfg ws r).draws = drawsAfter reads.length b.draws ∧
    ShadowIs cfg r (groupValue cfg r x ws) b (b.groupOne cfg ws r) ∧ OnlyRegisters [r] b (b.groupOne cfg ws r) := by
  obtain ⟨h1, -, -, h4, -⟩ := Bus.base_spec h
  simp only [Bus.groupOne, h1]
  obtain ⟨k1, k2, k3, k4⟩ := Bus.storeIfChanged_spec cfg (groupValue cfg r x ws) h4.1
  exact Bus.after_base h k1 k2 k3 k4

/-- Operations on other registers leave the hazard of a base as it is (R141, R360). -/
theorem earlyBase_of_only (s : State) {b b' : Bus} {rs : List RegId} (h : OnlyRegisters rs b b') {r : RegId}
    (hr : r ∉ rs) : earlyBase s b' r = earlyBase s b r := by
  simp only [earlyBase, Bus.validShadow, (h r hr).1]

/-- There is always a base (R141). -/
theorem BaseOf.exists (cfg : Config) (b : Bus) (r : RegId) : ∃ x reads, BaseOf cfg b r x reads := by
  cases hc : cached cfg r with
  | false => exact ⟨_, _, .inr ⟨.inl hc, rfl, rfl⟩⟩
  | true =>
    cases hs : RegFile.at b.shadow r with
    | none => exact ⟨_, _, .inr ⟨.inr hs, rfl, rfl⟩⟩
    | some x => exact ⟨x, [], .inl ⟨hc, hs, rfl⟩⟩

/-- A valid shadow is the base. -/
theorem BaseOf.of_shadow {cfg : Config} {b : Bus} {r : RegId} {x : Word} (hc : cached cfg r = true)
    (hs : RegFile.at b.shadow r = some x) : BaseOf cfg b r x [] := .inl ⟨hc, hs, rfl⟩

end Sys2Proof.Machine
end

