-- ==== Sys2Proof/Laws/Ops.lean ====
section
/-! SUPPORT. The objects of a request and raising an error (R26, R312): which objects there are after an update, and
what each then holds. Grouped writes register by register (R150), and reads of buffer registers (R196). -/

namespace Sys2Proof.Machine

open Sys2Proof

/-! ## Objects of a request -/

@[simp] theorem Request.errorOf_toObj (q : Request) (o : CmdId) :
    q.errorOf o.toObj = (q.command o).map CommandObj.error := by cases o <;> rfl

theorem Request.errorOf_data (q : Request) : q.errorOf .data = q.data.map DataObj.error := rfl

/-- Every object is a command object or the data object. -/
theorem Obj.cases_toObj (o : Obj) : o = .data ∨ ∃ p : CmdId, o = p.toObj := by
  cases o
  · exact .inr ⟨.sbc, rfl⟩
  · exact .inr ⟨.cmd, rfl⟩
  · exact .inr ⟨.stop, rfl⟩
  · exact .inl rfl

@[simp] theorem CmdId.toObj_ne_data (o : CmdId) : o.toObj ≠ .data := by cases o <;> decide

@[simp] theorem CmdId.toObj_inj (o p : CmdId) : o.toObj = p.toObj ↔ o = p := by cases o <;> cases p <;> decide

@[simp] theorem Request.setCommand_same (q : Request) (o : CmdId) (c : CommandObj) :
    (q.setCommand o c).command o = some c := by cases o <;> rfl

theorem Request.setCommand_other (q : Request) {o p : CmdId} (c : CommandObj) (h : p ≠ o) :
    (q.setCommand o c).command p = q.command p := by
  cases o <;> cases p <;> first | rfl | exact absurd rfl h

@[simp] theorem Request.setCommand_data (q : Request) (o : CmdId) (c : CommandObj) :
    (q.setCommand o c).data = q.data := by cases o <;> rfl

@[simp] theorem Request.setData_command (q : Request) (d : DataObj) (o : CmdId) :
    (q.setData d).command o = q.command o := by cases o <;> rfl

@[simp] theorem Request.setData_data (q : Request) (d : DataObj) : (q.setData d).data = some d := rfl

/-- Replacing an object that is there adds none and removes none. -/
theorem Request.has_setCommand (q : Request) {o : CmdId} {c : CommandObj} (c' : CommandObj) (h : q.command o = some c)
    (p : Obj) : (q.setCommand o c').has p = q.has p := by
  cases o <;> cases p <;> simp_all [Request.command, Request.setCommand, Request.has, Request.errorOf]

theorem Request.has_setData (q : Request) {d : DataObj} (d' : DataObj) (h : q.data = some d) (p : Obj) :
    (q.setData d').has p = q.has p := by
  cases p <;> simp_all [Request.setData, Request.has, Request.errorOf]

/-! ## Raising an error (R312) -/

@[simp] theorem Request.has_fail (q : Request) (k : ErrKind) (dg : Option Diag) (o p : Obj) :
    (q.fail k dg o).has p = q.has p := by
  cases o <;> cases p <;> simp [Request.fail, Request.has, Request.errorOf]

/-- A command object after an object of the request took an error. -/
theorem Request.fail_command (q : Request) (k : ErrKind) (dg : Option Diag) (o : Obj) (p : CmdId) :
    (q.fail k dg o).command p = if p.toObj = o then (q.command p).map (CommandObj.fail k dg) else q.command p := by
  cases o <;> cases p <;> simp [Request.fail, Request.command, CmdId.toObj]

/-- The data object after an object of the request took an error. -/
theorem Request.fail_data (q : Request) (k : ErrKind) (dg : Option Diag) (o : Obj) :
    (q.fail k dg o).data = if o = .data then q.data.map (DataObj.fail k dg) else q.data := by
  cases o <;> simp [Request.fail]

/-- Everything a raise can do: nothing, where the object is absent or has an error; else the object takes the error
and the diagnostic snapshot of its kind, and a stop command's error is logged. -/
theorem State.raise_cases (k : ErrKind) (o : Obj) (s : State) :
    (s.req.errorOf o ≠ some .noError ∧ s.raise k o = s) ∨
    (s.req.errorOf o = some .noError ∧ s.raise k o = { s with
      req := s.req.fail k (if k.diagnosed then some s.diagnose else none) o
      log := if o = .stop then s.log ++ [.stopFailed k] else s.log }) := by
  unfold State.raise
  split
  · exact .inr ⟨‹_›, rfl⟩
  · exact .inl ⟨‹_›, rfl⟩

/-- A raise adds no object and removes none. -/
@[simp] theorem State.raise_has (k : ErrKind) (o p : Obj) (s : State) : (s.raise k o).req.has p = s.req.has p := by
  obtain ⟨-, e⟩ | ⟨-, e⟩ := s.raise_cases k o <;> rw [e]
  exact Request.has_fail ..

/-- A raise only adds to the log. -/
theorem State.raise_log (k : ErrKind) (o : Obj) (s : State) : ∃ es, (s.raise k o).log = s.log ++ es := by
  obtain ⟨-, e⟩ | ⟨-, e⟩ := s.raise_cases k o <;> rw [e]
  · exact ⟨[], (List.append_nil _).symm⟩
  · by_cases h : o = .stop
    · exact ⟨[.stopFailed k], by simp [h]⟩
    · exact ⟨[], by simp [h]⟩

/-! ## Grouped writes (R150) -/

/-- A register's value in a group is its own writes in list order. -/
theorem groupValue_eq (cfg : Config) (r : RegId) (ws : List (FieldId × Word)) (x : Word) :
    groupValue cfg r x ws =
      (ws.filter fun w => (pos cfg w.1).reg == r).foldl (fun y w => putField (pos cfg w.1) y w.2) x := by
  induction ws generalizing x with
  | nil => rfl
  | cons w ws ih =>
    obtain ⟨f, v⟩ := w
    by_cases h : (pos cfg f).reg = r <;> simp [groupValue, h, ih]

/-- A register already taken is left out of the rest of a group. -/
theorem groupRegs_taken (cfg : Config) (r : RegId) (ws : List (FieldId × Word)) {seen seen' : List RegId}
    (hs : ∀ q, q ∈ seen' ↔ q = r ∨ q ∈ seen) :
    groupRegs cfg seen' ws = groupRegs cfg seen (ws.filter fun w => (pos cfg w.1).reg != r) := by
  induction ws generalizing seen seen' with
  | nil => rfl
  | cons w ws ih =>
    obtain ⟨f, v⟩ := w
    by_cases h : (pos cfg f).reg = r
    · simp [groupRegs, h, hs, ih hs]
    · have h2 : ((pos cfg f).reg != r) = true := by simpa using h
      by_cases hm : (pos cfg f).reg ∈ seen
      · simp [groupRegs, h2, hs, hm, ih hs]
      · simp only [groupRegs, List.filter, h2, hs, h, hm, or_self, if_false]
        rw [ih (seen := (pos cfg f).reg :: seen) (seen' := (pos cfg f).reg :: seen') (by intro q; simp [hs]; tauto)]

/-- Each register of a group stands in one of its fields, and was not taken before. -/
theorem groupRegs_mem {cfg : Config} {ws : List (FieldId × Word)} {seen : List RegId} {q : RegId}
    (h : q ∈ groupRegs cfg seen ws) : q ∉ seen ∧ ∃ w ∈ ws, (pos cfg w.1).reg = q := by
  induction ws generalizing seen with
  | nil => cases h
  | cons w ws ih =>
    obtain ⟨f, v⟩ := w
    simp only [groupRegs] at h
    split at h
    · obtain ⟨a, w, hw, e⟩ := ih h; exact ⟨a, w, by simp [hw], e⟩
    · rcases List.mem_cons.1 h with rfl | h
      · exact ⟨‹_›, (f, v), by simp, rfl⟩
      · obtain ⟨a, w, hw, e⟩ := ih h; exact ⟨fun hm => a (by simp [hm]), w, by simp [hw], e⟩

/-! ## Reads of buffer registers (R196) -/

/-- Reads one after another touch no shadow, and take as many draws. -/
theorem Bus.readRegs_spec (cfg : Config) (rs : List RegId) (b : Bus) :
    (b.readRegs cfg rs).2.shadow = b.shadow ∧ (b.readRegs cfg rs).2.draws = drawsAfter rs.length b.draws ∧
    (b.readRegs cfg rs).1.length = rs.length ∧
    (b.readRegs cfg rs).2.trace = b.trace ++
      List.zipWith (fun r x => .regRead (off cfg r) x) rs (b.readRegs cfg rs).1 ∧
    ∀ k x, (b.readRegs cfg rs).1[k]? = some x → x = (drawsAfter k b.draws).nextRead := by
  induction rs generalizing b with
  | nil => exact ⟨rfl, rfl, rfl, (List.append_nil _).symm, fun k x h => by simp [Bus.readRegs] at h⟩
  | cons r rs ih =>
    obtain ⟨h1, h2, h3, h4, h5⟩ := ih (b.regRead cfg r).2
    have hd : ∀ n, drawsAfter n (b.regRead cfg r).2.draws = drawsAfter (n + 1) b.draws := by
      intro n
      simp [drawsAfter, List.drop_tail, Nat.add_assoc, Nat.add_comm 1 n]
    refine ⟨h1, h2.trans (hd rs.length), by simp [Bus.readRegs, h3], ?_, ?_⟩
    · simp only [Bus.readRegs, h4, Bus.regRead_trace, List.zipWith_cons_cons, List.append_assoc,
        List.singleton_append, Bus.regRead_value]
    · intro k x h
      cases k with
      | zero => simpa [Bus.readRegs] using h.symm
      | succ k => rw [← hd]; exact h5 k x (by simpa [Bus.readRegs] using h)

/-- Reads one after another leave a bus that goes on from the first. -/
theorem Bus.continues_readRegs (cfg : Config) (rs : List RegId) (b : Bus) : b.continues (b.readRegs cfg rs).2 :=
  ⟨_, (b.readRegs_spec cfg rs).2.2.2.1⟩

end Sys2Proof.Machine
end

