-- ==== Sys2Proof/Laws/Exec.lean ====
section
/-! SUPPORT. For each meaning one lemma that says everything it can do when it answers a next state: what held of the
state, and which state is next. Proofs about `exec` cite these and unfold no meaning. -/

namespace Sys2Proof.Machine

open Sys2Proof

/-! ## Reads of flag registers (R145, R147) -/

theorem readReg_ok {s : State} {r : RegId} {p : Word × Bus} (h : readReg s r = .ok p) :
    earlyRead s r = false ∧ p = (s.bus.draws.nextRead, (s.bus.regRead s.cfg r).2) := by
  unfold readReg at h
  split at h
  · cases h
  · rename_i he
    cases h; exact ⟨by simpa using he, rfl⟩

theorem readReg_error {s : State} {r : RegId} {f : Fault} (h : readReg s r = .error f) :
    earlyRead s r = true ∧ f = .earlyFlagRead := by
  unfold readReg at h
  split at h
  · cases h; exact ⟨‹_›, rfl⟩
  · cases h

theorem readField_ok {s : State} {f : FieldId} {p : Word × Bus} (h : readField s f = .ok p) :
    (∃ x, s.bus.validShadow s.cfg (pos s.cfg f).reg = some x ∧ p = (getField (pos s.cfg f) x, s.bus)) ∨
    (s.bus.validShadow s.cfg (pos s.cfg f).reg = none ∧ earlyRead s (pos s.cfg f).reg = false ∧
      p = (getField (pos s.cfg f) s.bus.draws.nextRead,
        (s.bus.regRead s.cfg (pos s.cfg f).reg).2.setShadow s.cfg (pos s.cfg f).reg s.bus.draws.nextRead)) := by
  unfold readField at h
  simp only at h
  split at h
  · cases h; exact .inl ⟨_, ‹_›, rfl⟩
  · split at h
    · cases h
    · cases h
      obtain ⟨he, hp⟩ := readReg_ok ‹_›
      cases hp
      exact .inr ⟨‹_›, he, rfl⟩

theorem readField_error {s : State} {f : FieldId} {e : Fault} (h : readField s f = .error e) :
    earlyRead s (pos s.cfg f).reg = true ∧ e = .earlyFlagRead := by
  unfold readField at h
  simp only at h
  split at h
  · cases h
  · split at h
    · cases h; exact readReg_error ‹_›
    · cases h

/-- A field read makes one read transaction or none. -/
theorem readField_trace {s : State} {f : FieldId} {p : Word × Bus} (h : readField s f = .ok p) :
    ∃ es, p.2.trace = s.bus.trace ++ es ∧ ∀ e ∈ es, isRegWrite e = false := by
  rcases readField_ok h with ⟨x, -, rfl⟩ | ⟨-, -, rfl⟩
  · exact ⟨[], by simp, by simp⟩
  · exact ⟨[_], by rw [Bus.setShadow_trace]; rfl, by simp [isRegWrite]⟩

/-! ## Field writes and the settle hazard (R141, R360) -/

theorem afterWrites_next {s t u : State} {b : Bus} {fs : List FieldId} (h : afterWrites s b fs t = .next u) :
    earlyWrites s b fs = false ∧ u = t := by
  unfold afterWrites at h
  split at h <;> cases h
  exact ⟨by simpa using ‹¬ earlyWrites s b fs = true›, rfl⟩

theorem afterWrites_fault {s t : State} {b : Bus} {fs : List FieldId} {e : Fault}
    (h : afterWrites s b fs t = .fault e) : earlyWrites s b fs = true ∧ e = .earlyFlagRead := by
  unfold afterWrites at h
  split at h <;> cases h
  exact ⟨‹_›, rfl⟩

/-- An engine whose settle delay has elapsed, and one in interrupt mode without `P_SETTLE_IRQ`, starts no write from
an early read. -/
theorem earlyWrites_of_calm {s : State} (h : ∀ r, earlyRead s r = false) (b : Bus) (fs : List FieldId) :
    earlyWrites s b fs = false := by
  simp [earlyWrites, earlyBase, h]

/-! ## Upstream operations -/

theorem execSubmit_next {sh : Shape} {cmd : Command} {sbc : Option Command} {data : Option Data}
    {stop : Option Command} {s t : State} (h : execSubmit sh cmd sbc data stop s = .next t) :
    s.mode ≠ none ∧ s.busy = false ∧ requestOk s.cfg sh cmd sbc data stop = true ∧ t = s.accept cmd sbc data stop := by
  unfold execSubmit at h
  repeat' split at h
  all_goals cases h
  exact ⟨‹_›, by simpa using ‹¬ s.busy = true›, ‹_›, rfl⟩

theorem execSetBusWidth_next {w : BusWidth} {s t : State} (h : execSetBusWidth w s = .next t) :
    s.mode ≠ none ∧ s.busy = false ∧ earlyWrites s s.bus [.busWidth] = false ∧
    t = { s with bus := s.bus.fieldWrite s.cfg .busWidth (busWidthCode s.cfg w) } := by
  unfold execSetBusWidth at h
  split at h
  · cases h
  · split at h
    · cases h
    · exact ⟨‹_›, by simpa using ‹¬ s.busy = true›, afterWrites_next h⟩

theorem execSetClock_next {rate : Option Nat} {s t : State} (h : execSetClock rate s = .next t) :
    s.mode ≠ none ∧ s.busy = false ∧ t = { s with bus := s.bus.emit (.clock rate) } := by
  unfold execSetClock at h
  repeat' split at h
  all_goals cases h
  exact ⟨‹_›, by simpa using ‹¬ s.busy = true›, rfl⟩

theorem execHwReset_next {s t : State} (h : execHwReset s = .next t) :
    s.mode ≠ none ∧ s.busy = false ∧ earlyWrites s s.bus [.rstN] = false ∧
    t = ({ s with busy := true, inReset := true } : State).resetStart := by
  unfold execHwReset at h
  split at h
  · cases h
  · split at h
    · cases h
    · exact ⟨‹_›, by simpa using ‹¬ s.busy = true›, afterWrites_next h⟩

theorem execInit_next {irqOk : Bool} {s t : State} (h : execInit irqOk s = .next t) :
    s.mode = none ∧ configOk s.cfg = true ∧
    t = { s with
      mode := some (modeOf irqOk)
      bus := if irqOk then ((s.bus.initMask s.cfg irqOk).drawBase s.cfg).2.emit .registerIrq
        else ((s.bus.initMask s.cfg irqOk).drawBase s.cfg).2
      arenaBase := some ((s.bus.initMask s.cfg irqOk).draws.nextBase s.cfg)
      lat := Latches.clear, wres := none, snap := none, busy := false, settled := true, sub := none
      rstErr := .noError, arenaMap := none, segMap := none, inReset := false, armed := false } := by
  unfold execInit at h
  split at h
  · cases h
  · split at h
    · cases h
      exact ⟨by simpa using ‹¬ s.mode.isSome = true›, ‹_›, rfl⟩
    · cases h

/-! ## The Control Surface -/

theorem execRegRead_next {r : RegId} {s t : State} (h : execRegRead r s = .next t) :
    earlyRead s r = false ∧
    t = { s with bus := (s.bus.regRead s.cfg r).2, result := s.bus.draws.nextRead, upc := s.upc + 1 } := by
  unfold execRegRead at h
  split at h <;> cases h
  obtain ⟨he, hp⟩ := readReg_ok ‹_›
  cases hp
  exact ⟨he, rfl⟩

theorem execFieldRead_next {f : FieldId} {s t : State} (h : execFieldRead f s = .next t) :
    ∃ v b, readField s f = .ok (v, b) ∧ t = { s with bus := b, result := v, upc := s.upc + 1 } := by
  unfold execFieldRead at h
  split at h <;> cases h
  exact ⟨_, _, ‹_›, rfl⟩

theorem execFieldWrite_next {f : FieldId} {v : Word} {s t : State} (h : execFieldWrite f v s = .next t) :
    v.toNat < 2 ^ (pos s.cfg f).width ∧ earlyWrites s s.bus [f] = false ∧
    t = { s with bus := s.bus.fieldWrite s.cfg f v, upc := s.upc + 1 } := by
  unfold execFieldWrite at h
  split at h
  · exact ⟨by simpa [fieldFitsValue] using ‹fieldFitsValue s.cfg f v = true›, afterWrites_next h⟩
  · cases h

theorem execFieldForce_next {f : FieldId} {v : Word} {s t : State} (h : execFieldForce f v s = .next t) :
    v.toNat < 2 ^ (pos s.cfg f).width ∧ earlyWrites s s.bus [f] = false ∧
    t = { s with bus := s.bus.fieldForce s.cfg f v, upc := s.upc + 1 } := by
  unfold execFieldForce at h
  split at h
  · exact ⟨by simpa [fieldFitsValue] using ‹fieldFitsValue s.cfg f v = true›, afterWrites_next h⟩
  · cases h

/-! ## The Completion Signal -/

theorem execIrq_next {s t : State} (h : execIrq s = .next t) :
    s.mode = some .interrupt ∧ earlyRead s .event = false ∧
    t = s.handleEvents s.bus.draws.nextRead (s.bus.regRead s.cfg .event).2 := by
  unfold execIrq at h
  split at h
  · split at h <;> cases h
    obtain ⟨he, hp⟩ := readReg_ok ‹_›
    cases hp
    exact ⟨‹_›, he, rfl⟩
  · cases h

/-- A wait that ends with success (R168). -/
theorem finishWait_next {s t : State} (h : finishWait s = .next t) :
    earlyRead s .status = false ∧ t = s.awaitDone s.bus.draws.nextRead (s.bus.regRead s.cfg .status).2 := by
  unfold finishWait at h
  split at h <;> cases h
  obtain ⟨he, hp⟩ := readReg_ok ‹_›
  cases hp
  exact ⟨he, rfl⟩

/-- What a pass of a wait leaves when it does not succeed: the expiry ends it, or it goes on. -/
theorem awaitInterrupt_next {need : WaitSet} {s t : State} (h : awaitInterrupt need s = .next t) :
    (cond s.lat need = true ∧ finishWait s = .next t) ∨
    (cond s.lat need = false ∧
      (t = ({ s with bus := s.bus.drawExpired.2 } : State).awaitTimedOut ∨
        t = ({ s with bus := s.bus.drawExpired.2 } : State).awaitAgain)) := by
  unfold awaitInterrupt at h
  split at h
  · exact .inl ⟨‹_›, h⟩
  · rename_i hc
    cases h
    refine .inr ⟨by simpa using hc, ?_⟩
    split
    · exact .inl rfl
    · exact .inr rfl

theorem awaitPolling_next {need : WaitSet} {s t : State} (h : awaitPolling need s = .next t) :
    (cond s.lat need = true ∧ finishWait s = .next t) ∨
    (cond s.lat need = false ∧ earlyRead s .event = false ∧
      ∃ s1 : State, s1 = ({ s with bus := (s.bus.regRead s.cfg .event).2 } : State).latchMerge
          s.bus.draws.nextRead false ∧
        ((cond s1.lat need = true ∧ finishWait s1 = .next t) ∨
          t = ({ s1 with bus := s1.bus.drawExpired.2 } : State).awaitTimedOut ∨
          t = (({ s1 with bus := s1.bus.drawExpired.2 } : State).onBus
            (Bus.emit (.delay s.cfg.pollInterval))).awaitAgain)) := by
  unfold awaitPolling at h
  split at h
  · exact .inl ⟨‹_›, h⟩
  · rename_i hc
    split at h
    · cases h
    · obtain ⟨he, hp⟩ := readReg_ok ‹_›
      cases hp
      refine .inr ⟨by simpa using hc, he, _, rfl, ?_⟩
      unfold awaitPolled at h
      simp only at h
      split at h
      · exact .inl ⟨‹_›, h⟩
      · cases h
        refine .inr ?_
        split
        · exact .inl rfl
        · exact .inr rfl

theorem execAwait_next {need : WaitSet} {tobj : Obj} {s t : State} (h : execAwait need tobj s = .next t) :
    s.req.has tobj = true ∧
    (((s.noteWait tobj).mustSettle = true ∧ t = (s.noteWait tobj).settle) ∨
      ((s.noteWait tobj).mustSettle = false ∧
        (s.mode = some .interrupt ∧ awaitInterrupt need (s.noteWait tobj) = .next t ∨
          s.mode = some .polling ∧ awaitPolling need (s.noteWait tobj) = .next t))) := by
  unfold execAwait at h
  split at h
  · refine ⟨‹_›, ?_⟩
    cases hm : s.mode with
    | none => simp [hm] at h
    | some m =>
      cases hs : (s.noteWait tobj).mustSettle <;> cases m <;> simp [hm, hs] at h
      · exact .inr ⟨rfl, .inl ⟨rfl, h⟩⟩
      · exact .inr ⟨rfl, .inr ⟨rfl, h⟩⟩
      · exact .inl ⟨rfl, h.symm⟩
      · exact .inl ⟨rfl, h.symm⟩
  · cases h

/-- Everything a step of `AWAIT` leaves, in either mode (R162-R168): the fields it can change; no shadow changed and no
register written; a log that grows; the wait's result; how far it has
come and whether a wait is still to come; and latches that only rise. -/
theorem execAwait_frame {need : WaitSet} {tobj : Obj} {s t : State} (h : execAwait need tobj s = .next t) :
    t = { s with
      bus := t.bus, lat := t.lat, log := t.log, wres := t.wres, snap := t.snap, sub := t.sub, upc := t.upc,
      settled := t.settled, armed := t.armed, waitTmo := t.waitTmo, waitArg := t.waitArg } ∧
    t.bus.shadow = s.bus.shadow ∧ (∃ es, t.bus.trace = s.bus.trace ++ es ∧ ∀ e ∈ es, isRegWrite e = false) ∧
    (∃ es, t.log = s.log ++ es) ∧
    ((t.wres = s.wres ∧ t.snap = s.snap) ∨ (t.wres = some .ok ∧ t.snap.isSome = true) ∨
      (t.wres = some .timeout ∧ t.snap = none)) ∧
    ((t.upc = s.upc ∧ t.armed = s.armed ∧ ((t.settled = true ∧ t.sub = some ⟨.await, .settle, 0⟩) ∨
        t.settled = s.settled ∧ (∃ n, t.sub = some ⟨.await, .loop, n⟩) ∧
          (s.mode = some .polling → s.settled = true ∨ s.inAwaitLoop = true))) ∨
      (t.upc = s.upc + 1 ∧ t.sub = none ∧ t.settled = s.settled ∧ t.armed = false)) ∧
    ((s.lat.cmd = true → t.lat.cmd = true) ∧ (s.lat.data = true → t.lat.data = true) ∧
      (s.lat.busy = true → t.lat.busy = true) ∧ (s.lat.err = true → t.lat.err = true)) := by
  obtain ⟨-, h⟩ := execAwait_next h
  rcases h with ⟨-, rfl⟩ | ⟨hm, ⟨hmode, h⟩ | ⟨hmode, h⟩⟩
  · exact ⟨rfl, rfl, ⟨_, rfl, by simp [isRegWrite]⟩, ⟨[], by simp⟩, .inl ⟨rfl, rfl⟩,
      .inl ⟨rfl, rfl, .inl ⟨rfl, rfl⟩⟩, by simp⟩
  · rcases awaitInterrupt_next h with ⟨-, h⟩ | ⟨-, rfl | rfl⟩
    · obtain rfl := (finishWait_next h).2
      exact ⟨rfl, rfl, ⟨_, rfl, by simp [isRegWrite]⟩, ⟨[], by simp⟩, .inr (.inl ⟨rfl, rfl⟩), .inr ⟨rfl, rfl, rfl, rfl⟩,
        by simp⟩
    · exact ⟨rfl, rfl, ⟨[], by simp [Bus.drawExpired], by simp⟩, ⟨[], by simp⟩, .inr (.inr ⟨rfl, rfl⟩),
        .inr ⟨rfl, rfl, rfl, rfl⟩, by simp⟩
    · exact ⟨rfl, rfl, ⟨[], by simp [Bus.drawExpired], by simp⟩, ⟨[], by simp⟩, .inl ⟨rfl, rfl⟩,
        .inl ⟨rfl, rfl, .inr ⟨rfl, ⟨_, rfl⟩, by simp [hmode]⟩⟩, by simp⟩
  · have hsl : s.mode = some .polling → s.settled = true ∨ s.inAwaitLoop = true := by
      intro _
      have : (s.noteWait tobj).inAwaitLoop = s.inAwaitLoop := rfl
      cases h1 : s.settled <;> cases h2 : s.inAwaitLoop <;> simp [State.mustSettle, hmode, h1, this, h2] at hm ⊢
    rcases awaitPolling_next h with ⟨-, h⟩ | ⟨-, -, s1, rfl, ⟨-, h⟩ | rfl | rfl⟩
    · obtain rfl := (finishWait_next h).2
      exact ⟨rfl, rfl, ⟨_, rfl, by simp [isRegWrite]⟩, ⟨[], by simp⟩, .inr (.inl ⟨rfl, rfl⟩), .inr ⟨rfl, rfl, rfl, rfl⟩,
        by simp⟩
    · obtain rfl := (finishWait_next h).2
      exact ⟨rfl, rfl, ⟨_, by simp; rfl, by simp [isRegWrite]⟩, ⟨_, rfl⟩, .inr (.inl ⟨rfl, rfl⟩),
        .inr ⟨rfl, rfl, rfl, rfl⟩, by simp +contextual [mergedLatches]⟩
    · exact ⟨rfl, rfl, ⟨_, rfl, by simp [isRegWrite]⟩, ⟨_, rfl⟩, .inr (.inr ⟨rfl, rfl⟩), .inr ⟨rfl, rfl, rfl, rfl⟩,
        by simp +contextual [mergedLatches]⟩
    · exact ⟨rfl, rfl, ⟨_, by simp [Bus.drawExpired]; rfl, by simp [isRegWrite]⟩, ⟨_, rfl⟩, .inl ⟨rfl, rfl⟩,
        .inl ⟨rfl, rfl, .inr ⟨rfl, ⟨_, rfl⟩, hsl⟩⟩, by simp +contextual [mergedLatches]⟩

theorem execWchk_next {o : Obj} {s t : State} (h : execWchk o s = .next t) :
    s.req.has o = true ∧ (t = s.advance ∨ t = (s.raise .timeout o).advance) := by
  unfold execWchk at h
  split at h
  · cases h
    refine ⟨‹_›, ?_⟩
    split
    · exact .inr rfl
    · exact .inl rfl
  · cases h

/-! ## The Command Unit -/

theorem execCissue_next {o : CmdId} {s t : State} (h : execCissue o s = .next t) :
    ∃ c, s.req.command o = some c ∧ c.input.rsp ≠ .reserved ∧ earlyWrites s s.clearEvents.bus issueFields = false ∧
      t = ({ s.clearEvents with
        bus := s.clearEvents.bus.issue s.cfg c.input
        req := s.req.setCommand o c.issued } : State).advance := by
  unfold execCissue at h
  split at h
  · cases h
  · split at h
    · cases h
    · exact ⟨_, ‹_›, ‹_›, afterWrites_next h⟩

theorem execTrig_next {s t : State} (h : execTrig s = .next t) :
    earlyWrites s s.bus [.jobStart] = false ∧
    t = { s with bus := s.bus.fieldForce s.cfg .jobStart 1, settled := false, armed := true, upc := s.upc + 1 } :=
  afterWrites_next h

theorem execCcapt_next {o : CmdId} {s t : State} (h : execCcapt o s = .next t) :
    ∃ c v, s.req.command o = some c ∧ s.wres = some .ok ∧ s.snap = some v ∧ t = (s.capture o c v).advance := by
  unfold execCcapt at h
  split at h
  · cases h
  · split at h <;> cases h
    exact ⟨_, _, ‹_›, ‹_›, ‹_›, rfl⟩

/-- Everything the response read can do (R196): nothing, a sequence error, or the response words. -/
theorem State.readResponse_cases (o : CmdId) (c : CommandObj) (s : State) :
    s.readResponse o c = s ∨
    ∃ b w, b = (s.bus.readRegs s.cfg (rspRegs (responseBytes s.cfg c.input.rsp))).2 ∧
      (s.readResponse o c = ({ s with bus := b } : State).raise .sequenceError o.toObj ∨
        s.readResponse o c = { s with bus := b, req := s.req.setCommand o { c with resp := w } }) := by
  unfold State.readResponse
  split
  · exact .inl rfl
  · refine .inr ⟨_, assemble (laneBytes (s.bus.readRegs s.cfg (rspRegs (responseBytes s.cfg c.input.rsp))).1)
      (responseBytes s.cfg c.input.rsp), rfl, ?_⟩
    simp only
    split
    · exact .inl rfl
    · exact .inr rfl

/-- Everything the capture can do (R195): a raise, or the end of the decision order from the state and the status
value that step 2 left. -/
theorem State.capture_cases (o : CmdId) (c : CommandObj) (v : Word) (s : State) :
    s.capture o c v = s.raise .noResponse o.toObj ∨ s.capture o c v = s.raise .crcMismatch o.toObj ∨
    ∃ s1 w, (s1 = s ∧ w = v ∨ s1 = s.ignoreCrc c v ∧ w = v &&& ~~~(fieldMask (pos s.cfg .stCmdRspCrc))) ∧
      s.capture o c v = s1.captureRest o c w := by
  unfold State.capture
  repeat' split
  · exact .inl rfl
  · exact .inr (.inl rfl)
  · exact .inr (.inr ⟨_, _, .inr ⟨rfl, rfl⟩, rfl⟩)
  · exact .inr (.inr ⟨_, _, .inl ⟨rfl, rfl⟩, rfl⟩)

theorem State.captureRest_cases (o : CmdId) (c : CommandObj) (v : Word) (s : State) :
    s.captureRest o c v = s ∨
    ∃ es, s.captureRest o c v = (s.addLog es).readResponse o c := by
  unfold State.captureRest
  split
  · exact .inl rfl
  · refine .inr ?_
    simp only
    split
    · exact ⟨_, rfl⟩
    · exact ⟨[], by simp [State.addLog]⟩

/-! ## The Data Unit -/

theorem execChkdir_next {s t : State} (h : execChkdir s = .next t) :
    ∃ d, s.req.data = some d ∧ (t = s.advance ∨ t = (s.raise .invalidRequest .data).advance) := by
  unfold execChkdir at h
  split at h <;> cases h
  refine ⟨_, ‹_›, ?_⟩
  split
  · exact .inr rfl
  · exact .inl rfl

theorem execDmap_next {s t : State} (h : execDmap s = .next t) :
    ∃ d, s.req.data = some d ∧
      t = { s with
        bus := (s.bus.mapBuffer s.cfg d.input).2
        segMap := some (s.bus.mapBuffer s.cfg d.input).1.1
        req := s.req.setData { d with segs := (s.bus.mapBuffer s.cfg d.input).1.2 }
        upc := s.upc + 1 } := by
  unfold execDmap at h
  split at h <;> cases h
  exact ⟨_, ‹_›, rfl⟩

theorem execDprep_next {s t : State} (h : execDprep s = .next t) :
    ∃ d, s.req.data = some d ∧
      (t = (s.raise .invalidRequest .data).advance ∨ t = (s.raise .tooManySegments .data).advance ∨
        (∃ g, d.segs = [g] ∧ t = { s with
          req := s.req.setData { d with plan := some (directPlan d.input.bs g) }, upc := s.upc + 1 }) ∨
        ∃ a, s.arenaBase = some a ∧ 2 ≤ d.segs.length ∧ d.segs.length ≤ s.cfg.maxSegs ∧
          t = (s.prepareChain a d).advance) := by
  unfold execDprep at h
  split at h
  · cases h
  · rename_i d hd
    refine ⟨d, hd, ?_⟩
    split at h
    · cases h; exact .inl rfl
    · split at h
      · cases h; exact .inr (.inl rfl)
      · split at h
        · cases h; exact .inr (.inr (.inl ⟨_, ‹_›, rfl⟩))
        · rename_i h0 hm _ hg
          split at h <;> cases h
          refine .inr (.inr (.inr ⟨_, ‹_›, ?_, by omega, rfl⟩))
          match hl : d.segs with
          | [] => simp [hl] at h0
          | [g] => exact absurd hl (hg g)
          | g :: g' :: gs => simp

theorem execDarm_next {s t : State} (h : execDarm s = .next t) :
    ∃ d p, s.req.data = some d ∧ d.plan = some p ∧ armFits s.cfg d.input p = true ∧
      earlyWrites s s.clearEvents.bus armedFields = false ∧
      t = ({ s.clearEvents with
        bus := s.clearEvents.bus.fieldWrites s.cfg (armFields s.cfg d.input p) } : State).advance := by
  unfold execDarm at h
  split at h
  · cases h
  · split at h
    · cases h
    · split at h
      · exact ⟨_, _, ‹_›, ‹_›, ‹_›, afterWrites_next h⟩
      · cases h

theorem execBidle_next {s t : State} (h : execBidle s = .next t) :
    ∃ x b s1, readField s .busIdle = .ok (x, b) ∧
      s1 = { s with bus := b, waitTmo := some s.cfg.bidleTimeout } ∧
      (t = s1.bidleDone ∨
        ((s.cfg.bidleFatal = true → s.req.has .data = true) ∧
          t = ({ s1 with bus := s1.bus.drawExpired.2 } : State).bidleExpired) ∨
        t = ({ s1 with bus := s1.bus.drawExpired.2 } : State).bidleAgain) := by
  unfold execBidle at h
  split at h
  · cases h
  · refine ⟨_, _, _, ‹_›, rfl, ?_⟩
    unfold State.bidlePass at h
    split at h
    · cases h; exact .inl rfl
    · simp only at h
      split at h
      · split at h <;> cases h
        rename_i ht
        exact .inr (.inl ⟨by simpa [State.bidleHasNoTarget] using ht, rfl⟩)
      · cases h; exact .inr (.inr rfl)

/-- Everything the expiry of the bus-idle poll can do (R230). -/
theorem State.bidleExpired_cases (s : State) :
    s.bidleExpired = { s.addLog [.bidleTimeout] with sub := none, upc := s.upc + 1 } ∨
    s.bidleExpired = { (s.addLog [.bidleTimeout]).raise .timeout .data with sub := none, upc := s.upc + 1 } := by
  unfold State.bidleExpired
  simp only
  split
  · exact .inr (by rw [State.raise_upc]; rfl)
  · exact .inl rfl

/-- A pass of the bus-idle poll writes no register (R230). -/
theorem execBidle_trace {s t : State} (h : execBidle s = .next t) :
    ∃ es, t.bus.trace = s.bus.trace ++ es ∧ ∀ e ∈ es, isRegWrite e = false := by
  obtain ⟨x, b, s1, hr, rfl, ht⟩ := execBidle_next h
  obtain ⟨es, he, hw⟩ := readField_trace hr
  rcases ht with rfl | ⟨-, rfl⟩ | rfl
  · exact ⟨es, he, hw⟩
  · refine ⟨es, ?_, hw⟩
    rcases State.bidleExpired_cases _ with h' | h' <;> rw [h']
    · exact he
    · simpa [Bus.drawExpired] using he
  · refine ⟨es ++ [.delay s.cfg.bidleInterval], ?_, ?_⟩
    · change b.trace = s.bus.trace ++ es at he
      simp [Bus.emit, Bus.drawExpired, he]
    · simpa [or_imp, forall_and, isRegWrite] using hw

theorem execDstat_next {s t : State} (h : execDstat s = .next t) :
    ∃ d v s1, s.req.data = some d ∧ s.snap = some v ∧ (s1 = s ∨ s1 = s.raise .crcMismatch .data) ∧
      t = { s1 with
        req := { s1.req with data := s1.req.data.map fun e => { e with bytes := sumLens d.segs } }
        upc := s.upc + 1 } := by
  unfold execDstat at h
  split at h
  · cases h
  · split at h <;> cases h
    rename_i d hd _ v hv
    refine ⟨d, v, if dataCrc s.cfg v then s.raise .crcMismatch .data else s, hd, hv, ?_, ?_⟩
    · split
      · exact .inr rfl
      · exact .inl rfl
    · have hu : (if dataCrc s.cfg v then s.raise .crcMismatch .data else s).upc = s.upc := by split <;> simp
      rw [← hu]

/-! ## Sequencing and reset -/

theorem execJerr_next {o : Obj} {l : Nat} {s t : State} (h : execJerr o l s = .next t) :
    ∃ e, s.req.errorOf o = some e ∧ t = { s with upc := if e = .noError then s.upc + 1 else l } := by
  unfold execJerr at h
  split at h <;> cases h
  refine ⟨_, ‹_›, ?_⟩
  unfold State.branchOnError State.advance
  split <;> rfl

theorem execDone_next {s t : State} (h : execDone s = .next t) :
    s.segMap = none ∧ s.arenaMap = none ∧ t = s.complete := by
  unfold execDone at h
  split at h <;> cases h
  rename_i hm
  exact ⟨hm.1, hm.2, rfl⟩

/-- Everything the end of a sequence can do (R300, R272). -/
theorem State.resetEnd_cases (s : State) :
    (s.inReset = true ∧ s.resetEnd = { s with
      sub := none, busy := false, inReset := false, bus := s.bus.emit (.resetReturned s.rstErr) }) ∨
    (s.inReset = false ∧ s.resetEnd = { s with sub := none, upc := s.upc + 1 }) := by
  unfold State.resetEnd
  split
  · exact .inl ⟨‹_›, rfl⟩
  · exact .inr ⟨by simpa using ‹¬ s.inReset = true›, rfl⟩

/-- Everything one step of the sequence can do (R300): the start; or, after a read of the status field, the release,
the end with the error or without it, or another pass. -/
theorem execRstseq_next {s t : State} (h : execRstseq s = .next t) :
    (earlyWrites s s.bus [.rstN] = false ∧ t = s.resetStart) ∨
    ∃ x b s1 ph n, readField s .rstSts = .ok (x, b) ∧ s1 = { s with bus := b } ∧ s.sub = some ⟨.rstseq, ph, n⟩ ∧
      ((earlyWrites s1 s1.bus [.rstN] = false ∧ t = s1.resetRelease) ∨ t = s1.resetEnd ∨ t = ({ s1 with rstErr := .resetFailed } : State).resetEnd ∨
        t = { s1 with bus := s1.bus.emit (.delay s.cfg.rstInterval), sub := some ⟨.rstseq, ph, n + 1⟩ }) := by
  unfold execRstseq resetStep at h
  split at h
  · split at h
    · cases h
    · refine .inr ⟨_, _, _, _, _, ‹_›, rfl, ‹_›, ?_⟩
      unfold State.assertPass at h
      split at h
      · exact .inl (afterWrites_next h)
      · cases h
        unfold State.resetFailedTest
        split
        · exact .inr (.inr (.inl rfl))
        · exact .inr (.inr (.inr rfl))
  · split at h <;> cases h
    refine .inr ⟨_, _, _, _, _, ‹_›, rfl, ‹_›, ?_⟩
    unfold State.releasePass State.resetFailedTest
    repeat' split
    · exact .inr (.inl rfl)
    · exact .inr (.inr (.inl rfl))
    · exact .inr (.inr (.inr rfl))
  · exact .inl (afterWrites_next h)

end Sys2Proof.Machine
end

