-- ==== Sys2Proof/Laws/Orchestrator.lean ====
section
/-! SUPPORT. The checks of the orchestrator in the words of the rules: a well-formed request (R261), a loadable program
(R274), and the settle hazard (R145). -/

namespace Sys2Proof.Machine

open Sys2Proof

/-- The check of `SUBMIT` is R261. -/
theorem requestOk_iff (cfg : Config) (sh : Shape) (cmd : Command) (sbc : Option Command) (data : Option Data)
    (stop : Option Command) :
    requestOk cfg sh cmd sbc data stop = true ↔ WellFormedRequest cfg sh cmd sbc data stop := by
  obtain ⟨hd, dr, hs, ht⟩ := sh
  unfold requestOk WellFormedRequest Shape.announces
  cases sbc <;> cases data <;> cases stop <;> cases hd <;> cases hs <;> cases ht <;>
    simp [commandOk, dataOk, dirCodeOf, and_assoc, or_imp, forall_and] <;> try tauto

/-- Condition 1 of R274, index by index. -/
theorem labelsLater_iff (n : Nat) (is : List Instr) (k : Nat) :
    labelsLater n k is = true ↔
      ∀ (j : Nat) (i : Instr) (l : Nat), is[j]? = some i → labelOf i = some l → k + j < l ∧ l < n := by
  induction is generalizing k with
  | nil => simp [labelsLater]
  | cons i is ih =>
    simp only [labelsLater, Bool.and_eq_true, ih]
    constructor
    · rintro ⟨h1, h2⟩ j i' l hj hl
      cases j with
      | zero =>
        have hi : i = i' := by simpa using hj
        subst hi
        simpa [hl] using h1
      | succ j => have := h2 j i' l (by simpa using hj) hl; omega
    · intro h
      refine ⟨?_, fun j i' l hj hl => ?_⟩
      · cases hl : labelOf i with
        | none => rfl
        | some l => simpa using h 0 i l rfl hl
      · have := h (j + 1) i' l (by simpa using hj) hl; omega

/-- The loader's check is R274. -/
theorem programOk_iff (q : Request) (prog : List Instr) : programOk q prog = true ↔ LoadableProgram q prog := by
  simp only [programOk, LoadableProgram, Bool.and_eq_true, labelsLater_iff, beq_iff_eq, List.all_eq_true,
    Bool.not_eq_true', Nat.zero_add, and_assoc]

/-- The settle hazard (R145, R360). -/
theorem earlyRead_iff (s : State) (r : RegId) :
    earlyRead s r = true ↔
      (s.mode = some .polling ∨ s.cfg.settleIrq = true) ∧ (r = .event ∨ r = .status) ∧ s.settled = false := by
  simp [earlyRead, isFlagReg, and_assoc]

/-- The settle hazard of a field write (R141, R360). -/
theorem earlyBase_iff (s : State) (b : Bus) (r : RegId) : earlyBase s b r = true ↔ EarlyBase s b r := by
  have hv : (b.validShadow s.cfg r).isNone = true ↔ cached s.cfg r = false ∨ RegFile.at b.shadow r = none := by
    unfold Bus.validShadow
    cases cached s.cfg r <;> simp
  rw [earlyBase, Bool.and_eq_true, earlyRead_iff, hv, EarlyBase]

/-- Some of the writes starts from an early read. -/
theorem earlyWrites_iff (s : State) (b : Bus) (fs : List FieldId) :
    earlyWrites s b fs = true ↔ ∃ f ∈ fs, EarlyBase s b (pos s.cfg f).reg := by
  simp only [earlyWrites, List.any_eq_true, earlyBase_iff]

/-- The answer of writes whose bases are read in time, and of writes with an early one. -/
theorem afterWrites_eq (s : State) (b : Bus) (fs : List FieldId) (t : State) :
    ((∃ f ∈ fs, EarlyBase s b (pos s.cfg f).reg) → afterWrites s b fs t = .fault .earlyFlagRead) ∧
    (¬ (∃ f ∈ fs, EarlyBase s b (pos s.cfg f).reg) → afterWrites s b fs t = .next t) := by
  rw [← earlyWrites_iff]
  exact ⟨fun h => if_pos h, fun h => if_neg h⟩

/-- The completion condition (R162). -/
theorem cond_iff (l : Latches) (need : WaitSet) :
    cond l need = true ↔
      l.err = true ∨ (need.cmd = true → l.cmd = true) ∧ (need.data = true → l.data = true) ∧
        (need.busy = true → l.busy = true) := by
  obtain ⟨a, b, c⟩ := need
  obtain ⟨d, e, f, g⟩ := l
  cases a <;> cases b <;> cases c <;> cases d <;> cases e <;> cases f <;> cases g <;> decide

end Sys2Proof.Machine
end

