-- ==== Sys2Proof/Laws/Step.lean ====
section
/-! SUPPORT. Everything a step can do, said once (R87): an idle engine waits, an operation runs, or a program is
loaded. -/

namespace Sys2Proof.Machine

open Sys2Proof

theorem portOp_ok {ws : List Word} {i : Instr} (h : portOp ws = .ok i) :
    atPort i = true ∧ ∃ rest, decode ws = .ok (i, rest) ∧ (isSubmit i = true → rest = []) := by
  unfold portOp at h
  split at h
  · rename_i hd
    split at h
    · cases h
    · split at h <;> cases h
      rename_i ha hr
      exact ⟨by simpa using ha, _, hd, fun hs => by simpa [hs] using hr⟩
  · cases h

/-- A load that is accepted (R274). -/
theorem loadProgram_next {l : Load} {s t : State} (h : loadProgram l s = .next t) :
    s.mode ≠ none ∧ s.busy = false ∧ ∃ prog, decodeProgram l.prog = some prog ∧
      programOk (Request.fresh l.cmd l.sbc l.stop l.data) prog = true ∧
      l.sbc.all commandOk = true ∧ l.cmd.all commandOk = true ∧ l.stop.all commandOk = true ∧
      t = { s with req := Request.fresh l.cmd l.sbc l.stop l.data, prog := prog, upc := 0, busy := true } := by
  unfold loadProgram at h
  split at h
  · cases h
  · split at h
    · cases h
    · rename_i hm hb
      simp only at h
      split at h
      · cases h
      · split at h <;> cases h
        rename_i hok
        simp only [Bool.and_eq_true] at hok
        exact ⟨hm, by simpa using hb, _, ‹_›, hok.1.1.1, hok.1.1.2, hok.1.2, hok.2, rfl⟩

/-- What an operation's transactions are to the hold of R369, given what it appended to the trace. -/
theorem wroteRegister_of_trace {s t : State} {es : List Event} (h : t.bus.trace = s.bus.trace ++ es) :
    wroteRegister s t = es.any isRegWrite := by
  simp [wroteRegister, h]

/-- An operation's answer stands unless it wrote a register while a wait is to come (R369). -/
theorem holdWhileArmed_next {s t : State} {a : Answer} (h : holdWhileArmed s a = .next t) :
    a = .next t ∧ (s.armed = true → wroteRegister s t = false) := by
  unfold holdWhileArmed at h
  split at h
  · split at h <;> cases h
    rename_i hw
    exact ⟨rfl, fun ha => by simpa [ha] using hw⟩
  · cases h
  · cases h

theorem holdWhileArmed_fault {s : State} {a : Answer} {f : Fault} (h : holdWhileArmed s a = .fault f) :
    a = .fault f ∨ f = .unmodelled ∧ s.armed = true ∧ ∃ t, a = .next t ∧ wroteRegister s t = true := by
  unfold holdWhileArmed at h
  split at h
  · split at h <;> cases h
    rename_i hw
    simp only [Bool.and_eq_true] at hw
    exact .inr ⟨rfl, hw.1, _, rfl, hw.2⟩
  · cases h; exact .inl rfl
  · cases h

/-- With no wait to come every answer stands. -/
@[simp] theorem holdWhileArmed_of_not_armed {s : State} (h : s.armed = false) (a : Answer) :
    holdWhileArmed s a = a := by
  cases a <;> simp [holdWhileArmed, h]

/-- An operation that wrote no register stands. -/
theorem holdWhileArmed_of_no_write {s t : State} (h : wroteRegister s t = false) :
    holdWhileArmed s (.next t) = .next t := by
  simp [holdWhileArmed, h]

/-- The orchestrator's move (R22, R26, R369). -/
theorem orchestrate_next {s t : State} (h : orchestrate s = .next t) :
    (s.busy = false ∧ t = s) ∨
    (s.busy = true ∧ (s.armed = true → wroteRegister s t = false) ∧ ∃ i, nextOp s = some i ∧ exec i s = .next t) := by
  unfold orchestrate at h
  split at h
  · split at h
    · obtain ⟨he, hw⟩ := holdWhileArmed_next h
      exact .inr ⟨‹_›, hw, _, ‹_›, he⟩
    · cases h
  · cases h; exact .inl ⟨by simpa using ‹¬ s.busy = true›, rfl⟩

/-- Everything a step can do when it answers a next state. In each case the operation runs with the turn taken. -/
theorem step_next {s t : State} (h : step s = .next t) :
    ∃ s0 : State, s0 = { s with inputs := s.inputs.tail } ∧
      ((s0.busy = false ∧ t = s0) ∨
        (s0.busy = true ∧ (s0.armed = true → wroteRegister s0 t = false) ∧
          ∃ i, nextOp s0 = some i ∧ exec i s0 = .next t) ∨
        (∃ ws i, s.inputs.head? = some (.port ws) ∧ portOp ws = .ok i ∧ exec i s0 = .next t) ∨
        ∃ l, s.inputs.head? = some (.load l) ∧ loadProgram l s0 = .next t) := by
  unfold step at h
  refine ⟨_, rfl, ?_⟩
  split at h
  · rename_i hi
    have hs : ({ s with inputs := s.inputs.tail } : State) = s := by rw [hi]; cases s; simp_all
    rw [hs]
    exact (orchestrate_next h).imp_right .inl
  · rename_i rest hi
    rw [hi]
    exact (orchestrate_next h).imp_right .inl
  · rename_i ws rest hi
    rw [hi]
    unfold runPort at h
    split at h
    · exact .inr (.inr (.inl ⟨_, _, rfl, ‹_›, h⟩))
    · cases h
  · rename_i l rest hi
    rw [hi]
    exact .inr (.inr (.inr ⟨_, rfl, h⟩))

/-- A program that keeps the conditions of R274 ends in `DONE`, so any other operation is followed by one (R22). -/
theorem next_in_program {q : Request} {prog : List Instr} (h : programOk q prog = true) {k : Nat} {i : Instr}
    (hi : prog[k]? = some i) (hd : i ≠ .done) : k + 1 < prog.length := by
  have hlast := (programOk_iff q prog).1 h |>.2.1
  obtain ⟨hk, hik⟩ := List.getElem?_eq_some_iff.1 hi
  rw [List.getLast?_eq_getElem?] at hlast
  obtain ⟨hk', hil⟩ := List.getElem?_eq_some_iff.1 hlast
  by_cases hkl : k + 1 < prog.length
  · exact hkl
  · exfalso
    have : k = prog.length - 1 := by omega
    subst this
    exact hd (hik.symm.trans hil)

/-- A label of such a program is an index of it (R22, R274). -/
theorem label_in_program {q : Request} {prog : List Instr} (h : programOk q prog = true) {k : Nat} {i : Instr}
    (hi : prog[k]? = some i) {l : Nat} (hl : labelOf i = some l) : l < prog.length :=
  ((programOk_iff q prog).1 h |>.1 k i l hi hl).2

/-- Whether a program keeps the conditions depends only on which objects the request has. -/
theorem programOk_congr {q q' : Request} (h : ∀ o, q'.has o = q.has o) (prog : List Instr) :
    programOk q' prog = programOk q prog := by
  have : q'.has = q.has := funext h
  simp [programOk, this]

end Sys2Proof.Machine
end

