-- ==== Sys2Proof/Laws/Fairness.lean ====
section
/-! SUPPORT. The fairness law of the expiry draws at work (41_completion.md R166, 44_orchestrator.md R269): from every
state some later expiry draw is an expiry, and so every wait and every bus-idle poll ends. -/

namespace Sys2Proof.Machine

open Sys2Proof

/-! ## Draws of expiry -/

@[simp] theorem afterExpiries_zero (d : Draws) : afterExpiries 0 d = d := rfl

theorem afterExpiries_succ (n : Nat) (d : Draws) :
    afterExpiries (n + 1) d = afterExpiries n (afterExpiries 1 d) := by
  simp [afterExpiries, List.drop_tail, Nat.add_assoc, Nat.add_comm 1 n]

@[simp] theorem Bus.drawExpired_draws (b : Bus) : b.drawExpired.2.draws = afterExpiries 1 b.draws := by
  simp [Bus.drawExpired, afterExpiries]

/-- A register read takes no draw of expiry. -/
theorem nextExpired_regRead (cfg : Config) (r : RegId) (b : Bus) (n : Nat) :
    (afterExpiries n (b.regRead cfg r).2.draws).nextExpired = (afterExpiries n b.draws).nextExpired := rfl

/-- R166 (b): whatever the queue holds, some later draw of expiry is an expiry. -/
theorem fair_some_expiry (h : FairExpiries) (d : Draws) : ∃ n, (afterExpiries n d).nextExpired = true := by
  obtain ⟨m, hm, he⟩ := h (d.expiryCount + d.expiries.length)
  refine ⟨m - d.expiryCount, ?_⟩
  have h1 : d.expiryCount + (m - d.expiryCount) = m := by omega
  have h2 : d.expiries.drop (m - d.expiryCount) = [] := List.drop_eq_nil_of_le (by omega)
  simp [afterExpiries, Draws.nextExpired, drawn, h1, h2, he]

/-! ## Loops -/

theorem runFor_one {s t : State} (h : step s = .next t) : runFor 1 s = .next t := by simp [runFor, h]

theorem runFor_succ {n : Nat} {s t u : State} (h : step s = .next t) (h' : runFor n t = .next u) :
    runFor (n + 1) s = .next u := by simp [runFor, h, h']

/-- A loop ends when each of its steps ends it, or goes on after an expiry draw that was none. -/
theorem fair_loop_ends (h : FairExpiries) {Loop Ended : State → Prop}
    (hstep : ∀ s, Loop s → ∃ t, step s = .next t ∧
      (Ended t ∨ Loop t ∧ s.bus.draws.nextExpired = false ∧
        ∀ n, (afterExpiries n t.bus.draws).nextExpired = (afterExpiries (n + 1) s.bus.draws).nextExpired))
    {s : State} (hs : Loop s) : ∃ n t, runFor n s = .next t ∧ Ended t := by
  obtain ⟨k, hk⟩ := fair_some_expiry h s.bus.draws
  induction k generalizing s with
  | zero =>
    obtain ⟨t, ht, he | ⟨-, hn, -⟩⟩ := hstep s hs
    · exact ⟨1, t, runFor_one ht, he⟩
    · rw [afterExpiries_zero, hn] at hk; cases hk
  | succ k ih =>
    obtain ⟨t, ht, he | ⟨hl, -, hd⟩⟩ := hstep s hs
    · exact ⟨1, t, runFor_one ht, he⟩
    · obtain ⟨n, u, hu, he⟩ := ih hl (by rw [hd]; exact hk)
      exact ⟨n + 1, u, runFor_succ ht hu, he⟩

/-! ## Waits and the bus-idle poll -/

/-- With no input to come, a step of a busy engine runs the operation the counter points at, which stands where it
writes no register. -/
theorem step_of_next {s t : State} {i : Instr} (hi : s.inputs = []) (hb : s.busy = true) (hn : nextOp s = some i)
    (h : exec i s = .next t) (hw : ∃ es, t.bus.trace = s.bus.trace ++ es ∧ ∀ e ∈ es, isRegWrite e = false) :
    step s = .next t := by
  obtain ⟨es, he, hw⟩ := hw
  have : wroteRegister s t = false := by
    rw [wroteRegister_of_trace he, List.any_eq_false]
    intro e h; simp [hw e h]
  simp [step, orchestrate, hi, hb, hn, h, holdWhileArmed_of_no_write this]

/-- The engine stands at a wait on an object it has, past the settle step, and the wait has not come to the counter's
next place. -/
def Waiting (need : WaitSet) (o : Obj) (k : Nat) (s : State) : Prop :=
  s.inputs = [] ∧ s.busy = true ∧ nextOp s = some (.await need o) ∧ s.req.has o = true ∧ s.mode ≠ none ∧
  (s.settled = true ∨ s.mode = some .interrupt ∧ s.cfg.settleIrq = false) ∧ s.upc = k

/-- Past its settle step a wait makes no early read. -/
theorem Waiting.calm {need : WaitSet} {o : Obj} {k : Nat} {s : State} (h : Waiting need o k s) (r : RegId) :
    earlyRead s r = false := by
  obtain ⟨-, -, -, -, -, h | ⟨h, h'⟩, -⟩ := h <;> simp [earlyRead, *]

/-- What a wait that succeeds answers. -/
theorem finishWait_ends {s : State} (h : earlyRead s .status = false) :
    ∃ t, finishWait s = .next t ∧ t.wres = some .ok ∧ t.upc = s.upc + 1 := by
  simp only [finishWait, readReg, h, Bool.false_eq_true, if_false]
  exact ⟨_, rfl, rfl, rfl⟩

/-- One pass of a wait: it ends, or it goes on after a draw of expiry that was none (R163, R164). -/
theorem Waiting.pass {need : WaitSet} {o : Obj} {k : Nat} {s : State} (h : Waiting need o k s) :
    ∃ t, step s = .next t ∧ ((t.wres ≠ none ∧ t.upc = k + 1) ∨
      Waiting need o k t ∧ s.bus.draws.nextExpired = false ∧
        ∀ n, (afterExpiries n t.bus.draws).nextExpired = (afterExpiries (n + 1) s.bus.draws).nextExpired) := by
  have hcalm := h.calm
  obtain ⟨hi, hb, hn, ho, hm, hset, hk⟩ := h
  have hsettle : (s.noteWait o).mustSettle = false := by
    rcases hset with h | ⟨h, h'⟩ <;> simp [State.mustSettle, State.noteWait, *]
  suffices hex : ∃ t, exec (.await need o) s = .next t ∧ ((t.wres ≠ none ∧ t.upc = k + 1) ∨
      Waiting need o k t ∧ s.bus.draws.nextExpired = false ∧
        ∀ n, (afterExpiries n t.bus.draws).nextExpired = (afterExpiries (n + 1) s.bus.draws).nextExpired) by
    obtain ⟨t, ht, h⟩ := hex
    exact ⟨t, step_of_next hi hb hn ht (execAwait_frame ht).2.2.1, h⟩
  simp only [exec, execAwait, ho, if_true]
  have done : ∀ s1 : State, earlyRead s1 .status = false → s1.upc = s.upc →
      ∃ t, finishWait s1 = .next t ∧ t.wres ≠ none ∧ t.upc = k + 1 := fun s1 h1 h2 => by
    obtain ⟨t, h3, h4, h5⟩ := finishWait_ends h1
    exact ⟨t, h3, by simp [h4], by rw [h5, h2, hk]⟩
  cases hmode : s.mode with
  | none => exact absurd hmode hm
  | some m =>
    cases m with
    | interrupt =>
      simp only [hsettle, awaitInterrupt, Bool.false_eq_true, if_false]
      by_cases hc : cond (s.noteWait o).lat need = true
      · obtain ⟨t, h1, h2⟩ := done (s.noteWait o) (hcalm .status) rfl
        exact ⟨t, by rw [if_pos hc]; exact h1, .inl h2⟩
      · rw [if_neg hc]
        refine ⟨_, rfl, ?_⟩
        cases he : s.bus.draws.nextExpired with
        | true =>
          have : ((s.noteWait o).bus.drawExpired).1 = true := he
          simp only [this, if_true]
          exact .inl ⟨by simp [State.awaitTimedOut], by simp [State.awaitTimedOut, State.noteWait, hk]⟩
        | false =>
          have : ((s.noteWait o).bus.drawExpired).1 = false := he
          simp only [this, Bool.false_eq_true, if_false]
          exact .inr ⟨⟨hi, hb, hn, ho, by simp [State.awaitAgain, State.noteWait, hmode],
            by simpa [hmode] using hset, hk⟩, trivial, fun n => by
              rw [afterExpiries_succ n s.bus.draws, ← Bus.drawExpired_draws]; rfl⟩
    | polling =>
      have hst : s.settled = true := by
        rcases hset with h | ⟨h, -⟩
        · exact h
        · rw [hmode] at h; cases h
      simp only [hsettle, awaitPolling, Bool.false_eq_true, if_false]
      by_cases hc : cond (s.noteWait o).lat need = true
      · obtain ⟨t, h1, h2⟩ := done (s.noteWait o) (hcalm .status) rfl
        exact ⟨t, by rw [if_pos hc]; exact h1, .inl h2⟩
      · have he0 : earlyRead (s.noteWait o) .event = false := hcalm .event
        simp only [if_neg hc, readReg, he0, Bool.false_eq_true, if_false, awaitPolled]
        generalize hs1 : State.latchMerge ((s.noteWait o).bus.regRead (s.noteWait o).cfg .event).1 false
          { s.noteWait o with bus := ((s.noteWait o).bus.regRead (s.noteWait o).cfg .event).2 } = s1
        have hx : ∀ n, (afterExpiries n s1.bus.draws).nextExpired = (afterExpiries n s.bus.draws).nextExpired := by
          subst hs1; intro n; rfl
        have hf : s1.inputs = [] ∧ s1.busy = true ∧ nextOp s1 = some (.await need o) ∧ s1.req.has o = true ∧
            s1.mode = some .polling ∧ s1.settled = true ∧ s1.upc = k ∧ s1.cfg = s.cfg := by
          subst hs1; exact ⟨hi, hb, hn, ho, hmode, hst, hk, rfl⟩
        by_cases hc2 : cond s1.lat need = true
        · obtain ⟨t, h1, h2⟩ := done s1 (by simp [earlyRead, hf]) (by rw [hf.2.2.2.2.2.2.1, hk])
          exact ⟨t, by rw [if_pos hc2]; exact h1, .inl h2⟩
        · rw [if_neg hc2]
          refine ⟨_, rfl, ?_⟩
          cases he : s.bus.draws.nextExpired with
          | true =>
            have : (s1.bus.drawExpired).1 = true := (hx 0).trans he
            simp only [this, if_true]
            exact .inl ⟨by simp [State.awaitTimedOut], by simp [State.awaitTimedOut, hf]⟩
          | false =>
            have : (s1.bus.drawExpired).1 = false := (hx 0).trans he
            simp only [this, Bool.false_eq_true, if_false]
            exact .inr ⟨⟨hf.1, hf.2.1, hf.2.2.1, hf.2.2.2.1, by simp [State.awaitAgain, State.onBus, hf],
              .inl hf.2.2.2.2.2.1, hf.2.2.2.2.2.2.1⟩, trivial, fun n => by
                rw [← hx, afterExpiries_succ n s1.bus.draws, ← Bus.drawExpired_draws]; rfl⟩

/-- R166, R269: under the fairness law every wait ends, with its result. -/
theorem fair_wait_ends (h : FairExpiries) {need : WaitSet} {o : Obj} {k : Nat} {s : State}
    (hs : Waiting need o k s) : ∃ n t, runFor n s = .next t ∧ t.wres ≠ none ∧ t.upc = k + 1 :=
  fair_loop_ends h (Loop := Waiting need o k) (fun _ hw => hw.pass) hs

/-- The engine stands at the bus-idle poll, which has an object to raise on where expiry raises, and whose register is
read with no hazard. -/
def PollingBus (k : Nat) (s : State) : Prop :=
  s.inputs = [] ∧ s.busy = true ∧ nextOp s = some .bidle ∧ (s.cfg.bidleFatal = true → s.req.has .data = true) ∧
  earlyRead s (pos s.cfg .busIdle).reg = false ∧ s.upc = k

/-- One pass of the poll: it ends, or it goes on after a draw of expiry that was none (R230). -/
theorem PollingBus.pass {k : Nat} {s : State} (h : PollingBus k s) :
    ∃ t, step s = .next t ∧ ((t.sub = none ∧ t.upc = k + 1) ∨
      PollingBus k t ∧ s.bus.draws.nextExpired = false ∧
        ∀ n, (afterExpiries n t.bus.draws).nextExpired = (afterExpiries (n + 1) s.bus.draws).nextExpired) := by
  obtain ⟨hi, hb, hn, hd, he0, hk⟩ := h
  suffices hex : ∃ t, exec .bidle s = .next t ∧ ((t.sub = none ∧ t.upc = k + 1) ∨
      PollingBus k t ∧ s.bus.draws.nextExpired = false ∧
        ∀ n, (afterExpiries n t.bus.draws).nextExpired = (afterExpiries (n + 1) s.bus.draws).nextExpired) by
    obtain ⟨t, ht, h⟩ := hex
    exact ⟨t, step_of_next hi hb hn ht (execBidle_trace ht), h⟩
  have hread : ∃ x b, readField s .busIdle = .ok (x, b) ∧ ∀ n,
      (afterExpiries n b.draws).nextExpired = (afterExpiries n s.bus.draws).nextExpired := by
    unfold readField
    simp only [readReg, he0, Bool.false_eq_true, if_false]
    split
    · exact ⟨_, _, rfl, fun n => rfl⟩
    · exact ⟨_, _, rfl, fun n => by rw [Bus.setShadow_draws]; rfl⟩
  obtain ⟨x, b, hr, hx⟩ := hread
  simp only [exec, execBidle, hr, State.bidlePass]
  by_cases h1 : x = 1
  · simp only [h1, if_true]
    exact ⟨_, rfl, .inl ⟨rfl, by simp [State.bidleDone, hk]⟩⟩
  · simp only [h1, if_false]
    cases he : s.bus.draws.nextExpired with
    | true =>
      have : b.drawExpired.1 = true := (hx 0).trans he
      have ht : ∀ b w, ({ s with bus := b, waitTmo := w } : State).bidleHasNoTarget = false := by
        intro b w
        cases hf : s.cfg.bidleFatal
        · simp [State.bidleHasNoTarget, hf]
        · simp [State.bidleHasNoTarget, hd hf]
      simp only [this, ht, if_true, Bool.false_eq_true, if_false]
      refine ⟨_, rfl, .inl ⟨by simp [State.bidleExpired], ?_⟩⟩
      simp only [State.bidleExpired]
      split <;> simp [State.addLog, hk]
    | false =>
      have : b.drawExpired.1 = false := (hx 0).trans he
      simp only [this, Bool.false_eq_true, if_false]
      exact ⟨_, rfl, .inr ⟨⟨hi, hb, hn, hd, he0, hk⟩, trivial, fun n => by
        rw [← hx, afterExpiries_succ n b.draws, ← Bus.drawExpired_draws]; rfl⟩⟩

/-- R166, R269: under the fairness law every bus-idle poll ends. -/
theorem fair_poll_ends (h : FairExpiries) {k : Nat} {s : State} (hs : PollingBus k s) :
    ∃ n t, runFor n s = .next t ∧ t.sub = none ∧ t.upc = k + 1 :=
  fair_loop_ends h (Loop := PollingBus k) (fun _ hp => hp.pass) hs

end Sys2Proof.Machine
end

