-- ==== Sys2Proof/Laws/Memory.lean ====
section
/-! SUPPORT. Memory: a byte written reads back, every other byte reads as before, every write keeps the canonical form,
and memories in canonical form that read alike are equal. -/

namespace Sys2Proof.Machine

open Sys2Proof

theorem Memory.read_write_same (m : Memory) (a : Nat) (b : Byte) : (Memory.write m a b).read a = some b := by
  induction m with
  | nil => simp [Memory.write, Memory.read]
  | cons c m ih =>
    obtain ⟨k, c⟩ := c
    simp only [Memory.write]
    split
    · simp [Memory.read]
    · split
      · simp [Memory.read]
      · rename_i h1 h2
        simp [Memory.read, h2, ih]

theorem Memory.read_write_other (m : Memory) {a a' : Nat} (b : Byte) (h : a' ≠ a) :
    (Memory.write m a b).read a' = m.read a' := by
  induction m with
  | nil => simp [Memory.write, Memory.read, h]
  | cons c m ih =>
    obtain ⟨k, c⟩ := c
    simp only [Memory.write]
    split
    · simp [Memory.read, h]
    · split
      · rename_i h1 h2
        subst h2
        simp [Memory.read, h]
      · simp [Memory.read, ih]

/-- Every address of a written memory was there before or is the one written. -/
theorem Memory.mem_write_addr {m : Memory} {a : Nat} {b : Byte} {c : Host.Cell} (h : c ∈ Memory.write m a b) :
    c.1 = a ∨ c ∈ m := by
  induction m with
  | nil => simp only [Memory.write, List.mem_singleton] at h; exact .inl (by rw [h])
  | cons d m ih =>
    obtain ⟨k, d⟩ := d
    simp only [Memory.write] at h
    split at h
    · rcases List.mem_cons.1 h with h | h
      · exact .inl (by rw [h])
      · exact .inr h
    · split at h
      · rcases List.mem_cons.1 h with h | h
        · exact .inl (by rw [h])
        · exact .inr (List.mem_cons_of_mem _ h)
      · rcases List.mem_cons.1 h with h | h
        · exact .inr (by rw [h]; exact List.mem_cons_self)
        · exact (ih h).imp_right (List.mem_cons_of_mem _)

theorem Memory.wf_write {m : Memory} (hm : m.wf) (a : Nat) (b : Byte) : (Memory.write m a b).wf := by
  induction m with
  | nil => simp [Memory.write, Memory.wf]
  | cons c m ih =>
    obtain ⟨k, c⟩ := c
    obtain ⟨hk, hm'⟩ := List.pairwise_cons.1 hm
    simp only [Memory.write]
    split
    · rename_i h
      refine List.pairwise_cons.2 ⟨fun d hd => ?_, hm⟩
      rcases List.mem_cons.1 hd with rfl | hd
      · exact h
      · exact Nat.lt_trans h (hk d hd)
    · split
      · rename_i h1 h2
        subst h2
        exact List.pairwise_cons.2 ⟨hk, hm'⟩
      · rename_i h1 h2
        refine List.pairwise_cons.2 ⟨fun d hd => ?_, ih hm'⟩
        rcases Memory.mem_write_addr hd with h | h
        · rw [h]; change k < a; omega
        · exact hk d h

theorem Memory.wf_writeBytes {m : Memory} (hm : m.wf) (a : Nat) (bs : List Byte) : (m.writeBytes a bs).wf := by
  induction bs generalizing m a with
  | nil => exact hm
  | cons b bs ih => exact ih (Memory.wf_write hm a b) (a + 1)

theorem Memory.wf_writeChain {m : Memory} (hm : m.wf) (o : ByteOrder) (stride a : Nat) (es : List Slot) :
    (Memory.writeChain o stride m a es).wf := by
  induction es generalizing m a with
  | nil => exact hm
  | cons e es ih => exact ih (Memory.wf_writeBytes hm a _) (a + stride)

/-- Bytes outside a `MemWrite` read as before. -/
theorem Memory.read_writeBytes_outside (m : Memory) (a : Nat) (bs : List Byte) {a' : Nat}
    (h : a' < a ∨ a + bs.length ≤ a') : (m.writeBytes a bs).read a' = m.read a' := by
  induction bs generalizing m a with
  | nil => rfl
  | cons b bs ih =>
    simp only [List.length_cons] at h
    rw [Memory.writeBytes, ih _ _ (by omega), Memory.read_write_other _ _ (by omega)]

/-- Byte `i` of a `MemWrite` reads back at `a + i`. -/
theorem Memory.read_writeBytes_inside (m : Memory) (a : Nat) (bs : List Byte) {i : Nat} (h : i < bs.length) :
    (m.writeBytes a bs).read (a + i) = some bs[i] := by
  induction bs generalizing m a i with
  | nil => simp at h
  | cons b bs ih =>
    rw [Memory.writeBytes]
    cases i with
    | zero =>
      rw [Memory.read_writeBytes_outside _ _ _ (by omega), Nat.add_zero, Memory.read_write_same]
      rfl
    | succ i =>
      have h' : i < bs.length := by simpa using h
      have := ih (Memory.write m a b) (a + 1) h'
      rw [show a + (i + 1) = a + 1 + i by omega, this]
      rfl

@[simp] theorem wordBytes_length (o : ByteOrder) (w : Word32) : (wordBytes o w).length = 4 := by cases o <;> rfl

/-- Where byte `j` of a 32-bit word lies in the word: from its low end or from its high end (R76). -/
def byteRank (o : ByteOrder) (j : Nat) : Nat :=
  match o with
  | .little => j
  | .big => 3 - j

/-- Byte `j` of a word as memory holds it (R76). -/
theorem wordBytes_getElem (o : ByteOrder) (w : Word32) {j : Nat} (hj : j < (wordBytes o w).length) :
    (wordBytes o w)[j] = w.extractLsb' (8 * byteRank o j) 8 := by
  have hj4 : j < 4 := by simpa using hj
  cases o <;> (match j, hj4 with | 0, _ | 1, _ | 2, _ | 3, _ => rfl)

@[simp] theorem slotBytes_length (o : ByteOrder) (e : Slot) : (slotBytes o e).length = 16 := by simp [slotBytes]

/-- Bytes outside every entry of a chain read as before its stores. -/
theorem Memory.read_writeChain_outside (o : ByteOrder) (stride : Nat) (m : Memory) (a : Nat) (es : List Slot) {a' : Nat}
    (h : ∀ i < es.length, a' < a + stride * i ∨ a + stride * i + 16 ≤ a') :
    (Memory.writeChain o stride m a es).read a' = m.read a' := by
  induction es generalizing m a with
  | nil => rfl
  | cons e es ih =>
    rw [Memory.writeChain, ih]
    · refine Memory.read_writeBytes_outside _ _ _ ?_
      simpa using h 0 (by simp)
    · intro i hi
      have := h (i + 1) (by simpa using hi)
      rw [Nat.mul_succ] at this
      omega

/-- Byte `j` of entry `i` of a chain reads back at its place, when entries do not overlap. -/
theorem Memory.read_writeChain_inside (o : ByteOrder) {stride : Nat} (hs : 16 ≤ stride) (m : Memory) (a : Nat) (es : List Slot)
    {i : Nat} (hi : i < es.length) {j : Nat} (hj : j < 16) :
    (Memory.writeChain o stride m a es).read (a + stride * i + j) =
      some ((slotBytes o es[i])[j]'(by simpa using hj)) := by
  induction es generalizing m a i with
  | nil => simp at hi
  | cons e es ih =>
    rw [Memory.writeChain]
    cases i with
    | zero =>
      rw [Memory.read_writeChain_outside]
      · simpa using Memory.read_writeBytes_inside m a (slotBytes o e) (i := j) (by simpa using hj)
      · intro k _
        left
        have : 0 ≤ stride * k := Nat.zero_le _
        omega
    | succ i =>
      have hi' : i < es.length := by simpa using hi
      have := ih (Memory.writeBytes m a (slotBytes o e)) (a + stride) hi'
      rw [show a + stride * (i + 1) + j = a + stride + stride * i + j by rw [Nat.mul_succ]; omega, this]
      rfl

theorem Memory.read_none_of_lt {m : Memory} {a : Nat} (h : ∀ c ∈ m, a < c.1) : m.read a = none := by
  induction m with
  | nil => rfl
  | cons c m ih =>
    obtain ⟨k, c⟩ := c
    have hk : a < k := h (k, c) List.mem_cons_self
    rw [Memory.read, if_neg (by omega), ih fun d hd => h d (List.mem_cons_of_mem _ hd)]

/-- Memories in canonical form that read alike are equal data. -/
theorem Memory.ext_of_read {m m' : Memory} (hm : m.wf) (hm' : m'.wf) (h : ∀ a, m.read a = m'.read a) : m = m' := by
  induction m generalizing m' with
  | nil =>
    cases m' with
    | nil => rfl
    | cons c m' =>
      obtain ⟨k, c⟩ := c
      simpa [Memory.read] using h k
  | cons c m ih =>
    obtain ⟨k, c⟩ := c
    obtain ⟨hk, hmw⟩ := List.pairwise_cons.1 hm
    cases m' with
    | nil => simpa [Memory.read] using h k
    | cons d m' =>
      obtain ⟨k', d⟩ := d
      obtain ⟨hk', hmw'⟩ := List.pairwise_cons.1 hm'
      have below : ∀ {j : Nat} {n : Memory}, (∀ e ∈ n, j < e.1) → ∀ {i}, i ≤ j → n.read i = none :=
        fun hj _ hij => Memory.read_none_of_lt fun e he => Nat.lt_of_le_of_lt hij (hj e he)
      have hkk : k = k' := by
        rcases Nat.lt_trichotomy k k' with hlt | heq | hgt
        · have := h k
          rw [Memory.read, if_pos rfl, Memory.read, if_neg (by omega), below hk' (by change k ≤ k'; omega)] at this
          cases this
        · exact heq
        · have := h k'
          rw [Memory.read, if_neg (by omega), below hk (by change k' ≤ k; omega), Memory.read, if_pos rfl] at this
          cases this
      subst hkk
      have hcd : c = d := by simpa [Memory.read] using h k
      subst hcd
      congr 1
      refine ih hmw hmw' fun a => ?_
      by_cases ha : a = k
      · subst ha; rw [below hk (Nat.le_refl _), below hk' (Nat.le_refl _)]
      · simpa [Memory.read, ha] using h a

end Sys2Proof.Machine
end

