-- ==== Sys2Proof/Laws/PerInstr.lean ====
section
/-! SUPPORT. Statements made of every instruction, one lemma per constructor. `OpcodeRow`: the encoding of an
instruction starts with a word that fits its own row of opcode_table.json and no other row. -/

namespace Sys2Proof.Laws.OpcodeRow

open Sys2Proof

/-- The instruction's row stands in the table, its encoding's first word fits that row, and every row the word fits is
that row: no two rows of the table meet in an encoded instruction (R101, R102). A register operand is one with an id
(R30). -/
def Statement (i : Instr) : Prop :=
  i.regNamed = true → i.row ∈ opcodeTable ∧
  ∃ w ws, encode i = w :: ws ∧ i.row.fits w = true ∧ ∀ row ∈ opcodeTable, row.fits w = true → row = i.row

/-- The check of one first word against the whole table. -/
def fitsOnly (row : OpRow) (w : Word) : Bool :=
  decide (row ∈ opcodeTable) && row.fits w && opcodeTable.all fun r => !r.fits w || r == row

theorem of_check {i : Instr} {w : Word} {ws : List Word} (he : encode i = w :: ws) (h : fitsOnly i.row w = true) :
    Statement i := by
  simp only [fitsOnly, Bool.and_eq_true, decide_eq_true_eq] at h
  refine fun _ => ⟨h.1.1, w, ws, he, h.1.2, fun row hm hw => ?_⟩
  have := List.all_eq_true.1 h.2 row hm
  rw [hw] at this
  simpa using this

theorem reg_mem {r : RegId} (h : r.named = true) : r ∈ RegId.namedAll := by
  cases r <;> first | cases h; done | decide

theorem field_mem (f : FieldId) : f ∈ FieldId.all := by cases f <;> decide

theorem read_words : (RegId.namedAll.all fun r => fitsOnly (Instr.regRead r).row (opWord 0x80 r.code)) = true := by decide

theorem write_words : (RegId.namedAll.all fun r => fitsOnly (Instr.regWrite r 0).row (opWord 0x81 r.code)) = true := by
  decide

theorem fieldRead_words :
    (FieldId.all.all fun f => fitsOnly (Instr.fieldRead f).row (opWord 0x82 f.code)) = true := by decide

theorem fieldWrite_words :
    (FieldId.all.all fun f => fitsOnly (Instr.fieldWrite f 0).row (opWord 0x83 f.code)) = true := by decide

theorem fieldForce_words :
    (FieldId.all.all fun f => fitsOnly (Instr.fieldForce f 0).row (opWord 0x84 f.code)) = true := by decide

/-- The shapes of a `SUBMIT`. -/
def shapes : List Shape :=
  [0, 1, 2, 3].flatMap fun d => [false, true].flatMap fun a => [false, true].flatMap fun b =>
    [false, true].map fun c => ⟨a, d, b, c⟩

theorem shape_mem (sh : Shape) : sh ∈ shapes := by
  obtain ⟨a, d, b, c⟩ := sh
  have hd : d = 0 ∨ d = 1 ∨ d = 2 ∨ d = 3 := by revert d; decide
  rcases hd with rfl | rfl | rfl | rfl <;> cases a <;> cases b <;> cases c <;> simp [shapes]

theorem submit_words :
    (shapes.all fun sh => fitsOnly ⟨"SUBMIT", 0xFFE0, 0x1000, .any⟩ (opWord 0x10 sh.code)) = true := by decide

/-- The required sets of an `AWAIT`. -/
def waitSets : List WaitSet :=
  [false, true].flatMap fun a => [false, true].flatMap fun b => [false, true].map fun c => ⟨a, b, c⟩

theorem waitSet_mem (need : WaitSet) : need ∈ waitSets := by
  obtain ⟨a, b, c⟩ := need
  cases a <;> cases b <;> cases c <;> simp [waitSets]

theorem await_words :
    (waitSets.all fun need => [Obj.sbc, .cmd, .stop, .data].all fun o =>
      fitsOnly ⟨"AWAIT", 0xFFC8, 0x9100, .any⟩ (opWord 0x91 (awaitSel need o))) = true := by decide

theorem submit (sh : Shape) (cmd : Command) (sbc : Option Command) (data : Option Data) (stop : Option Command) :
    Statement (.submit sh cmd sbc data stop) := of_check rfl (List.all_eq_true.1 submit_words sh (shape_mem sh))

theorem setBusWidth (w : BusWidth) : Statement (.setBusWidth w) := by cases w <;> exact of_check rfl (by decide)

theorem setClock (rate : Option Nat) : Statement (.setClock rate) :=
  by cases rate <;> exact of_check rfl (by simp only [Instr.row]; decide)

theorem hwReset : Statement .hwReset := of_check rfl (by decide)

theorem irq : Statement .irq := of_check rfl (by decide)

theorem regRead (r : RegId) : Statement (.regRead r) := fun h =>
  of_check rfl (List.all_eq_true.1 read_words r (reg_mem h)) h

theorem regWrite (r : RegId) (v : Word) : Statement (.regWrite r v) := fun h =>
  of_check rfl (List.all_eq_true.1 write_words r (reg_mem h)) h

theorem fieldRead (f : FieldId) : Statement (.fieldRead f) :=
  of_check rfl (List.all_eq_true.1 fieldRead_words f (field_mem f))

theorem fieldWrite (f : FieldId) (v : Word) : Statement (.fieldWrite f v) :=
  of_check rfl (List.all_eq_true.1 fieldWrite_words f (field_mem f))

theorem fieldForce (f : FieldId) (v : Word) : Statement (.fieldForce f v) :=
  of_check rfl (List.all_eq_true.1 fieldForce_words f (field_mem f))

theorem clrev : Statement .clrev := of_check rfl (by decide)

theorem await (need : WaitSet) (tobj : Obj) : Statement (.await need tobj) := of_check rfl
    (List.all_eq_true.1 (List.all_eq_true.1 await_words need (waitSet_mem need)) tobj (by cases tobj <;> decide))

theorem wchk (o : Obj) : Statement (.wchk o) := by cases o <;> exact of_check rfl (by decide)

theorem cissue (o : CmdId) : Statement (.cissue o) := by cases o <;> exact of_check rfl (by decide)

theorem trig : Statement .trig := of_check rfl (by decide)

theorem ccapt (o : CmdId) : Statement (.ccapt o) := by cases o <;> exact of_check rfl (by decide)

theorem chkdir : Statement .chkdir := of_check rfl (by decide)

theorem dmap : Statement .dmap := of_check rfl (by decide)

theorem dprep : Statement .dprep := of_check rfl (by decide)

theorem darm : Statement .darm := of_check rfl (by decide)

theorem bidle : Statement .bidle := of_check rfl (by decide)

theorem dstat : Statement .dstat := of_check rfl (by decide)

theorem dunmap : Statement .dunmap := of_check rfl (by decide)

theorem jerr (o : Obj) (l : Nat) : Statement (.jerr o l) := by
  cases o <;> exact of_check rfl (by simp only [Instr.row]; decide)

theorem jmp (l : Nat) : Statement (.jmp l) := of_check rfl (by simp only [Instr.row]; decide)

theorem done : Statement .done := of_check rfl (by decide)

theorem rstseq : Statement .rstseq := of_check rfl (by decide)

theorem init (irqOk : Bool) : Statement (.init irqOk) := by cases irqOk <;> exact of_check rfl (by decide)

end Sys2Proof.Laws.OpcodeRow
end

