-- ==== Sys2Proof/Machine/Assembly.lean ====
section
/-! DEFINITION. The spec's assembler syntax (30_encoding.md R119), as the text of an operation. A label is written as
the index it stands for, and a duration as its number of milliseconds. No step depends on it. -/

namespace Sys2Proof.Machine

open Sys2Proof

/-- The registers by the names of R30; a register without one has no operation that names it, and a text of its own. -/
def regName : RegId → String
  | .event => "EVENT" | .intMask => "INT_MASK" | .dmaAddrLo => "DMA_ADDR_LO" | .dmaAddrHi => "DMA_ADDR_HI"
  | .dmaLenLo => "DMA_LEN_LO" | .dmaLenHi => "DMA_LEN_HI" | .blkSize => "BLK_SIZE" | .blkCnt => "BLK_CNT"
  | .cmdRspSize => "CMD_RSP_SIZE" | .ctrl => "CTRL" | .job => "JOB" | .mode => "MODE"
  | .status => "STATUS" | .bus => "BUS" | .rst => "RST" | .rstSts => "RST_STS"
  | .cmdBuf0 => "CMD_BUF0" | .cmdBuf1 => "CMD_BUF1" | .cmdBuf2 => "CMD_BUF2"
  | .rspBuf0 => "RSP_BUF0" | .rspBuf1 => "RSP_BUF1" | .rspBuf2 => "RSP_BUF2" | .rspBuf3 => "RSP_BUF3"
  | .rspBuf4 => "RSP_BUF4" | .rspBuf5 => "RSP_BUF5" | .rspBuf6 => "RSP_BUF6" | .rspBuf7 => "RSP_BUF7"
  | .rspBuf8 => "RSP_BUF8" | .further k => "REG" ++ toString k.val

/-- The fields by the names of R30. -/
def fieldName : FieldId → String
  | .evCmdEnd => "EV_CMD_END" | .evDataEnd => "EV_DATA_END" | .evBusyEnd => "EV_BUSY_END" | .evErr => "EV_ERR"
  | .intMask => "INT_MASK" | .dmaAddrLo => "DMA_ADDR_LO" | .dmaAddrHi => "DMA_ADDR_HI"
  | .dmaLenLo => "DMA_LEN_LO" | .dmaLenHi => "DMA_LEN_HI" | .blkSize => "BLK_SIZE" | .blkCnt => "BLK_CNT"
  | .cmdSize => "CMD_SIZE" | .rspSize => "RSP_SIZE" | .rspEn => "RSP_EN" | .rspLong => "RSP_LONG"
  | .crcChkEn => "CRC_CHK_EN" | .busyDetEn => "BUSY_DET_EN" | .dtrxEn => "DTRX_EN" | .jobDir => "JOB_DIR"
  | .admaEn => "ADMA_EN" | .jobStart => "JOB_START" | .busWidth => "BUS_WIDTH"
  | .stDatRdCrc => "ST_DAT_RD_CRC" | .stDatWrCrc => "ST_DAT_WR_CRC" | .stCmdRspCrc => "ST_CMD_RSP_CRC"
  | .stNoRsp => "ST_NO_RSP" | .stCardBusy => "ST_CARD_BUSY" | .busIdle => "BUS_IDLE" | .rstN => "RST_N"
  | .rstSts => "RST_STS" | .cmdBuf0 => "CMD_BUF0" | .cmdBuf1 => "CMD_BUF1" | .cmdBuf2 => "CMD_BUF2"
  | .rspBuf0 => "RSP_BUF0" | .rspBuf1 => "RSP_BUF1" | .rspBuf2 => "RSP_BUF2" | .rspBuf3 => "RSP_BUF3"
  | .rspBuf4 => "RSP_BUF4" | .rspBuf5 => "RSP_BUF5" | .rspBuf6 => "RSP_BUF6" | .rspBuf7 => "RSP_BUF7"

def objName : Obj → String
  | .sbc => "sbc" | .cmd => "cmd" | .stop => "stop" | .data => "data"

/-- A value in hexadecimal. -/
def hexText (n : Nat) : String := "0x" ++ String.ofList (Nat.toDigits 16 n)

/-- A list in braces. -/
def inBraces (parts : List String) : String :=
  String.singleton (Char.ofNat 0x7B) ++ String.intercalate "," parts ++ String.singleton (Char.ofNat 0x7D)

/-- A truth value as 0 or 1. -/
def bitText (b : Bool) : String := if b then "1" else "0"

/-- A part of a list, present or not. -/
def part (present : Bool) (text : String) : List String := if present then [text] else []

def rspText : Rsp → String
  | .none => "none" | .short => "short" | .long => "long" | .reserved => "reserved"

/-- A command record. -/
def commandText (c : Command) : String :=
  "cmd(op=" ++ toString c.opcode.toNat ++ ", arg=" ++ hexText c.arg.toNat ++ ", rsp=" ++ rspText c.rsp ++
  ", busy=" ++ bitText c.busy ++ ", crc=" ++ bitText c.crc ++ ", echo=" ++ bitText c.echo ++
  (match c.busyTmo with | some t => ", tmo=" ++ toString t | none => "") ++ ")"

def dirText : Dir → String
  | .unset => "unset" | .read => "read" | .write => "write"

/-- A data record. -/
def dataText (d : Data) : String :=
  "data(dir=" ++ dirText d.dir ++ ", bs=" ++ toString d.bs ++ ", blocks=" ++ toString d.blocks ++
  ", buf=" ++ toString d.buf ++ ", tmo=" ++ toString d.tmo ++ ")"

/-- The direction a shape names. -/
def shapeDirText (c : BitVec 2) : String :=
  match c with
  | 0 => "unset" | 1 => "read" | 2 => "write" | _ => "reserved"

def widthText : BusWidth → String
  | .one => "1" | .four => "4" | .eight => "8"

/-- One operation in the syntax of R119. R119 gives the text of a record but no place for it, and no form of a buffer's
name: the records of a `submit` stand after a ` ; `, as a comment of its line, in the order CMD, SBC, DATA, STOP, and
a buffer is a decimal number (DESIGN CHOICE, notes/assumptions/40.md). -/
def Instr.asm : Instr → String
  | .submit sh cmd sbc data stop =>
      "submit " ++ inBraces (part sh.hasData "data" ++ part sh.hasData (shapeDirText sh.dir) ++
        part sh.hasSbc "sbc" ++ part sh.hasStop "stop") ++ " ; " ++
      String.intercalate " " ([commandText cmd] ++ sbc.toList.map commandText ++ data.toList.map dataText ++
        stop.toList.map commandText)
  | .setBusWidth w => "set_bus_width " ++ widthText w
  | .setClock (some hz) => "set_clock " ++ toString hz
  | .setClock none => "set_clock off"
  | .hwReset => "hw_reset"
  | .irq => "irq"
  | .regRead r => "rd " ++ regName r
  | .regWrite r v => "wr " ++ regName r ++ ", #" ++ hexText v.toNat
  | .fieldRead f => "frd " ++ fieldName f
  | .fieldWrite f v => "fwr " ++ fieldName f ++ ", #" ++ hexText v.toNat
  | .fieldForce f v => "ffwr " ++ fieldName f ++ ", #" ++ hexText v.toNat
  | .clrev => "clrev"
  | .await need o =>
      "await " ++ inBraces (part need.cmd "cmd" ++ part need.data "data" ++ part need.busy "busy") ++ ", " ++ objName o
  | .wchk o => "wchk " ++ objName o
  | .cissue o => "cissue " ++ objName o.toObj
  | .trig => "trig"
  | .ccapt o => "ccapt " ++ objName o.toObj
  | .chkdir => "chkdir"
  | .dmap => "dmap"
  | .dprep => "dprep"
  | .darm => "darm"
  | .bidle => "bidle"
  | .dstat => "dstat"
  | .dunmap => "dunmap"
  | .jerr o l => "jerr " ++ objName o ++ ", " ++ toString l
  | .jmp l => "jmp " ++ toString l
  | .done => "done"
  | .rstseq => "rstseq"
  | .init irqOk => "init irq=" ++ bitText irqOk

end Sys2Proof.Machine
end

