-- ==== Sys2Proof/Tests/Slice0.lean ====
section
/-! SUPPORT. Tests of the model against the spec: ill-formed terms, words written out from the spec's encodings, the
vectors of spec/95_test_vectors.md (their ids stand in the comments), and for each statement with hypotheses a
concrete state that meets them. -/

namespace Sys2Proof.Tests

open Sys2Proof Sys2Proof.Machine

/-! ## Small states -/

/-- The state an answer gives, if it gives one. -/
def after (a : Answer) : Option State :=
  match a with
  | .next t => some t
  | .fault _ => none
  | .refused _ => none

/-- What the engine has done at its ports after an answer. -/
def traceOf (a : Answer) : Option (List Event) := (after a).map fun t => t.bus.trace

/-- Some shadows made valid. -/
def shadowing (ws : List (RegId × Word)) (s : State) : State :=
  { s with bus := { s.bus with shadow := ws.foldl (fun v w => RegFile.put v w.1 (some w.2)) s.bus.shadow } }

/-- The device's answers to come: register reads and expiries. -/
def answered (reads : List Word) (expiries : List Bool) (s : State) : State :=
  { s with bus := { s.bus with draws := { s.bus.draws with reads := reads, expiries := expiries } } }

def cmd17 : Command := ⟨17, 0, .short, false, true, true, none⟩
def cmd2 : Command := ⟨2, 0, .long, false, true, false, none⟩
def stop12 : Command := ⟨12, 0, .none, true, false, false, some 250⟩
def read512 : Data := ⟨.read, 512, 2, 7, 500⟩
def write512 : Data := ⟨.write, 512, 2, 7, 500⟩

/-- An initialised, idle engine: `S_int` or `S_poll` of the vectors but for its trace. -/
def ready (m : Mode) : State := { State.reset with mode := some m, arenaBase := some 0x80001000 }

/-- A busy engine that runs one operation over a request. -/
def running (m : Mode) (c : Command) (d : Data) (i : Instr) : State :=
  { ready m with
    busy := true, prog := [i, .done], req := Request.fresh (some c) (some cmd17) (some stop12) (some d) }

/-- The data object with segments and a plan. -/
def withData (segs : List Seg) (plan : Option Plan) (s : State) : State :=
  { s with req := { s.req with data := s.req.data.map fun d => { d with segs := segs, plan := plan } } }

/-! ## Well-formedness: an ill-formed term for each check -/

theorem test_wf_opcode : Command.wf ⟨64, 0, .none, false, false, false, none⟩ = false := by decide
theorem test_wf_duration : Command.wf ⟨63, 0, .none, false, false, false, some (2 ^ 32)⟩ = false := by decide
theorem test_wf_bs : Data.wf ⟨.read, 2 ^ 32, 1, 0, 0⟩ = false := by decide
theorem test_wf_blocks : Data.wf ⟨.read, 1, 2 ^ 32, 0, 0⟩ = false := by decide
theorem test_wf_buf : Data.wf ⟨.read, 1, 1, 2 ^ 32, 0⟩ = false := by decide
theorem test_wf_tmo : Data.wf ⟨.read, 1, 1, 0, 2 ^ 32⟩ = false := by decide
theorem test_wf_sbc_bit : Shape.announces ⟨true, 1, true, false⟩ none (some read512) none = false := by decide
theorem test_wf_data_bit : Shape.announces ⟨false, 1, false, false⟩ none (some read512) none = false := by decide
theorem test_wf_stop_bit : Shape.announces ⟨true, 1, false, false⟩ none (some read512) (some stop12) = false := by
  decide
theorem test_wf_submit : Instr.wf (.submit ⟨true, 1, true, false⟩ cmd17 none (some read512) none) = false := by decide
theorem test_wf_register : Instr.wf (.regRead .rspBuf8) = false ∧ Instr.wf (.regWrite (.further 0) 1) = false := by decide
theorem test_wf_rate : Instr.wf (.setClock (some (2 ^ 32))) = false := by decide
theorem test_wf_jerr_label : Instr.wf (.jerr .data 65536) = false := by decide
theorem test_wf_jmp_label : Instr.wf (.jmp 65536) = false := by decide

/-! ## Decoding: a word for each operation, written out from R101 to R104 -/

theorem test_decode_submit : decode
    [0b0001_0000_0001_0011, 0b0000_0110_0101_0010, 0x5678, 0x1234, 0b00000000000000_01, 512, 0, 2, 0, 7, 0, 500, 0,
     0b0000_1001_0000_1100, 0, 0, 250, 0] =
    .ok (.submit ⟨true, 1, false, true⟩ ⟨18, 0x12345678, .short, false, true, true, none⟩ none (some read512)
      (some stop12), []) := by decide
theorem test_decode_setBusWidth : decode [0b0001_0001_0000_1000] = .ok (.setBusWidth .eight, []) := by decide
theorem test_decode_setClock : decode [0b0001_0010_0000_0001] = .ok (.setClock none, []) := by decide
theorem test_decode_hwReset : decode [0b0001_0011_0000_0000] = .ok (.hwReset, []) := by decide
theorem test_decode_irq : decode [0b0010_0000_0000_0000] = .ok (.irq, []) := by decide
theorem test_decode_regRead : decode [0b1000_0000_0000_1100] = .ok (.regRead .status, []) := by decide
theorem test_decode_regWrite : decode [0b1000_0001_0010_0001, 0xABCD] = .ok (.regWrite .rspBuf1 0xABCD, []) := by
  decide
theorem test_decode_fieldRead : decode [0b1000_0010_0001_1101] = .ok (.fieldRead .rstSts, []) := by decide
theorem test_decode_fieldWrite : decode [0b1000_0011_0011_0111, 3] = .ok (.fieldWrite .rspBuf7 3, []) := by decide
theorem test_decode_fieldForce : decode [0b1000_0100_0001_1100, 1] = .ok (.fieldForce .rstN 1, []) := by decide
theorem test_decode_clrev : decode [0b1001_0000_0000_0000] = .ok (.clrev, []) := by decide
theorem test_decode_await : decode [0b1001_0001_0011_0011] = .ok (.await ⟨true, true, false⟩ .data, []) := by decide
theorem test_decode_wchk : decode [0b1001_0010_0000_0010] = .ok (.wchk .stop, []) := by decide
theorem test_decode_cissue : decode [0b1010_0000_0000_0001] = .ok (.cissue .cmd, []) := by decide
theorem test_decode_trig : decode [0b1010_0001_0000_0000] = .ok (.trig, []) := by decide
theorem test_decode_ccapt : decode [0b1010_0010_0000_0000] = .ok (.ccapt .sbc, []) := by decide
theorem test_decode_chkdir : decode [0b1011_0000_0000_0000] = .ok (.chkdir, []) := by decide
theorem test_decode_dmap : decode [0b1011_0001_0000_0000] = .ok (.dmap, []) := by decide
theorem test_decode_dprep : decode [0b1011_0010_0000_0000] = .ok (.dprep, []) := by decide
theorem test_decode_darm : decode [0b1011_0011_0000_0000] = .ok (.darm, []) := by decide
theorem test_decode_bidle : decode [0b1011_0100_0000_0000] = .ok (.bidle, []) := by decide
theorem test_decode_dstat : decode [0b1011_0101_0000_0000] = .ok (.dstat, []) := by decide
theorem test_decode_dunmap : decode [0b1011_0110_0000_0000] = .ok (.dunmap, []) := by decide
theorem test_decode_jerr : decode [0b1100_0000_0000_0011, 16] = .ok (.jerr .data 16, []) := by decide
theorem test_decode_jmp : decode [0b1100_0001_0000_0000, 0xFFFF] = .ok (.jmp 65535, []) := by decide
theorem test_decode_done : decode [0b1100_0010_0000_0000] = .ok (.done, []) := by decide
theorem test_decode_rstseq : decode [0b1100_0011_0000_0000] = .ok (.rstseq, []) := by decide
theorem test_decode_init : decode [0b1100_0100_0000_0001] = .ok (.init true, []) := by decide

/-- EN3 and EN4: the words that spell no operation. -/
theorem test_decode_invalid :
    [0x9108, 0xA003, 0x0000, 0xD000, 0x1100, 0x1202, 0x1020, 0x8013, 0x8028, 0x821E, 0x8323, 0x8438].map
      (fun w => listedWord w || (decodeTableWord 16 w.toNat).isSome) = List.replicate 12 false := by decide

/-- The host's word of a row runs as the first operation after reset (R100). -/
theorem test_placed_irq : after (step (State.reset.withFetchWord 16 0x2000)) ≠ none := by decide
theorem test_placed_trig : (after (step (State.reset.withFetchWord 16 0xA100))).map (fun t => t.upc) = some 1 := by
  decide

/-! ## The vectors of spec/95_test_vectors.md -/

def poll (i : Instr) : State := running .polling cmd17 read512 i
def intr (i : Instr) : State := running .interrupt cmd17 read512 i

/-- OR7: the lengths of the expansions of the shapes 0x00, 0x03, 0x0D, 0x13, 0x11, 0x15 and 0x0B. -/
theorem test_submit_lengths :
    [expand cmd17 none none none, expand cmd17 none (some read512) none, expand cmd17 (some cmd17) (some write512) none,
      expand cmd17 none (some read512) (some stop12), expand cmd17 none (some ⟨.unset, 1, 1, 0, 0⟩) (some stop12),
      expand cmd17 none (some write512) (some stop12), expand cmd17 (some cmd17) (some read512) none].map
      List.length = [7, 18, 29, 24, 21, 28, 25] := by decide

/-- OR3, OR4: a shape that disagrees with the direction, and block sizes and counts out of range, are refused. -/
theorem test_submit_refused :
    (exec (.submit ⟨true, 1, false, false⟩ cmd17 none (some write512) none) (ready .polling) =
      .refused .illFormedRequest) ∧
    (exec (.submit ⟨true, 1, false, false⟩ cmd17 none (some ⟨.read, 0, 1, 0, 0⟩) none) (ready .polling) =
      .refused .illFormedRequest) ∧
    (exec (.submit ⟨true, 1, false, false⟩ cmd17 none (some ⟨.read, 65536, 1, 0, 0⟩) none) (ready .polling) =
      .refused .illFormedRequest) ∧
    (exec (.submit ⟨true, 1, false, false⟩ cmd17 none (some ⟨.read, 1, 65536, 0, 0⟩) none) (ready .polling) =
      .refused .illFormedRequest) := ⟨rfl, rfl, rfl, rfl⟩

/-- OR9, R116: the shape `0x0B` with a STOP record after its records is refused at the port. -/
theorem test_submit_extraRecord :
    step { ready .polling with inputs := [.port (encode (.submit ⟨true, 1, true, false⟩ cmd17 (some cmd17)
      (some read512) (some stop12)))] } = .refused .illFormedRequest := rfl

/-- OR16: the first `set_bus_width 4` reads MODE and writes the code 1. -/
theorem test_setBusWidth : traceOf (exec (.setBusWidth .four) (answered [0] [] (ready .polling))) =
    some [.regRead 0x16 0, .regWrite 0x16 1] := by decide

/-- OR17: the clock call alone, and no register transaction. -/
theorem test_setClock : traceOf (exec (.setClock (some 400000)) (ready .polling)) = some [.clock (some 400000)] := by
  decide

/-- OR18: refused while busy. -/
theorem test_hwReset_busy : exec .hwReset (poll .trig) = .refused .engineBusy := rfl

/-- RS1, its first step. -/
theorem test_hwReset : traceOf (exec .hwReset (answered [1] [] (ready .polling))) =
    some [.regRead 0x1C 1, .regWrite 0x1C 0] := by decide

/-- CP1: an unknown event bit, and the data latch. -/
theorem test_irq : (after (exec .irq (answered [0x0012] [] (ready .interrupt)))).map
    (fun t => (t.lat, t.log, t.bus.trace)) =
    some (⟨false, true, false, false⟩, [.unknownEvent 0x0010],
      [.regRead 0 0x0012, .regWrite 0 0x0012, .wake, .handled]) := by decide

/-- CP3: a duplicate is logged, and the latch stays. -/
theorem test_irq_duplicate : (after (exec .irq (answered [1] [] { ready .interrupt with
    lat := ⟨true, false, false, false⟩ }))).map (fun t => (t.lat, t.log)) =
    some (⟨true, false, false, false⟩, [.spuriousDup .evCmdEnd]) := by decide

/-- CS7: a read returns the device's value, and the shadow stays. -/
theorem test_regRead : (after (exec (.regRead .ctrl)
    (shadowing [(.ctrl, 5)] (answered [0x15] [] (poll (.regRead .ctrl)))))).map
    (fun t => (t.result, RegFile.at t.bus.shadow .ctrl)) = some (0x15, some 5) := by decide

/-- CS9: an early flag read. -/
theorem test_regRead_early : exec (.regRead .event) { poll (.regRead .event) with settled := false } =
    .fault .earlyFlagRead := rfl

/-- CS6: a raw write, and the shadow it leaves. -/
theorem test_regWrite : (after (exec (.regWrite .ctrl 0x40) (shadowing [(.ctrl, 0)] (poll .trig)))).map
    (fun t => (t.bus.trace, RegFile.at t.bus.shadow .ctrl)) = some ([.regWrite 0x12 0x40], some 0x40) := by decide

/-- CS8: the mask of RST_STS. -/
theorem test_fieldRead : [0x0005, 0xFFF8].map (fun x =>
    (after (exec (.fieldRead .rstSts) (answered [x] [] (poll .trig)))).map fun t => t.result) = [some 5, some 0] := by
  decide

/-- CS3: the field is set, and its neighbours are kept. -/
theorem test_fieldWrite : traceOf (exec (.fieldWrite .dtrxEn 1) (shadowing [(.ctrl, 5)] (poll .trig))) =
    some [.regWrite 0x12 0x15] := by decide

/-- R119: an operation in the assembler's syntax. -/
theorem test_asm : Instr.asm (.fieldForce .jobStart 1) = "ffwr JOB_START, #0x1" := by decide

/-- D34, R75: the base of a field in EVENT, read before the settle delay, is an early flag read. -/
theorem test_fieldWrite_early : exec (.fieldWrite .evErr 1) { poll .trig with settled := false } =
    .fault .earlyFlagRead := rfl

/-- CS14: a value that does not fit the field. -/
theorem test_fieldWrite_wide : exec (.fieldWrite .busWidth 4) (poll .trig) = .refused .valueTooWide := rfl

/-- CS4: a forced write that changes nothing is made. -/
theorem test_fieldForce : traceOf (exec (.fieldForce .rstN 0) (shadowing [(.rst, 0)] (poll .trig))) =
    some [.regWrite 0x1C 0] := by decide

/-- CS12: the grouped clear keeps the reserved bit. -/
theorem test_groupWrite : ((shadowing [(.ctrl, 0x8075)] (poll .trig)).bus.groupWrite refConfig clearControl).trace =
    [.regWrite 0x12 0x8000] := by decide

/-- CP4: all events and latches cleared. -/
theorem test_clrev : (after (exec .clrev { poll .clrev with lat := ⟨true, false, false, true⟩, wres := some .timeout })).map
    (fun t => (t.lat, t.wres, t.snap, t.bus.trace)) =
    some (⟨false, false, false, false⟩, none, none, [.regWrite 0 0xFFFF]) := by decide

/-- CP9: a polling pass that succeeds, with an unknown bit. -/
theorem test_await_polling : (after (exec (.await ⟨true, false, false⟩ .cmd)
    (answered [0x0101, 0] [] (poll .trig)))).map (fun t => (t.snap, t.lat.cmd, t.log, t.bus.trace)) =
    some (some 0, true, [.unknownEvent 0x0100], [.regRead 0 0x0101, .regRead 0x18 0]) := by decide

/-- CP12: an expiry with one of the two latches set. -/
theorem test_await_timeout : (after (exec (.await ⟨true, true, false⟩ .data)
    (answered [] [true] { intr .trig with lat := ⟨true, false, false, false⟩ }))).map
    (fun t => (t.wres, t.snap, t.bus.trace)) = some (some .timeout, none, []) := by decide

/-- CU9, PR2: the error latch with an all-zero status, and the timeout, both raise Timeout. -/
theorem test_wchk :
    [{ poll .trig with wres := some .ok, snap := some 0, lat := ⟨false, false, false, true⟩ },
      { poll .trig with wres := some .timeout, lat := ⟨false, false, false, true⟩ },
      { poll .trig with wres := some .ok, snap := some 8, lat := ⟨false, false, false, true⟩ }].map
      (fun s => (after (exec (.wchk .cmd) s)).bind fun t => t.req.errorOf .cmd) =
    [some .timeout, some .timeout, some .noError] := by decide

/-- CU1: the transactions of a short command. -/
theorem test_cissue : traceOf (exec (.cissue .cmd) (answered [0, 0] [] (poll .trig))) =
    some [.regWrite 0 0xFFFF, .regRead 0x12 0, .regWrite 0x20 0x0051, .regWrite 0x22 0, .regWrite 0x24 0,
      .regRead 0x10 0, .regWrite 0x10 0x0505, .regWrite 0x12 0x0005] := by decide

/-- CU2: the transactions of a long command over valid shadows. -/
theorem test_cissue_long : traceOf (exec (.cissue .cmd)
    (shadowing [(.ctrl, 0x0075), (.cmdRspSize, 0x0505)] (running .polling cmd2 read512 .trig))) =
    some [.regWrite 0 0xFFFF, .regWrite 0x12 0, .regWrite 0x20 0x0042, .regWrite 0x22 0, .regWrite 0x24 0,
      .regWrite 0x10 0x0510, .regWrite 0x12 0x0007] := by decide

/-- EN5: the frame of opcode 8. -/
theorem test_frame : frameWords 0x40 8 0x1AA = #v[0x0048, 0x0100, 0x00AA] := by decide

/-- R369: a program that writes a register between its trigger and its wait. -/
theorem test_write_while_armed :
    ((after (step { poll .trig with prog := [.trig, .regWrite .ctrl 1, .done] })).map step) =
    some (.fault .unmodelled) := rfl

/-- CU5: a trigger is written whatever the shadow. -/
theorem test_trig : (after (exec .trig (shadowing [(.job, 1)] (poll .trig)))).map
    (fun t => (t.bus.trace, t.settled)) = some ([.regWrite 0x14 1], false) := by decide

/-- The command object after a wait that succeeded with this status, ready for `ccapt`. -/
def captured (v : Word) (c : Command) (s : State) : State :=
  { s with wres := some .ok, snap := some v, req := { s.req with
      cmd := some (⟨c, expectedBytes c.rsp, noResp, .noError, none⟩ : CommandObj) } }

/-- R195's example: response CRC and card busy without CRC checking. -/
theorem test_ccapt_busy : (after (exec (.ccapt .cmd) (captured 0x0014 { cmd17 with crc := false } (poll .trig)))).map
    (fun t => (t.bus.trace, t.snap, t.log, t.req.errorOf .cmd)) =
    some ([.regWrite 0x18 0x0004], some 0x0010, [.rspCrcIgnored 17], some .noError) := by decide

/-- R196's example: the response of opcode 8, and a stale buffer. -/
theorem test_ccapt_response :
    [0x0008, 0x0048].map (fun x => (after (exec (.ccapt .cmd)
      (answered [x, 0x0100, 0x00AA] [] (captured 0 { cmd17 with opcode := 8 } (poll .trig))))).bind fun t =>
        t.req.cmd.map fun c => (c.error, c.resp)) =
    [some (.noError, #v[0x1AA, 0, 0, 0]), some (.sequenceError, #v[0, 0, 0, 0])] := by decide

/-- EN8, EN9: a short and a long response. -/
theorem test_assemble :
    assemble (laneBytes [0x1211, 0x5634, 0x9A78]) 5 = #v[0x12345678, 0, 0, 0] ∧
    assemble (laneBytes [0x013F, 0x0302, 0x0504, 0x0706, 0x0908, 0x0B0A, 0x0D0C, 0x0F0E]) 16 =
      #v[0x01020304, 0x05060708, 0x090A0B0C, 0x0D0E0F00] := by decide

/-- C1: with 17 bytes a long response reads a ninth register, and the round trip of four words is whole. -/
theorem test_ccapt_seventeen : (after (exec (.ccapt .cmd)
      (answered [0x013F, 0x0302, 0x0504, 0x0706, 0x0908, 0x0B0A, 0x0D0C, 0x0F0E, 0x0010] []
        { captured 0 cmd2 (poll .trig) with cfg := { refConfig with longRspRead := 17 } }))).bind
      (fun t => t.req.cmd.map fun c => (t.bus.trace.length, c.resp)) =
    some (9, #v[0x01020304, 0x05060708, 0x090A0B0C, 0x0D0E0F10]) := by decide

/-- R30, R140: a field at an offset of its own is written there. -/
theorem test_fieldWrite_further : traceOf (exec (.fieldWrite .crcChkEn 1) (answered [0] [] { poll .trig with
    cfg := { refConfig with fieldMap := { refMap with
      fields := refMap.fields.set FieldId.crcChkEn.idx ⟨.further 3, 5, 1⟩ } } })) =
    some [.regRead 0x106 0, .regWrite 0x106 0x20] := by decide

/-- DU1: an unset direction. -/
theorem test_chkdir : (after (exec .chkdir (running .polling cmd17 ⟨.unset, 512, 1, 7, 0⟩ .chkdir))).map
    (fun t => (t.req.errorOf .data, t.bus.trace)) = some (some .invalidRequest, []) := by decide

/-- A mapping service's answers. -/
def mapping (segMaps : List (Nat × List Seg)) (chainMaps : List (Nat × Word32)) (s : State) : State :=
  { s with bus := { s.bus with draws := { s.bus.draws with segMaps := segMaps, chainMaps := chainMaps } } }

/-- DU19: a write is mapped to the device. -/
theorem test_dmap : (after (exec .dmap (mapping [(1, [⟨0x00100000, 512⟩])] []
    (running .polling cmd17 write512 .dmap)))).map (fun t => (t.segMap, t.bus.trace)) =
    some (some 1, [.mapBuffer 7 .toDevice 1 [⟨0x00100000, 512⟩]]) := by decide

/-- DU6: a chain of three, its bytes, its mapping and its plan. -/
theorem test_dprep_chain : (after (exec .dprep (mapping [] [(2, 0x01000000)]
    (withData [⟨0x1000, 512⟩, ⟨0x3000, 1024⟩, ⟨0x8000, 512⟩] none (poll .dprep))))).map
    (fun t => (t.arenaMap, t.req.data.bind fun d => d.plan, t.bus.trace)) =
    some (some 2, some (.chained 3 0x01000000 16 1),
      [.memWrite 0x80001000 [0, 0, 1, 0, 0, 0x10, 0, 0, 0, 2, 0, 0, 0, 0, 0, 0],
       .memWrite 0x80001010 [0, 0, 2, 0, 0, 0x30, 0, 0, 0, 4, 0, 0, 0, 0, 0, 0],
       .memWrite 0x80001020 [1, 0, 1, 0, 0, 0x80, 0, 0, 0, 2, 0, 0, 0, 0, 0, 0],
       .mapArena 0x80001000 48 .toDevice 2 0x01000000]) := by decide

/-- R76: each order of a descriptor word's bytes. -/
theorem test_wordBytes :
    [ByteOrder.little, .big].map (fun o => wordBytes o 0x01234567) = [[0x67, 0x45, 0x23, 0x01], [0x01, 0x23, 0x45, 0x67]] := by
  decide

/-- DU5: one segment. -/
theorem test_dprep_direct : (after (exec .dprep (withData [⟨0x00100000, 512⟩] none (poll .dprep)))).map
    (fun t => (t.arenaMap, t.req.data.bind fun d => d.plan, t.bus.trace)) =
    some (none, some (.direct 0x00100000 512 1), []) := by decide

/-- DU8: arming a direct read. -/
theorem test_darm : traceOf (exec .darm (shadowing [(.ctrl, 5)] (answered [0, 0, 0, 0, 0, 0] []
    (withData [] (some (.direct 0x00100000 512 1)) (poll .darm))))) =
    some [.regWrite 0 0xFFFF, .regWrite 0x12 0x15, .regRead 0x0C 0, .regWrite 0x0C 0x200, .regRead 0x04 0,
      .regRead 0x06 0, .regWrite 0x06 0x10, .regRead 0x08 0, .regWrite 0x08 0x200, .regRead 0x0A 0, .regRead 0x0E 0,
      .regWrite 0x0E 1] := by decide

/-- DU10: arming a chained write. -/
theorem test_darm_chained : traceOf (exec .darm (shadowing [(.ctrl, 5)] (answered [0, 0, 0, 0, 0, 0] []
    (withData [] (some (.chained 2 0x01000000 16 1)) (running .polling cmd17 write512 .darm))))) =
    some [.regWrite 0 0xFFFF, .regWrite 0x12 0x25, .regWrite 0x12 0x35, .regWrite 0x12 0x75, .regRead 0x0C 0,
      .regWrite 0x0C 0x200, .regRead 0x04 0, .regRead 0x06 0, .regWrite 0x06 0x100, .regRead 0x08 0,
      .regWrite 0x08 0x10, .regRead 0x0A 0, .regRead 0x0E 0, .regWrite 0x0E 1] := by decide

/-- DU15, DU16: the bus idle, and a poll that expires. -/
theorem test_bidle :
    (after (exec .bidle (answered [1] [] (poll .bidle)))).map (fun t => (t.upc, t.sub, t.log)) = some (1, none, []) ∧
    (after (exec .bidle (answered [0] [true] (poll .bidle)))).map
      (fun t => (t.upc, t.log, t.req.errorOf .data)) = some (1, [.bidleTimeout], some .timeout) := by decide

/-- R230, R274: `BIDLE` names no object: it is loaded and runs without data. -/
theorem test_bidle_noData :
    ((after (step { ready .polling with inputs := [.load ⟨none, some cmd17, none, none, [Instr.bidle, .done].map encode⟩] })).bind
      fun t => (after (step (answered [1] [] t))).map fun u => (u.upc, u.sub)) = some (1, none) := by decide

/-- DU12: a data CRC error, and the bytes counted. -/
theorem test_dstat : (after (exec .dstat { withData [⟨0, 512⟩, ⟨0, 1024⟩] none (poll .dstat) with
    wres := some .ok, snap := some 1 })).bind (fun t => t.req.data.map fun d => (d.error, d.bytes)) =
    some (.crcMismatch, 1536) := by decide

/-- DU18: the chain is unmapped first. -/
theorem test_dunmap : traceOf (exec .dunmap { poll .dunmap with arenaMap := some 2, segMap := some 1 }) =
    some [.unmap 2, .unmap 1] := by decide

/-- OR15: a branch on an error. -/
theorem test_jerr : (after (exec (.jerr .data 16) ((poll .trig).raise .tooManySegments .data))).map
    (fun t => t.upc) = some 16 := by decide

/-- R266. -/
theorem test_jmp : (after (exec (.jmp 7) (poll .trig))).map (fun t => t.upc) = some 7 := by decide

/-- R267: a mapping still held is a fault. -/
theorem test_done_mapped : exec .done { poll .done with segMap := some 1 } = .fault .unmodelled := rfl

/-- OR19: the record, with the codes of R310. -/
theorem test_done : (after (exec .done ((poll .done).raise .timeout .stop))).map
    (fun t => (t.busy, t.bus.trace.length, t.log)) = some (false, 1, [.stopFailed .timeout]) := by decide

/-- RS2: the third failed test ends the sequence, with no release write. -/
theorem test_rstseq_failed : (after (exec .rstseq (answered [0] [] { poll .rstseq with
    sub := some ⟨.rstseq, .assertReset, 2⟩ }))).map (fun t => (t.rstErr, t.sub, t.bus.trace)) =
    some (.resetFailed, none, [.regRead 0x1E 0]) := by decide

/-- RS1: the fully asserted pattern releases the line. -/
theorem test_rstseq_release : (after (exec .rstseq (shadowing [(.rst, 0)] (answered [7] [] { poll .rstseq with
    sub := some ⟨.rstseq, .assertReset, 0⟩ })))).map (fun t => (t.sub, t.bus.trace)) =
    some (some ⟨.rstseq, .release, 0⟩, [.regRead 0x1E 7, .regWrite 0x1C 1]) := by decide

/-- IN1, IN2: the mask for each mode. -/
theorem test_init :
    (after (exec (.init true) (answered [0] [] State.reset))).map (fun t => (t.mode, t.bus.trace)) =
      some (some .interrupt, [.regRead 2 0, .regWrite 2 0xF, .registerIrq]) ∧
    (after (exec (.init false) (answered [0xF] [] State.reset))).map (fun t => (t.mode, t.bus.trace)) =
      some (some .polling, [.regRead 2 0xF, .regWrite 2 0]) := by decide

/-! ## Witnesses: concrete values that meet the hypotheses of each statement, clause by clause -/

/-- A request at the edges of R261. -/
def fullSubmit : Instr :=
  .submit ⟨true, 2, true, true⟩ ⟨63, 0xFFFFFFFF, .long, true, true, true, some (2 ^ 32 - 1)⟩ (some cmd17)
    (some ⟨.write, 65535, 65535, 2 ^ 32 - 1, 2 ^ 32 - 1⟩) (some stop12)

theorem witness_DecodeOfEncode :
    fullSubmit.wf = true ∧ Instr.wf (.jerr .data 65535) = true ∧ Instr.wf (.setClock (some (2 ^ 32 - 1))) = true := by
  decide

theorem witness_AcceptedWords : decode [0xC003, 16, 0x1234] = .ok (.jerr .data 16, [0x1234]) := by decide

theorem witness_OnlyListedWords :
    listedWord 0x8013 = false ∧ listedWord 0x8012 = true ∧ listedWord 0x8237 = true ∧ listedWord 0x8238 = false ∧
    ({ State.reset with inputs := [.port [0x8013]] } : State).inputs = .port [0x8013] :: [] :=
  ⟨by decide, by decide, by decide, by decide, rfl⟩

/-- A state whose turn is the port's. -/
def presented (i : Instr) (s : State) : State := { s with inputs := [.port (encode i)] }

theorem witness_StepRunsAtThePort :
    (Instr.wf .irq = true ∧ (presented .irq State.reset).inputs = .port (encode .irq) :: [] ∧ atPort .irq = true) ∧
    (Instr.wf .trig = true ∧ (presented .trig State.reset).inputs = .port (encode .trig) :: [] ∧
      atPort .trig = false) := ⟨⟨rfl, rfl, rfl⟩, rfl, rfl, rfl⟩

/-- A step of each kind: no wait to come; a wait to come, with an operation that reads and with one that writes; the
upstream reset; and an idle engine. -/
theorem witness_StepRunsAtTheCounter :
    ((poll .trig).inputs = [] ∧ (poll .trig).busy = true ∧ (poll .trig).inReset = false ∧
      (poll .trig).prog[(poll .trig).upc]? = some .trig ∧ (poll .trig).armed = false) ∧
    (step { poll (.regRead .bus) with armed := true } = exec (.regRead .bus) { poll (.regRead .bus) with armed := true } ∧
      after (exec (.regRead .bus) { poll (.regRead .bus) with armed := true }) ≠ none) ∧
    (traceOf (exec .clrev { poll .clrev with armed := true }) = some [.regWrite 0 0xFFFF] ∧
      step { poll .clrev with armed := true } = .fault .unmodelled) ∧
    (({ poll .trig with inReset := true, inputs := [.orchestrator] } : State).inputs = .orchestrator :: [] ∧
      (poll .trig).busy = true) ∧
    (ready .polling).busy = false :=
  ⟨⟨rfl, rfl, rfl, rfl, rfl⟩, ⟨rfl, by decide⟩, ⟨by decide, rfl⟩, ⟨rfl, rfl⟩, rfl⟩

/-- While a wait is to come the wait steps, and the handler clears EVENT. -/
theorem witness_WhileArmed :
    let s := { intr (.await ⟨true, false, false⟩ .cmd) with armed := true }
    s.armed = true ∧ s.busy = true ∧ s.mode ≠ none ∧ after (step (answered [] [false] s)) ≠ none ∧
    (after (step { answered [1] [] s with inputs := [.port (encode .irq)] })).map (fun t => t.bus.trace) =
      some [.regRead 0 1, .regWrite 0 1, .wake, .handled] := by decide

theorem witness_PlacedWord :
    (decodeTableWord 16 0x2000 = some .irq ∧ atPort .irq = true) ∧
    (decodeTableWord 32 0x0010C003 = some (.jerr .data 16) ∧ atPort (.jerr .data 16) = false) := by decide

/-- A hand-written program and its records, as in program P7. -/
def handWritten (prog : List Instr) : Load := ⟨none, some cmd17, none, none, prog.map encode⟩

theorem witness_Load_runs : (∀ i ∈ [Instr.cissue .cmd, .jerr .cmd 2, .done], i.wf = true) ∧
    (cmd17.opcode.toNat < 64 ∧ cmd17.rsp ≠ .reserved) ∧ (ready .polling).mode ≠ none ∧ (ready .polling).busy = false ∧
    LoadableProgram (Request.fresh (some cmd17) none none none) [Instr.cissue .cmd, .jerr .cmd 2, .done] :=
  ⟨by decide, by decide, by decide, rfl, (programOk_iff _ _).1 (by decide)⟩

/-- OR20: a label that is no later index. -/
theorem witness_Load_refused : ¬ ((ready .polling).mode ≠ none ∧ (ready .polling).busy = false ∧
    LoadableProgram (Request.fresh (some cmd17) none none none) [Instr.cissue .cmd, .jerr .cmd 1, .done]) :=
  fun h => absurd ((programOk_iff _ _).2 h.2.2) (by decide)

theorem witness_PowerOn : PowerOn State.reset := ⟨rfl, rfl⟩

theorem witness_configOk : configOk State.reset.cfg = true := by decide

/-- R261 at its edges: opcode 63, block size and block count 65535. -/
theorem witness_WellFormedRequest :
    WellFormedRequest refConfig ⟨true, 2, true, true⟩ ⟨63, 0, .long, true, true, true, none⟩ (some cmd17)
      (some ⟨.write, 65535, 65535, 0, 0⟩) (some stop12) ∧
    WellFormedRequest refConfig ⟨true, 0, false, false⟩ cmd2 none (some ⟨.unset, 1, 0, 0, 0⟩) none ∧
    WellFormedRequest refConfig ⟨false, 0, false, false⟩ cmd17 none none none :=
  ⟨(requestOk_iff _ _ _ _ _ _).1 (by decide), (requestOk_iff _ _ _ _ _ _).1 (by decide),
    (requestOk_iff _ _ _ _ _ _).1 (by decide)⟩

/-- OR5, OR4, OR9: an opcode of 64, a block size of 65536, and a set-block-count command without data. -/
theorem witness_IllFormedRequest :
    ¬ WellFormedRequest refConfig ⟨false, 0, false, false⟩ ⟨64, 0, .none, false, false, false, none⟩ none none none ∧
    ¬ WellFormedRequest refConfig ⟨true, 1, false, false⟩ cmd17 none (some ⟨.read, 65536, 1, 0, 0⟩) none ∧
    ¬ WellFormedRequest refConfig ⟨false, 0, true, false⟩ cmd17 (some cmd17) none none :=
  ⟨fun h => absurd ((requestOk_iff _ _ _ _ _ _).2 h) (by decide),
    fun h => absurd ((requestOk_iff _ _ _ _ _ _).2 h) (by decide),
    fun h => absurd ((requestOk_iff _ _ _ _ _ _).2 h) (by decide)⟩

/-- Records left over after a well-formed request's own. -/
theorem witness_LeftOverWords : (Instr.submit ⟨false, 0, false, false⟩ cmd17 none none none).wf = true ∧
    ({ ready .polling with inputs :=
      [.port (encode (.submit ⟨false, 0, false, false⟩ cmd17 none none none) ++ stop12.words)] } : State).inputs =
      .port (encode (.submit ⟨false, 0, false, false⟩ cmd17 none none none) ++ 0x090C :: [0, 0, 250, 0]) :: [] := by
  decide

theorem witness_BeforeInitialisation : State.reset.mode = none ∧
    (presented .hwReset State.reset).inputs = .port (encode .hwReset) :: [] ∧
    ({ State.reset with inputs := [.load (handWritten [.done])] } : State).inputs = .load (handWritten [.done]) :: [] ∧
    PowerOn { State.reset with inputs := [.orchestrator] } := ⟨rfl, rfl, rfl, rfl, rfl⟩

theorem witness_Init : (ready .polling).mode ≠ none ∧ State.reset.mode = none ∧ configOk State.reset.cfg = true ∧
    configOk { State.reset.cfg with rstRetries := 0 } = false ∧ configOk { State.reset.cfg with rstRetries := 1 } = true ∧
    configOk { State.reset.cfg with longRspRead := 18 } = true ∧ configOk { State.reset.cfg with longRspRead := 19 } = false := by
  decide

theorem witness_ModeIsSetOnce :
    (after (step (presented (.init true) State.reset))).map (fun t => t.mode) = some (some .interrupt) ∧
    (after (step (presented .irq (ready .interrupt)))).map (fun t => t.mode) = some (some .interrupt) := by decide

/-- A base by the valid shadow, and a base by a read. -/
theorem witness_BaseOf :
    BaseOf refConfig (shadowing [(.mode, 0xFFFC)] (ready .polling)).bus .mode 0xFFFC [] ∧
    BaseOf refConfig (answered [3] [] (ready .polling)).bus .mode 3 [.regRead 0x16 3] ∧
    BaseOf refConfig (answered [3] [] (ready .polling)).bus .rspBuf7 3 [.regRead 0x3E 3] :=
  ⟨.inl ⟨by decide, by decide, rfl⟩, .inr ⟨.inr (by decide), rfl, by decide⟩, .inr ⟨.inl (by decide), rfl, by decide⟩⟩

theorem witness_SetBusWidth : (ready .polling).mode ≠ none ∧ (ready .polling).busy = false ∧
    (poll .trig).busy = true ∧ (2 : BitVec 8) ≠ 1 ∧ (2 : BitVec 8) ≠ 4 ∧ (2 : BitVec 8) ≠ 8 := by decide

/-- Early and late reads of the flag registers. -/
theorem witness_RegRead :
    earlyRead { poll .trig with settled := false } .status = true ∧
    earlyRead { poll .trig with settled := false } .bus = false ∧
    earlyRead { intr .trig with settled := false } .event = false ∧
    earlyRead { intr .trig with settled := false, cfg := { refConfig with settleIrq := true } } .event = true := by
  decide

theorem witness_FieldRead :
    (cached refConfig (pos refConfig .dtrxEn).reg = true ∧
      RegFile.at (shadowing [(.ctrl, 0)] (poll .trig)).bus.shadow (pos refConfig .dtrxEn).reg = some 0) ∧
    cached refConfig (pos refConfig .rstSts).reg = false ∧
    RegFile.at (poll .trig).bus.shadow (pos refConfig .dtrxEn).reg = none := by decide

/-- The widest value of a field, and the next. -/
theorem witness_FieldWrite : (3 : Word).toNat < 2 ^ (pos refConfig .busWidth).width ∧
    2 ^ (pos refConfig .busWidth).width ≤ (4 : Word).toNat := by decide

/-- A base read before the settle delay is early in EVENT and STATUS, whatever field is written, and in no register
after the delay or in interrupt mode; a valid shadow of a cached flag register is no read. -/
theorem witness_EarlyBase :
    let s := { poll .trig with settled := false }
    let c := { s with cfg := { refConfig with cachedRegs := Vector.replicate 69 true } }
    (∀ r ∈ [RegId.event, .status], EarlyBase s s.bus r ∧ EarlyBase s (s.bus.store s.cfg .event 0xFFFF) r) ∧
    ¬ EarlyBase s s.bus .ctrl ∧ ¬ EarlyBase (poll .trig) (poll .trig).bus .event ∧
    ¬ EarlyBase { intr .trig with settled := false } (intr .trig).bus .event ∧
    EarlyBase c c.bus .event ∧ ¬ EarlyBase c (c.bus.store c.cfg .event 0xFFFF) .event := by
  unfold EarlyBase; decide

/-- Parameters whose fields all stand in STATUS. -/
def flagLayout : Config :=
  { refConfig with fieldMap := { refMap with fields := Vector.replicate 41 ⟨.status, 0, 1⟩ } }

/-- The early base read of each operation that writes a field. -/
theorem witness_EarlyBase_of_each :
    let s := { poll .trig with settled := false, cfg := flagLayout }
    ∀ f ∈ [FieldId.busWidth, .jobStart, .rstN, .rspEn, .blkCnt], EarlyBase s s.bus (pos s.cfg f).reg ∧
      EarlyBase s (s.bus.store s.cfg .event 0xFFFF) (pos s.cfg f).reg := by
  unfold EarlyBase; decide

theorem witness_FieldValue : fieldFits ⟨.ctrl, 0, 16⟩ = true ∧ fieldFits ⟨.ctrl, 15, 1⟩ = true ∧
    (0xFFFF : Word).toNat < 2 ^ 16 ∧ (1 : Word).toNat < 2 ^ 1 ∧ 15 < 16 := by decide

theorem witness_FieldWritesReadBack : configOk refConfig = true ∧ cached refConfig (pos refConfig .admaEn).reg = true ∧
    after (exec (.fieldWrite .admaEn 1) (shadowing [(.ctrl, 5)] (poll .trig))) ≠ none ∧
    after (exec (.fieldForce .admaEn 1) (shadowing [(.ctrl, 5)] (poll .trig))) ≠ none := by decide

theorem witness_Irq : (ready .polling).mode ≠ some .interrupt ∧ (ready .interrupt).mode = some .interrupt ∧
    refConfig.settleIrq = false := by decide

/-- A wait whose condition holds at once, in each mode; by the error latch; and with nothing required. -/
theorem witness_AwaitAtOnce : (poll .trig).req.has .cmd = true ∧ (poll .trig).mode ≠ none ∧
    (poll .trig).settled = true ∧ (intr .trig).mode = some .interrupt ∧ refConfig.settleIrq = false ∧
    cond ⟨true, false, false, false⟩ ⟨true, false, false⟩ = true ∧
    cond ⟨false, false, false, true⟩ ⟨true, true, true⟩ = true ∧
    cond ⟨false, false, false, false⟩ ⟨false, false, false⟩ = true := by decide

theorem witness_AwaitInterrupt :
    (({ intr .trig with settled := false, cfg := { refConfig with settleIrq := true } } : State).inAwaitLoop = false) ∧
    cond (intr .trig).lat ⟨true, false, false⟩ = false ∧ (intr .trig).req.has .data = true ∧
    (answered [] [true] (intr .trig)).bus.draws.nextExpired = true ∧
    (answered [] [false] (intr .trig)).bus.draws.nextExpired = false := by decide

theorem witness_AwaitPolling :
    ({ poll .trig with settled := false } : State).inAwaitLoop = false ∧ (poll .trig).settled = true ∧
    cond (poll .trig).lat ⟨true, false, false⟩ = false ∧
    fieldSet refConfig 0x0001 .evCmdEnd = true ∧ fieldSet refConfig 0x0100 .evCmdEnd = false ∧
    (drawsAfter 1 (answered [1, 0] [true] (poll .trig)).bus.draws).nextExpired = true := by decide

theorem witness_AwaitRecords : (after (exec (.await ⟨true, false, false⟩ .stop)
    (answered [] [true] (intr .trig)))).map (fun t => (t.waitTmo, t.waitArg)) = some (some 250, some 250) ∧
    (after (exec (.await ⟨true, false, false⟩ .cmd) (answered [] [true] (intr .trig)))).map
      (fun t => t.waitArg) = some (some 100) ∧
    (after (exec (.await ⟨false, true, false⟩ .data) (answered [0] [true] (poll .trig)))).map
      (fun t => (t.waitTmo, t.waitArg)) = some (some 0, some 500) := by decide

theorem witness_Wchk : (poll .trig).req.has .data = true ∧
    ({ poll .trig with wres := some .timeout } : State).wres = some .timeout ∧
    ¬ ((poll .trig).wres = some .timeout ∨ (poll .trig).lat.err = true ∧ (poll .trig).snap = some 0) := by decide

theorem witness_Frame : (63 : Byte).toNat < 64 := by decide

theorem witness_Cissue : (poll .trig).req.command .cmd = some ⟨cmd17, 0, noResp, .noError, none⟩ ∧
    cmd17.rsp ≠ .reserved := by decide

theorem witness_CissueReference : ReferenceLayout refConfig ∧ refConfig.cmdSize.toNat < 256 ∧
    BaseOf refConfig (shadowing [(.ctrl, 0x8075), (.cmdRspSize, 0x0505)] (poll .trig)).bus .ctrl 0x8075 [] ∧
    after (exec (.cissue .cmd) (shadowing [(.ctrl, 0x8075), (.cmdRspSize, 0x0505)] (poll .trig))) ≠ none :=
  ⟨⟨rfl, fun r => by cases r with
      | further k => revert k; decide
      | _ => rfl⟩, by decide, .inl ⟨by decide, by decide, rfl⟩, by decide⟩

/-- One status for each branch of the decision order: no response, a CRC error, card busy, and an unexpected bit. -/
theorem witness_Ccapt :
    (captured 0x001C cmd17 (poll .trig)).wres = some .ok ∧ (poll .trig).wres ≠ some .ok ∧
    fieldSet refConfig 0x001C .stNoRsp = true ∧ fieldSet refConfig 0x0014 .stNoRsp = false ∧
    fieldSet refConfig 0x0014 .stCmdRspCrc = true ∧ cmd17.crc = true ∧ stop12.crc = false ∧
    fieldSet refConfig 0x0010 .stCmdRspCrc = false ∧ getField (pos refConfig .stCardBusy) 0x0010 = 1 ∧
    getField (pos refConfig .stCardBusy) 0x0003 ≠ 1 := by decide

/-- The response read: 5 bytes, 16 bytes, none expected, and both answers of the echo test. -/
theorem witness_ReadResponse :
    (captured 0 cmd17 (poll .trig)).req.command .cmd = some ⟨cmd17, 5, noResp, .noError, none⟩ ∧
    responseBytes refConfig .short = 5 ∧ responseBytes refConfig .long = 16 ∧
    (([0x0011] : List Word).headD 0).extractLsb' 0 8 = cmd17.opcode ∧
    (([0x0051] : List Word).headD 0).extractLsb' 0 8 ≠ cmd17.opcode := by decide

theorem witness_DataObject : ∃ d, (poll .trig).req.data = some d ∧ d.input.dir ≠ .unset ∧ d.segs = [] ∧ d.plan = none :=
  ⟨_, rfl, by decide, rfl, rfl⟩

theorem witness_UnsetDirection : (running .polling cmd17 ⟨.unset, 512, 1, 7, 0⟩ .chkdir).req.data =
    some ⟨⟨.unset, 512, 1, 7, 0⟩, [], none, 0, .noError, none⟩ := rfl

/-- A lawful mapping at the widest block count, and one segment too long. -/
theorem witness_Dmap : lawfulSeg refConfig 1 ⟨0, 65535⟩ = true ∧ lawfulSeg refConfig 1 ⟨0, 65536⟩ = false ∧
    lawfulSeg refConfig 512 ⟨0, 0⟩ = false := by decide

/-- DPREP at its edges: 1 segment, 2, `P_MAX_SEGS`, and one more. -/
theorem witness_Dprep :
    ([⟨0, 512⟩] : List Seg) ≠ [] ∧ 1 ≤ refConfig.maxSegs ∧ 2 ≤ (List.replicate 2 (⟨0, 512⟩ : Seg)).length ∧
    (List.replicate 64 (⟨0, 512⟩ : Seg)).length ≤ refConfig.maxSegs ∧
    refConfig.maxSegs < (List.replicate 65 (⟨0, 512⟩ : Seg)).length ∧ 16 ≤ refConfig.descBytes ∧
    (poll .dprep).arenaBase = some 0x80001000 ∧ (poll .dprep).arena.length = refConfig.maxSegs := by decide

theorem witness_Darm : ∃ d p, (withData [] (some (.direct 0x00100000 512 1)) (poll .darm)).req.data = some d ∧
    d.plan = some p ∧ d.input.bs < 2 ^ (pos refConfig .blkSize).width ∧
    planBlocks p < 2 ^ (pos refConfig .blkCnt).width ∧ 65535 < 2 ^ (pos refConfig .blkSize).width ∧
    2 ^ (pos refConfig .blkSize).width ≤ 65536 := ⟨_, _, rfl, rfl, by decide⟩

theorem witness_DarmShadows : configOk refConfig = true ∧ cached refConfig (pos refConfig .dmaLenHi).reg = true ∧
    after (exec .darm (shadowing [(.ctrl, 5)] (answered [0, 0, 0, 0, 0, 0] []
      (withData [] (some (.direct 0x00100000 0x10200 129)) (poll .darm))))) ≠ none := by decide

theorem witness_Bidle : (poll .bidle).req.data ≠ none ∧ ({ poll .bidle with req := Request.empty } : State).req.data = none ∧
    refConfig.bidleFatal = true ∧ cached refConfig (pos refConfig .busIdle).reg = false ∧
    earlyRead (poll .bidle) (pos refConfig .busIdle).reg = false ∧ getField (pos refConfig .busIdle) 1 = 1 ∧
    getField (pos refConfig .busIdle) 0xFFFE ≠ 1 := by decide

theorem witness_Dstat : (poll .dstat).snap = none ∧ ({ poll .dstat with snap := some 1 } : State).snap = some 1 :=
  ⟨rfl, rfl⟩

theorem witness_Jerr : (poll .trig).req.errorOf .stop = some .noError ∧
    ((poll .trig).raise .timeout .stop).req.errorOf .stop = some .timeout := by decide

theorem witness_Done : ((poll .done).segMap = none ∧ (poll .done).arenaMap = none) ∧
    ({ poll .done with arenaMap := some 2 } : State).arenaMap ≠ none := by decide

theorem witness_Raise : ErrKind.timeout ≠ .noError ∧ ErrKind.noResponse ≠ .timeout ∧
    ErrKind.noResponse ≠ .crcMismatch := by decide

/-- The reset sequence: its start, each phase, both answers of each test, and the bound of the retries. -/
theorem witness_Rstseq : (poll .rstseq).sub = none ∧ (poll .rstseq).inReset = false ∧
    cached refConfig (pos refConfig .rstSts).reg = false ∧
    earlyRead (poll .rstseq) (pos refConfig .rstSts).reg = false ∧
    getField (pos refConfig .rstSts) 7 = BitVec.ofNat 16 (2 ^ refConfig.rstStsWidth - 1) ∧
    getField (pos refConfig .rstSts) 0xFFF8 = 0 ∧ 1 + 1 < refConfig.rstRetries ∧ refConfig.rstRetries ≤ 2 + 1 := by decide

/-- The upstream reset's last pass. -/
theorem witness_HwReset :
    ((after (exec .rstseq (answered [0] [] { poll .rstseq with sub := some ⟨.rstseq, .release, 0⟩ }))).map
      fun t => t.sub) = some none ∧
    ((after (exec .rstseq (answered [0] []
      { poll .rstseq with inReset := true, sub := some ⟨.rstseq, .release, 0⟩ }))).map
      fun t => (t.busy, t.inReset)) = some (false, false) := by decide

theorem witness_AnyStep : after (exec .trig (shadowing [(.job, 0)] (poll .trig))) ≠ none ∧
    after (exec .hwReset (answered [0] [] (ready .polling))) ≠ none ∧
    after (exec .dunmap (poll .dunmap)) ≠ none := by decide

/-- The invariants hold of a busy engine, which takes a step. -/
theorem witness_EngineInv : EngineInv (poll .clrev) ∧ after (step (poll .clrev)) ≠ none := by
  refine ⟨⟨⟨List.Pairwise.nil, rfl⟩, by unfold WaitInv; decide, ⟨by decide, by decide⟩, fun _ _ => by decide, fun r => ?_,
    ⟨fun o c h => ?_, fun d h => ?_, .inl rfl⟩, ⟨fun d h => ?_, fun o c h => ?_⟩, fun h => ?_⟩, by decide⟩
  · cases r with
    | further k => revert k; decide
    | _ => decide
  · cases o <;> (cases h; decide)
  · cases h; decide
  · cases h; exact ⟨fun g hg => (nomatch hg), fun p hp => (nomatch hp)⟩
  · cases o <;> (cases h; exact .inl rfl)
  · cases h

/-- The engine right after its trigger, before the wait's settle delay. -/
def triggered : State :=
  { poll .trig with
    prog := [.trig, .await ⟨true, false, false⟩ .cmd, .done], upc := 1, settled := false, armed := true }

/-- Runs of the engine's own programs: power-on, and after a trigger in polling mode, where a wait is next. -/
theorem witness_OwnRun :
    (PowerOn State.reset ∧ State.reset.cfg.settleIrq = false ∧ ∀ i ∈ State.reset.inputs, notLoad i = true) ∧
    OwnRun triggered ∧ after (step triggered) ≠ none := by
  refine ⟨⟨⟨rfl, rfl⟩, rfl, fun i hi => (nomatch hi)⟩, ⟨rfl, fun i hi => (nomatch hi), fun k hk => ?_,
    fun p hp => (nomatch hp), fun h => (nomatch h), fun _ _ => ⟨rfl, _, _, rfl⟩, fun _ => ⟨rfl, _, _, rfl⟩⟩, by decide⟩
  match k with
  | 0 => exact ⟨_, _, rfl⟩
  | 1 | 2 => cases hk
  | k + 3 => cases hk

end Sys2Proof.Tests
end

section
/-! The objects of a request (R26) as the invariants see them: what `ErrorInv` and `DataInv` ask of each object, and
which updates of the request slot keep it. -/

namespace Sys2Proof.Machine

open Sys2Proof

/-! ## The objects of a request keep their rules (R26, R46, R221, R310) -/

/-- What `ErrorInv` and `DataInv` ask of a command object. -/
def CommandObj.Ok (c : CommandObj) : Prop :=
  (commandError c.error = true ∧ diagOk c.error c.diag = true) ∧ (c.expected = 0 ∨ c.expected = 5 ∨ c.expected = 16)

/-- What `ErrorInv` and `DataInv` ask of the data object. -/
def DataObj.Ok (cfg : Config) (d : DataObj) : Prop :=
  (dataError d.error = true ∧ diagOk d.error d.diag = true) ∧
  (∀ g ∈ d.segs, lawfulSeg cfg d.input.bs g = true) ∧ ∀ p, d.plan = some p → planOk cfg d.input.bs p

/-- What `ErrorInv` and `DataInv` ask of the request slot. -/
def Request.Ok (cfg : Config) (q : Request) : Prop :=
  (∀ o c, q.command o = some c → c.Ok) ∧ ∀ d, q.data = some d → d.Ok cfg

/-- The two invariants of the request's objects are one condition on the request slot, and R49's on the reset error. -/
theorem errorInv_and_dataInv_iff (s : State) :
    ErrorInv s ∧ DataInv s ↔ s.req.Ok s.cfg ∧ (s.rstErr = .noError ∨ s.rstErr = .resetFailed) := by
  constructor
  · rintro ⟨⟨hce, hde, hrst⟩, hdd, hcd⟩
    exact ⟨⟨fun o c h => ⟨hce o c h, hcd o c h⟩, fun d h => ⟨hde d h, hdd d h⟩⟩, hrst⟩
  · rintro ⟨⟨hc, hd⟩, hrst⟩
    exact ⟨⟨fun o c h => (hc o c h).1, fun d h => (hd d h).1, hrst⟩, fun d h => (hd d h).2, fun o c h => (hc o c h).2⟩

/-- Every command object of a request at acceptance is a fresh one (R48). -/
theorem Request.command_fresh {cmd sbc stop : Option Command} {data : Option Data} {o : CmdId} {c : CommandObj}
    (h : (Request.fresh cmd sbc stop data).command o = some c) : ∃ r, c = CommandObj.fresh r := by
  cases o <;> obtain ⟨r, -, rfl⟩ := Option.map_eq_some_iff.1 h <;> exact ⟨r, rfl⟩

/-- The data object of a request at acceptance is a fresh one (R48). -/
theorem Request.data_fresh {cmd sbc stop : Option Command} {data : Option Data} {d : DataObj}
    (h : (Request.fresh cmd sbc stop data).data = some d) : ∃ r, d = DataObj.fresh r := by
  obtain ⟨r, -, rfl⟩ := Option.map_eq_some_iff.1 h
  exact ⟨r, rfl⟩

theorem Request.ok_fresh (cfg : Config) (cmd sbc stop : Option Command) (data : Option Data) :
    (Request.fresh cmd sbc stop data).Ok cfg := by
  refine ⟨fun o c h => ?_, fun d h => ?_⟩
  · obtain ⟨r, rfl⟩ := Request.command_fresh h
    exact ⟨⟨rfl, rfl⟩, .inl rfl⟩
  · obtain ⟨r, rfl⟩ := Request.data_fresh h
    exact ⟨⟨rfl, rfl⟩, by simp [DataObj.fresh]⟩

theorem Request.Ok.setCommand {cfg : Config} {q : Request} (hq : q.Ok cfg) (o : CmdId) {c : CommandObj} (hc : c.Ok) :
    (q.setCommand o c).Ok cfg := by
  refine ⟨fun p c' h => ?_, fun d h => hq.2 d (by simpa using h)⟩
  by_cases hp : p = o
  · subst hp
    rw [Request.setCommand_same] at h
    exact Option.some.inj h ▸ hc
  · exact hq.1 p c' (by rwa [Request.setCommand_other _ _ hp] at h)

theorem Request.Ok.setData {cfg : Config} {q : Request} (hq : q.Ok cfg) {d : DataObj} (hd : d.Ok cfg) :
    (q.setData d).Ok cfg :=
  ⟨fun o c h => hq.1 o c (by simpa using h), fun d' h => by cases h; exact hd⟩

/-! ### Raising an error (R310, R312) -/

/-- The error kinds R310 lets an object hold. -/
def mayHold : Obj → ErrKind → Bool
  | .data => dataError
  | .sbc => commandError
  | .cmd => commandError
  | .stop => commandError

@[simp] theorem mayHold_toObj (o : CmdId) (k : ErrKind) : mayHold o.toObj k = commandError k := by cases o <;> rfl

/-- The first error of an object comes with a diagnostic snapshot exactly where R312 takes one: before it there is
none. -/
theorem diagOk_after_fail {k : ErrKind} {dg old : Option Diag} (hold : diagOk .noError old = true)
    (hdg : dg.isSome = k.diagnosed) : diagOk k (if dg.isSome then dg else old) = true := by
  have hnone : old = none := by simpa [diagOk, show ErrKind.noError.diagnosed = false from rfl] using hold
  cases dg <;> simp_all [diagOk]

theorem CommandObj.Ok.fail {c : CommandObj} (hc : c.Ok) (he : c.error = .noError) {k : ErrKind} {dg : Option Diag}
    (hk : commandError k = true) (hdg : dg.isSome = k.diagnosed) : (c.fail k dg).Ok :=
  ⟨⟨hk, diagOk_after_fail (he ▸ hc.1.2) hdg⟩, hc.2⟩

theorem DataObj.Ok.fail {cfg : Config} {d : DataObj} (hd : d.Ok cfg) (he : d.error = .noError) {k : ErrKind}
    {dg : Option Diag} (hk : dataError k = true) (hdg : dg.isSome = k.diagnosed) : (d.fail k dg).Ok cfg :=
  ⟨⟨hk, diagOk_after_fail (he ▸ hd.1.2) hdg⟩, hd.2⟩

theorem Request.Ok.fail {cfg : Config} {q : Request} (hq : q.Ok cfg) {o : Obj} (he : q.errorOf o = some .noError)
    {k : ErrKind} {dg : Option Diag} (hk : mayHold o k = true) (hdg : dg.isSome = k.diagnosed) :
    (q.fail k dg o).Ok cfg := by
  refine ⟨fun p c' h => ?_, fun d' h => ?_⟩
  · rw [Request.fail_command] at h
    split at h
    · subst o
      obtain ⟨c, hc, rfl⟩ := Option.map_eq_some_iff.1 h
      exact (hq.1 p c hc).fail (by simpa [hc] using he) (by simpa using hk) hdg
    · exact hq.1 p c' h
  · rw [Request.fail_data] at h
    split at h
    · subst o
      obtain ⟨d, hd, rfl⟩ := Option.map_eq_some_iff.1 h
      exact (hq.2 d hd).fail (by simpa [Request.errorOf_data, hd] using he) hk hdg
    · exact hq.2 d' h

/-- A raise of a kind the object may hold keeps the rules of the objects. -/
theorem State.raise_objects (s : State) {cfg : Config} {k : ErrKind} {o : Obj} (hk : mayHold o k = true)
    (hq : s.req.Ok cfg) : (s.raise k o).req.Ok cfg := by
  obtain ⟨-, e⟩ | ⟨he, e⟩ := s.raise_cases k o <;> rw [e]
  · exact hq
  · exact hq.fail he hk (by cases k <;> rfl)

end Sys2Proof.Machine
end

section
/-! What every operation keeps of the parameters, the mode, the latches, the memory, the wait, the shadows, the
objects, the reset error and the running program: one condition `Keeps`, one lemma for each of the 28 operations. -/

namespace Sys2Proof.Machine

open Sys2Proof

/-! ## What every operation keeps -/

/-- Each latch that is set stays set. -/
def Latches.Stay (l l' : Latches) : Prop :=
  (l.cmd = true → l'.cmd = true) ∧ (l.data = true → l'.data = true) ∧ (l.busy = true → l'.busy = true) ∧
  (l.err = true → l'.err = true)

@[simp] theorem Latches.stay_refl (l : Latches) : l.Stay l := ⟨id, id, id, id⟩

/-- A merge of EVENT bits only sets latches (R165). -/
@[simp] theorem Latches.stay_merged (cfg : Config) (v : Word) (l : Latches) : l.Stay (mergedLatches cfg v l) := by
  simp +contextual [Latches.Stay, mergedLatches]

/-- The program goes on after operation `i`: it is the same program over the same objects, and the counter stays, moves
to the next operation, or moves to the operation's label (R22). -/
def RunsOn (i : Instr) (s t : State) : Prop :=
  t.busy = s.busy ∧ t.inReset = s.inReset ∧ t.prog = s.prog ∧ (∀ o, t.req.has o = s.req.has o) ∧
  (t.upc = s.upc ∨ t.upc = s.upc + 1 ∨ labelOf i = some t.upc)

/-- What operation `i` keeps in a step from `s` to `t`, whichever operation it is. Where a case of a proof gives no
value for a field, the operation leaves that part of the state as it is. -/
structure Keeps (i : Instr) (s t : State) : Prop where
  cfg : t.cfg = s.cfg := by simp
  inputs : t.inputs = s.inputs := by simp
  mode : t.mode = s.mode ∨ ∃ b, i = .init b := by simp
  latches : i = .clrev ∨ (∃ o, i = .cissue o) ∨ i = .darm ∨ (∃ b, i = .init b) ∨ s.lat.Stay t.lat := by simp
  memory : MemoryInv s → MemoryInv t := by simp [MemoryInv]
  wait : WaitInv s → WaitInv t := by simp [WaitInv]
  shadow : ShadowInv s → ShadowInv t := by simp [ShadowInv]
  objects : s.req.Ok s.cfg → t.req.Ok s.cfg := by simp
  rstErr : t.rstErr = s.rstErr ∨ t.rstErr = .noError ∨ t.rstErr = .resetFailed := by simp
  program : atPort i = false → i ≠ .done → (i = .rstseq → s.inReset = false) → RunsOn i s t := by
    simp [atPort, RunsOn]

/-! ### The shared operations -/

/-- A state whose shadows are those of ports with no shadow of a volatile register has none either (R27). -/
theorem shadowInv_of_bus {t : State} {cfg : Config} {b : Bus} (h : b.volatileClear cfg) (hc : t.cfg = cfg)
    (hs : t.bus.shadow = b.shadow) : ShadowInv t := by
  subst hc
  exact Bus.volatileClear_of_shadow h hs

/-- A read of a field fills at most the shadow of a cached register (R147). -/
theorem readField_shadow {s : State} {f : FieldId} {x : Word} {b : Bus} (h : readField s f = .ok (x, b))
    (hs : ShadowInv s) : b.volatileClear s.cfg := by
  rcases readField_ok h with ⟨y, -, e⟩ | ⟨-, -, e⟩ <;> cases e
  · exact hs
  · exact Bus.volatileClear_setShadow (b := (s.bus.regRead s.cfg _).2) hs _ _

theorem Bus.volatileClear_issue {cfg : Config} {b : Bus} (h : b.volatileClear cfg) (c : Command) :
    (b.issue cfg c).volatileClear cfg := by
  unfold Bus.issue Bus.writeFrame
  refine Bus.volatileClear_groupWrite (Bus.volatileClear_groupWrite ?_ _) _
  exact Bus.volatileClear_store (Bus.volatileClear_store (Bus.volatileClear_store
    (Bus.volatileClear_groupWrite h _) _ _) _ _) _ _

theorem Bus.volatileClear_fieldWrites {cfg : Config} {b : Bus} (h : b.volatileClear cfg) (ws : List (FieldId × Word)) :
    (b.fieldWrites cfg ws).volatileClear cfg := by
  unfold Bus.fieldWrites
  induction ws generalizing b with
  | nil => exact h
  | cons w ws ih => exact ih (Bus.volatileClear_fieldWrite h w.1 w.2)

/-- The handler's answers touch no shadow (R160). -/
theorem State.wakeAndHandle_shadow (s : State) : s.wakeAndHandle.bus.shadow = s.bus.shadow := by
  unfold State.wakeAndHandle
  cases s.lat.any <;> rfl

@[simp] theorem Bus.unmap_shadow (m : Option Nat) (b : Bus) : (b.unmap m).shadow = b.shadow := by cases m <;> rfl

@[simp] theorem Bus.mapBuffer_shadow (cfg : Config) (d : Data) (b : Bus) : (b.mapBuffer cfg d).2.shadow = b.shadow := rfl

@[simp] theorem Bus.mapArena_shadow (cfg : Config) (a : Nat) (slots : List Slot) (b : Bus) :
    (b.mapArena cfg a slots).2.shadow = b.shadow := rfl

@[simp] theorem Bus.drawBase_shadow (cfg : Config) (b : Bus) : (b.drawBase cfg).2.shadow = b.shadow := rfl

@[simp] theorem Bus.drawExpired_shadow (b : Bus) : b.drawExpired.2.shadow = b.shadow := rfl

/-- The number of bytes moved is no part of the rules of the data object. -/
theorem Request.Ok.setBytes {cfg : Config} {q : Request} (hq : q.Ok cfg) (n : Nat) :
    Request.Ok cfg { q with data := q.data.map fun e => { e with bytes := n } } := by
  refine ⟨fun o c h => hq.1 o c (by cases o <;> exact h), fun d h => ?_⟩
  obtain ⟨e, he, rfl⟩ := Option.map_eq_some_iff.1 h
  exact hq.2 e he

theorem Request.has_setBytes (q : Request) (n : Nat) (o : Obj) :
    Request.has { q with data := q.data.map fun e => { e with bytes := n } } o = q.has o := by
  cases o <;> simp [Request.has, Request.errorOf]

/-- Every segment the mapping service answers with is lawful (R221). -/
theorem lawful_of_mapBuffer {cfg : Config} {d : Data} {b : Bus} {g : Seg} (h : g ∈ (b.mapBuffer cfg d).1.2) :
    lawfulSeg cfg d.bs g = true :=
  (List.mem_filter.1 h).2

theorem chainSlots_length (bs : Nat) (gs : List Seg) : (chainSlots bs gs).length = gs.length := by
  fun_induction chainSlots bs gs <;> simp_all

/-- A chain that fits the arena leaves the arena's capacity and the memory's form (R28, R225). -/
theorem State.prepareChain_memoryInv {s : State} (h : MemoryInv s) (a : Nat) {d : DataObj}
    (hd : d.segs.length ≤ s.cfg.maxSegs) : MemoryInv (s.prepareChain a d) := by
  refine ⟨Memory.wf_writeChain h.1 _ _ _ _, ?_⟩
  have hcap := h.2
  simp only [State.prepareChain, List.length_append, List.length_drop, chainSlots_length]
  omega

/-- The plans `DPREP` builds from lawful segments are lawful (R224, R225). -/
theorem DataObj.Ok.withPlan {cfg : Config} {d : DataObj} (hd : d.Ok cfg) {p : Plan} (hp : planOk cfg d.input.bs p) :
    DataObj.Ok cfg { d with plan := some p } :=
  ⟨hd.1, hd.2.1, fun q hq => by cases hq; exact hp⟩

/-! ### The capture of a response (R195, R196) -/

/-- What each step of the capture's decision order keeps: it changes the ports, the log, the request and the snapshot
only, loses no snapshot, gives no volatile register a shadow, and keeps the request's objects and their rules. -/
def Captures (s u : State) : Prop :=
  (∃ b l q v, u = { s with bus := b, log := l, req := q, snap := v }) ∧
  (ShadowInv s → ShadowInv u) ∧ (s.snap.isSome = true → u.snap.isSome = true) ∧
  (∀ p, u.req.has p = s.req.has p) ∧ (s.req.Ok s.cfg → u.req.Ok s.cfg)

theorem Captures.refl (s : State) : Captures s s := ⟨⟨_, _, _, _, rfl⟩, id, id, fun _ => rfl, id⟩

theorem Captures.trans {s t u : State} (h : Captures s t) (h' : Captures t u) : Captures s u := by
  obtain ⟨⟨_, _, _, _, rfl⟩, hsh, hsn, hhas, hok⟩ := h
  obtain ⟨⟨_, _, _, _, rfl⟩, hsh', hsn', hhas', hok'⟩ := h'
  exact ⟨⟨_, _, _, _, rfl⟩, hsh' ∘ hsh, hsn' ∘ hsn, fun p => (hhas' p).trans (hhas p), hok' ∘ hok⟩

theorem Captures.raise (s : State) {k : ErrKind} (o : CmdId) (hk : commandError k = true) :
    Captures s (s.raise k o.toObj) := by
  refine ⟨?_, by simp [ShadowInv], by simp, by simp, State.raise_objects s (by simpa using hk)⟩
  obtain ⟨-, e⟩ | ⟨-, e⟩ := s.raise_cases k o.toObj <;> rw [e] <;> exact ⟨_, _, _, _, rfl⟩

theorem Captures.addLog (s : State) (es : List LogEntry) : Captures s (s.addLog es) :=
  ⟨⟨_, _, _, _, rfl⟩, id, id, fun _ => rfl, id⟩

theorem Captures.ignoreCrc (s : State) (c : CommandObj) (v : Word) : Captures s (s.ignoreCrc c v) :=
  ⟨⟨_, _, _, _, rfl⟩, fun h => Bus.volatileClear_store h _ _, fun _ => rfl, fun _ => rfl, id⟩

theorem Captures.readResponse {s : State} {o : CmdId} {c : CommandObj} (hc : s.req.command o = some c) :
    Captures s (s.readResponse o c) := by
  obtain e | ⟨b, w, hb, e | e⟩ := s.readResponse_cases o c
  · rw [e]; exact Captures.refl s
  all_goals
    have hsh : b.shadow = s.bus.shadow := hb ▸ (Bus.readRegs_spec s.cfg _ s.bus).1
    have hread : Captures s { s with bus := b } :=
      ⟨⟨_, _, _, _, rfl⟩, fun h => Bus.volatileClear_of_shadow h hsh, id, fun _ => rfl, id⟩
    rw [e]
  · exact hread.trans (Captures.raise _ o rfl)
  · exact hread.trans ⟨⟨_, _, _, _, rfl⟩, id, id, Request.has_setCommand _ _ hc, fun h => h.setCommand o (h.1 o c hc)⟩

theorem Captures.captureRest {s : State} {o : CmdId} {c : CommandObj} (hc : s.req.command o = some c) (v : Word) :
    Captures s (s.captureRest o c v) := by
  obtain e | ⟨es, e⟩ := s.captureRest_cases o c v <;> rw [e]
  · exact Captures.refl s
  · exact (Captures.addLog s es).trans (Captures.readResponse hc)

theorem Captures.capture {s : State} {o : CmdId} {c : CommandObj} (hc : s.req.command o = some c) (v : Word) :
    Captures s (s.capture o c v) := by
  obtain e | e | ⟨s1, w, ⟨rfl, -⟩ | ⟨rfl, -⟩, e⟩ := s.capture_cases o c v <;> rw [e]
  · exact Captures.raise s o rfl
  · exact Captures.raise s o rfl
  · exact Captures.captureRest hc w
  · exact (Captures.ignoreCrc s c v).trans (Captures.captureRest (s := s.ignoreCrc c v) hc w)

/-! ### One lemma for each operation -/

theorem execSubmit_keeps {sh : Shape} {cmd : Command} {sbc : Option Command} {data : Option Data}
    {stop : Option Command} {s t : State} (h : execSubmit sh cmd sbc data stop s = .next t) :
    Keeps (.submit sh cmd sbc data stop) s t := by
  obtain ⟨-, -, -, rfl⟩ := execSubmit_next h
  unfold State.accept
  exact { wait := fun _ => by simp [WaitInv], objects := fun _ => Request.ok_fresh .. }

theorem execSetBusWidth_keeps {w : BusWidth} {s t : State} (h : execSetBusWidth w s = .next t) :
    Keeps (.setBusWidth w) s t := by
  obtain ⟨-, -, -, rfl⟩ := execSetBusWidth_next h
  exact { shadow := fun h => Bus.volatileClear_fieldWrite h _ _ }

theorem execSetClock_keeps {rate : Option Nat} {s t : State} (h : execSetClock rate s = .next t) :
    Keeps (.setClock rate) s t := by
  obtain ⟨-, -, rfl⟩ := execSetClock_next h
  exact {}

theorem execHwReset_keeps {s t : State} (h : execHwReset s = .next t) : Keeps .hwReset s t := by
  obtain ⟨-, -, -, rfl⟩ := execHwReset_next h
  exact { shadow := fun h => Bus.volatileClear_fieldForce h _ _ }

theorem execIrq_keeps {s t : State} (h : execIrq s = .next t) : Keeps .irq s t := by
  obtain ⟨-, -, rfl⟩ := execIrq_next h
  have hstore (h : ShadowInv s) :
      ((s.bus.regRead s.cfg .event).2.store s.cfg .event s.bus.draws.nextRead).volatileClear s.cfg :=
    Bus.volatileClear_store (b := (s.bus.regRead s.cfg .event).2) h _ _
  unfold State.handleEvents
  exact { shadow := fun h => shadowInv_of_bus (hstore h) (by simp) (State.wakeAndHandle_shadow _) }

theorem execRegRead_keeps {r : RegId} {s t : State} (h : execRegRead r s = .next t) : Keeps (.regRead r) s t := by
  obtain ⟨-, rfl⟩ := execRegRead_next h
  exact {}

theorem execRegWrite_keeps {r : RegId} {v : Word} {s t : State} (h : execRegWrite r v s = .next t) :
    Keeps (.regWrite r v) s t := by
  cases h
  exact { shadow := fun h => Bus.volatileClear_store h _ _ }

theorem execFieldRead_keeps {f : FieldId} {s t : State} (h : execFieldRead f s = .next t) :
    Keeps (.fieldRead f) s t := by
  obtain ⟨v, b, hr, rfl⟩ := execFieldRead_next h
  exact { shadow := readField_shadow hr }

theorem execFieldWrite_keeps {f : FieldId} {v : Word} {s t : State} (h : execFieldWrite f v s = .next t) :
    Keeps (.fieldWrite f v) s t := by
  obtain ⟨-, -, rfl⟩ := execFieldWrite_next h
  exact { shadow := fun h => Bus.volatileClear_fieldWrite h _ _ }

theorem execFieldForce_keeps {f : FieldId} {v : Word} {s t : State} (h : execFieldForce f v s = .next t) :
    Keeps (.fieldForce f v) s t := by
  obtain ⟨-, -, rfl⟩ := execFieldForce_next h
  exact { shadow := fun h => Bus.volatileClear_fieldForce h _ _ }

theorem execClrev_keeps {s t : State} (h : execClrev s = .next t) : Keeps .clrev s t := by
  cases h
  exact { wait := fun _ => by simp [WaitInv], shadow := fun h => Bus.volatileClear_store h _ _ }

theorem execAwait_keeps {need : WaitSet} {o : Obj} {s t : State} (h : execAwait need o s = .next t) :
    Keeps (.await need o) s t := by
  obtain ⟨ht, hsh, -, -, hres, hctl, hlat⟩ := execAwait_frame h
  have hupc : t.upc = s.upc ∨ t.upc = s.upc + 1 := hctl.imp And.left And.left
  exact {
    cfg := by rw [ht]
    inputs := by rw [ht]
    mode := .inl (by rw [ht])
    latches := .inr (.inr (.inr (.inr hlat)))
    memory := fun h => by rw [ht]; exact h
    wait := fun h => by
      unfold WaitInv
      obtain ⟨hw, hs⟩ | ⟨hw, hs⟩ | ⟨hw, hs⟩ := hres
      · rw [hw, hs]; exact h
      · simp [hw, hs]
      · simp [hw, hs]
    shadow := fun h => shadowInv_of_bus h (by rw [ht]) hsh
    objects := fun h => by rw [ht]; exact h
    rstErr := .inl (by rw [ht])
    program := fun _ _ _ => ⟨by rw [ht], by rw [ht], by rw [ht], fun _ => by rw [ht], hupc.imp_right .inl⟩ }

theorem execWchk_keeps {o : Obj} {s t : State} (h : execWchk o s = .next t) : Keeps (.wchk o) s t := by
  obtain ⟨-, rfl | rfl⟩ := execWchk_next h
  · exact {}
  · exact { objects := State.raise_objects s (by cases o <;> rfl) }

theorem execCissue_keeps {o : CmdId} {s t : State} (h : execCissue o s = .next t) : Keeps (.cissue o) s t := by
  obtain ⟨c, hc, -, -, rfl⟩ := execCissue_next h
  have hexpected (r : Rsp) : expectedBytes r = 0 ∨ expectedBytes r = 5 ∨ expectedBytes r = 16 := by
    cases r <;> decide
  exact {
    wait := fun _ => by simp [WaitInv]
    shadow := fun h => Bus.volatileClear_issue (Bus.volatileClear_store h _ _) _
    objects := fun h => h.setCommand o ⟨(h.1 o c hc).1, hexpected _⟩
    program := fun _ _ _ => ⟨rfl, rfl, rfl, Request.has_setCommand _ _ hc, .inr (.inl rfl)⟩ }

theorem execTrig_keeps {s t : State} (h : execTrig s = .next t) : Keeps .trig s t := by
  obtain ⟨-, rfl⟩ := execTrig_next h
  exact { shadow := fun h => Bus.volatileClear_fieldForce h _ _ }

theorem execCcapt_keeps {o : CmdId} {s t : State} (h : execCcapt o s = .next t) : Keeps (.ccapt o) s t := by
  obtain ⟨c, v, hc, hw, hv, rfl⟩ := execCcapt_next h
  have hcapt := Captures.capture hc v
  generalize s.capture o c v = u at hcapt
  obtain ⟨⟨b, l, q, v', rfl⟩, hsh, hsn, hhas, hok⟩ := hcapt
  exact {
    wait := fun _ => by simpa [WaitInv, hw] using hsn (by simp [hv])
    shadow := hsh
    objects := hok
    program := fun _ _ _ => ⟨rfl, rfl, rfl, hhas, .inr (.inl rfl)⟩ }

theorem execChkdir_keeps {s t : State} (h : execChkdir s = .next t) : Keeps .chkdir s t := by
  obtain ⟨d, -, rfl | rfl⟩ := execChkdir_next h
  · exact {}
  · exact { objects := State.raise_objects s rfl }

theorem execDmap_keeps {s t : State} (h : execDmap s = .next t) : Keeps .dmap s t := by
  obtain ⟨d, hd, rfl⟩ := execDmap_next h
  exact {
    objects := fun h => h.setData ⟨(h.2 d hd).1, fun g hg => lawful_of_mapBuffer hg, (h.2 d hd).2.2⟩
    program := fun _ _ _ => ⟨rfl, rfl, rfl, Request.has_setData _ _ hd, .inr (.inl rfl)⟩ }

theorem execDprep_keeps {s t : State} (h : execDprep s = .next t) : Keeps .dprep s t := by
  obtain ⟨d, hd, rfl | rfl | ⟨g, hg, rfl⟩ | ⟨a, -, h2, hmax, rfl⟩⟩ := execDprep_next h
  · exact { objects := State.raise_objects s rfl }
  · exact { objects := State.raise_objects s rfl }
  · exact {
      objects := fun h => h.setData ((h.2 d hd).withPlan ⟨(h.2 d hd).2.1 g (by simp [hg]), rfl⟩)
      program := fun _ _ _ => ⟨rfl, rfl, rfl, Request.has_setData _ _ hd, .inr (.inl rfl)⟩ }
  · have hmem := fun h => State.prepareChain_memoryInv (s := s) h a hmax
    unfold State.prepareChain at *
    exact {
      memory := hmem
      objects := fun h => h.setData ((h.2 d hd).withPlan ⟨h2, hmax, rfl, rfl⟩)
      program := fun _ _ _ => ⟨rfl, rfl, rfl, Request.has_setData _ _ hd, .inr (.inl rfl)⟩ }

theorem execDarm_keeps {s t : State} (h : execDarm s = .next t) : Keeps .darm s t := by
  obtain ⟨d, p, -, -, -, -, rfl⟩ := execDarm_next h
  exact {
    wait := fun _ => by simp [WaitInv]
    shadow := fun h => Bus.volatileClear_fieldWrites (Bus.volatileClear_store h _ _) _ }

theorem execBidle_keeps {s t : State} (h : execBidle s = .next t) : Keeps .bidle s t := by
  obtain ⟨x, b, s1, hr, hs1, ht⟩ := execBidle_next h
  have hb := readField_shadow hr
  obtain rfl | ⟨-, rfl⟩ | rfl := ht
  · subst hs1; exact { shadow := hb }
  · generalize hs2 : ({ s1 with bus := s1.bus.drawExpired.2 } : State) = s2
    have hraise := State.raise_objects (s2.addLog [.bidleTimeout]) (cfg := s.cfg) (k := .timeout) (o := .data) rfl
    obtain e | e := s2.bidleExpired_cases <;> rw [e] <;> subst hs2 hs1
    · exact { shadow := hb }
    · exact { shadow := fun h => shadowInv_of_bus (hb h) (by simp) (by simp), objects := hraise }
  · subst hs1; exact { shadow := hb }

theorem execDstat_keeps {s t : State} (h : execDstat s = .next t) : Keeps .dstat s t := by
  obtain ⟨d, v, s1, -, -, rfl | rfl, rfl⟩ := execDstat_next h
  · exact {
      objects := fun h => h.setBytes _
      program := fun _ _ _ => ⟨rfl, rfl, rfl, Request.has_setBytes _ _, .inr (.inl rfl)⟩ }
  · exact {
      objects := fun h => (State.raise_objects s rfl h).setBytes _
      program := fun _ _ _ => ⟨by simp, by simp, by simp, fun o => by simp [Request.has_setBytes], .inr (.inl rfl)⟩ }

theorem execDunmap_keeps {s t : State} (h : execDunmap s = .next t) : Keeps .dunmap s t := by
  cases h
  exact {}

theorem execJerr_keeps {o : Obj} {l : Nat} {s t : State} (h : execJerr o l s = .next t) : Keeps (.jerr o l) s t := by
  obtain ⟨e, -, rfl⟩ := execJerr_next h
  refine { program := fun _ _ _ => ⟨rfl, rfl, rfl, fun _ => rfl, .inr ?_⟩ }
  by_cases he : e = .noError
  · exact .inl (by simp [he])
  · exact .inr (by simp [he, labelOf])

theorem execJmp_keeps {l : Nat} {s t : State} (h : execJmp l s = .next t) : Keeps (.jmp l) s t := by
  cases h
  exact { program := fun _ _ _ => ⟨rfl, rfl, rfl, fun _ => rfl, .inr (.inr rfl)⟩ }

theorem execDone_keeps {s t : State} (h : execDone s = .next t) : Keeps .done s t := by
  obtain ⟨-, -, rfl⟩ := execDone_next h
  exact {}

/-- The end of a reset sequence after its last read of the status field, with the reset error it ends with. -/
theorem resetEnd_keeps {s : State} {b : Bus} (hb : ShadowInv s → b.volatileClear s.cfg) {e : ErrKind}
    (he : e = s.rstErr ∨ e = .resetFailed) : Keeps .rstseq s { s with bus := b, rstErr := e }.resetEnd := by
  have herr : e = s.rstErr ∨ e = .noError ∨ e = .resetFailed := he.imp_right .inr
  obtain ⟨hr, ht⟩ | ⟨-, ht⟩ := State.resetEnd_cases { s with bus := b, rstErr := e } <;> rw [ht]
  · exact { shadow := hb, rstErr := herr, program := fun _ _ h => by cases (h rfl).symm.trans hr }
  · exact { shadow := hb, rstErr := herr }

theorem execRstseq_keeps {s t : State} (h : execRstseq s = .next t) : Keeps .rstseq s t := by
  obtain ⟨-, rfl⟩ | ⟨x, b, s1, ph, n, hr, hs1, -, ht⟩ := execRstseq_next h
  · exact { shadow := fun h => Bus.volatileClear_fieldForce h _ _ }
  · have hb := readField_shadow hr
    subst hs1
    obtain ⟨-, rfl⟩ | rfl | rfl | rfl := ht
    · exact { shadow := fun h => Bus.volatileClear_fieldForce (hb h) _ _ }
    · exact resetEnd_keeps hb (.inl rfl)
    · exact resetEnd_keeps hb (.inr rfl)
    · exact { shadow := hb }

theorem execInit_keeps {irqOk : Bool} {s t : State} (h : execInit irqOk s = .next t) : Keeps (.init irqOk) s t := by
  obtain ⟨-, -, rfl⟩ := execInit_next h
  have hclear : (s.bus.initMask s.cfg irqOk).volatileClear s.cfg :=
    Bus.volatileClear_fieldWrite (fun r _ => RegFile.at_replicate none r) _ _
  exact {
    wait := fun _ => by simp [WaitInv]
    shadow := fun _ => shadowInv_of_bus hclear rfl (by simp [apply_ite Bus.shadow]) }

/-- Whatever operation runs, these parts of the state are kept. -/
theorem exec_keeps {i : Instr} {s t : State} (h : exec i s = .next t) : Keeps i s t := by
  cases i with
  | submit => exact execSubmit_keeps h
  | setBusWidth => exact execSetBusWidth_keeps h
  | setClock => exact execSetClock_keeps h
  | hwReset => exact execHwReset_keeps h
  | irq => exact execIrq_keeps h
  | regRead => exact execRegRead_keeps h
  | regWrite => exact execRegWrite_keeps h
  | fieldRead => exact execFieldRead_keeps h
  | fieldWrite => exact execFieldWrite_keeps h
  | fieldForce => exact execFieldForce_keeps h
  | clrev => exact execClrev_keeps h
  | await => exact execAwait_keeps h
  | wchk => exact execWchk_keeps h
  | cissue => exact execCissue_keeps h
  | trig => exact execTrig_keeps h
  | ccapt => exact execCcapt_keeps h
  | chkdir => exact execChkdir_keeps h
  | dmap => exact execDmap_keeps h
  | dprep => exact execDprep_keeps h
  | darm => exact execDarm_keeps h
  | bidle => exact execBidle_keeps h
  | dstat => exact execDstat_keeps h
  | dunmap => exact execDunmap_keeps h
  | jerr => exact execJerr_keeps h
  | jmp => exact execJmp_keeps h
  | done => exact execDone_keeps h
  | rstseq => exact execRstseq_keeps h
  | init => exact execInit_keeps h

end Sys2Proof.Machine
end

section
/-! The engine is idle, resets, or runs a program, and every move keeps it so: the invariants of the mappings, the
program and the window of R369 in one condition. -/

namespace Sys2Proof.Machine

open Sys2Proof

/-! ## The program of a request (R263) -/

/-- Every request's program keeps the conditions of R274. Which objects a request has and the direction of its data fix
the program's operations, labels and named objects, so there are thirteen programs to check: one without data, and for
each direction those with and without a set-block-count and a stop command. -/
theorem programOk_expand (cmd : Command) (sbc : Option Command) (data : Option Data) (stop : Option Command) :
    programOk (Request.fresh (some cmd) sbc stop data) (expand cmd sbc data stop) = true := by
  cases data with
  | none => rfl
  | some d =>
    obtain ⟨dir, bs, blocks, buf, tmo⟩ := d
    cases dir <;> cases sbc <;> cases stop <;>
      simp [expand, dataProgram, sbcPart, issuePart, armPart, capturePart, stopPart, cphase, stopLabel, sbcLength,
        issueLength, captureLength, programOk, labelsLater, labelOf, namedObjects, upstreamOnly, atPort, Request.has,
        Request.errorOf, Request.fresh, CmdId.toObj]

/-! ## What the engine is doing: nothing, a reset, or a program (R22, R29, R85, R272) -/

/-- The engine is idle: no mapping is held and no wait is to come. -/
def IsIdle (s : State) : Prop :=
  s.busy = false ∧ s.inReset = false ∧ (s.arenaMap = none ∧ s.segMap = none) ∧ s.armed = false

/-- `HW_RESET` runs: no mapping is held and no wait is to come. -/
def IsResetting (s : State) : Prop :=
  s.busy = true ∧ s.inReset = true ∧ (s.arenaMap = none ∧ s.segMap = none) ∧ s.armed = false

/-- A program runs that keeps the conditions of R274, and the counter points into it. -/
def IsRunning (s : State) : Prop :=
  s.busy = true ∧ s.inReset = false ∧ programOk s.req s.prog = true ∧ s.upc < s.prog.length

/-- The engine does one of the three. -/
def Control (s : State) : Prop := IsIdle s ∨ IsResetting s ∨ IsRunning s

/-- The invariants of the mappings, the program and the window of R369 say together which of the three it is. -/
theorem control_iff (s : State) : Control s ↔ MappingInv s ∧ ProgramInv s ∧ ArmedInv s := by
  unfold Control IsIdle IsResetting IsRunning MappingInv ProgramInv ArmedInv
  cases s.busy <;> cases s.inReset <;> simp [and_assoc]

/-- All of the engine's invariants, those of the request's objects and of control each as one condition. -/
theorem engineInv_iff (s : State) :
    EngineInv s ↔ MemoryInv s ∧ WaitInv s ∧ ShadowInv s ∧
      (s.req.Ok s.cfg ∧ (s.rstErr = .noError ∨ s.rstErr = .resetFailed)) ∧ Control s := by
  rw [← errorInv_and_dataInv_iff, control_iff]
  constructor
  · rintro ⟨hmem, hwait, hmap, hprog, hsh, herr, hdata, harm⟩
    exact ⟨hmem, hwait, hsh, ⟨herr, hdata⟩, hmap, hprog, harm⟩
  · rintro ⟨hmem, hwait, hsh, ⟨herr, hdata⟩, hmap, hprog, harm⟩
    exact ⟨hmem, hwait, hmap, hprog, hsh, herr, hdata, harm⟩

theorem Control.idle {s : State} (h : Control s) (hb : s.busy = false) : IsIdle s := by
  obtain h | ⟨h, -⟩ | ⟨h, -⟩ := h
  · exact h
  · cases hb.symm.trans h
  · cases hb.symm.trans h

/-- A program of the engine's own starts at its first operation (R263, R274). -/
theorem IsRunning.of_start {s : State} (hb : s.busy = true) (hr : s.inReset = false)
    (hp : programOk s.req s.prog = true) (hu : s.upc = 0) : IsRunning s := by
  refine ⟨hb, hr, hp, hu ▸ List.length_pos_iff.2 fun hnil => ?_⟩
  have hlast := ((programOk_iff _ _).1 hp).2.1
  rw [hnil] at hlast
  cases hlast

/-- While a program goes on its counter stays in it: the last operation is `DONE`, and labels are indices (R22). -/
theorem IsRunning.runsOn {s t : State} (hs : IsRunning s) {i : Instr} (hi : s.prog[s.upc]? = some i) (hd : i ≠ .done)
    (h : RunsOn i s t) : IsRunning t := by
  obtain ⟨hb, hr, hp, hu⟩ := hs
  obtain ⟨hb', hr', hprog, hhas, hupc⟩ := h
  refine ⟨hb'.trans hb, hr'.trans hr, by rw [hprog, programOk_congr hhas, hp], ?_⟩
  rw [hprog]
  obtain h | h | h := hupc
  · exact h ▸ hu
  · exact h ▸ next_in_program hp hi hd
  · exact label_in_program hp hi h

/-! ### What each move leads to -/

/-- `INIT` leaves the engine idle (R352). -/
theorem execInit_idle {irqOk : Bool} {s t : State} (h : execInit irqOk s = .next t) : IsIdle t := by
  obtain ⟨-, -, rfl⟩ := execInit_next h
  exact ⟨rfl, rfl, ⟨rfl, rfl⟩, rfl⟩

/-- An operation of a running program lets it go on, or is its `DONE` or an `INIT`, which leave the engine idle. -/
theorem IsRunning.exec {s t : State} (hs : IsRunning s) {i : Instr} (hi : s.prog[s.upc]? = some i)
    (h : exec i s = .next t) : Control t := by
  have hup : upstreamOnly i = false := ((programOk_iff _ _).1 hs.2.2.1).2.2.2 i (List.mem_of_getElem? hi)
  by_cases hd : i = .done
  · subst hd
    obtain ⟨hseg, harena, rfl⟩ := execDone_next h
    exact .inl ⟨rfl, hs.2.1, ⟨harena, hseg⟩, rfl⟩
  by_cases hinit : ∃ b, i = .init b
  · obtain ⟨b, rfl⟩ := hinit
    exact .inl (execInit_idle h)
  · have hport : atPort i = false := by
      cases i with
      | init b => exact absurd ⟨b, rfl⟩ hinit
      | _ => exact hup
    exact .inr (.inr (hs.runsOn hi hd ((exec_keeps h).program hport hd fun _ => hs.2.1)))

/-- A step of `HW_RESET`'s sequence goes on with it or ends it, which leaves the engine idle (R272, R300). -/
theorem IsResetting.execRstseq {s t : State} (hs : IsResetting s) (h : execRstseq s = .next t) : Control t := by
  obtain ⟨hb, hr, hmaps, harm⟩ := hs
  have ends : ∀ u : State, u.inReset = true → (u.arenaMap = none ∧ u.segMap = none) → u.armed = false →
      Control u.resetEnd := by
    intro u hur humaps huarm
    obtain ⟨-, e⟩ | ⟨hur', -⟩ := u.resetEnd_cases
    · rw [e]; exact .inl ⟨rfl, rfl, humaps, huarm⟩
    · cases hur.symm.trans hur'
  obtain ⟨-, rfl⟩ | ⟨x, b, s1, ph, n, -, rfl, -, ⟨-, rfl⟩ | rfl | rfl | rfl⟩ := execRstseq_next h
  · exact .inr (.inl ⟨hb, hr, hmaps, harm⟩)
  · exact .inr (.inl ⟨hb, hr, hmaps, harm⟩)
  · exact ends _ hr hmaps harm
  · exact ends _ hr hmaps harm
  · exact .inr (.inl ⟨hb, hr, hmaps, harm⟩)

/-- An operation at the port starts a program or a reset in an idle engine, or changes nothing of what the engine is
doing; `INIT` leaves it idle. -/
theorem Control.exec_atPort {s t : State} (hs : Control s) {i : Instr} (hport : atPort i = true)
    (h : exec i s = .next t) : Control t := by
  cases i with
  | submit sh cmd sbc data stop =>
    obtain ⟨-, hb, -, rfl⟩ := execSubmit_next h
    exact .inr (.inr (IsRunning.of_start rfl (hs.idle hb).2.1 (programOk_expand ..) rfl))
  | setBusWidth w =>
    obtain ⟨-, hb, -, rfl⟩ := execSetBusWidth_next h
    exact .inl (hs.idle hb)
  | setClock rate =>
    obtain ⟨-, hb, rfl⟩ := execSetClock_next h
    exact .inl (hs.idle hb)
  | hwReset =>
    obtain ⟨-, hb, -, rfl⟩ := execHwReset_next h
    obtain ⟨-, -, hmaps, harm⟩ := hs.idle hb
    exact .inr (.inl ⟨rfl, rfl, hmaps, harm⟩)
  | irq =>
    obtain ⟨-, -, rfl⟩ := execIrq_next h
    exact hs
  | init b => exact .inl (execInit_idle h)
  | _ => cases hport

/-- The operation the orchestrator runs in a busy engine. -/
theorem Control.exec_nextOp {s t : State} (hs : Control s) (hb : s.busy = true) {i : Instr} (hi : nextOp s = some i)
    (h : exec i s = .next t) : Control t := by
  unfold nextOp at hi
  obtain ⟨hb', -⟩ | hr | hr := hs
  · cases hb.symm.trans hb'
  · rw [if_pos hr.2.1] at hi
    cases hi
    exact hr.execRstseq h
  · rw [hr.2.1] at hi
    exact hr.exec hi h

/-- An operation keeps every invariant once the engine is known to be idle, resetting or running after it. -/
theorem engineInv_of_exec {i : Instr} {s t : State} (hs : EngineInv s) (h : exec i s = .next t) (ht : Control t) :
    EngineInv t := by
  have hk := exec_keeps h
  obtain ⟨hmem, hwait, hsh, ⟨hobj, hrst⟩, -⟩ := (engineInv_iff s).1 hs
  refine (engineInv_iff t).2 ⟨hk.memory hmem, hk.wait hwait, hk.shadow hsh, ⟨hk.cfg ▸ hk.objects hobj, ?_⟩, ht⟩
  exact hk.rstErr.elim (fun e => e ▸ hrst) id

/-- Loading a program keeps every invariant (R274). -/
theorem engineInv_of_load {l : Load} {s t : State} (hs : EngineInv s) (h : loadProgram l s = .next t) :
    EngineInv t := by
  obtain ⟨hmem, hwait, hsh, ⟨-, hrst⟩, hctl⟩ := (engineInv_iff s).1 hs
  obtain ⟨-, hb, prog, -, hok, -, -, -, rfl⟩ := loadProgram_next h
  exact (engineInv_iff _).2 ⟨hmem, hwait, hsh, ⟨Request.ok_fresh .., hrst⟩,
    .inr (.inr (IsRunning.of_start rfl (hctl.idle hb).2.1 hok rfl))⟩

end Sys2Proof.Machine
end

section
/-! The seven statements of the state family (10_state.md). -/

namespace Sys2Proof.Machine

open Sys2Proof

/-! ## The statements of the state family -/

/-- Settles O59. The step is an idle wait, an operation of the running program or reset, an operation at the port, or a
load; after each the engine is idle, resetting or running, and the other invariants are kept operation by operation. -/
theorem everyStepKeepsTheEngineInvariants : Obligations.EveryStepKeepsTheEngineInvariants := by
  intro s t hs h
  obtain ⟨s0, htaken, hcases⟩ := step_next h
  have hs0 : EngineInv s0 := by rw [htaken]; exact hs
  have hctl : Control s0 := ((engineInv_iff s0).1 hs0).2.2.2.2
  obtain ⟨-, rfl⟩ | ⟨hb, -, i, hi, hex⟩ | ⟨ws, i, -, hport, hex⟩ | ⟨l, -, hl⟩ := hcases
  · exact hs0
  · exact engineInv_of_exec hs0 hex (hctl.exec_nextOp hb hi hex)
  · exact engineInv_of_exec hs0 hex (hctl.exec_atPort (portOp_ok hport).1 hex)
  · exact engineInv_of_load hs0 hl

/-- Every power-on state has nothing in flight, no object, no shadow and no wait result (R48). -/
theorem engineInv_of_powerOn {s : State} (h : PowerOn s) : EngineInv s := by
  obtain ⟨hcap, hs⟩ := h
  rw [hs]
  refine (engineInv_iff _).2 ⟨⟨List.Pairwise.nil, hcap⟩, by simp [WaitInv, State.reset],
    fun r _ => RegFile.at_replicate none r, ⟨?_, .inl rfl⟩, .inl ⟨rfl, rfl, ⟨rfl, rfl⟩, rfl⟩⟩
  exact Request.ok_fresh _ none none none none

theorem powerOn_reset : PowerOn State.reset := ⟨rfl, rfl⟩

/-- Settles O58, of which `State.reset` is one case. -/
theorem engineInvHoldsAtPowerOn : Obligations.EngineInvHoldsAtPowerOn :=
  ⟨fun _ => engineInv_of_powerOn, engineInv_of_powerOn powerOn_reset⟩

/-- Only `INIT` sets the mode, from unset to the one its operand selects (R23). -/
theorem exec_mode {i : Instr} {s t : State} (h : exec i s = .next t) :
    t.mode = s.mode ∨ s.mode = none ∧ ∃ b, t.mode = some (modeOf b) ∧ i = .init b := by
  obtain he | ⟨b, rfl⟩ := (exec_keeps h).mode
  · exact .inl he
  · obtain ⟨hm, -, rfl⟩ := execInit_next h
    exact .inr ⟨hm, b, rfl, rfl⟩

/-- Settles O12. Every step but an idle wait and a load, which set neither, is one operation. -/
theorem modeIsSetOnceAndParametersAreFixed : Obligations.ModeIsSetOnceAndParametersAreFixed := by
  intro s t h
  obtain ⟨s0, rfl, hcases⟩ := step_next h
  have byExec : ∀ i, exec i { s with inputs := s.inputs.tail } = .next t →
      t.cfg = s.cfg ∧ (t.mode = s.mode ∨ s.mode = none ∧ ∃ b, t.mode = some (modeOf b) ∧
        exec (.init b) { s with inputs := t.inputs } = .next t) := by
    intro i hex
    have hk := exec_keeps hex
    refine ⟨hk.cfg, (exec_mode hex).imp_right fun ⟨hm, b, hb, hi⟩ => ⟨hm, b, hb, ?_⟩⟩
    rw [hk.inputs, ← hi]
    exact hex
  obtain ⟨-, rfl⟩ | ⟨-, -, i, -, hex⟩ | ⟨ws, i, -, -, hex⟩ | ⟨l, -, hl⟩ := hcases
  · exact ⟨rfl, .inl rfl⟩
  · exact byExec i hex
  · exact byExec i hex
  · obtain ⟨-, -, prog, -, -, -, -, -, rfl⟩ := loadProgram_next hl
    exact ⟨rfl, .inl rfl⟩

/-- Settles O56: the field `latches` of what every operation keeps. -/
theorem onlyClearingOperationsClearLatches : Obligations.OnlyClearingOperationsClearLatches :=
  fun _ _ _ h => (exec_keeps h).latches

/-- Settles O15. The conditions of R274 hold of the program of every shape of request: that each record is well-formed
(R261) is not needed for them. -/
theorem expansionIsLoopFreeAndEndsInDone : Obligations.ExpansionIsLoopFreeAndEndsInDone :=
  fun _ _ cmd sbc data stop _ => (programOk_iff _ _).1 (programOk_expand cmd sbc data stop)

/-- An orchestrator's turn, its own or the one taken when no input is left. -/
theorem step_orchestrator {s : State} {rest : List Input}
    (h : s.inputs = [] ∧ rest = [] ∨ s.inputs = .orchestrator :: rest) :
    step s = orchestrate { s with inputs := rest } := by
  obtain ⟨hi, rfl⟩ | hi := h
  · have : ({ s with inputs := [] } : State) = s := by rw [← hi]
    rw [this]
    simp [step, hi]
  · simp [step, hi]

/-- A busy engine's turn runs its next operation, held while a wait is to come. -/
theorem orchestrate_busy {s : State} {i : Instr} (hb : s.busy = true) (hi : nextOp s = some i) :
    orchestrate s = holdWhileArmed s (exec i s) := by
  simp [orchestrate, hb, hi]

/-- An operation that writes a register while a wait is to come is not this engine's (R369). -/
theorem holdWhileArmed_of_write {s t : State} (ha : s.armed = true) (hw : wroteRegister s t = true) :
    holdWhileArmed s (.next t) = .fault .unmodelled := by
  simp [holdWhileArmed, ha, hw]

/-- Settles O6: the turn is the orchestrator's, the operation at the counter runs, and the hold of R369 decides by what
it appended to the trace. -/
theorem stepRunsTheOperationTheCounterPointsAt : Obligations.StepRunsTheOperationTheCounterPointsAt := by
  intro s rest hin
  rw [step_orchestrator hin]
  refine ⟨fun i hb hnext => ?_, fun hb => by simp [orchestrate, hb]⟩
  have hop : nextOp { s with inputs := rest } = some i := by
    obtain ⟨hr, hi⟩ | ⟨hr, rfl⟩ := hnext
    · simp [nextOp, hr, hi]
    · simp [nextOp, hr]
  rw [orchestrate_busy (s := { s with inputs := rest }) hb hop]
  refine ⟨fun ha => holdWhileArmed_of_not_armed ha _, fun f hf => by rw [hf]; rfl, fun r hr => by rw [hr]; rfl,
    fun t es ht hes => ?_⟩
  have hwrote : wroteRegister { s with inputs := rest } t = es.any isRegWrite := wroteRegister_of_trace hes
  rw [ht]
  exact ⟨fun hno => holdWhileArmed_of_no_write (hwrote.trans (List.any_eq_false.2 fun e he => by simp [hno e he])),
    fun ha hyes => holdWhileArmed_of_write ha (hwrote.trans (List.any_eq_true.2 hyes))⟩

/-! ### The columns of R48 -/

/-- The drawn arena base is aligned (R28, R352). -/
theorem Draws.nextBase_aligned (cfg : Config) (d : Draws) : d.nextBase cfg % cfg.descBytes = 0 :=
  Nat.mod_eq_zero_of_dvd (Nat.dvd_sub_mod _)

/-- INT_MASK's field stands in INT_MASK, so `INIT` leaves every other shadow invalid (R32, R352). -/
theorem Bus.initMask_shadow_other {cfg : Config} (h : configOk cfg = true) (irqOk : Bool) (b : Bus) {r : RegId}
    (hr : r ≠ .intMask) : RegFile.at (b.initMask cfg irqOk).shadow r = none := by
  have hreg : (pos cfg .intMask).reg = .intMask := (configOk_parts h).2.2.1
  rw [Bus.initMask, Bus.fieldWrite_shadow_other _ _ _ _ (by rwa [hreg])]
  exact RegFile.at_replicate none r

/-- What a power-on state fixes (R48). -/
theorem powerOn_column {s : State} (h : PowerOn s) :
    s.mode = none ∧ s.busy = false ∧ s.lat = ⟨false, false, false, false⟩ ∧ s.wres = none ∧ s.snap = none ∧
    (∀ r, RegFile.at s.bus.shadow r = none) ∧ s.arenaBase = none ∧ s.arenaMap = none ∧ s.segMap = none ∧
    s.settled = true ∧ s.log = [] ∧ s.rstErr = .noError ∧ s.sub = none := by
  rw [h.2]
  exact ⟨rfl, rfl, rfl, rfl, rfl, fun r => RegFile.at_replicate none r, rfl, rfl, rfl, rfl, rfl, rfl, rfl⟩

/-- Settles O9, column by column. -/
theorem stateAtPowerOnAfterInitAndAtSubmit : Obligations.StateAtPowerOnAfterInitAndAtSubmit := by
  refine ⟨powerOn_reset, fun s => powerOn_column, fun s irqOk hs hcfg => ?_,
    fun sh cmd sbc data stop s hm hb hreq => ?_⟩
  · obtain ⟨hmode, -, -, -, -, -, -, -, -, -, hlog, -, -⟩ := powerOn_column hs
    have hinit : exec (.init irqOk) s = execInit irqOk s := rfl
    unfold execInit at hinit
    simp only [hmode, hcfg, Option.isSome_none, Bool.false_eq_true, if_false, if_true] at hinit
    refine ⟨_, hinit, rfl, rfl, rfl, rfl, rfl, fun r hr => ?_, rfl, ⟨_, rfl, Draws.nextBase_aligned ..⟩, rfl, rfl, rfl,
      hlog, rfl, rfl⟩
    have hsh := Bus.initMask_shadow_other hcfg irqOk s.bus hr
    cases irqOk <;> exact hsh
  · have hsub : exec (.submit sh cmd sbc data stop) s = .next (s.accept cmd sbc data stop) := by
      have hok := (requestOk_iff ..).2 hreq
      change execSubmit sh cmd sbc data stop s = _
      simp [execSubmit, hm, hb, hok]
    refine ⟨_, hsub, rfl, rfl, rfl, rfl, rfl, rfl, rfl, rfl, rfl, rfl, rfl, rfl, rfl, rfl, rfl, rfl, fun o c h => ?_,
      fun d h => ?_⟩
    · obtain ⟨r, rfl⟩ := Request.command_fresh h
      exact ⟨rfl, rfl, rfl, rfl⟩
    · obtain ⟨r, rfl⟩ := Request.data_fresh h
      exact ⟨rfl, rfl, rfl, rfl, rfl⟩

end Sys2Proof.Machine
end

section
/-! Whatever operation runs, the trace only grows (R12): what each meaning does at the ports goes on from the ports it
started with. -/

namespace Sys2Proof.Machine

open Sys2Proof

/-! ## The shared operations -/

/-- Ports that are left as they are go on from themselves. -/
theorem Bus.continues_of_eq {a b : Bus} (h : b = a) : a.continues b := h ▸ a.continues_refl

/-- Transactions without a register write are transactions. -/
theorem Bus.continues_of_reads {a b : Bus} (h : ∃ es, b.trace = a.trace ++ es ∧ ∀ e ∈ es, isRegWrite e = false) :
    a.continues b :=
  h.imp fun _ => And.left

theorem Bus.continues_fieldWrites (cfg : Config) (ws : List (FieldId × Word)) (b : Bus) :
    b.continues (b.fieldWrites cfg ws) := by
  induction ws generalizing b with
  | nil => exact b.continues_refl
  | cons w ws ih => exact Bus.continues_trans (b.continues_fieldWrite cfg w.1 w.2) (ih _)

theorem Bus.continues_writeFrame (cfg : Config) (c : Command) (b : Bus) : b.continues (b.writeFrame cfg c) :=
  Bus.continues_trans (Bus.continues_trans (b.continues_store cfg _ _) (Bus.continues_store cfg _ _ _))
    (Bus.continues_store cfg _ _ _)

theorem Bus.continues_issue (cfg : Config) (c : Command) (b : Bus) : b.continues (b.issue cfg c) :=
  Bus.continues_trans (Bus.continues_trans (Bus.continues_trans
    (b.continues_groupWrite cfg _) (Bus.continues_writeFrame ..)) (Bus.continues_groupWrite ..))
    (Bus.continues_groupWrite ..)

theorem Bus.continues_unmap (h : Option Nat) (b : Bus) : b.continues (b.unmap h) := by
  cases h with
  | none => exact b.continues_refl
  | some n => exact b.continues_emit _

theorem Bus.continues_mapArena (cfg : Config) (a : Nat) (slots : List Slot) (b : Bus) :
    b.continues (b.mapArena cfg a slots).2 :=
  ⟨_, List.append_assoc ..⟩

theorem Bus.continues_initMask (cfg : Config) (irqOk : Bool) (b : Bus) : b.continues (b.initMask cfg irqOk) :=
  Bus.continues_fieldWrite cfg _ _ b.invalidate

/-- The handler wakes the waiter or not, and answers (R160). -/
theorem State.wakeAndHandle_trace (s : State) :
    s.wakeAndHandle.bus.trace = s.bus.trace ++ if s.lat.any then [.wake, .handled] else [.handled] := by
  rw [State.wakeAndHandle_bus]
  split <;> simp

/-- The handler's transactions after its read of EVENT (R160). -/
theorem State.handleEvents_trace (v : Word) (b : Bus) (s : State) :
    (s.handleEvents v b).bus.trace = b.trace ++ .regWrite (off s.cfg .event) v ::
      (if (mergedLatches s.cfg v s.lat).any then [.wake, .handled] else [.handled]) := by
  rw [State.handleEvents, State.wakeAndHandle_trace, State.latchMerge_bus, Bus.store_trace, List.append_assoc]
  rfl

theorem execIrq_continues {s t : State} (h : execIrq s = .next t) : s.bus.continues t.bus := by
  obtain ⟨-, -, rfl⟩ := execIrq_next h
  exact Bus.continues_trans (s.bus.continues_regRead s.cfg .event) ⟨_, State.handleEvents_trace ..⟩

/-! ## The response capture -/

theorem State.readResponse_continues (o : CmdId) (c : CommandObj) (s : State) :
    s.bus.continues (s.readResponse o c).bus := by
  obtain e | ⟨b, w, rfl, e | e⟩ := s.readResponse_cases o c <;> rw [e]
  · exact s.bus.continues_refl
  · rw [State.raise_bus]; exact s.bus.continues_readRegs ..
  · exact s.bus.continues_readRegs ..

theorem State.captureRest_continues (o : CmdId) (c : CommandObj) (v : Word) (s : State) :
    s.bus.continues (s.captureRest o c v).bus := by
  obtain e | ⟨es, e⟩ := s.captureRest_cases o c v <;> rw [e]
  · exact s.bus.continues_refl
  · exact State.readResponse_continues o c (s.addLog es)

theorem State.capture_continues (o : CmdId) (c : CommandObj) (v : Word) (s : State) :
    s.bus.continues (s.capture o c v).bus := by
  obtain e | e | ⟨s1, w, ⟨rfl, -⟩ | ⟨rfl, -⟩, e⟩ := s.capture_cases o c v <;> rw [e]
  · exact Bus.continues_of_eq (State.raise_bus ..)
  · exact Bus.continues_of_eq (State.raise_bus ..)
  · exact State.captureRest_continues ..
  · exact Bus.continues_trans (s.bus.continues_store s.cfg .status _) (State.captureRest_continues ..)

/-! ## The data unit, the reset sequence and `INIT` -/

theorem execDprep_continues {s t : State} (h : execDprep s = .next t) : s.bus.continues t.bus := by
  obtain ⟨d, -, rfl | rfl | ⟨g, -, rfl⟩ | ⟨a, -, -, -, rfl⟩⟩ := execDprep_next h
  · exact Bus.continues_of_eq (State.raise_bus ..)
  · exact Bus.continues_of_eq (State.raise_bus ..)
  · exact s.bus.continues_refl
  · exact s.bus.continues_mapArena ..

theorem State.resetEnd_continues (s : State) : s.bus.continues s.resetEnd.bus := by
  obtain ⟨-, e⟩ | ⟨-, e⟩ := s.resetEnd_cases <;> rw [e]
  · exact s.bus.continues_emit _
  · exact s.bus.continues_refl

theorem execRstseq_continues {s t : State} (h : execRstseq s = .next t) : s.bus.continues t.bus := by
  obtain ⟨-, rfl⟩ | ⟨x, b, s1, ph, n, hr, rfl, -, ht⟩ := execRstseq_next h
  · exact s.bus.continues_fieldForce ..
  · refine Bus.continues_trans (Bus.continues_of_reads (readField_trace hr)) ?_
    obtain ⟨-, rfl⟩ | rfl | rfl | rfl := ht
    · exact b.continues_fieldForce ..
    · exact State.resetEnd_continues { s with bus := b }
    · exact State.resetEnd_continues { s with bus := b, rstErr := .resetFailed }
    · exact b.continues_emit _

theorem execInit_continues {irqOk : Bool} {s t : State} (h : execInit irqOk s = .next t) : s.bus.continues t.bus := by
  obtain ⟨-, -, rfl⟩ := execInit_next h
  have hmask := s.bus.continues_initMask s.cfg irqOk
  cases irqOk
  · exact hmask
  · exact Bus.continues_trans hmask (Bus.continues_emit .registerIrq _)

/-- No operation takes back what the engine did before. -/
theorem exec_continues {i : Instr} {s t : State} (h : exec i s = .next t) : s.bus.continues t.bus := by
  cases i with
  | submit =>
    obtain ⟨-, -, -, rfl⟩ := execSubmit_next h
    exact s.bus.continues_refl
  | setBusWidth =>
    obtain ⟨-, -, -, rfl⟩ := execSetBusWidth_next h
    exact s.bus.continues_fieldWrite ..
  | setClock =>
    obtain ⟨-, -, rfl⟩ := execSetClock_next h
    exact s.bus.continues_emit _
  | hwReset =>
    obtain ⟨-, -, -, rfl⟩ := execHwReset_next h
    exact s.bus.continues_fieldForce ..
  | irq => exact execIrq_continues h
  | regRead =>
    obtain ⟨-, rfl⟩ := execRegRead_next h
    exact s.bus.continues_regRead ..
  | regWrite => cases h; exact s.bus.continues_store ..
  | fieldRead =>
    obtain ⟨v, b, hr, rfl⟩ := execFieldRead_next h
    exact Bus.continues_of_reads (readField_trace hr)
  | fieldWrite =>
    obtain ⟨-, -, rfl⟩ := execFieldWrite_next h
    exact s.bus.continues_fieldWrite ..
  | fieldForce =>
    obtain ⟨-, -, rfl⟩ := execFieldForce_next h
    exact s.bus.continues_fieldForce ..
  | clrev => cases h; exact s.bus.continues_store ..
  | await =>
    obtain ⟨-, -, hreads, -⟩ := execAwait_frame h
    exact Bus.continues_of_reads hreads
  | wchk =>
    obtain ⟨-, rfl | rfl⟩ := execWchk_next h
    · exact s.bus.continues_refl
    · exact Bus.continues_of_eq (State.raise_bus ..)
  | cissue =>
    obtain ⟨c, -, -, -, rfl⟩ := execCissue_next h
    exact Bus.continues_trans (s.bus.continues_store s.cfg .event _) (Bus.continues_issue ..)
  | trig =>
    obtain ⟨-, rfl⟩ := execTrig_next h
    exact s.bus.continues_fieldForce ..
  | ccapt =>
    obtain ⟨c, v, -, -, -, rfl⟩ := execCcapt_next h
    exact State.capture_continues ..
  | chkdir =>
    obtain ⟨d, -, rfl | rfl⟩ := execChkdir_next h
    · exact s.bus.continues_refl
    · exact Bus.continues_of_eq (State.raise_bus ..)
  | dmap =>
    obtain ⟨d, -, rfl⟩ := execDmap_next h
    exact ⟨_, rfl⟩
  | dprep => exact execDprep_continues h
  | darm =>
    obtain ⟨d, p, -, -, -, -, rfl⟩ := execDarm_next h
    exact Bus.continues_trans (s.bus.continues_store s.cfg .event _) (Bus.continues_fieldWrites ..)
  | bidle => exact Bus.continues_of_reads (execBidle_trace h)
  | dstat =>
    obtain ⟨d, v, s1, -, -, rfl | rfl, rfl⟩ := execDstat_next h
    · exact s1.bus.continues_refl
    · exact Bus.continues_of_eq (State.raise_bus ..)
  | dunmap => cases h; exact Bus.continues_trans (s.bus.continues_unmap _) (Bus.continues_unmap ..)
  | jerr =>
    obtain ⟨e, -, rfl⟩ := execJerr_next h
    exact s.bus.continues_refl
  | jmp => cases h; exact s.bus.continues_refl
  | done =>
    obtain ⟨-, -, rfl⟩ := execDone_next h
    exact s.bus.continues_emit _
  | rstseq => exact execRstseq_continues h
  | init => exact execInit_continues h

end Sys2Proof.Machine
end

section
/-! The statement of the memory family (20_memory.md R85): who writes a register while a wait is to come. -/

namespace Sys2Proof.Machine

open Sys2Proof

/-- A busy, initialised engine accepts nothing at the port but the handler (R260, R270-R272, R352). -/
theorem eq_irq_of_exec_atPort {i : Instr} {s t : State} (h : exec i s = .next t) (hport : atPort i = true)
    (hb : s.busy = true) (hm : s.mode ≠ none) : i = .irq := by
  have notIdle : s.busy ≠ false := by simp [hb]
  cases i with
  | submit => exact absurd (execSubmit_next h).2.1 notIdle
  | setBusWidth => exact absurd (execSetBusWidth_next h).2.1 notIdle
  | setClock => exact absurd (execSetClock_next h).2.1 notIdle
  | hwReset => exact absurd (execHwReset_next h).2.1 notIdle
  | irq => rfl
  | init => exact absurd (execInit_next h).1 hm
  | _ => cases hport

/-- The handler writes EVENT and no other register (R160). -/
theorem execIrq_writes_event {s t : State} (h : execIrq s = .next t) :
    ∃ es, t.bus.trace = s.bus.trace ++ es ∧ ∀ o v, .regWrite o v ∈ es → o = off s.cfg .event := by
  obtain ⟨-, -, rfl⟩ := execIrq_next h
  refine ⟨_, by rw [State.handleEvents_trace, Bus.regRead_trace, List.append_assoc], fun o v hw => ?_⟩
  have : o = off s.cfg .event ∧ v = s.bus.draws.nextRead := by split at hw <;> simpa using hw
  exact this.1

/-- What the hold of R369 lets pass has no register write among what it appended to the trace. -/
theorem no_write_of_not_wroteRegister {s t : State} (hc : s.bus.continues t.bus) (h : wroteRegister s t = false) :
    ∃ es, t.bus.trace = s.bus.trace ++ es ∧ ∀ e ∈ es, isRegWrite e = false := by
  obtain ⟨es, hes⟩ := hc
  rw [wroteRegister_of_trace hes, List.any_eq_false] at h
  exact ⟨es, hes, fun e he => by simpa using h e he⟩

/-- Settles O32. A wait's frame is `execAwait_frame`. While a wait is to come, what the orchestrator runs is held by R369,
since the trace only grows; the port takes only the handler, which writes EVENT alone; and a load is refused. -/
theorem awaitWritesNoRegister : Obligations.AwaitWritesNoRegister := by
  refine ⟨fun need tobj s t h => ?_, fun s t harmed hbusy hmode h => ?_⟩
  · obtain ⟨ht, hshadow, hreads, -⟩ := execAwait_frame h
    refine ⟨hreads, hshadow, ?_⟩
    rw [ht]
    exact ⟨rfl, rfl, rfl, rfl, rfl, rfl, rfl⟩
  · obtain ⟨s0, rfl, ⟨hidle, -⟩ | ⟨-, hheld, i, -, hex⟩ | ⟨ws, i, -, hport, hex⟩ | ⟨l, -, hl⟩⟩ := step_next h
    · cases hbusy.symm.trans hidle
    · obtain ⟨es, hes, hno⟩ := no_write_of_not_wroteRegister (exec_continues hex) (hheld harmed)
      exact ⟨es, hes, fun o v hw => by cases hno _ hw⟩
    · obtain rfl := eq_irq_of_exec_atPort hex (portOp_ok hport).1 hbusy hmode
      obtain ⟨es, hes, hevent⟩ := execIrq_writes_event hex
      refine ⟨es, hes, fun o v hw => ⟨hevent o v hw, ?_⟩⟩
      rw [(exec_keeps hex).inputs]
      exact hex
    · obtain ⟨-, hidle, -⟩ := loadProgram_next hl
      cases hbusy.symm.trans hidle

end Sys2Proof.Machine
end

section
/-! The decoder and the encoder are inverse (30_encoding.md R100-R104, R115). For each reader of a selector or of side
operands one lemma says that it reads back what the encoder writes, and one that what it accepts is what the encoder
writes for its answer; the two round trips go case by case over them. -/

namespace Sys2Proof

/-! ## Selectors and operands written read back -/

theorem withReg_code {r : RegId} (h : r.named = true) (k : RegId → Parsed Instr) : withReg r.code k = k r := by
  simp [withReg, h]

theorem withField_code (f : FieldId) (k : FieldId → Parsed Instr) : withField f.code k = k f := by
  simp [withField]

@[simp] theorem objSel_reserved (c : BitVec 2) : (objSel c).extractLsb' 2 6 = 0 := append_high 0#6 c

@[simp] theorem objSel_code (c : BitVec 2) : (objSel c).extractLsb' 0 2 = c := append_low 0#6 c

theorem withObj_objSel (o : Obj) (k : Obj → Parsed Instr) : withObj (objSel o.code) k = k o := by
  simp [withObj]

theorem withCmd_objSel (o : CmdId) (k : CmdId → Parsed Instr) : withCmd (objSel o.code) k = k o := by
  simp [withCmd]

theorem withValue_cons (v : Word) (ws : List Word) (k : Word → Instr) : withValue (v :: ws) k = .ok (k v, ws) := rfl

/-- A label is read back from its word. -/
theorem withValue_label {l : Nat} (h : l < 2 ^ 16) (ws : List Word) (k : Nat → Instr) :
    withValue (BitVec.ofNat 16 l :: ws) (fun v => k v.toNat) = .ok (k l, ws) := by
  rw [withValue_cons, BitVec.toNat_ofNat, Nat.mod_eq_of_lt h]

@[simp] theorem bare_zero (i : Instr) (ws : List Word) : bare 0 i ws = .ok (i, ws) := rfl

theorem decodeAwait_awaitSel (need : WaitSet) (tobj : Obj) (ws : List Word) :
    decodeAwait (awaitSel need tobj) ws = .ok (.await need tobj, ws) := by
  obtain ⟨cmd, data, busy⟩ := need
  cases cmd <;> cases data <;> cases busy <;> cases tobj <;> rfl

theorem decodeInit_flagSel (irqOk : Bool) (ws : List Word) :
    decodeInit (flagSel irqOk) ws = .ok (.init irqOk, ws) := by
  cases irqOk <;> rfl

theorem decodeSetClock_off (ws : List Word) : decodeSetClock (flagSel true) ws = .ok (.setClock none, ws) := rfl

theorem decodeSetClock_rate {hz : Nat} (h : hz < 2 ^ 32) (ws : List Word) :
    decodeSetClock (flagSel false) (wordsNat hz ++ ws) = .ok (.setClock (some hz), ws) := by
  unfold decodeSetClock
  rw [takeNat_words h]
  rfl

/-- A record that may be absent is read back when its presence bit says whether it is there. -/
theorem takeIf_words {α : Type} {take : List Word → Parsed α} {words : α → List Word} {wf : α → Bool}
    (htake : ∀ {a}, wf a = true → ∀ ws, take (words a ++ ws) = .ok (a, ws)) {o : Option α} (h : o.all wf = true)
    (ws : List Word) : takeIf o.isSome take (o.elim [] words ++ ws) = .ok (o, ws) := by
  cases o with
  | none => rfl
  | some a => exact takeIf_true take _ (htake h ws)

/-- The records of a `SUBMIT` are read back in their order (R103, R260). -/
theorem decodeSubmit_words {sh : Shape} {cmd : Command} {sbc : Option Command} {data : Option Data}
    {stop : Option Command} (h : (Instr.submit sh cmd sbc data stop).wf = true) (ws : List Word) :
    decodeSubmit sh.code (cmd.words ++ (sbc.elim [] Command.words ++
      (data.elim [] Data.words ++ (stop.elim [] Command.words ++ ws)))) = .ok (.submit sh cmd sbc data stop, ws) := by
  simp only [Instr.wf, Shape.announces, Bool.and_eq_true, beq_iff_eq] at h
  obtain ⟨⟨⟨⟨hcmd, hsbc⟩, hdata⟩, hstop⟩, ⟨hasSbc, hasData⟩, hasStop⟩ := h
  simp only [decodeSubmit, Shape.code_reserved, Shape.ofCode_code, hasSbc, hasData, hasStop, takeCommand_words hcmd,
    takeIf_words takeCommand_words hsbc, takeIf_words takeData_words hdata, takeIf_words takeCommand_words hstop,
    ne_eq, not_true_eq_false, if_false]

/-- Settles O1: the decoder takes the arm of the instruction's own operation word, whose readers give the operands
back. -/
theorem decodeOfEncodeGivesTheInstructionBack : Obligations.DecodeOfEncodeGivesTheInstructionBack := by
  intro i rest h
  cases i <;> simp only [encode, List.cons_append, List.nil_append, List.append_assoc, decode_opWord]
  case submit => exact decodeSubmit_words h rest
  case setBusWidth w => cases w <;> rfl
  case setClock rate =>
    cases rate with
    | none => exact (decode_opWord _ _ _).trans (decodeSetClock_off rest)
    | some hz =>
      have hlt : hz < 2 ^ 32 := by simpa [Instr.wf] using h
      exact (decode_opWord _ _ _).trans (decodeSetClock_rate hlt rest)
  case regRead r => exact withReg_code h _
  case regWrite r v => exact withReg_code h _
  case fieldRead f => exact withField_code f _
  case fieldWrite f v => exact withField_code f _
  case fieldForce f v => exact withField_code f _
  case await need tobj => exact decodeAwait_awaitSel need tobj rest
  case wchk o => exact withObj_objSel o fun o => .ok (.wchk o, rest)
  case cissue o => exact withCmd_objSel o _
  case ccapt o => exact withCmd_objSel o _
  case jerr o l =>
    exact (withObj_objSel o fun o => withValue _ fun l => .jerr o l.toNat).trans
      (withValue_label (of_decide_eq_true h) rest (.jerr o))
  case jmp l => exact withValue_label (of_decide_eq_true h) rest .jmp
  case init irqOk => exact decodeInit_flagSel irqOk rest
  all_goals exact bare_zero _ rest

theorem decode_encode {i : Instr} (h : i.wf = true) : decode (encode i) = .ok (i, []) := by
  simpa using decodeOfEncodeGivesTheInstructionBack i [] h

end Sys2Proof
end

section
/-! The other direction of the round trip (30_encoding.md R101-R104, R115): what each reader accepts is what the encoder
writes for its answer; and the words that the opcode table lists are the first words of encodings. -/

namespace Sys2Proof

open Machine

/-! ## What a reader accepts is what is written -/

/-- The operation word of `op` and `sel` and the words `ws` after it spell instruction `i`, with `rest` left over. -/
def Spells (op sel : BitVec 8) (ws : List Word) (i : Instr) (rest : List Word) : Prop :=
  i.wf = true ∧ opWord op sel :: ws = encode i ++ rest

theorem bare_ok {op sel : BitVec 8} {ws rest : List Word} {i j : Instr} (hwf : j.wf = true)
    (hj : encode j = [opWord op 0]) (h : bare sel j ws = .ok (i, rest)) : Spells op sel ws i rest := by
  unfold bare at h
  split at h <;> cases h
  rename_i hsel
  exact ⟨hwf, by rw [hj, hsel]; rfl⟩

theorem withReg_ok {sel : BitVec 8} {k : RegId → Parsed Instr} {p : Instr × List Word} (h : withReg sel k = .ok p) :
    ∃ r : RegId, r.named = true ∧ sel = r.code ∧ k r = .ok p := by
  unfold withReg at h
  split at h
  · rename_i r hr
    exact ⟨r, RegId.named_of_ofCode hr, (RegId.code_of_ofCode hr).symm, h⟩
  · cases h

theorem withField_ok {sel : BitVec 8} {k : FieldId → Parsed Instr} {p : Instr × List Word}
    (h : withField sel k = .ok p) : ∃ f : FieldId, sel = f.code ∧ k f = .ok p := by
  unfold withField at h
  split at h
  · rename_i f hf
    exact ⟨f, (FieldId.code_of_ofCode hf).symm, h⟩
  · cases h

/-- A selector whose reserved bits are zero is an object selector. -/
theorem objSel_of_reserved {sel : BitVec 8} (h : sel.extractLsb' 2 6 = 0) : objSel (sel.extractLsb' 0 2) = sel := by
  revert sel; decide

theorem withObj_ok {sel : BitVec 8} {k : Obj → Parsed Instr} {p : Instr × List Word} (h : withObj sel k = .ok p) :
    ∃ o : Obj, sel = objSel o.code ∧ k o = .ok p := by
  unfold withObj at h
  split at h
  · rename_i hz
    exact ⟨_, by rw [Obj.code_ofCode, objSel_of_reserved hz], h⟩
  · cases h

theorem withCmd_ok {sel : BitVec 8} {k : CmdId → Parsed Instr} {p : Instr × List Word} (h : withCmd sel k = .ok p) :
    ∃ o : CmdId, sel = objSel o.code ∧ k o = .ok p := by
  unfold withCmd at h
  split at h
  · rename_i hz
    split at h
    · rename_i o ho
      exact ⟨o, by rw [CmdId.code_of_ofCode ho, objSel_of_reserved hz], h⟩
    · cases h
  · cases h

theorem withValue_ok {ws rest : List Word} {k : Word → Instr} {i : Instr} (h : withValue ws k = .ok (i, rest)) :
    ∃ v, ws = v :: rest ∧ i = k v := by
  cases ws with
  | nil => cases h
  | cons v ws => cases h; exact ⟨v, rfl, rfl⟩

/-- A label read from a word fits it and is written as it. -/
theorem withValue_label_ok {ws rest : List Word} {k : Nat → Instr} {i : Instr}
    (h : withValue ws (fun v => k v.toNat) = .ok (i, rest)) :
    ∃ l, l < 2 ^ 16 ∧ ws = BitVec.ofNat 16 l :: rest ∧ i = k l := by
  obtain ⟨v, rfl, rfl⟩ := withValue_ok h
  exact ⟨v.toNat, v.isLt, by rw [BitVec.ofNat_toNat, BitVec.setWidth_eq], rfl⟩

/-- A selector whose reserved bits are zero is a flag selector. -/
theorem flagSel_of_reserved {sel : BitVec 8} (h : sel.extractLsb' 1 7 = 0) : flagSel (sel.getLsbD 0) = sel := by
  revert sel; decide

/-- A selector whose reserved bits are zero is that of an `AWAIT`. -/
theorem awaitSel_of_reserved {sel : BitVec 8} (h3 : sel.getLsbD 3 = false) (h6 : sel.extractLsb' 6 2 = 0) :
    awaitSel ⟨sel.getLsbD 0, sel.getLsbD 1, sel.getLsbD 2⟩ (Obj.ofCode (sel.extractLsb' 4 2)) = sel := by
  revert sel; decide

theorem decodeBusWidth_ok {sel : BitVec 8} {ws rest : List Word} {i : Instr}
    (h : decodeBusWidth sel ws = .ok (i, rest)) : Spells 0x11 sel ws i rest := by
  unfold decodeBusWidth at h
  split at h <;> cases h
  rename_i w hw
  exact ⟨rfl, by rw [← BusWidth.code_of_ofCode hw]; rfl⟩

theorem decodeSetClock_ok {sel : BitVec 8} {ws rest : List Word} {i : Instr}
    (h : decodeSetClock sel ws = .ok (i, rest)) : Spells 0x12 sel ws i rest := by
  unfold decodeSetClock at h
  split at h
  · cases h
  · rename_i hz
    have hsel := flagSel_of_reserved (not_not.1 hz)
    split at h
    · rename_i hoff
      cases h
      exact ⟨rfl, by rw [← hsel, hoff]; rfl⟩
    · rename_i hrate
      split at h <;> cases h
      rename_i hz hread
      obtain ⟨hlt, rfl⟩ := takeNat_ok hread
      exact ⟨decide_eq_true hlt, by rw [← hsel, eq_false_of_ne_true hrate]; rfl⟩

theorem decodeAwait_ok {sel : BitVec 8} {ws rest : List Word} {i : Instr} (h : decodeAwait sel ws = .ok (i, rest)) :
    Spells 0x91 sel ws i rest := by
  unfold decodeAwait at h
  split at h <;> cases h
  rename_i hz
  simp only [Bool.or_eq_true, bne_iff_ne, not_or, Bool.not_eq_true, not_not] at hz
  exact ⟨rfl, by rw [encode, awaitSel_of_reserved hz.1 hz.2]; rfl⟩

theorem decodeInit_ok {sel : BitVec 8} {ws rest : List Word} {i : Instr} (h : decodeInit sel ws = .ok (i, rest)) :
    Spells 0xC4 sel ws i rest := by
  unfold decodeInit at h
  split at h <;> cases h
  rename_i hz
  exact ⟨rfl, by rw [encode, flagSel_of_reserved (not_not.1 hz)]; rfl⟩

/-- A record that may be absent was read from the words that write it, and its presence bit says whether it is there. -/
theorem takeIf_ok {α : Type} {take : List Word → Parsed α} {words : α → List Word} {wf : α → Bool}
    (htake : ∀ {ws rest a}, take ws = .ok (a, rest) → wf a = true ∧ ws = words a ++ rest) {present : Bool}
    {ws rest : List Word} {o : Option α} (h : takeIf present take ws = .ok (o, rest)) :
    present = o.isSome ∧ o.all wf = true ∧ ws = o.elim [] words ++ rest := by
  unfold takeIf at h
  split at h
  · split at h <;> cases h
    obtain ⟨hwf, rfl⟩ := htake ‹_›
    exact ⟨‹_›, hwf, rfl⟩
  · cases h
    exact ⟨by simpa using ‹¬ present = true›, rfl, rfl⟩

theorem decodeSubmit_ok {sel : BitVec 8} {ws rest : List Word} {i : Instr} (h : decodeSubmit sel ws = .ok (i, rest)) :
    Spells 0x10 sel ws i rest := by
  unfold decodeSubmit at h
  split at h
  · cases h
  · rename_i hz
    have hsel := Shape.code_ofCode (not_not.1 hz)
    dsimp only at h
    split at h
    · cases h
    · split at h
      · cases h
      · split at h
        · cases h
        · split at h <;> cases h
          rename_i hcmd _ _ _ hsbc _ _ _ hdata _ _ hstop
          obtain ⟨wfCmd, rfl⟩ := takeCommand_ok hcmd
          obtain ⟨hasSbc, wfSbc, rfl⟩ := takeIf_ok takeCommand_ok hsbc
          obtain ⟨hasData, wfData, rfl⟩ := takeIf_ok takeData_ok hdata
          obtain ⟨hasStop, wfStop, rfl⟩ := takeIf_ok takeCommand_ok hstop
          refine ⟨?_, by simp only [encode, hsel, List.cons_append, List.append_assoc]⟩
          simp only [Instr.wf, Shape.announces, wfCmd, wfSbc, wfData, wfStop, hasSbc, hasData, hasStop,
            Bool.and_self, beq_self_eq_true]

/-- Every arm of the opcode map accepts only spellings of its operation. -/
theorem decodeOp_ok {op sel : BitVec 8} {ws rest : List Word} {i : Instr} (h : decodeOp op sel ws = .ok (i, rest)) :
    Spells op sel ws i rest := by
  unfold decodeOp at h
  split at h
  case h_1 => -- SUBMIT
    exact decodeSubmit_ok h
  case h_2 => -- SET_BUS_WIDTH
    exact decodeBusWidth_ok h
  case h_3 => -- SET_CLOCK
    exact decodeSetClock_ok h
  case h_6 => -- REG_READ
    obtain ⟨r, hr, rfl, hk⟩ := withReg_ok h; cases hk; exact ⟨hr, rfl⟩
  case h_7 => -- REG_WRITE
    obtain ⟨r, hr, rfl, hk⟩ := withReg_ok h
    obtain ⟨v, rfl, rfl⟩ := withValue_ok hk
    exact ⟨hr, rfl⟩
  case h_8 => -- FIELD_READ
    obtain ⟨f, rfl, hk⟩ := withField_ok h; cases hk; exact ⟨rfl, rfl⟩
  case h_9 => -- FIELD_WRITE
    obtain ⟨f, rfl, hk⟩ := withField_ok h
    obtain ⟨v, rfl, rfl⟩ := withValue_ok hk
    exact ⟨rfl, rfl⟩
  case h_10 => -- FIELD_FORCE
    obtain ⟨f, rfl, hk⟩ := withField_ok h
    obtain ⟨v, rfl, rfl⟩ := withValue_ok hk
    exact ⟨rfl, rfl⟩
  case h_12 => -- AWAIT
    exact decodeAwait_ok h
  case h_13 => -- WCHK
    obtain ⟨o, rfl, hk⟩ := withObj_ok h; cases hk; exact ⟨rfl, rfl⟩
  case h_14 => -- CISSUE
    obtain ⟨o, rfl, hk⟩ := withCmd_ok h; cases hk; exact ⟨rfl, rfl⟩
  case h_16 => -- CCAPT
    obtain ⟨o, rfl, hk⟩ := withCmd_ok h; cases hk; exact ⟨rfl, rfl⟩
  case h_24 => -- JERR
    obtain ⟨o, rfl, hk⟩ := withObj_ok h
    obtain ⟨l, hl, rfl, rfl⟩ := withValue_label_ok (k := .jerr o) hk
    exact ⟨decide_eq_true hl, rfl⟩
  case h_25 => -- JMP
    split at h
    · rename_i hsel
      obtain ⟨l, hl, rfl, rfl⟩ := withValue_label_ok (k := .jmp) h
      exact ⟨decide_eq_true hl, by rw [hsel]; rfl⟩
    · cases h
  case h_28 => -- INIT
    exact decodeInit_ok h
  case h_29 => -- an unlisted operation
    cases h
  all_goals exact bare_ok rfl rfl h

/-- Settles O2: the first word is the operation word of its two halves, which the opcode map accepts only as the
spelling of its answer. -/
theorem acceptedWordsAreAnEncoding : Obligations.AcceptedWordsAreAnEncoding := by
  intro ws rest i h
  cases ws with
  | nil => cases h
  | cons w ws =>
    have hspells := decodeOp_ok (show decodeOp _ _ ws = .ok (i, rest) from h)
    rwa [Spells, opWord_parts] at hspells

end Sys2Proof
end

section
/-! The words the opcode table lists are the first words of the encodings (30_encoding.md R102, R115), row by row. -/

namespace Sys2Proof

open Machine

/-! ## The table's selector constraints are the decoder's -/

theorem width_ok (sel : BitVec 8) : SelRule.width.ok sel.toNat = (BusWidth.ofCode sel).isSome := by
  revert sel; decide

theorem register_ok (sel : BitVec 8) : SelRule.register.ok sel.toNat = (RegId.ofCode sel).isSome := by
  revert sel; decide

theorem field_ok (sel : BitVec 8) : SelRule.field.ok sel.toNat = (FieldId.ofCode sel).isSome := by
  revert sel; decide

theorem command_ok (sel : BitVec 8) :
    SelRule.command.ok sel.toNat = (CmdId.ofCode (sel.extractLsb' 0 2)).isSome := by
  revert sel; decide

/-! ## An encoding's first word is listed -/

/-- The encoding of every instruction starts with a word of its own row and of no other. -/
theorem encode_row (i : Instr) : Laws.OpcodeRow.Statement i := by
  cases i with
  | submit sh cmd sbc data stop => exact Laws.OpcodeRow.submit sh cmd sbc data stop
  | setBusWidth w => exact Laws.OpcodeRow.setBusWidth w
  | setClock rate => exact Laws.OpcodeRow.setClock rate
  | hwReset => exact Laws.OpcodeRow.hwReset
  | irq => exact Laws.OpcodeRow.irq
  | regRead r => exact Laws.OpcodeRow.regRead r
  | regWrite r v => exact Laws.OpcodeRow.regWrite r v
  | fieldRead f => exact Laws.OpcodeRow.fieldRead f
  | fieldWrite f v => exact Laws.OpcodeRow.fieldWrite f v
  | fieldForce f v => exact Laws.OpcodeRow.fieldForce f v
  | clrev => exact Laws.OpcodeRow.clrev
  | await need tobj => exact Laws.OpcodeRow.await need tobj
  | wchk o => exact Laws.OpcodeRow.wchk o
  | cissue o => exact Laws.OpcodeRow.cissue o
  | trig => exact Laws.OpcodeRow.trig
  | ccapt o => exact Laws.OpcodeRow.ccapt o
  | chkdir => exact Laws.OpcodeRow.chkdir
  | dmap => exact Laws.OpcodeRow.dmap
  | dprep => exact Laws.OpcodeRow.dprep
  | darm => exact Laws.OpcodeRow.darm
  | bidle => exact Laws.OpcodeRow.bidle
  | dstat => exact Laws.OpcodeRow.dstat
  | dunmap => exact Laws.OpcodeRow.dunmap
  | jerr o l => exact Laws.OpcodeRow.jerr o l
  | jmp l => exact Laws.OpcodeRow.jmp l
  | done => exact Laws.OpcodeRow.done
  | rstseq => exact Laws.OpcodeRow.rstseq
  | init irqOk => exact Laws.OpcodeRow.init irqOk

theorem regNamed_of_wf {i : Instr} (h : i.wf = true) : i.regNamed = true := by
  cases i
  case regRead => exact h
  case regWrite => exact h
  all_goals rfl

theorem row_of_encode {i : Instr} (h : i.wf = true) {w : Word} {ws : List Word} (he : encode i = w :: ws) :
    i.row ∈ opcodeTable ∧ i.row.fits w = true := by
  obtain ⟨hrow, w', ws', he', hfits, -⟩ := encode_row i (regNamed_of_wf h)
  obtain ⟨rfl, -⟩ := List.cons.inj (he.symm.trans he')
  exact ⟨hrow, hfits⟩

/-- The selector of an encoding keeps its row's constraint. -/
theorem encode_sel_ok {i : Instr} (h : i.wf = true) {w : Word} {ws : List Word} (he : encode i = w :: ws) :
    i.row.sel.ok (w.extractLsb' 0 8).toNat = true := by
  cases i
  case setBusWidth b => cases he; rw [opWord_sel]; exact (width_ok _).trans (by simp)
  case regRead r => cases he; rw [opWord_sel]; exact (register_ok _).trans (by simp [RegId.ofCode_code h])
  case regWrite r v => cases he; rw [opWord_sel]; exact (register_ok _).trans (by simp [RegId.ofCode_code h])
  case fieldRead f => cases he; rw [opWord_sel]; exact (field_ok _).trans (by simp)
  case fieldWrite f v => cases he; rw [opWord_sel]; exact (field_ok _).trans (by simp)
  case fieldForce f v => cases he; rw [opWord_sel]; exact (field_ok _).trans (by simp)
  case cissue o => cases he; rw [opWord_sel]; exact (command_ok _).trans (by simp)
  case ccapt o => cases he; rw [opWord_sel]; exact (command_ok _).trans (by simp)
  all_goals rfl

/-! ## A listed word is the first word of an encoding -/

/-- Every word of a row, with its selector constraint, is the first word of a well-formed instruction's encoding. -/
def OpRow.Spelled (row : OpRow) : Prop :=
  ∀ w : Word, row.fits w = true → row.sel.ok (w.extractLsb' 0 8).toNat = true →
    ∃ i ws, i.wf = true ∧ encode i = w :: ws

theorem and_ones (x : BitVec 8) : x &&& 255#8 = x := BitVec.and_allOnes

/-- The fixed bits of a row are its class and function, and the selector bits that are zero. -/
theorem OpRow.fits_halves {mn : String} {op m : BitVec 8} {rule : SelRule} {w : Word}
    (h : (OpRow.mk mn (opWord 0xFF m) (opWord op 0) rule).fits w = true) :
    w = opWord op (w.extractLsb' 0 8) ∧ w.extractLsb' 0 8 &&& m = 0 := by
  have hw : w &&& opWord 0xFF m = opWord op 0 := by simpa [OpRow.fits] using h
  have half (k : Nat) : w.extractLsb' k 8 &&& (opWord 0xFF m).extractLsb' k 8 = (opWord op 0).extractLsb' k 8 := by
    rw [← hw, BitVec.extractLsb'_and]
  have hop : w.extractLsb' 8 8 = op := by simpa [and_ones] using half 8
  exact ⟨by rw [← hop, opWord_parts], by simpa using half 0⟩

/-- A row is spelled when each selector it allows is the selector of an instruction of its class and function. -/
theorem OpRow.spelled_of_sel {mn : String} (op m : BitVec 8) {rule : SelRule}
    (h : ∀ sel : BitVec 8, sel &&& m = 0 → rule.ok sel.toNat = true →
      ∃ i ws, i.wf = true ∧ encode i = opWord op sel :: ws) :
    OpRow.Spelled ⟨mn, opWord 0xFF m, opWord op 0, rule⟩ := by
  intro w hfits hok
  obtain ⟨hw, hmask⟩ := OpRow.fits_halves hfits
  obtain ⟨i, ws, hwf, he⟩ := h _ hmask hok
  exact ⟨i, ws, hwf, by rw [he, ← hw]⟩

/-- The row of an operation with no selector. -/
theorem OpRow.spelled_bare {mn : String} (op : BitVec 8) {i : Instr} {ws : List Word} (hwf : i.wf = true)
    (he : encode i = opWord op 0 :: ws) : OpRow.Spelled ⟨mn, 0xFFFF, opWord op 0, .any⟩ :=
  OpRow.spelled_of_sel op 0xFF fun sel hmask _ => by
    have hsel : sel = 0 := by simpa [and_ones] using hmask
    exact ⟨i, ws, hwf, by rw [he, hsel]⟩

/-- The row of an operation whose selector is a register. -/
theorem OpRow.spelled_register {mn : String} (op : BitVec 8) {i : RegId → Instr} {ws : List Word}
    (hwf : ∀ r, r.named = true → (i r).wf = true) (he : ∀ r, encode (i r) = opWord op r.code :: ws) :
    OpRow.Spelled ⟨mn, 0xFF00, opWord op 0, .register⟩ :=
  OpRow.spelled_of_sel op 0 fun sel _ hok => by
    obtain ⟨r, hr⟩ := Option.isSome_iff_exists.1 (register_ok sel ▸ hok)
    exact ⟨i r, ws, hwf r (RegId.named_of_ofCode hr), by rw [he, RegId.code_of_ofCode hr]⟩

/-- The row of an operation whose selector is a field. -/
theorem OpRow.spelled_field {mn : String} (op : BitVec 8) {i : FieldId → Instr} {ws : List Word}
    (hwf : ∀ f, (i f).wf = true) (he : ∀ f, encode (i f) = opWord op f.code :: ws) :
    OpRow.Spelled ⟨mn, 0xFF00, opWord op 0, .field⟩ :=
  OpRow.spelled_of_sel op 0 fun sel _ hok => by
    obtain ⟨f, hf⟩ := Option.isSome_iff_exists.1 (field_ok sel ▸ hok)
    exact ⟨i f, ws, hwf f, by rw [he, FieldId.code_of_ofCode hf]⟩

theorem objSel_of_mask {sel : BitVec 8} (h : sel &&& 0xFC = 0) : objSel (sel.extractLsb' 0 2) = sel := by
  revert sel; decide

/-- The row of an operation whose selector is an object. -/
theorem OpRow.spelled_object {mn : String} (op : BitVec 8) {i : Obj → Instr} {ws : List Word}
    (hwf : ∀ o, (i o).wf = true) (he : ∀ o, encode (i o) = opWord op (objSel o.code) :: ws) :
    OpRow.Spelled ⟨mn, 0xFFFC, opWord op 0, .any⟩ :=
  OpRow.spelled_of_sel op 0xFC fun sel hmask _ =>
    ⟨i _, ws, hwf _, by rw [he, Obj.code_ofCode, objSel_of_mask hmask]⟩

/-- The row of an operation whose selector is a command object. -/
theorem OpRow.spelled_command {mn : String} (op : BitVec 8) {i : CmdId → Instr} {ws : List Word}
    (hwf : ∀ o, (i o).wf = true) (he : ∀ o, encode (i o) = opWord op (objSel o.code) :: ws) :
    OpRow.Spelled ⟨mn, 0xFFFC, opWord op 0, .command⟩ :=
  OpRow.spelled_of_sel op 0xFC fun sel hmask hok => by
    obtain ⟨o, ho⟩ := Option.isSome_iff_exists.1 (command_ok sel ▸ hok)
    exact ⟨i o, ws, hwf o, by rw [he, CmdId.code_of_ofCode ho, objSel_of_mask hmask]⟩

/-- The row of an operation whose selector is a flag. -/
theorem OpRow.spelled_flag {mn : String} (op : BitVec 8) {i : Bool → Instr} (ws : Bool → List Word)
    (hwf : ∀ b, (i b).wf = true) (he : ∀ b, encode (i b) = opWord op (flagSel b) :: ws b) :
    OpRow.Spelled ⟨mn, 0xFFFE, opWord op 0, .any⟩ :=
  OpRow.spelled_of_sel op 0xFE fun sel hmask _ => by
    have hsel : flagSel (sel.getLsbD 0) = sel := by revert sel; decide
    exact ⟨i _, ws _, hwf _, by rw [he, hsel]⟩

theorem OpRow.spelled_width : OpRow.Spelled ⟨"SET_BUS_WIDTH", 0xFF00, 0x1100, .width⟩ :=
  OpRow.spelled_of_sel 0x11 0 fun sel _ hok => by
    obtain ⟨w, hw⟩ := Option.isSome_iff_exists.1 (width_ok sel ▸ hok)
    exact ⟨.setBusWidth w, [], rfl, by rw [encode, BusWidth.code_of_ofCode hw]⟩

theorem OpRow.spelled_await : OpRow.Spelled ⟨"AWAIT", 0xFFC8, 0x9100, .any⟩ :=
  OpRow.spelled_of_sel 0x91 0xC8 fun sel hmask _ => by
    have hreserved : sel.getLsbD 3 = false ∧ sel.extractLsb' 6 2 = 0 := by revert sel; decide
    exact ⟨.await _ _, [], rfl, by rw [encode, awaitSel_of_reserved hreserved.1 hreserved.2]⟩

/-- A `SUBMIT` of this shape: a command of zeros for each command record, and a read of one byte. -/
def Shape.sample (sh : Shape) : Instr :=
  .submit sh placedCommand (if sh.hasSbc then some placedCommand else none)
    (if sh.hasData then some placedData else none) (if sh.hasStop then some placedCommand else none)

theorem Shape.sample_wf (sh : Shape) : sh.sample.wf = true := by
  obtain ⟨hasData, dir, hasSbc, hasStop⟩ := sh
  cases hasData <;> cases hasSbc <;> cases hasStop <;> rfl

theorem OpRow.spelled_submit : OpRow.Spelled ⟨"SUBMIT", 0xFFE0, 0x1000, .any⟩ :=
  OpRow.spelled_of_sel 0x10 0xE0 fun sel hmask _ => by
    have hreserved : sel.extractLsb' 5 3 = 0 := by revert sel; decide
    exact ⟨(Shape.ofCode sel).sample, _, Shape.sample_wf _, by rw [Shape.sample, encode, Shape.code_ofCode hreserved]⟩

/-- The operation `SET_CLOCK` with its `OFF` bit, at rate 0 where a rate follows. -/
def clockSample : Bool → Instr
  | true => .setClock none
  | false => .setClock (some 0)

/-- Every row of the table is spelled. -/
theorem opcodeTable_spelled : ∀ row ∈ opcodeTable, row.Spelled := by
  simp only [opcodeTable, List.cons_append, List.nil_append, List.forall_mem_cons]
  exact ⟨OpRow.spelled_submit, OpRow.spelled_width,
    OpRow.spelled_flag 0x12 (i := clockSample) (fun off => if off then [] else [0, 0]) (by decide) (by decide),
    OpRow.spelled_bare 0x13 (i := .hwReset) rfl rfl,
    OpRow.spelled_bare 0x20 (i := .irq) rfl rfl,
    OpRow.spelled_register 0x80 (i := .regRead) (fun _ => id) fun _ => rfl,
    OpRow.spelled_register 0x81 (i := (.regWrite · 0)) (fun _ => id) fun _ => rfl,
    OpRow.spelled_field 0x82 (i := .fieldRead) (fun _ => rfl) fun _ => rfl,
    OpRow.spelled_field 0x83 (i := (.fieldWrite · 0)) (fun _ => rfl) fun _ => rfl,
    OpRow.spelled_field 0x84 (i := (.fieldForce · 0)) (fun _ => rfl) fun _ => rfl,
    OpRow.spelled_bare 0x90 (i := .clrev) rfl rfl,
    OpRow.spelled_await,
    OpRow.spelled_object 0x92 (i := .wchk) (fun _ => rfl) fun _ => rfl,
    OpRow.spelled_command 0xA0 (i := .cissue) (fun _ => rfl) fun _ => rfl,
    OpRow.spelled_bare 0xA1 (i := .trig) rfl rfl,
    OpRow.spelled_command 0xA2 (i := .ccapt) (fun _ => rfl) fun _ => rfl,
    OpRow.spelled_bare 0xB0 (i := .chkdir) rfl rfl,
    OpRow.spelled_bare 0xB1 (i := .dmap) rfl rfl,
    OpRow.spelled_bare 0xB2 (i := .dprep) rfl rfl,
    OpRow.spelled_bare 0xB3 (i := .darm) rfl rfl,
    OpRow.spelled_bare 0xB4 (i := .bidle) rfl rfl,
    OpRow.spelled_bare 0xB5 (i := .dstat) rfl rfl,
    OpRow.spelled_bare 0xB6 (i := .dunmap) rfl rfl,
    OpRow.spelled_object 0xC0 (i := (.jerr · 0)) (fun _ => rfl) fun _ => rfl,
    OpRow.spelled_bare 0xC1 (i := .jmp 0) rfl rfl,
    OpRow.spelled_bare 0xC2 (i := .done) rfl rfl,
    OpRow.spelled_bare 0xC3 (i := .rstseq) rfl rfl,
    OpRow.spelled_flag 0xC4 (i := .init) (fun _ => []) (fun _ => rfl) fun _ => rfl,
    List.forall_mem_nil _⟩

/-- The listed words are the first words of the encodings of well-formed instructions. -/
theorem listedWord_iff (w : Word) : listedWord w = true ↔ ∃ i ws, i.wf = true ∧ encode i = w :: ws := by
  simp only [listedWord, List.any_eq_true, Bool.and_eq_true]
  constructor
  · rintro ⟨row, hrow, hfits, hok⟩
    exact opcodeTable_spelled row hrow w hfits hok
  · rintro ⟨i, ws, hwf, he⟩
    obtain ⟨hrow, hfits⟩ := row_of_encode hwf he
    exact ⟨i.row, hrow, hfits, encode_sel_ok hwf he⟩

/-! ## The port (R100, R115) -/

theorem step_port {s : State} {ws : List Word} {rest : List Input} (h : s.inputs = .port ws :: rest) :
    step s = runPort ws { s with inputs := rest } := by
  simp [step, h]

theorem runPort_of_error {ws : List Word} {e : DecodeError} (h : decode ws = .error e) (s : State) :
    runPort ws s = .refused .invalidOperation := by
  simp [runPort, portOp, h]

/-- A word that starts words the decoder accepts is listed. -/
theorem listedWord_of_decode {w : Word} {ws : List Word} {p : Instr × List Word} (h : decode (w :: ws) = .ok p) :
    listedWord w = true := by
  obtain ⟨hwf, henc⟩ := acceptedWordsAreAnEncoding (w :: ws) p.2 p.1 h
  obtain ⟨-, w', ws', he, -⟩ := encode_row p.1 (regNamed_of_wf hwf)
  rw [he] at henc
  obtain ⟨rfl, -⟩ := List.cons.inj henc
  exact (listedWord_iff w).2 ⟨p.1, ws', hwf, he⟩

/-- Settles O3: what the decoder accepts is an encoding, and the listed words are the encodings' first words. -/
theorem onlyListedWordsDecode : Obligations.OnlyListedWordsDecode := by
  refine fun w => ⟨fun hw ws => ?_, fun hw => ?_⟩
  · cases hd : decode (w :: ws) with
    | error e => exact ⟨⟨e, rfl⟩, fun s rest hs => by rw [step_port hs, runPort_of_error hd]⟩
    | ok p => cases hw.symm.trans (listedWord_of_decode hd)
  · obtain ⟨i, ws, hwf, he⟩ := (listedWord_iff w).1 hw
    exact ⟨ws, i, he ▸ decode_encode hwf, (row_of_encode hwf he).2⟩

end Sys2Proof
end

section
/-! What the port and a placed word run (30_encoding.md R100, 44_orchestrator.md R274). -/

namespace Sys2Proof.Machine

open Sys2Proof

/-! ## Words written out -/

/-- Words that are the encoding of a well-formed instruction decode to it. -/
theorem decode_of_encode_eq {ws : List Word} (i : Instr) (h : i.wf = true) (he : encode i = ws) :
    decode ws = .ok (i, []) :=
  he ▸ decode_encode h

/-- Settles O4: each list of words is the encoding of its operation. -/
theorem writtenOutWordsDecode : Obligations.WrittenOutWordsDecode :=
  ⟨decode_of_encode_eq _ (by decide) (by decide), decode_of_encode_eq _ (by decide) (by decide),
    decode_of_encode_eq _ (by decide) (by decide), decode_of_encode_eq _ (by decide) (by decide),
    decode_of_encode_eq _ (by decide) (by decide), decode_of_encode_eq _ (by decide) (by decide)⟩

/-! ## The port's turn -/

/-- The port takes an encoded operation that may be presented there. -/
theorem runPort_encode {i : Instr} (h : i.wf = true) (hport : atPort i = true) (s : State) :
    runPort (encode i) s = exec i s := by
  simp [runPort, portOp, decode_encode h, hport]

/-- The port refuses any other encoded operation. -/
theorem runPort_encode_refused {i : Instr} (h : i.wf = true) (hport : atPort i = false) (s : State) :
    runPort (encode i) s = .refused .notAtPort := by
  simp [runPort, portOp, decode_encode h, hport]

/-- Settles O5: the port's turn decodes the encoding to its operation, with no words left over. -/
theorem stepRunsTheOperationAtThePort : Obligations.StepRunsTheOperationAtThePort := by
  intro i s rest hwf hs
  rw [step_port hs]
  exact ⟨fun hport => runPort_encode hwf hport _, fun hport => runPort_encode_refused hwf hport _⟩

/-! ## A placed word -/

/-- Words after an operation's own are not placed with it. -/
theorem State.placeWords_encode {i : Instr} (h : i.wf = true) (rest : List Word) (s : State) :
    s.placeWords (encode i ++ rest) = s.place i (encode i) := by
  simp [State.placeWords, decodeOfEncodeGivesTheInstructionBack i rest h]

/-- The instruction of a table word is placed with its own words. -/
theorem State.withFetchWord_eq {nbits w : Nat} {i : Instr} (h : decodeTableWord nbits w = some i) (s : State) :
    i.wf = true ∧ s.withFetchWord nbits w = s.place i (encode i) := by
  unfold decodeTableWord at h
  split at h <;> cases h
  rename_i rest hd
  obtain ⟨hwf, hws⟩ := acceptedWordsAreAnEncoding _ _ _ hd
  exact ⟨hwf, by rw [State.withFetchWord, hws, State.placeWords_encode hwf]⟩

/-- `INIT` may be presented at the port, so an operation that may not is placed in an initialised engine (R350). -/
theorem placedMode_of_not_atPort {i : Instr} (h : atPort i = false) (m : Option Mode) :
    placedMode i m = some (m.getD .interrupt) := by
  unfold placedMode
  split
  · cases h
  · rfl

/-- Settles O7: at the port the placed words are the turn's encoding; else the program's first operation runs, with no
wait to come. -/
theorem placedWordRunsNext : Obligations.PlacedWordRunsNext := by
  intro s nbits w i h
  obtain ⟨hwf, hplace⟩ := s.withFetchWord_eq h
  rw [hplace]
  refine ⟨fun hport => ?_, fun hport => ?_⟩
  · rw [State.place, if_pos hport, step_port rfl, runPort_encode hwf hport]
  · rw [State.place, if_neg (by simp [hport]), step_orchestrator (.inr rfl), orchestrate_busy rfl (i := i) rfl,
      holdWhileArmed_of_not_armed rfl, placedMode_of_not_atPort hport]

end Sys2Proof.Machine
end

section
/-! Field values (30_encoding.md R114), the command frame (R106, R107) and the response words (R109). -/

namespace Sys2Proof.Machine

open Sys2Proof

/-! ## Field values -/

/-- Settles O23: the bits of a field written and of a field read. -/
theorem fieldValueAssembly : Obligations.FieldValueAssembly :=
  fun _ x _ i hfits hi => ⟨fun hv => putField_bit hfits x hv i hi, getField_bit hfits x i⟩

/-- A completed field write, forced or not, leaves a cached register's shadow at the base with the field replaced. -/
theorem fieldWrite_leaves_shadow {f : FieldId} {v : Word} {s t : State} {x : Word} {reads : List Event}
    (hc : cached s.cfg (pos s.cfg f).reg = true) (hbase : BaseOf s.cfg s.bus (pos s.cfg f).reg x reads)
    (h : exec (.fieldWrite f v) s = .next t ∨ exec (.fieldForce f v) s = .next t) :
    v.toNat < 2 ^ (pos s.cfg f).width ∧
    RegFile.at t.bus.shadow (pos s.cfg f).reg = some (putField (pos s.cfg f) x v) := by
  obtain h | h := h
  · obtain ⟨hv, -, rfl⟩ := execFieldWrite_next h
    obtain ⟨-, -, hshadow, -⟩ := Bus.fieldWrite_spec v hbase
    exact ⟨hv, hshadow.1 hc⟩
  · obtain ⟨hv, -, rfl⟩ := execFieldForce_next h
    obtain ⟨-, -, hshadow, -⟩ := Bus.fieldForce_spec v hbase
    exact ⟨hv, hshadow.1 hc⟩

/-- Settles O24: the shadow holds the base with the field replaced, and no two fields share a bit (R32). -/
theorem fieldWritesReadBackAndKeepSiblings : Obligations.FieldWritesReadBackAndKeepSiblings := by
  intro f v s t x reads hok hc hbase h
  have hfits := (configOk_parts hok).1
  obtain ⟨hv, hshadow⟩ := fieldWrite_leaves_shadow hc hbase h
  exact ⟨_, hshadow, getField_putField_same (hfits f) x hv, fun g hg hr =>
    getField_putField_apart (hfits f) (hfits g) (fieldsApart_of_configOk hok hg hr) x hv⟩

/-! ## The command frame -/

theorem toNat_append_byte (hi lo : Byte) : (hi ++ lo : Word).toNat = 0x100 * hi.toNat + lo.toNat := by
  rw [BitVec.toNat_append, ← Nat.shiftLeft_add_eq_or_of_lt lo.isLt, Nat.shiftLeft_eq, Nat.mul_comm]

/-- The marker bit stands above the six opcode bits (R106). -/
theorem toNat_marked {opcode : Byte} (h : opcode.toNat < 64) : (0x40 ||| opcode).toNat = 0x40 + opcode.toNat := by
  have hbit := Nat.two_pow_add_eq_or_of_lt (i := 6) h 1
  rw [BitVec.toNat_or]
  simpa using hbit.symm

/-- Settles O34: the pairs stand in the frame's definition; the first register's two bytes add up to its value. -/
theorem frameIsMarkedBigEndianAndPaired : Obligations.FrameIsMarkedBigEndianAndPaired := by
  refine fun marker opcode arg => ⟨rfl, rfl, rfl, fun h => ?_⟩
  have hword : (frameWords 0x40 opcode arg)[0] = arg.extractLsb' 24 8 ++ (0x40 ||| opcode) := rfl
  have htop : (arg.extractLsb' 24 8).toNat = arg.toNat / 2 ^ 24 := by
    have := arg.isLt
    rw [BitVec.extractLsb'_toNat, Nat.shiftRight_eq_div_pow]
    omega
  rw [hword, toNat_append_byte, toNat_marked h, htop, Nat.add_assoc]

/-! ## Response words -/

theorem laneBytes_nil : laneBytes [] = [] := rfl

/-- A buffer register gives its even byte and then its odd one (R77). -/
theorem laneBytes_cons (even odd : Byte) (xs : List Word) :
    laneBytes ((odd ++ even : Word) :: xs) = even :: odd :: laneBytes xs := by
  rw [laneBytes, append_low odd even, append_high odd even]

/-- A word is its four bytes, the most significant first. -/
theorem bytes_join (w : Word32) :
    w.extractLsb' 24 8 ++ w.extractLsb' 16 8 ++ w.extractLsb' 8 8 ++ w.extractLsb' 0 8 = w := by
  rw [BitVec.extractLsb'_append_extractLsb'_eq_extractLsb' (by rfl),
    BitVec.extractLsb'_append_extractLsb'_eq_extractLsb' (by rfl),
    BitVec.extractLsb'_append_extractLsb'_eq_extractLsb' (by rfl)]
  exact BitVec.extractLsb'_eq_self

/-- With a zero in place of the least significant byte, the word is without its low byte. -/
theorem bytes_join_zero (w : Word32) :
    w.extractLsb' 24 8 ++ w.extractLsb' 16 8 ++ w.extractLsb' 8 8 ++ 0#8 = w &&& 0xFFFFFF00#32 := by
  rw [← bytes_join (w &&& 0xFFFFFF00#32)]
  simp [BitVec.extractLsb'_and, and_ones]

/-- Settles O40: the registers' bytes are the opcode's and then the words' four bytes each, the most significant
first. -/
theorem responseWordsRoundTrip : Obligations.ResponseWordsRoundTrip := by
  refine ⟨fun op pad w => ?_, fun op w0 w1 w2 w3 => ?_, fun op pad w0 w1 w2 w3 => ?_⟩ <;>
    simp only [laneBytes_cons, laneBytes_nil]
  · simp [assemble, respWord, padded, bytes_join]
  · simp [assemble, respWord, padded, bytes_join, bytes_join_zero]
  · simp [assemble, respWord, padded, bytes_join]

end Sys2Proof.Machine
end

section
/-! The Control Surface (40_control_surface.md): what each of its operations answers (R145 to R149), and a grouped write
taken apart at the register of its first field (R150). -/

namespace Sys2Proof.Machine

open Sys2Proof

/-! ## Shadows and device values -/

/-- A register without a valid shadow is volatile, or its shadow is `INVALID` (R27). -/
theorem Bus.validShadow_eq_none_iff {cfg : Config} {r : RegId} {b : Bus} :
    b.validShadow cfg r = none ↔ cached cfg r = false ∨ RegFile.at b.shadow r = none := by
  unfold Bus.validShadow
  cases cached cfg r <;> simp

theorem Bus.validShadow_of_cached {cfg : Config} {r : RegId} (hc : cached cfg r = true) (b : Bus) :
    b.validShadow cfg r = RegFile.at b.shadow r := if_pos hc

/-- A write to a write-1-to-clear register clears the bits written as 1 (R75). -/
theorem deviceAfterWrite_w1c {cfg : Config} {r : RegId}
    (h : r = .event ∧ cfg.eventW1c = true ∨ r = .status ∧ cfg.statusW1c = true) (x v : Word) :
    deviceAfterWrite cfg r x v = x &&& ~~~v := by
  obtain ⟨rfl, h⟩ | ⟨rfl, h⟩ := h <;> exact if_pos h

/-- Any register but EVENT and STATUS takes the value written (R75). -/
theorem deviceAfterWrite_other {r : RegId} (he : r ≠ .event) (hs : r ≠ .status) (cfg : Config) (x v : Word) :
    deviceAfterWrite cfg r x v = v := by
  unfold deviceAfterWrite
  split
  · exact absurd rfl he
  · exact absurd rfl hs
  · rfl

/-! ## Whole registers (R145, R146) -/

theorem readReg_of_early {s : State} {r : RegId} (h : earlyRead s r = true) : readReg s r = .error .earlyFlagRead :=
  if_pos h

theorem readReg_of_not_early {s : State} {r : RegId} (h : ¬ earlyRead s r = true) :
    readReg s r = .ok (s.bus.regRead s.cfg r) :=
  if_neg h

theorem exec_regRead (r : RegId) (s : State) : exec (.regRead r) s = execRegRead r s := rfl

theorem exec_regRead_of_early {s : State} {r : RegId} (h : earlyRead s r = true) :
    exec (.regRead r) s = .fault .earlyFlagRead := by
  rw [exec_regRead, execRegRead, readReg_of_early h]

theorem exec_regRead_of_not_early {s : State} {r : RegId} (h : ¬ earlyRead s r = true) :
    exec (.regRead r) s = .next { s with
      bus := (s.bus.regRead s.cfg r).2, result := s.bus.draws.nextRead, upc := s.upc + 1 } := by
  rw [exec_regRead, execRegRead, readReg_of_not_early h]
  rfl

/-- Settles O18: the hazard's fault, or one read transaction, which has the drawn value in the device's register. -/
theorem regReadReturnsTheDrawOrFaultsEarly : Obligations.RegReadReturnsTheDrawOrFaultsEarly := by
  intro r s
  rw [← earlyRead_iff]
  exact ⟨exec_regRead_of_early, fun h => ⟨_, exec_regRead_of_not_early h, rfl, rfl, rfl, (drawsAfter_one _).symm,
    RegFile.at_put_same .., fun q hq => RegFile.at_put_other _ _ hq⟩⟩

/-- Settles O19: what a store leaves (`Bus.store_spec`), and what the device makes of the value written. -/
theorem regWriteAlwaysWrites : Obligations.RegWriteAlwaysWrites := by
  intro r v s
  obtain ⟨htrace, hdraws, hshadow, honly⟩ := s.bus.store_spec s.cfg r v
  have hdev : RegFile.at (s.bus.store s.cfg r v).dev r = deviceAfterWrite s.cfg r (RegFile.at s.bus.dev r) v := by
    rw [Bus.store_dev, RegFile.at_put_same]
  exact ⟨_, rfl, rfl, htrace, hdraws, hshadow, honly, fun h => hdev.trans (deviceAfterWrite_w1c h _ v),
    fun he hs => hdev.trans (deviceAfterWrite_other he hs ..)⟩

/-! ## Field reads (R147) -/

theorem readField_of_shadow {s : State} {f : FieldId} {x : Word}
    (h : s.bus.validShadow s.cfg (pos s.cfg f).reg = some x) :
    readField s f = .ok (getField (pos s.cfg f) x, s.bus) := by
  simp only [readField, h]

theorem readField_of_early {s : State} {f : FieldId} (h : s.bus.validShadow s.cfg (pos s.cfg f).reg = none)
    (he : earlyRead s (pos s.cfg f).reg = true) : readField s f = .error .earlyFlagRead := by
  simp only [readField, h, readReg_of_early he]

/-- With no valid shadow a field read takes what is also the base of a field write of its register: one read, which
fills a cached register's shadow (R141). -/
theorem readField_of_no_shadow {s : State} {f : FieldId} (h : s.bus.validShadow s.cfg (pos s.cfg f).reg = none)
    (he : ¬ earlyRead s (pos s.cfg f).reg = true) :
    readField s f =
      .ok (getField (pos s.cfg f) s.bus.draws.nextRead, (s.bus.base s.cfg (pos s.cfg f).reg).2) := by
  simp only [readField, h, readReg_of_not_early he, Bus.base_of_invalid h]
  rfl

theorem exec_fieldRead (f : FieldId) (s : State) : exec (.fieldRead f) s = execFieldRead f s := rfl

theorem exec_fieldRead_of_ok {s : State} {f : FieldId} {v : Word} {b : Bus} (h : readField s f = .ok (v, b)) :
    exec (.fieldRead f) s = .next { s with bus := b, result := v, upc := s.upc + 1 } := by
  rw [exec_fieldRead, execFieldRead, h]

theorem exec_fieldRead_of_error {s : State} {f : FieldId} {e : Fault} (h : readField s f = .error e) :
    exec (.fieldRead f) s = .fault e := by
  rw [exec_fieldRead, execFieldRead, h]

/-- Settles O20: the valid shadow, the hazard's fault, or the read that a base also is. -/
theorem fieldReadUsesTheShadowOrReads : Obligations.FieldReadUsesTheShadowOrReads := by
  intro f s
  refine ⟨fun x hc hx => exec_fieldRead_of_ok (readField_of_shadow ((s.bus.validShadow_of_cached hc).trans hx)), ?_⟩
  rintro r rfl hnone
  have hshadow := Bus.validShadow_eq_none_iff.2 hnone
  rw [← earlyRead_iff]
  refine ⟨fun h => exec_fieldRead_of_error (readField_of_early hshadow h), fun h => ?_⟩
  obtain ⟨-, hleaves⟩ := Bus.base_spec (.inr ⟨hnone, rfl, rfl⟩)
  exact ⟨_, exec_fieldRead_of_ok (readField_of_no_shadow hshadow h), rfl, hleaves⟩

/-! ## Field writes (R148, R149) -/

/-- What `FIELD_WRITE` and `FIELD_FORCE` share: the answer of a write of `v` into `f` that leaves the state `t`. -/
def fieldWriteAnswer (f : FieldId) (v : Word) (s t : State) : Answer :=
  if fieldFitsValue s.cfg f v then afterWrites s s.bus [f] t else .refused .valueTooWide

theorem exec_fieldWrite (f : FieldId) (v : Word) (s : State) :
    exec (.fieldWrite f v) s =
      fieldWriteAnswer f v s { s with bus := s.bus.fieldWrite s.cfg f v, upc := s.upc + 1 } := rfl

theorem exec_fieldForce (f : FieldId) (v : Word) (s : State) :
    exec (.fieldForce f v) s =
      fieldWriteAnswer f v s { s with bus := s.bus.fieldForce s.cfg f v, upc := s.upc + 1 } := rfl

theorem fieldWriteAnswer_of_fits {f : FieldId} {v : Word} {s : State} (h : v.toNat < 2 ^ (pos s.cfg f).width)
    (t : State) : fieldWriteAnswer f v s t = afterWrites s s.bus [f] t :=
  if_pos (decide_eq_true h)

theorem fieldWriteAnswer_of_wide {f : FieldId} {v : Word} {s : State} (h : 2 ^ (pos s.cfg f).width ≤ v.toNat)
    (t : State) : fieldWriteAnswer f v s t = .refused .valueTooWide :=
  if_neg fun hfits => Nat.not_lt.2 h (of_decide_eq_true hfits)

theorem fieldWriteAnswer_of_early {f : FieldId} {v : Word} {s : State} (h : v.toNat < 2 ^ (pos s.cfg f).width)
    (hearly : EarlyBase s s.bus (pos s.cfg f).reg) (t : State) :
    fieldWriteAnswer f v s t = .fault .earlyFlagRead := by
  rw [fieldWriteAnswer_of_fits h]
  exact (afterWrites_eq s s.bus [f] t).1 ⟨f, List.mem_singleton_self f, hearly⟩

theorem fieldWriteAnswer_of_not_early {f : FieldId} {v : Word} {s : State} (h : v.toNat < 2 ^ (pos s.cfg f).width)
    (hcalm : ¬ EarlyBase s s.bus (pos s.cfg f).reg) (t : State) : fieldWriteAnswer f v s t = .next t := by
  rw [fieldWriteAnswer_of_fits h]
  refine (afterWrites_eq s s.bus [f] t).2 ?_
  rintro ⟨g, hg, hearly⟩
  exact hcalm (List.mem_singleton.1 hg ▸ hearly)

/-- Settles O21: the refusal, the hazard's fault, or what a normal field write leaves (`Bus.fieldWrite_spec`). -/
theorem fieldWriteElidesAWriteThatChangesNothing : Obligations.FieldWriteElidesAWriteThatChangesNothing := by
  rintro f v s r x new reads rfl hbase rfl
  rw [exec_fieldWrite]
  exact ⟨fun hv hearly => fieldWriteAnswer_of_early hv hearly _,
    fun hv hcalm => ⟨_, fieldWriteAnswer_of_not_early hv hcalm _, rfl, Bus.fieldWrite_spec v hbase⟩,
    fun hv => fieldWriteAnswer_of_wide hv _⟩

/-- Settles O22: the refusal, the hazard's fault, or what a forced field write leaves (`Bus.fieldForce_spec`). -/
theorem fieldForceAlwaysWrites : Obligations.FieldForceAlwaysWrites := by
  rintro f v s r x new reads rfl hbase rfl
  rw [exec_fieldForce]
  exact ⟨fun hv hearly => fieldWriteAnswer_of_early hv hearly _,
    fun hv hcalm => ⟨_, fieldWriteAnswer_of_not_early hv hcalm _, rfl, Bus.fieldForce_spec v hbase⟩,
    fun hv => fieldWriteAnswer_of_wide hv _⟩

/-! ## Grouped writes (R150) -/

/-- The writes of one register do not count for another register's value. -/
theorem groupValue_filter_other (cfg : Config) {r q : RegId} (h : q ≠ r) (ws : List (FieldId × Word)) (x : Word) :
    groupValue cfg q x (ws.filter fun w => (pos cfg w.1).reg != r) = groupValue cfg q x ws := by
  rw [groupValue_eq, groupValue_eq, List.filter_filter]
  congr 1
  refine List.filter_congr fun w _ => ?_
  by_cases hq : (pos cfg w.1).reg = q <;> simp [hq, h]

/-- The register of a group's first field comes first, and then the registers of the fields outside it. -/
theorem groupRegs_cons (cfg : Config) (f : FieldId) (v : Word) (ws : List (FieldId × Word)) :
    groupRegs cfg [] ((f, v) :: ws) =
      (pos cfg f).reg :: groupRegs cfg [] (ws.filter fun w => (pos cfg w.1).reg != (pos cfg f).reg) := by
  rw [groupRegs, if_neg List.not_mem_nil, groupRegs_taken cfg (pos cfg f).reg ws (seen := []) (by simp)]

/-- A grouped write is the write of its first field's register, and then the group of the fields outside it. -/
theorem Bus.groupWrite_cons (cfg : Config) (f : FieldId) (v : Word) (ws : List (FieldId × Word)) (b : Bus) :
    b.groupWrite cfg ((f, v) :: ws) =
      (b.groupOne cfg ((f, v) :: ws) (pos cfg f).reg).groupWrite cfg
        (ws.filter fun w => (pos cfg w.1).reg != (pos cfg f).reg) := by
  rw [Bus.groupWrite, groupRegs_cons, List.foldl_cons, Bus.groupWrite]
  refine List.foldl_ext _ _ _ fun b' q hq => ?_
  have hne : q ≠ (pos cfg f).reg := by
    obtain ⟨-, w, hw, rfl⟩ := groupRegs_mem hq
    simpa using (List.mem_filter.1 hw).2
  have hfirst : groupValue cfg q (b'.base cfg q).1 ((f, v) :: ws) = groupValue cfg q (b'.base cfg q).1 ws := by
    rw [groupValue, if_neg hne.symm]
  simp only [Bus.groupOne, hfirst, groupValue_filter_other cfg hne]

/-- Settles O25: the first register's write is `Bus.groupOne`, whose value is its fields' in list order. -/
theorem groupedWriteTouchesEachRegisterOnce : Obligations.GroupedWriteTouchesEachRegisterOnce := by
  rintro cfg f v ws b x new reads r rfl hbase rfl
  rw [← groupValue_eq]
  exact ⟨rfl, _, Bus.groupWrite_cons .., Bus.groupOne_spec _ hbase⟩

end Sys2Proof.Machine
end


section
/-! The Completion Signal (41_completion.md): the handler `IRQ` (R160), `CLREV` (R161), and a pass of `AWAIT` in either
mode (R162 to R168). -/

namespace Sys2Proof.Machine

open Sys2Proof

/-! ## No settle due (R163, R164, R360) -/

/-- No settle is due: the delay has elapsed, or the mode does not ask for it (R163, R164, R360). -/
def State.PastSettle (s : State) : Prop := s.settled = true ∨ s.mode = some .interrupt ∧ s.cfg.settleIrq = false

/-- With no settle due no read of a flag register is early. -/
theorem State.PastSettle.not_early {s : State} (h : s.PastSettle) (r : RegId) : ¬ earlyRead s r = true := by
  rw [earlyRead_iff]
  rintro ⟨hmode, -, hset⟩
  obtain h | ⟨hm, hirq⟩ := h
  · simp [h] at hset
  · simp [hm, hirq] at hmode

/-- With no settle due a wait does not start with the settle step. -/
theorem State.PastSettle.not_mustSettle {s : State} (h : s.PastSettle) : ¬ s.mustSettle = true := by
  obtain h | ⟨hm, hirq⟩ := h
  · simp [State.mustSettle, h]
  · simp [State.mustSettle, hm, hirq]

/-- In interrupt mode no settle is due without `P_SETTLE_IRQ` or once the delay has elapsed. -/
theorem State.pastSettle_of_interrupt {s : State} (hm : s.mode = some .interrupt)
    (h : s.cfg.settleIrq = false ∨ s.settled = true) : s.PastSettle :=
  h.symm.imp_right fun hirq => ⟨hm, hirq⟩

/-! ## The handler (R160, R165) -/

/-- The duplicates a merge logs, as a list over the four events: each that is seen while its latch is set (R165). -/
theorem mergeLog_duplicates (cfg : Config) (v : Word) (l : Latches) :
    mergeLog cfg v true l =
      ([(FieldId.evCmdEnd, l.cmd), (.evDataEnd, l.data), (.evBusyEnd, l.busy), (.evErr, l.err)].filterMap fun w =>
        if fieldSet cfg v w.1 && w.2 then some (.spuriousDup w.1) else none) ++
      (if v &&& ~~~(eventMask cfg) = 0 then [] else [.unknownEvent (v &&& ~~~(eventMask cfg))]) := by
  have hdup (f : FieldId) (latched : Bool) : dupEntry cfg v f latched =
      (if fieldSet cfg v f && latched then some (LogEntry.spuriousDup f) else none).toList := by
    unfold dupEntry; split <;> rfl
  simp [mergeLog, List.filterMap_eq_flatMap_toList, hdup]

/-- Without duplicates a merge logs the unknown bits, if there are any (R165). -/
theorem mergeLog_no_duplicates (cfg : Config) (v : Word) (l : Latches) :
    mergeLog cfg v false l =
      if v &&& ~~~(eventMask cfg) = 0 then [] else [.unknownEvent (v &&& ~~~(eventMask cfg))] :=
  ite_not ..

/-- The handler's answers touch no device register (R160). -/
theorem State.wakeAndHandle_dev (s : State) : s.wakeAndHandle.bus.dev = s.bus.dev := by
  unfold State.wakeAndHandle
  cases s.lat.any <;> rfl

/-- A read of a register touches no other one, and no shadow (R75). -/
theorem Bus.onlyRegisters_regRead (cfg : Config) (r : RegId) (b : Bus) : OnlyRegisters [r] b (b.regRead cfg r).2 :=
  fun _ hq => ⟨rfl, RegFile.at_put_other _ _ fun e => hq (List.mem_singleton.2 e)⟩

/-- The handler's write-back leaves EVENT's shadow, if it has one, at the value read, and touches no other register. -/
theorem State.handleEvents_registers (v : Word) (b : Bus) (s : State) :
    ShadowIs s.cfg .event v b (s.handleEvents v b).bus ∧ OnlyRegisters [.event] b (s.handleEvents v b).bus := by
  obtain ⟨-, -, hshadow, honly⟩ := b.store_spec s.cfg .event v
  simp only [ShadowIs, OnlyRegisters, State.handleEvents, State.wakeAndHandle_shadow, State.wakeAndHandle_dev]
  exact ⟨hshadow, honly⟩

/-- The handler's transactions after its read of EVENT, with the wake where a latch is now set (R160). -/
theorem State.handleEvents_wake_trace (v : Word) (b : Bus) (s : State) :
    (s.handleEvents v b).bus.trace = b.trace ++ [.regWrite (off s.cfg .event) v] ++
      (if (s.handleEvents v b).lat.any then [.wake] else []) ++ [.handled] := by
  have hlat : (s.handleEvents v b).lat = mergedLatches s.cfg v s.lat := rfl
  rw [State.handleEvents_trace, hlat]
  split <;> simp

theorem exec_irq_of_no_handler {s : State} (h : s.mode ≠ some .interrupt) : exec .irq s = .refused .noHandler :=
  if_neg h

theorem exec_irq_of_early {s : State} (h : s.mode = some .interrupt) (he : earlyRead s .event = true) :
    exec .irq s = .fault .earlyFlagRead := by
  simp only [exec, execIrq, if_pos h, readReg_of_early he]

theorem exec_irq_of_not_early {s : State} (h : s.mode = some .interrupt) (he : ¬ earlyRead s .event = true) :
    exec .irq s = .next (s.handleEvents s.bus.draws.nextRead (s.bus.regRead s.cfg .event).2) := by
  simp only [exec, execIrq, if_pos h, readReg_of_not_early he]
  rfl

/-- Settles O26: no handler, the hazard's fault, or one read, its write-back, the merge and the handler's answers. -/
theorem irqLatchesAndClearsWhatItRead : Obligations.IrqLatchesAndClearsWhatItRead := by
  rintro s v u rfl rfl
  refine ⟨exec_irq_of_no_handler, fun hm hirq hset => exec_irq_of_early hm ?_, fun hm hcalm => ?_⟩
  · exact (earlyRead_iff s .event).2 ⟨.inr hirq, .inl rfl, hset⟩
  · obtain ⟨hshadow, honly⟩ :=
      s.handleEvents_registers s.bus.draws.nextRead (s.bus.regRead s.cfg .event).2
    refine ⟨_, exec_irq_of_not_early hm ((s.pastSettle_of_interrupt hm hcalm).not_early _), rfl, rfl, ?_, ?_, hshadow,
      OnlyRegisters.trans (s.bus.onlyRegisters_regRead s.cfg .event) honly⟩
    · rw [List.append_assoc]
      exact congrArg (s.log ++ ·) (mergeLog_duplicates ..)
    · rw [State.handleEvents_wake_trace, Bus.regRead_trace, List.append_assoc s.bus.trace]
      rfl

/-! ## CLREV (R161) -/

/-- The last value put in a register is the one that stands. -/
theorem RegFile.put_put {α : Type} (v : RegFile α) (r : RegId) (x y : α) :
    RegFile.put (RegFile.put v r x) r y = RegFile.put v r y :=
  Vector.set_set ..

/-- A write of the same value again leaves the shadows as they are. -/
theorem Bus.store_store_shadow (cfg : Config) (r : RegId) (v : Word) (b : Bus) :
    ((b.store cfg r v).store cfg r v).shadow = (b.store cfg r v).shadow := by
  cases hc : cached cfg r with
  | false => rw [Bus.store_shadow_volatile hc]
  | true => simp [Bus.store, Bus.setShadow_cached hc, RegFile.put_put]

/-- What a device register holds after a write does not change when the same value is written again (R75). -/
theorem deviceAfterWrite_twice (cfg : Config) (r : RegId) (x v : Word) :
    deviceAfterWrite cfg r (deviceAfterWrite cfg r x v) v = deviceAfterWrite cfg r x v := by
  unfold deviceAfterWrite
  split
  · split
    · rw [BitVec.and_assoc, BitVec.and_self]
    · rfl
  · split
    · rw [BitVec.and_assoc, BitVec.and_self]
    · rfl
  · rfl

/-- A write of the same value again leaves the device's registers as they are. -/
theorem Bus.store_store_dev (cfg : Config) (r : RegId) (v : Word) (b : Bus) :
    ((b.store cfg r v).store cfg r v).dev = (b.store cfg r v).dev := by
  simp [deviceAfterWrite_twice, RegFile.put_put]

/-- Settles O27: one store to EVENT, whose repetition changes no register (`Bus.store_store_dev`). -/
theorem clrevClearsEventsAndLatches : Obligations.ClrevClearsEventsAndLatches := by
  intro s
  obtain ⟨htrace, hdraws, hshadow, honly⟩ := s.bus.store_spec s.cfg .event 0xFFFF
  refine ⟨s.clearEvents.advance, rfl, rfl, htrace, hdraws, fun hw1c => ?_, hshadow, honly,
    _, rfl, Bus.store_store_shadow .., Bus.store_store_dev .., rfl⟩
  have hdev : RegFile.at (s.bus.store s.cfg .event 0xFFFF).dev .event =
      deviceAfterWrite s.cfg .event (RegFile.at s.bus.dev .event) 0xFFFF := by
    rw [Bus.store_dev, RegFile.at_put_same]
  refine hdev.trans ?_
  rw [deviceAfterWrite_w1c (.inl ⟨rfl, hw1c⟩)]
  exact BitVec.and_zero

/-! ## One step of `AWAIT` -/

theorem exec_await_of_settle {need : WaitSet} {tobj : Obj} {s : State} (ho : s.req.has tobj = true)
    (hm : s.mode ≠ none) (h : s.mustSettle = true) :
    exec (.await need tobj) s = .next (s.noteWait tobj).settle := by
  have hs : (s.noteWait tobj).mustSettle = true := h
  simp only [exec, execAwait, if_pos ho, if_pos hs]
  cases hmode : s.mode with
  | none => exact absurd hmode hm
  | some m => cases m <;> rfl

theorem exec_await_interrupt {need : WaitSet} {tobj : Obj} {s : State} (ho : s.req.has tobj = true)
    (hm : s.mode = some .interrupt) (h : s.PastSettle) :
    exec (.await need tobj) s = awaitInterrupt need (s.noteWait tobj) := by
  have hs : ¬ (s.noteWait tobj).mustSettle = true := h.not_mustSettle
  simp only [exec, execAwait, if_pos ho, if_neg hs, hm]

theorem exec_await_polling {need : WaitSet} {tobj : Obj} {s : State} (ho : s.req.has tobj = true)
    (hm : s.mode = some .polling) (h : s.PastSettle) :
    exec (.await need tobj) s = awaitPolling need (s.noteWait tobj) := by
  have hs : ¬ (s.noteWait tobj).mustSettle = true := h.not_mustSettle
  simp only [exec, execAwait, if_pos ho, if_neg hs, hm]

/-- The successful end of a wait reads STATUS once (R168). -/
theorem finishWait_of_pastSettle {s : State} (h : s.PastSettle) :
    finishWait s = .next (s.awaitDone s.bus.draws.nextRead (s.bus.regRead s.cfg .status).2) := by
  rw [finishWait, readReg_of_not_early (h.not_early _)]
  rfl

/-- Where the condition holds a pass ends the wait, in either mode (R167). -/
theorem exec_await_of_cond {need : WaitSet} {tobj : Obj} {s : State} (ho : s.req.has tobj = true)
    (hm : s.mode ≠ none) (h : s.PastSettle) (hc : cond s.lat need = true) :
    exec (.await need tobj) s =
      .next ((s.noteWait tobj).awaitDone s.bus.draws.nextRead (s.bus.regRead s.cfg .status).2) := by
  have hfinish := finishWait_of_pastSettle (s := s.noteWait tobj) h
  cases hmode : s.mode with
  | none => exact absurd hmode hm
  | some m =>
    cases m with
    | interrupt => exact (exec_await_interrupt ho hmode h).trans ((if_pos hc).trans hfinish)
    | polling => exact (exec_await_polling ho hmode h).trans ((if_pos hc).trans hfinish)

/-- Settles O28: a pass whose condition holds (`exec_await_of_cond`). -/
theorem awaitReturnsAtOnceWhenItsConditionHolds : Obligations.AwaitReturnsAtOnceWhenItsConditionHolds := by
  intro need tobj s ho hm hset hc
  exact ⟨_, exec_await_of_cond ho hm hset ((cond_iff _ _).2 hc), rfl, rfl, (drawsAfter_one _).symm, rfl⟩

/-! ## Passes that go on (R163, R164) -/

/-- A pass in interrupt mode whose condition fails draws expiry, and nothing else (R163). -/
theorem exec_await_interrupt_of_unmet {need : WaitSet} {tobj : Obj} {s : State} (ho : s.req.has tobj = true)
    (hm : s.mode = some .interrupt) (h : s.PastSettle) (hc : ¬ cond s.lat need = true) :
    exec (.await need tobj) s = .next
      (if s.bus.draws.nextExpired then ({ s.noteWait tobj with bus := s.bus.drawExpired.2 } : State).awaitTimedOut
      else ({ s.noteWait tobj with bus := s.bus.drawExpired.2 } : State).awaitAgain) :=
  (exec_await_interrupt ho hm h).trans (if_neg hc)

/-- Settles O29: the settle step, a pass whose condition holds, or one that draws expiry. -/
theorem awaitInInterruptModeWaitsForALatch : Obligations.AwaitInInterruptModeWaitsForALatch := by
  intro need tobj s ho hm
  have hmode : s.mode ≠ none := by simp [hm]
  refine ⟨fun hirq hset hloop => ⟨_, exec_await_of_settle ho hmode ?_, rfl⟩, fun hset hc => ?_, fun hset hc => ?_⟩
  · simp [State.mustSettle, hirq, hset, hloop]
  · exact ⟨_, exec_await_of_cond ho hmode (s.pastSettle_of_interrupt hm hset) hc, rfl, rfl, rfl⟩
  · rw [exec_await_interrupt_of_unmet ho hm (s.pastSettle_of_interrupt hm hset) (by simp [hc])]
    cases s.bus.draws.nextExpired with
    | true => exact ⟨_, rfl, rfl, fun _ => rfl, nofun⟩
    | false => exact ⟨_, rfl, rfl, nofun, fun _ => rfl⟩

/-- What a polling pass makes of its read of EVENT: the value is ORed into the latches, with no duplicate logged, and
not written back (R164, R165). -/
def State.pollEvents (s : State) : State :=
  ({ s with bus := (s.bus.regRead s.cfg .event).2 } : State).latchMerge s.bus.draws.nextRead false

/-- A pass in polling mode whose condition fails reads EVENT; then the condition ends the wait or expiry is drawn
(R164). -/
theorem exec_await_polling_of_unmet {need : WaitSet} {tobj : Obj} {s : State} (ho : s.req.has tobj = true)
    (hm : s.mode = some .polling) (h : s.PastSettle) (hc : ¬ cond s.lat need = true) :
    exec (.await need tobj) s =
      if cond (mergedLatches s.cfg s.bus.draws.nextRead s.lat) need then finishWait (s.noteWait tobj).pollEvents
      else .next
        (if s.pollEvents.bus.draws.nextExpired then
          ({ (s.noteWait tobj).pollEvents with bus := s.pollEvents.bus.drawExpired.2 } : State).awaitTimedOut
        else
          ({ (s.noteWait tobj).pollEvents with
            bus := s.pollEvents.bus.drawExpired.2.emit (.delay s.cfg.pollInterval) } : State).awaitAgain) := by
  have hread := readReg_of_not_early (s := s.noteWait tobj) (r := .event) (State.PastSettle.not_early h _)
  have hunmet : ¬ cond (s.noteWait tobj).lat need = true := hc
  rw [exec_await_polling ho hm h, awaitPolling, if_neg hunmet, hread]
  rfl

/-- Settles O30: the settle step, a pass whose condition holds, or one that reads EVENT and then succeeds or draws
expiry. -/
theorem awaitInPollingModeReadsEvents : Obligations.AwaitInPollingModeReadsEvents := by
  rintro need tobj s v w e l d log ho hm rfl hd rfl rfl hl hlog
  obtain rfl : d = s.pollEvents.bus.draws := hd.trans (drawsAfter_one _)
  obtain rfl : l = mergedLatches s.cfg s.bus.draws.nextRead s.lat := hl
  obtain rfl : log = mergeLog s.cfg s.bus.draws.nextRead false s.lat := hlog.trans (mergeLog_no_duplicates ..).symm
  have hmode : s.mode ≠ none := by simp [hm]
  refine ⟨fun hset hloop => ⟨_, exec_await_of_settle ho hmode ?_, rfl⟩, fun hset hc => ?_, fun hset hc => ?_⟩
  · simp [State.mustSettle, hm, hset, hloop]
  · exact ⟨_, exec_await_of_cond ho hmode (.inl hset) hc, rfl, rfl, rfl⟩
  · have htrace (e : Event) : s.bus.trace ++ [.regRead (off s.cfg .event) s.bus.draws.nextRead] ++ [e] =
        s.bus.trace ++ [.regRead (off s.cfg .event) s.bus.draws.nextRead, e] := List.append_assoc ..
    rw [exec_await_polling_of_unmet ho hm (.inl hset) (by simp [hc])]
    cases hl : cond (mergedLatches s.cfg s.bus.draws.nextRead s.lat) need with
    | true =>
      have hend : (s.noteWait tobj).pollEvents.PastSettle := .inl hset
      rw [if_pos rfl, finishWait_of_pastSettle hend]
      exact ⟨_, rfl, rfl, fun _ => ⟨rfl, htrace _⟩, nofun, nofun⟩
    | false =>
      rw [if_neg Bool.false_ne_true]
      cases s.pollEvents.bus.draws.nextExpired with
      | true => exact ⟨_, rfl, rfl, nofun, fun _ _ => ⟨rfl, rfl⟩, nofun⟩
      | false => exact ⟨_, rfl, rfl, nofun, nofun, fun _ _ => ⟨rfl, htrace _⟩⟩

/-! ## The timeouts of a wait (R162, C6) -/

/-- A wait that ends with success leaves the recorded timeouts as they are. -/
theorem finishWait_timeouts {s t : State} (h : finishWait s = .next t) :
    t.waitTmo = s.waitTmo ∧ t.waitArg = s.waitArg := by
  obtain ⟨-, rfl⟩ := finishWait_next h
  exact ⟨rfl, rfl⟩

/-- Whatever a step of `AWAIT` does, it has recorded the two timeouts of the wait first. -/
theorem execAwait_timeouts {need : WaitSet} {tobj : Obj} {s t : State} (h : execAwait need tobj s = .next t) :
    t.waitTmo = governingTimeout s tobj ∧ t.waitArg = waitArgument s tobj := by
  obtain ⟨-, ⟨-, rfl⟩ | ⟨-, ⟨-, h⟩ | ⟨-, h⟩⟩⟩ := execAwait_next h
  · exact ⟨rfl, rfl⟩
  · obtain ⟨-, hend⟩ | ⟨-, rfl | rfl⟩ := awaitInterrupt_next h
    · exact finishWait_timeouts hend
    · exact ⟨rfl, rfl⟩
    · exact ⟨rfl, rfl⟩
  · obtain ⟨-, hend⟩ | ⟨-, -, s1, rfl, ⟨-, hend⟩ | rfl | rfl⟩ := awaitPolling_next h
    · exact finishWait_timeouts hend
    · exact finishWait_timeouts hend
    · exact ⟨rfl, rfl⟩
    · exact ⟨rfl, rfl⟩

/-- A wait for a command object has the command's own timeout, or the default where it gives none (R162). -/
theorem waitArgument_command (s : State) (o : CmdId) :
    waitArgument s o.toObj =
      (s.req.command o).map fun c => c.input.busyTmo.getD s.cfg.cmdDefaultTimeout := by
  cases o <;> rfl

/-- Settles O31: every step records the wait's timeouts (`execAwait_timeouts`); the condition is `cond_iff`. -/
theorem awaitRecordsItsTimeout : Obligations.AwaitRecordsItsTimeout := by
  refine ⟨fun need tobj s t h => ?_, cond_iff, rfl⟩
  obtain ⟨htmo, harg⟩ := execAwait_timeouts h
  rw [htmo, harg]
  refine ⟨rfl, ?_, ?_⟩
  · rintro d rfl hd
    simp [waitArgument, hd]
  · rintro o c rfl hc
    rw [waitArgument_command, hc]
    cases hb : c.input.busyTmo <;> simp [hb]

end Sys2Proof.Machine
end

section
/-! The Command Unit (42_command_unit.md): `WCHK` (R194), `TRIG` (R193) and what `CISSUE` writes (R191). -/

namespace Sys2Proof.Machine

open Sys2Proof

/-! ## WCHK (R194) -/

theorem exec_wchk {o : Obj} {s : State} (h : s.req.has o = true) :
    exec (.wchk o) s =
      .next (if waitFailed s.wres s.lat.err s.snap then s.raise .timeout o else s).advance :=
  if_pos h

theorem waitFailed_iff (wres : Option WaitRes) (err : Bool) (snap : Option Word) :
    waitFailed wres err snap = true ↔ wres = some .timeout ∨ err = true ∧ snap = some 0 := by
  simp [waitFailed]

/-- Settles O33: the two clauses are the two answers of `waitFailed`. -/
theorem wchkClassifiesTheWait : Obligations.WchkClassifiesTheWait := by
  intro o s ho
  rw [exec_wchk ho]
  refine ⟨fun h => ?_, fun h => ?_⟩
  · rw [if_pos ((waitFailed_iff ..).2 (h.imp_right And.right))]
  · rw [if_neg (mt (waitFailed_iff ..).1 h)]
    rfl

/-! ## Field writes of an operation (R141, R360) -/

theorem afterWrites_of_early {s : State} {b : Bus} {fs : List FieldId}
    (h : ∃ f ∈ fs, EarlyBase s b (pos s.cfg f).reg) (t : State) : afterWrites s b fs t = .fault .earlyFlagRead :=
  (afterWrites_eq s b fs t).1 h

theorem afterWrites_of_not_early {s : State} {b : Bus} {fs : List FieldId}
    (h : ∀ f ∈ fs, ¬ EarlyBase s b (pos s.cfg f).reg) (t : State) : afterWrites s b fs t = .next t :=
  (afterWrites_eq s b fs t).2 fun ⟨f, hf, hearly⟩ => h f hf hearly

/-! ## TRIG (R193) -/

theorem exec_trig (s : State) :
    exec .trig s = afterWrites s s.bus [.jobStart]
      { s with bus := s.bus.fieldForce s.cfg .jobStart 1, settled := false, armed := true, upc := s.upc + 1 } := rfl

/-- Settles O37: the hazard's fault, or what a forced field write leaves (`Bus.fieldForce_spec`). -/
theorem trigAlwaysWritesJobStart : Obligations.TrigAlwaysWritesJobStart := by
  rintro s r x reads rfl hbase
  rw [exec_trig]
  exact ⟨fun hearly => afterWrites_of_early ⟨_, List.mem_singleton_self _, hearly⟩ _,
    fun hcalm => ⟨_, afterWrites_of_not_early (by simpa using hcalm) _, rfl, Bus.fieldForce_spec 1 hbase⟩⟩

/-! ## CISSUE (R191) -/

theorem exec_cissue {o : CmdId} {c : CommandObj} {s : State} (hc : s.req.command o = some c)
    (hr : c.input.rsp ≠ .reserved) :
    exec (.cissue o) s = afterWrites s s.clearEvents.bus issueFields
      ({ s.clearEvents with
        bus := s.clearEvents.bus.issue s.cfg c.input
        req := s.req.setCommand o c.issued } : State).advance := by
  simp only [exec, execCissue, hc, if_neg hr]

/-- The expected size in the field's width, kind by kind (R108). -/
theorem sizeFields_eq (cfg : Config) (c : Command) :
    sizeFields cfg c = [(.cmdSize, cfg.cmdSize),
      (.rspSize, match c.rsp with | .none => 0 | .short => 5 | .long => 16 | .reserved => 0)] := by
  unfold sizeFields
  cases c.rsp <;> rfl

/-- The control bits as the record's fields decide them (R191). -/
theorem controlFields_eq (c : Command) :
    controlFields c = [(.rspEn, if c.rsp = .none then 0 else 1), (.rspLong, if c.rsp = .long then 1 else 0),
      (.crcChkEn, if c.crc then 1 else 0), (.busyDetEn, if c.busy then 1 else 0)] := by
  unfold controlFields
  cases c.rsp <;> rfl

/-- Settles O35: the hazard's fault, or the writes of `Bus.issue` with the fields written out. -/
theorem cissueConfiguresTheCommand : Obligations.CissueConfiguresTheCommand := by
  intro o c s hc hr
  rw [exec_cissue hc hr]
  refine ⟨fun hearly => afterWrites_of_early hearly _, fun hcalm =>
    ⟨_, afterWrites_of_not_early hcalm _, rfl, ?_, fun p hp => Request.setCommand_other _ _ hp,
      Request.setCommand_data .., ?_⟩⟩
  · refine (Request.setCommand_same ..).trans ?_
    unfold CommandObj.issued
    cases c.input.rsp <;> rfl
  · simp only [State.advance_bus, Bus.issue, sizeFields_eq, controlFields_eq]
    rfl

end Sys2Proof.Machine
end

section
/-! `CISSUE` in the reference layout (R30, R31): its transactions one by one (R191, R150). -/

namespace Sys2Proof.Machine

open Sys2Proof

/-! ## The reference layout (R30, R31) -/

theorem pos_of_reference {cfg : Config} (h : ReferenceLayout cfg) (f : FieldId) : pos cfg f = refPos f := by
  rw [pos, h.1]
  cases f <;> rfl

theorem off_of_reference {cfg : Config} (h : ReferenceLayout cfg) {r : RegId} (hr : r.named = true) :
    off cfg r = refOffset r := by
  rw [off, h.1]
  cases r with
  | rspBuf8 => cases hr
  | further k => cases hr
  | _ => rfl

/-! ## Bases and grouped writes -/

/-- A base is decided by the register's own shadow and the draws (R141). -/
theorem BaseOf.congr {cfg : Config} {b b' : Bus} {r : RegId} {x : Word} {reads : List Event}
    (h : BaseOf cfg b r x reads) (hs : RegFile.at b'.shadow r = RegFile.at b.shadow r) (hd : b'.draws = b.draws) :
    BaseOf cfg b' r x reads := by
  unfold BaseOf
  rw [hs, hd]
  exact h

/-- A group whose fields all stand in one register is one write of that register (R150). -/
theorem Bus.groupWrite_of_one_register {cfg : Config} {r : RegId} {f : FieldId} {v : Word}
    {ws : List (FieldId × Word)} (h : ∀ w ∈ (f, v) :: ws, (pos cfg w.1).reg = r) (b : Bus) :
    b.groupWrite cfg ((f, v) :: ws) = b.groupOne cfg ((f, v) :: ws) r := by
  obtain ⟨rfl, hws⟩ := List.forall_mem_cons.1 h
  have hnone : ws.filter (fun w => (pos cfg w.1).reg != (pos cfg f).reg) = [] :=
    List.filter_eq_nil_iff.2 fun w hw => by simp [hws w hw]
  rw [Bus.groupWrite_cons, hnone]
  rfl

theorem Bus.groupWrite_clearControl {cfg : Config} (h : ReferenceLayout cfg) (b : Bus) :
    b.groupWrite cfg clearControl = b.groupOne cfg clearControl .ctrl :=
  Bus.groupWrite_of_one_register (by simp [pos_of_reference h, refPos]) b

theorem Bus.groupWrite_sizeFields {cfg : Config} (h : ReferenceLayout cfg) (c : Command) (b : Bus) :
    b.groupWrite cfg (sizeFields cfg c) = b.groupOne cfg (sizeFields cfg c) .cmdRspSize :=
  Bus.groupWrite_of_one_register (by simp [pos_of_reference h, refPos]) b

theorem Bus.groupWrite_controlFields {cfg : Config} (h : ReferenceLayout cfg) (c : Command) (b : Bus) :
    b.groupWrite cfg (controlFields c) = b.groupOne cfg (controlFields c) .ctrl :=
  Bus.groupWrite_of_one_register (by simp [pos_of_reference h, refPos]) b

/-- The transactions of the frame's three writes (R107). -/
def frameEvents (cfg : Config) (c : Command) : List Event :=
  [.regWrite (off cfg .cmdBuf0) (frameWords cfg.frameMarker c.opcode c.arg)[0],
   .regWrite (off cfg .cmdBuf1) (frameWords cfg.frameMarker c.opcode c.arg)[1],
   .regWrite (off cfg .cmdBuf2) (frameWords cfg.frameMarker c.opcode c.arg)[2]]

/-- Everything the frame's three writes leave (R107, R191). -/
theorem Bus.writeFrame_spec (cfg : Config) (c : Command) (b : Bus) :
    (b.writeFrame cfg c).trace = b.trace ++ frameEvents cfg c ∧ (b.writeFrame cfg c).draws = b.draws ∧
    OnlyRegisters [.cmdBuf0, .cmdBuf1, .cmdBuf2] b (b.writeFrame cfg c) := by
  have honly (r : RegId) (hr : r ∈ [RegId.cmdBuf0, .cmdBuf1, .cmdBuf2]) (v : Word) (b : Bus) :
      OnlyRegisters [.cmdBuf0, .cmdBuf1, .cmdBuf2] b (b.store cfg r v) := by
    obtain ⟨-, -, -, h⟩ := b.store_spec cfg r v
    exact OnlyRegisters.mono h (by simpa using hr)
  refine ⟨by simp [Bus.writeFrame, frameEvents], by simp [Bus.writeFrame], ?_⟩
  exact OnlyRegisters.trans (honly .cmdBuf0 (by simp) _ b)
    (OnlyRegisters.trans (honly .cmdBuf1 (by simp) _ _) (honly .cmdBuf2 (by simp) _ _))

/-! ## The values of `CISSUE`'s groups -/

theorem putField_zero (p : FieldPos) (x : Word) : putField p x 0 = x &&& ~~~(fieldMask p) := by
  simp [putField]

theorem groupValue_clearControl {cfg : Config} (h : ReferenceLayout cfg) (x : Word) :
    groupValue cfg .ctrl x clearControl = x &&& 0xFF80 := by
  simp only [clearControl, groupValue, pos_of_reference h, refPos, if_true, putField_zero, BitVec.and_assoc]
  rfl

/-- The two size fields share the register between them, so nothing of its base is left. -/
theorem groupValue_sizeFields {cfg : Config} (h : ReferenceLayout cfg) (c : Command) (x : Word) :
    groupValue cfg .cmdRspSize x (sizeFields cfg c) =
      (cfg.cmdSize <<< 8) ||| BitVec.ofNat 16 (expectedBytes c.rsp) := by
  have hbase : x &&& 0x00FF#16 &&& 0xFF00#16 = 0#16 := by rw [BitVec.and_assoc]; exact BitVec.and_zero
  have hhigh : cfg.cmdSize <<< 8 &&& 0xFF00#16 = cfg.cmdSize <<< 8 :=
    (BitVec.shiftLeft_and_distrib cfg.cmdSize (BitVec.allOnes 16) 8).symm.trans (by rw [BitVec.and_allOnes])
  have hvalue : groupValue cfg .cmdRspSize x (sizeFields cfg c) =
      ((x &&& 0x00FF#16 ||| cfg.cmdSize <<< 8) &&& 0xFF00#16) ||| BitVec.ofNat 16 (expectedBytes c.rsp) := by
    simp only [sizeFields, groupValue, pos_of_reference h, refPos, if_true, putField, BitVec.shiftLeft_zero]
    rfl
  rw [hvalue, BitVec.and_or_distrib_right, hbase, hhigh, BitVec.zero_or]

/-- A one-bit field that is clear takes a truth value by an OR of its bit. -/
theorem putField_flag {p : FieldPos} {x : Word} (h : x &&& fieldMask p = 0#16) (b : Bool) :
    putField p x (bitValue b) = x ||| (if b then 1#16 <<< p.lo else 0#16) := by
  have hx : x &&& ~~~(fieldMask p) = x := by
    calc x &&& ~~~(fieldMask p)
      _ = (x &&& fieldMask p) ||| (x &&& ~~~(fieldMask p)) := by rw [h, BitVec.zero_or]
      _ = x := by rw [← BitVec.and_or_distrib_left, BitVec.or_not_self, BitVec.and_allOnes]
  rw [putField, hx]
  cases b
  · exact congrArg (x ||| ·) (BitVec.zero_shiftLeft _)
  · rfl

/-- The four control bits are clear after the clear of CTRL, so each takes its value by an OR. -/
theorem groupValue_controlFields {cfg : Config} (h : ReferenceLayout cfg) (c : Command) (x : Word) :
    groupValue cfg .ctrl (x &&& 0xFF80#16) (controlFields c) =
      (x &&& 0xFF80#16) ||| (if c.rsp != .none then 1#16 else 0#16) ||| (if c.rsp == .long then 2#16 else 0#16) |||
        (if c.crc then 4#16 else 0#16) ||| (if c.busy then 8#16 else 0#16) := by
  have hbase (m : Word) (hm : 0xFF80#16 &&& m = 0#16) : x &&& 0xFF80#16 &&& m = 0#16 := by
    rw [BitVec.and_assoc, hm, BitVec.and_zero]
  have hflag (b : Bool) (k m : Word) (hk : k &&& m = 0#16) : (if b then k else 0#16) &&& m = 0#16 := by
    cases b
    · exact BitVec.zero_and
    · exact hk
  simp only [controlFields, groupValue, pos_of_reference h, refPos, if_true]
  rw [putField_flag (p := ⟨.ctrl, 0, 1⟩), putField_flag (p := ⟨.ctrl, 1, 1⟩), putField_flag (p := ⟨.ctrl, 2, 1⟩),
    putField_flag (p := ⟨.ctrl, 3, 1⟩)]
  · rfl
  all_goals
    simp (disch := decide) only [BitVec.and_or_distrib_right, hbase, hflag, BitVec.or_zero]

/-! ## The transactions of `CISSUE` -/

/-- Everything the writes of `CISSUE` leave where its control fields share CTRL and its size fields CMD_RSP_SIZE. -/
theorem Bus.issue_of_reference {cfg : Config} (h : ReferenceLayout cfg) (c : Command) {b : Bus}
    {c0 z0 c1 z1 c2 : Word} {r0 r1 : List Event} (hbase0 : BaseOf cfg b .ctrl c0 r0)
    (hbase1 : BaseOf cfg { b with draws := drawsAfter r0.length b.draws } .cmdRspSize z0 r1)
    (hc1 : groupValue cfg .ctrl c0 clearControl = c1)
    (hz1 : groupValue cfg .cmdRspSize z0 (sizeFields cfg c) = z1)
    (hc2 : groupValue cfg .ctrl c1 (controlFields c) = c2) :
    (b.issue cfg c).trace = b.trace ++ r0 ++ (if c1 = c0 then [] else [Event.regWrite (off cfg .ctrl) c1]) ++
      frameEvents cfg c ++ r1 ++ (if z1 = z0 then [] else [Event.regWrite (off cfg .cmdRspSize) z1]) ++
      (if c2 = c1 then [] else [Event.regWrite (off cfg .ctrl) c2]) ∧
    RegFile.at (b.issue cfg c).shadow .ctrl = some c2 ∧ RegFile.at (b.issue cfg c).shadow .cmdRspSize = some z1 ∧
    OnlyRegisters [.ctrl, .cmdRspSize, .cmdBuf0, .cmdBuf1, .cmdBuf2] b (b.issue cfg c) := by
  have hctrl : cached cfg .ctrl = true := h.2 .ctrl
  have hsize : cached cfg .cmdRspSize = true := h.2 .cmdRspSize
  rw [Bus.issue, Bus.groupWrite_clearControl h, Bus.groupWrite_sizeFields h, Bus.groupWrite_controlFields h]
  obtain ⟨htrace1, hdraws1, hshadow1, honly1⟩ := Bus.groupOne_spec clearControl hbase0
  obtain ⟨htrace2, hdraws2, honly2⟩ := (b.groupOne cfg clearControl .ctrl).writeFrame_spec cfg c
  have hsize2 := (honly2 .cmdRspSize (by decide)).1.trans (honly1 .cmdRspSize (by decide)).1
  obtain ⟨htrace3, -, hshadow3, honly3⟩ :=
    Bus.groupOne_spec (sizeFields cfg c) (BaseOf.congr hbase1 hsize2 (hdraws2.trans hdraws1))
  have hctrl3 := (honly3 .ctrl (by decide)).1.trans ((honly2 .ctrl (by decide)).1.trans (hshadow1.1 hctrl))
  rw [hc1] at htrace1 hctrl3
  rw [hz1] at htrace3 hshadow3
  obtain ⟨htrace4, -, hshadow4, honly4⟩ := Bus.groupOne_spec (controlFields c) (BaseOf.of_shadow hctrl hctrl3)
  rw [hc2] at htrace4 hshadow4
  refine ⟨by rw [htrace4, htrace3, htrace2, htrace1, List.append_nil], hshadow4.1 hctrl,
    (honly4 _ (by decide)).1.trans (hshadow3.1 hsize), ?_⟩
  exact OnlyRegisters.trans (OnlyRegisters.mono honly1 (by decide)) (OnlyRegisters.trans
    (OnlyRegisters.mono honly2 (by decide)) (OnlyRegisters.trans (OnlyRegisters.mono honly3 (by decide))
      (OnlyRegisters.mono honly4 (by decide))))

/-- Settles O36: the event clear touches neither base, and the groups' values are those of the reference fields. -/
theorem cissueTransactionsInTheReferenceLayout : Obligations.CissueTransactionsInTheReferenceLayout := by
  rintro o c s t c0 z0 c1 z1 c2 r0 r1 n href - hc h hbase0 hbase1 hn hc1 hz1 hc2
  obtain ⟨c', hc', -, -, rfl⟩ := execCissue_next h
  obtain rfl : c' = c := Option.some.inj (hc'.symm.trans hc)
  have hn : n = expectedBytes c'.input.rsp := hn.trans (by cases c'.input.rsp <;> rfl)
  have hcontrol : groupValue s.cfg .ctrl c1 (controlFields c'.input) = c2 := by
    rw [hc2, hc1]
    refine (groupValue_controlFields href ..).trans ?_
    cases c'.input.rsp <;> rfl
  have hsizes : groupValue s.cfg .cmdRspSize z0 (sizeFields s.cfg c'.input) = z1 := by
    rw [groupValue_sizeFields href, hz1, hn]
  obtain ⟨htrace, hdraws, -, honly⟩ := s.bus.store_spec s.cfg .event 0xFFFF
  have hkept {r : RegId} (hr : r ∉ [RegId.event]) := (honly r hr).1
  obtain ⟨hissue, hctrl, hsize, hregs⟩ := Bus.issue_of_reference href c'.input
    (BaseOf.congr hbase0 (hkept (by decide)) hdraws) (BaseOf.congr hbase1 (hkept (by decide)) (by rw [hdraws]))
    ((groupValue_clearControl href c0).trans hc1.symm) hsizes hcontrol
  rw [htrace] at hissue
  simp (disch := decide) only [frameEvents, off_of_reference href] at hissue
  exact ⟨hissue, hctrl, hsize, OnlyRegisters.trans (OnlyRegisters.mono honly (by decide))
    (OnlyRegisters.mono hregs (by decide))⟩

end Sys2Proof.Machine
end

section
/-! `CCAPT` (42_command_unit.md): the decision order (R195) and the response read with its echo test (R196). -/

namespace Sys2Proof.Machine

open Sys2Proof

/-! ## CCAPT: the decision order (R195) -/

theorem exec_ccapt_of_no_success {o : CmdId} {c : CommandObj} {s : State} (hc : s.req.command o = some c)
    (hw : s.wres ≠ some .ok) : exec (.ccapt o) s = .fault .unmodelled := by
  simp only [exec, execCcapt, hc]
  split
  · exact absurd ‹_› hw
  · rfl

theorem exec_ccapt {o : CmdId} {c : CommandObj} {s : State} {v : Word} (hc : s.req.command o = some c)
    (hw : s.wres = some .ok) (hv : s.snap = some v) : exec (.ccapt o) s = .next (s.capture o c v).advance := by
  simp only [exec, execCcapt, hc, hw, hv]

theorem State.capture_of_noRsp {s : State} {v : Word} (h : fieldSet s.cfg v .stNoRsp = true) (o : CmdId)
    (c : CommandObj) : s.capture o c v = s.raise .noResponse o.toObj :=
  if_pos h

theorem State.capture_of_crc {s : State} {v : Word} {c : CommandObj} (hn : fieldSet s.cfg v .stNoRsp = false)
    (h : fieldSet s.cfg v .stCmdRspCrc = true) (hc : c.input.crc = true) (o : CmdId) :
    s.capture o c v = s.raise .crcMismatch o.toObj := by
  simp [State.capture, hn, h, hc]

theorem State.capture_of_no_crc {s : State} {v : Word} (hn : fieldSet s.cfg v .stNoRsp = false)
    (h : fieldSet s.cfg v .stCmdRspCrc = false) (o : CmdId) (c : CommandObj) :
    s.capture o c v = s.captureRest o c v := by
  simp [State.capture, hn, h]

/-- A CRC bit of a command without CRC checking is cleared and logged, and the order goes on (R195). -/
theorem State.capture_of_ignored_crc {s : State} {v : Word} {c : CommandObj}
    (hn : fieldSet s.cfg v .stNoRsp = false) (h : fieldSet s.cfg v .stCmdRspCrc = true) (hc : c.input.crc = false)
    (o : CmdId) :
    s.capture o c v = (s.ignoreCrc c v).captureRest o c (v &&& ~~~(fieldMask (pos s.cfg .stCmdRspCrc))) := by
  simp [State.capture, hn, h, hc]

theorem fieldSet_iff (cfg : Config) (v : Word) (f : FieldId) :
    fieldSet cfg v f = true ↔ getField (pos cfg f) v = 1 := beq_iff_eq

theorem State.captureRest_of_busy {s : State} {v : Word} (h : getField (pos s.cfg .stCardBusy) v = 1) (o : CmdId)
    (c : CommandObj) : s.captureRest o c v = s :=
  if_pos ((fieldSet_iff ..).2 h)

/-- With the card not busy, bits that no step asks for are logged, and the response is read (R195, R196). -/
theorem State.captureRest_of_not_busy {s : State} {v : Word} (h : getField (pos s.cfg .stCardBusy) v ≠ 1) (o : CmdId)
    (c : CommandObj) :
    s.captureRest o c v =
      State.readResponse o c (if v &&& ~~~(captMask s.cfg) = 0 then s
        else s.addLog [.unexpectedStatus (v &&& ~~~(captMask s.cfg))]) := by
  simp only [State.captureRest, if_neg (mt (fieldSet_iff ..).1 h), ite_not]

/-- Settles O38: one lemma for each way through `State.capture` and `State.captureRest`. -/
theorem ccaptDecidesInOrder : Obligations.CcaptDecidesInOrder := by
  intro o c s hc
  refine ⟨exec_ccapt_of_no_success hc, fun v hw hv => ?_⟩
  intro noRsp crc m w s2 u
  rw [exec_ccapt hc hw hv]
  refine ⟨fun h => by rw [State.capture_of_noRsp h], fun hn h hcheck => by rw [State.capture_of_crc hn h hcheck],
    fun hn h => ?_⟩
  have hrest : s.capture o c v = s2.captureRest o c w := by
    cases hcrc : crc with
    | false => simp only [s2, w, hcrc, State.capture_of_no_crc hn hcrc, Bool.false_eq_true, if_false]
    | true =>
      have hcheck := h.resolve_left (by simp [hcrc])
      simp only [s2, w, hcrc, State.capture_of_ignored_crc hn hcrc hcheck, if_true]
      rfl
  have hcfg : s2.cfg = s.cfg := by simp only [s2]; split <;> rfl
  have hu : w &&& ~~~(captMask s2.cfg) = u := by rw [hcfg]; rfl
  rw [hrest]
  refine ⟨fun hbusy => ?_, fun hbusy => ?_⟩
  · rw [State.captureRest_of_busy (hcfg ▸ hbusy)]
  · rw [State.captureRest_of_not_busy (hcfg ▸ hbusy), hu]
    rfl

/-! ## CCAPT: the response read (R196) -/

theorem responseBytes_eq (cfg : Config) (r : Rsp) :
    responseBytes cfg r = if r = .short then 5 else cfg.longRspRead := by
  cases r <;> rfl

/-- The first byte is the low byte of the first register read, and 0 where none is read (R77). -/
theorem laneBytes_first (xs : List Word) : (laneBytes xs).getD 0 0 = (xs.headD 0).extractLsb' 0 8 := by
  cases xs <;> rfl

theorem State.readResponse_of_none {c : CommandObj} (h : c.expected = 0) (o : CmdId) (s : State) :
    s.readResponse o c = s :=
  if_pos h

/-- A response read with its echo test, from the registers' values and the ports after the reads (R196). -/
theorem State.readResponse_of_some {c : CommandObj} (h : c.expected ≠ 0) (o : CmdId) {s : State} {xs : List Word}
    {b : Bus} {n : Nat} (hn : n = responseBytes s.cfg c.input.rsp)
    (hread : s.bus.readRegs s.cfg (rspRegs n) = (xs, b)) :
    s.readResponse o c =
      if c.input.echo = true ∧ (xs.headD 0).extractLsb' 0 8 ≠ c.input.opcode then
        ({ s with bus := b } : State).raise .sequenceError o.toObj
      else { s with bus := b, req := s.req.setCommand o { c with resp := assemble (laneBytes xs) n } } := by
  subst hn
  simp only [State.readResponse, if_neg h, hread, laneBytes_first, Bool.and_eq_true, bne_iff_ne]

theorem rspRegs_length {n : Nat} (h : n ≤ 18) : (rspRegs n).length = (n + 1) / 2 := by
  have hregs : rspBufs.length = 9 := rfl
  rw [rspRegs, List.length_take, hregs]
  omega

/-- Registers beyond the values read do not count. -/
theorem zipWith_take_of_length {α β γ : Type} (f : α → β → γ) (l : List α) {xs : List β} {k : Nat} (h : xs.length = k) :
    List.zipWith f (l.take k) xs = List.zipWith f l xs := by
  subst h
  have hxs : (List.zipWith f l xs).take xs.length = List.zipWith f l xs :=
    List.take_of_length_le (by simp)
  rw [← hxs, List.take_zipWith, List.take_length]

/-- Settles O39: the reads are `Bus.readRegs_spec`'s, and the echo test decides between the two ends. -/
theorem responseReadChecksTheEcho : Obligations.ResponseReadChecksTheEcho := by
  intro o c s n hc hn hle
  refine ⟨fun h => State.readResponse_of_none h o s, fun h => ?_⟩
  obtain ⟨hshadow, hdraws, hlen, htrace, hvalues⟩ := s.bus.readRegs_spec s.cfg (rspRegs n)
  rw [rspRegs_length hle] at hdraws hlen
  have hread := State.readResponse_of_some h o (hn.trans (responseBytes_eq ..).symm)
    (Prod.eta (s.bus.readRegs s.cfg (rspRegs n))).symm
  refine ⟨_, hshadow, hdraws, _, hlen, ?_, hvalues, fun hecho hne => ?_, fun hok => ?_⟩
  · exact htrace.trans (congrArg _ (zipWith_take_of_length _ rspBufs hlen))
  · exact hread.trans (if_pos ⟨hecho, hne⟩)
  · refine hread.trans (if_neg ?_)
    rintro ⟨hecho, hne⟩
    exact hok.elim (by simp [hecho]) hne

end Sys2Proof.Machine
end

section
/-! The Data Unit (43_data_unit.md): the direction check `CHKDIR` (R220), the mapping `DMAP` (R221), what `DPREP` rejects
and plans directly (R223, R224), `DSTAT` (R228) and `DUNMAP` (R229). -/

namespace Sys2Proof.Machine

open Sys2Proof

/-! ## CHKDIR (R220) -/

theorem exec_chkdir {d : DataObj} {s : State} (hd : s.req.data = some d) :
    exec .chkdir s = .next (if d.input.dir = .unset then s.raise .invalidRequest .data else s).advance := by
  simp only [exec, execChkdir, hd]

/-- Settles O41: the two clauses are the two answers of the direction test. -/
theorem chkdirRejectsAnUnsetDirection : Obligations.ChkdirRejectsAnUnsetDirection := by
  intro d s hd
  rw [exec_chkdir hd]
  exact ⟨fun h => by rw [if_pos h], fun h => by rw [if_neg h]; rfl⟩

/-! ## DMAP (R221) -/

theorem exec_dmap {d : DataObj} {s : State} (hd : s.req.data = some d) :
    exec .dmap s = .next { s with
      bus := (s.bus.mapBuffer s.cfg d.input).2
      segMap := some (s.bus.mapBuffer s.cfg d.input).1.1
      req := s.req.setData { d with segs := (s.bus.mapBuffer s.cfg d.input).1.2 }
      upc := s.upc + 1 } := by
  simp only [exec, execDmap, hd]

/-- The laws of a mapped segment as R221 lists them. -/
theorem lawfulSeg_iff (cfg : Config) (bs : Nat) (g : Seg) :
    lawfulSeg cfg bs g = true ↔
      1 ≤ g.len.toNat ∧ g.len.toNat % bs = 0 ∧ g.len.toNat / bs < 2 ^ cfg.wBlkCnt := by
  simp only [lawfulSeg, Bool.and_eq_true, decide_eq_true_eq, beq_iff_eq, and_assoc]
  exact Iff.rfl

/-- A queued answer of the mapping service that keeps the laws is the mapping drawn (R221). -/
theorem Draws.nextSegs_of_lawful {cfg : Config} {bs : Nat} {d : Draws} {m : Nat × List Seg}
    {rest : List (Nat × List Seg)} (hq : d.segMaps = m :: rest) (h : ∀ g ∈ m.2, lawfulSeg cfg bs g = true) :
    d.nextSegs cfg bs = m := by
  simp [Draws.nextSegs, drawn, hq, List.filter_eq_self.2 h]

/-- Settles O42: the mapping is the draw, of which the laws hold by its filter. -/
theorem dmapKeepsTheHandleAndLawfulSegments : Obligations.DmapKeepsTheHandleAndLawfulSegments := by
  intro d s hd
  refine ⟨_, _, _, exec_dmap hd, rfl, rfl, rfl, rfl, fun g hg => (lawfulSeg_iff ..).1 (lawful_of_mapBuffer hg),
    fun m rest hq hlaws => ⟨?_, congrArg List.tail hq⟩⟩
  exact Draws.nextSegs_of_lawful hq fun g hg => (lawfulSeg_iff ..).2 (hlaws g hg)

/-! ## DPREP of no segment, of too many, and of one (R223, R224) -/

theorem exec_dprep_of_no_segment {d : DataObj} {s : State} (hd : s.req.data = some d) (h : d.segs = []) :
    exec .dprep s = .next (s.raise .invalidRequest .data).advance := by
  simp [exec, execDprep, hd, h]

theorem exec_dprep_of_too_many {d : DataObj} {s : State} (hd : s.req.data = some d) (h : d.segs ≠ [])
    (hmax : s.cfg.maxSegs < d.segs.length) : exec .dprep s = .next (s.raise .tooManySegments .data).advance := by
  simp [exec, execDprep, hd, h, hmax]

theorem exec_dprep_of_one {d : DataObj} {s : State} {g : Seg} (hd : s.req.data = some d) (h : d.segs = [g])
    (hmax : 1 ≤ s.cfg.maxSegs) :
    exec .dprep s = .next { s with
      req := s.req.setData { d with plan := some (directPlan d.input.bs g) }, upc := s.upc + 1 } := by
  simp [exec, execDprep, hd, h, Nat.not_lt.2 hmax]

theorem exec_dprep_of_many {d : DataObj} {s : State} {a : Nat} (hd : s.req.data = some d)
    (h2 : 2 ≤ d.segs.length) (hmax : d.segs.length ≤ s.cfg.maxSegs) (ha : s.arenaBase = some a) :
    exec .dprep s = .next (s.prepareChain a d).advance := by
  have h0 : ¬ d.segs.length = 0 := by omega
  simp only [exec, execDprep, hd, if_neg h0, if_neg (Nat.not_lt.2 hmax), ha]
  split
  · next g hg => simp [hg] at h2
  · rfl

/-- Settles O43: one lemma for each way through the tests of R223 and R224. -/
theorem dprepRejectsOrPlansDirectly : Obligations.DprepRejectsOrPlansDirectly :=
  fun _ _ hd => ⟨exec_dprep_of_no_segment hd, exec_dprep_of_too_many hd, fun _ => exec_dprep_of_one hd⟩

/-! ## DSTAT (R228) -/

theorem exec_dstat_of_no_status {d : DataObj} {s : State} (hd : s.req.data = some d) (h : s.snap = none) :
    exec .dstat s = .fault .unmodelled := by
  simp only [exec, execDstat, hd, h]

theorem exec_dstat {d : DataObj} {s s1 : State} {v : Word} (hd : s.req.data = some d) (hv : s.snap = some v)
    (h1 : s1 = if dataCrc s.cfg v then s.raise .crcMismatch .data else s) :
    exec .dstat s = .next { s1 with
      req := { s1.req with data := s1.req.data.map fun e => { e with bytes := sumLens d.segs } }
      upc := s1.upc + 1 } := by
  subst h1
  simp only [exec, execDstat, hd, hv]

theorem sumLens_eq (gs : List Seg) : sumLens gs = (gs.map fun g => g.len.toNat).sum := by
  induction gs with
  | nil => rfl
  | cons g gs ih => rw [sumLens, ih, List.map_cons, List.sum_cons]

theorem dataCrc_iff (cfg : Config) (v : Word) :
    dataCrc cfg v = true ↔ getField (pos cfg .stDatRdCrc) v = 1 ∨ getField (pos cfg .stDatWrCrc) v = 1 := by
  simp [dataCrc, fieldSet]

/-- A raise leaves the data object where it is. -/
theorem State.raise_data {s : State} {d : DataObj} (hd : s.req.data = some d) (k : ErrKind) (o : Obj) :
    ∃ d1, (s.raise k o).req.data = some d1 := by
  have hhas : (s.raise k o).req.has .data = s.req.has .data := State.raise_has ..
  simp only [Request.has, Request.errorOf_data, Option.isSome_map, hd, Option.isSome_some] at hhas
  exact Option.isSome_iff_exists.1 hhas

/-- Settles O48: the CRC test decides the raise, and the bytes of the mapped segments are counted after it. -/
theorem dstatJudgesAndCounts : Obligations.DstatJudgesAndCounts := by
  intro d s hd
  refine ⟨exec_dstat_of_no_status hd, fun v hv => ?_⟩
  have hjudged : ∃ d1, (if dataCrc s.cfg v then s.raise .crcMismatch .data else s).req.data = some d1 := by
    split
    · exact State.raise_data hd ..
    · exact ⟨d, hd⟩
  obtain ⟨d1, hd1⟩ := hjudged
  have hupc : (if dataCrc s.cfg v then s.raise .crcMismatch .data else s).upc = s.upc := by split <;> simp
  refine ⟨_, _, exec_dstat hd hv rfl, by simp only [dataCrc_iff], d1, hd1, ?_⟩
  rw [hd1, hupc, sumLens_eq]
  rfl

/-! ## DUNMAP (R229) -/

/-- Unmapping is one call for a mapping that is held. -/
theorem Bus.unmap_eq (m : Option Nat) (b : Bus) :
    b.unmap m = { b with trace := b.trace ++ m.elim [] fun h => [.unmap h] } := by
  cases m with
  | none => simp [Bus.unmap]
  | some h => rfl

/-- Settles O49: each mapping that is held is one call, and after it neither is held. -/
theorem dunmapReleasesTheChainFirst : Obligations.DunmapReleasesTheChainFirst := by
  refine fun s => ⟨_, rfl, ?_, rfl⟩
  rw [Bus.unmap_eq s.arenaMap, Bus.unmap_eq s.segMap]

end Sys2Proof.Machine
end

section
/-! The descriptor chain of `DPREP` (43_data_unit.md R225, R226): its entries in the arena, their bytes in memory in the
layout of R110, and the transactions that store and map them. -/

namespace Sys2Proof.Machine

open Sys2Proof

/-! ## Entries (R225) -/

/-- Entry `i` of a chain is segment `i`'s, marked as the end on the last one only. -/
theorem chainSlots_getElem? (bs : Nat) (gs : List Seg) (i : Nat) :
    (chainSlots bs gs)[i]? = gs[i]?.map (slotOf bs (decide (i + 1 = gs.length))) := by
  fun_induction chainSlots bs gs generalizing i with
  | case1 => rfl
  | case2 g => cases i <;> simp
  | case3 g h gs ih =>
    cases i with
    | zero => simp
    | succ i => simp [ih]

/-- The chain's entries stand first in the arena. -/
theorem State.prepareChain_arena_inside {s : State} {d : DataObj} {i : Nat} {g : Seg} (h : d.segs[i]? = some g)
    (a : Nat) :
    (s.prepareChain a d).arena[i]? = some (slotOf d.input.bs (decide (i + 1 = d.segs.length)) g) := by
  have hi : i < (chainSlots d.input.bs d.segs).length := by
    rw [chainSlots_length]
    exact (List.getElem?_eq_some_iff.1 h).1
  have harena : (s.prepareChain a d).arena[i]? = (chainSlots d.input.bs d.segs)[i]? := List.getElem?_append_left hi
  rw [harena, chainSlots_getElem?, h, Option.map_some]

/-- The arena's other slots are as before. -/
theorem State.prepareChain_arena_outside {s : State} {d : DataObj} {i : Nat} (h : d.segs.length ≤ i) (a : Nat) :
    (s.prepareChain a d).arena[i]? = s.arena[i]? := by
  have hi : (chainSlots d.input.bs d.segs).length ≤ i := by rwa [chainSlots_length]
  refine (List.getElem?_append_right hi).trans ?_
  rw [List.getElem?_drop, Nat.add_sub_cancel' hi]

/-! ## The bytes of an entry (R110, R76) -/

theorem slotWord0_eq (e : Slot) : slotWord0 e = e.jobs ++ BitVec.ofNat 16 (if e.isEnd then 1 else 0) := by
  unfold slotWord0
  cases e.isEnd <;> rfl

/-- Where byte `j` of a chain entry lies in the entry: its word's place, and its rank within the word (R76, R110). -/
def byteLane (o : ByteOrder) (j : Nat) : Nat := 4 * (j / 4) + byteRank o (j % 4)

theorem byteLane_eq (o : ByteOrder) (j : Nat) :
    byteLane o j = match o with | .little => j | .big => 4 * (j / 4) + (3 - j % 4) := by
  cases o
  · exact Nat.div_add_mod j 4
  · rfl

theorem byteRank_lt (o : ByteOrder) {j : Nat} (h : j < 4) : byteRank o j < 4 := by
  cases o
  · exact h
  · exact Nat.lt_of_le_of_lt (Nat.sub_le 3 j) (by decide)

theorem byteLane_of_lt (o : ByteOrder) {j : Nat} (h : j < 4) : byteLane o j = byteRank o j := by
  rw [byteLane, Nat.div_eq_of_lt h, Nat.mod_eq_of_lt h, Nat.mul_zero, Nat.zero_add]

theorem byteLane_next_word (o : ByteOrder) (j : Nat) : byteLane o (4 + j) = 4 + byteLane o j := by
  have hdiv : (4 + j) / 4 = 1 + j / 4 := by omega
  rw [byteLane, byteLane, hdiv, Nat.add_mod_left, Nat.mul_add, Nat.add_assoc]

/-- The first `m` bytes of a list are those of `v`, word by word in the order of the descriptor layout (R76). -/
def BytesOf (o : ByteOrder) (m : Nat) {n : Nat} (v : BitVec n) (bs : List Byte) : Prop :=
  ∀ j < m, bs[j]? = some (v.extractLsb' (8 * byteLane o j) 8)

theorem bytesOf_wordBytes (o : ByteOrder) (w : Word32) : BytesOf o 4 w (wordBytes o w) := by
  intro j hj
  rw [List.getElem?_eq_getElem (by simpa using hj), wordBytes_getElem, byteLane_of_lt o hj]

/-- A word's bytes stand below those of the bits above it. -/
theorem BytesOf.append_word {o : ByteOrder} {m n : Nat} {v : BitVec n} {bs : List Byte} (h : BytesOf o m v bs)
    (w : Word32) : BytesOf o (4 + m) (v ++ w) (wordBytes o w ++ bs) := by
  intro j hj
  by_cases hlow : j < 4
  · have hbyte : 8 * byteLane o j + 8 ≤ 32 := by
      have := byteRank_lt o hlow
      rw [byteLane_of_lt o hlow]
      omega
    rw [List.getElem?_append_left (by simpa using hlow), bytesOf_wordBytes o w j hlow, append_field_low v w hbyte]
  · obtain ⟨k, rfl⟩ := Nat.exists_eq_add_of_le (Nat.not_lt.1 hlow)
    rw [List.getElem?_append_right (by simp), wordBytes_length, Nat.add_sub_cancel_left, h k (by omega),
      byteLane_next_word, Nat.mul_add, append_field_high v w]

/-- The bytes of a chain entry are those of its 128 bits (R110). -/
theorem bytesOf_slotBytes (o : ByteOrder) (e : Slot) :
    BytesOf o 16 ((0 : Word32) ++ e.len ++ e.addr ++ (e.jobs ++ BitVec.ofNat 16 (if e.isEnd then 1 else 0)))
      (slotBytes o e) := by
  have h := (((bytesOf_wordBytes o 0).append_word e.len).append_word e.addr).append_word (slotWord0 e)
  rw [slotWord0_eq] at h
  simpa only [slotBytes, slotWord0_eq, List.append_assoc] using h

/-- Byte `j` of entry `i` stands at its place in memory (R225). -/
theorem State.prepareChain_mem_inside {a i j : Nat} {d : DataObj} {g : Seg} {s : State} (hs : 16 ≤ s.cfg.descBytes)
    (h : d.segs[i]? = some g) (hj : j < 16) :
    (s.prepareChain a d).mem.read (a + s.cfg.descBytes * i + j) =
      (slotBytes s.cfg.descOrder (slotOf d.input.bs (decide (i + 1 = d.segs.length)) g))[j]? := by
  have hslot : (chainSlots d.input.bs d.segs)[i]? =
      some (slotOf d.input.bs (decide (i + 1 = d.segs.length)) g) := by
    rw [chainSlots_getElem?, h, Option.map_some]
  obtain ⟨hi, he⟩ := List.getElem?_eq_some_iff.1 hslot
  refine (Memory.read_writeChain_inside s.cfg.descOrder hs s.mem a _ hi hj).trans ?_
  rw [← List.getElem?_eq_getElem, he]

/-- Every byte outside the entries reads as before. -/
theorem State.prepareChain_mem_outside {a a' : Nat} {d : DataObj} {s : State}
    (h : ∀ i < d.segs.length, a' < a + s.cfg.descBytes * i ∨ a + s.cfg.descBytes * i + 16 ≤ a') :
    (s.prepareChain a d).mem.read a' = s.mem.read a' :=
  Memory.read_writeChain_outside _ _ _ _ _ (by rwa [chainSlots_length])

/-! ## Transactions (R225, R226) -/

theorem chainEvents_length (o : ByteOrder) (stride a : Nat) (es : List Slot) :
    (chainEvents o stride a es).length = es.length := by
  induction es generalizing a with
  | nil => rfl
  | cons e es ih => simp [chainEvents, ih]

/-- Store `i` of a chain is entry `i`'s. -/
theorem chainEvents_getElem? (o : ByteOrder) (stride a : Nat) (es : List Slot) (i : Nat) :
    (chainEvents o stride a es)[i]? = es[i]?.map fun e => .memWrite (a + stride * i) (slotBytes o e) := by
  induction es generalizing a i with
  | nil => rfl
  | cons e es ih =>
    cases i with
    | zero => rfl
    | succ i =>
      have hplace : a + stride * (i + 1) = a + stride + stride * i := by rw [Nat.mul_succ]; omega
      rw [hplace]
      exact ih (a + stride) i

/-- Store `i` of the chain of some segments is that of segment `i`'s entry. -/
theorem chainEvents_of_segs {o : ByteOrder} {stride a bs i : Nat} {gs : List Seg} {e : Event}
    (h : (chainEvents o stride a (chainSlots bs gs))[i]? = some e) :
    ∃ g, gs[i]? = some g ∧
      e = .memWrite (a + stride * i) (slotBytes o (slotOf bs (decide (i + 1 = gs.length)) g)) := by
  rw [chainEvents_getElem?, chainSlots_getElem?, Option.map_map] at h
  obtain ⟨g, hg, rfl⟩ := Option.map_eq_some_iff.1 h
  exact ⟨g, hg, rfl⟩

/-- The stores of a chain and then its mapping. -/
theorem State.prepareChain_trace (a : Nat) (d : DataObj) (s : State) :
    (s.prepareChain a d).bus.trace = s.bus.trace ++
      chainEvents s.cfg.descOrder s.cfg.descBytes a (chainSlots d.input.bs d.segs) ++
      [.mapArena a (d.segs.length * s.cfg.descBytes) .toDevice s.bus.draws.nextChain.1 s.bus.draws.nextChain.2] := by
  rw [← chainSlots_length d.input.bs d.segs]
  rfl

/-- Settles O44: entries, bytes and stores are those of `chainSlots`, `slotBytes` and `chainEvents`. -/
theorem dprepStoresTheChain : Obligations.DprepStoresTheChain := by
  intro d s base hd hbase h2 hmax hs _
  refine ⟨_, _, _, exec_dprep_of_many hd h2 hmax hbase, rfl,
    fun _ _ h => State.prepareChain_arena_inside h base, fun _ h => State.prepareChain_arena_outside h base,
    fun i g j hg hj => ?_, fun _ => State.prepareChain_mem_outside, rfl, rfl,
    _, State.prepareChain_trace base d s, ?_, fun i e he => ?_⟩
  · refine (State.prepareChain_mem_inside hs hg hj).trans ?_
    rw [bytesOf_slotBytes _ _ j hj, byteLane_eq]
    simp only [slotOf, decide_eq_true_eq]
    rfl
  · rw [chainEvents_length, chainSlots_length]
  · obtain ⟨g, hg, rfl⟩ := chainEvents_of_segs he
    refine ⟨_, rfl, slotBytes_length .., fun j b hb => ?_⟩
    have hj := (List.getElem?_eq_some_iff.1 hb).1
    rw [slotBytes_length] at hj
    exact (State.prepareChain_mem_inside hs hg hj).trans hb

end Sys2Proof.Machine
end

section
/-! `DARM` (43_data_unit.md R227): the field writes that program the transfer, and what they leave in the shadows. -/

namespace Sys2Proof.Machine

open Sys2Proof

/-! ## Programming the transfer -/

theorem exec_darm_of_no_plan {d : DataObj} {s : State} (hd : s.req.data = some d) (hp : d.plan = none) :
    exec .darm s = .fault .unmodelled := by
  simp only [exec, execDarm, hd, hp]

theorem exec_darm {d : DataObj} {p : Plan} {s : State} (hd : s.req.data = some d) (hp : d.plan = some p) :
    exec .darm s =
      if armFits s.cfg d.input p then
        afterWrites s s.clearEvents.bus armedFields
          ({ s.clearEvents with
            bus := s.clearEvents.bus.fieldWrites s.cfg (armFields s.cfg d.input p) } : State).advance
      else .refused .valueTooWide := by
  simp only [exec, execDarm, hd, hp]

/-- What a plan arms, plan by plan: in ADMA mode the length is the fixed one (R227). -/
theorem planNumbers_eq (cfg : Config) (p : Plan) :
    (match p with | .direct a l n => (a, l, n) | .chained _ a _ n => (a, cfg.admaDmaLen, n)) =
      (planAddr p, planLen cfg p, planBlocks p) := by
  cases p <;> rfl

theorem armFits_iff (cfg : Config) (d : Data) (p : Plan) :
    armFits cfg d p = true ↔
      d.bs < 2 ^ (pos cfg .blkSize).width ∧ planBlocks p < 2 ^ (pos cfg .blkCnt).width := by
  simp only [armFits, Bool.and_eq_true, decide_eq_true_eq]

/-- The fields `DARM` writes for an address, a length and a block count (R227). -/
theorem armFields_eq (cfg : Config) (d : Data) (p : Plan) :
    armFields cfg d p =
      [(FieldId.jobDir, if d.dir = .write then (1 : Word) else 0), (.dtrxEn, 1),
        (.admaEn, if p.isChained then 1 else 0), (.blkSize, BitVec.ofNat 16 d.bs),
        (.dmaAddrLo, (planAddr p).extractLsb' 0 16), (.dmaAddrHi, (planAddr p).extractLsb' 16 16),
        (.dmaLenLo, (planLen cfg p).extractLsb' 0 16), (.dmaLenHi, (planLen cfg p).extractLsb' 16 16),
        (.blkCnt, BitVec.ofNat 16 (planBlocks p))] := by
  simp only [armFields, bitValue, beq_iff_eq]
  rfl

/-- Settles O45: the fault without a plan, the refusal, the hazard's fault, or the writes of `armFields`. -/
theorem darmProgramsTheTransfer : Obligations.DarmProgramsTheTransfer := by
  intro d s hd
  refine ⟨exec_darm_of_no_plan hd, fun p a l n hp hplan => ?_⟩
  cases hplan.trans (planNumbers_eq s.cfg p)
  rw [exec_darm hd hp]
  refine ⟨fun hbs hn hearly => ?_, fun hbs hn hcalm => ?_, fun hwide => if_neg ?_⟩
  · rw [if_pos ((armFits_iff ..).2 ⟨hbs, hn⟩)]
    exact afterWrites_of_early hearly _
  · rw [if_pos ((armFits_iff ..).2 ⟨hbs, hn⟩)]
    refine ⟨_, afterWrites_of_not_early hcalm _, rfl, ?_⟩
    rw [armFields_eq]
    cases p <;> rfl
  · rw [armFits_iff]
    omega

/-! ## The shadows after a list of field writes -/

/-- A cached register's shadow is valid and the field reads from it as `v` (R27, R114). -/
def Bus.Holds (cfg : Config) (b : Bus) (f : FieldId) (v : Word) : Prop :=
  ∃ y, RegFile.at b.shadow (pos cfg f).reg = some y ∧ getField (pos cfg f) y = v

/-- A normal field write leaves its field in a cached register's shadow. -/
theorem Bus.holds_fieldWrite {cfg : Config} (hok : configOk cfg = true) {f : FieldId}
    (hc : cached cfg (pos cfg f).reg = true) {v : Word} (hv : v.toNat < 2 ^ (pos cfg f).width) (b : Bus) :
    (b.fieldWrite cfg f v).Holds cfg f v :=
  ⟨_, Bus.fieldWrite_shadow_same hc v b, getField_putField_same ((configOk_parts hok).1 f) _ hv⟩

/-- A write of another field leaves what the shadow holds of this one. -/
theorem Bus.Holds.fieldWrite_other {cfg : Config} (hok : configOk cfg = true) {f g : FieldId}
    (hc : cached cfg (pos cfg f).reg = true) {v w : Word} (hw : w.toNat < 2 ^ (pos cfg g).width) (hfg : f ≠ g)
    {b : Bus} (h : b.Holds cfg f v) : (b.fieldWrite cfg g w).Holds cfg f v := by
  obtain ⟨y, hy, hv⟩ := h
  have hfits := (configOk_parts hok).1
  by_cases hr : (pos cfg f).reg = (pos cfg g).reg
  · have hbase := BaseOf.of_shadow (hr ▸ hc) (hr ▸ hy)
    obtain ⟨-, -, hshadow, -⟩ := Bus.fieldWrite_spec w hbase
    refine ⟨_, hr ▸ hshadow.1 (hr ▸ hc), ?_⟩
    rw [getField_putField_apart (hfits g) (hfits f) (fieldsApart_of_configOk hok hfg hr) y hw, hv]
  · exact ⟨y, (Bus.fieldWrite_shadow_other cfg g w b hr).trans hy, hv⟩

/-- Writes of other fields leave what the shadow holds of this one. -/
theorem Bus.Holds.fieldWrites_other {cfg : Config} (hok : configOk cfg = true) {f : FieldId}
    (hc : cached cfg (pos cfg f).reg = true) {v : Word} {ws : List (FieldId × Word)}
    (hws : ∀ w ∈ ws, w.2.toNat < 2 ^ (pos cfg w.1).width) (hf : f ∉ ws.map Prod.fst) {b : Bus}
    (h : b.Holds cfg f v) : (b.fieldWrites cfg ws).Holds cfg f v := by
  induction ws generalizing b with
  | nil => exact h
  | cons w ws ih =>
    obtain ⟨hw, hrest⟩ := List.forall_mem_cons.1 hws
    obtain ⟨hne, hlater⟩ := not_or.1 (mt List.mem_cons.2 hf)
    exact ih hrest hlater (h.fieldWrite_other hok hc hw hne)

/-- Writes of distinct fields leave each of them in its shadow. -/
theorem Bus.holds_fieldWrites {cfg : Config} (hok : configOk cfg = true) {f : FieldId} {v : Word}
    (hc : cached cfg (pos cfg f).reg = true) {ws : List (FieldId × Word)}
    (hws : ∀ w ∈ ws, w.2.toNat < 2 ^ (pos cfg w.1).width) (hnodup : (ws.map Prod.fst).Nodup) (hm : (f, v) ∈ ws)
    (b : Bus) : (b.fieldWrites cfg ws).Holds cfg f v := by
  induction ws generalizing b with
  | nil => cases hm
  | cons w ws ih =>
    obtain ⟨hw, hrest⟩ := List.forall_mem_cons.1 hws
    obtain ⟨hnew, hdistinct⟩ := List.nodup_cons.1 hnodup
    obtain rfl | hlater := List.mem_cons.1 hm
    · exact (Bus.holds_fieldWrite hok hc hw b).fieldWrites_other hok hc hrest hnew
    · exact ih hrest hdistinct hlater _

/-! ## The armed values fit their fields (R32) -/

/-- Every field has a bit (R32 (a)). -/
theorem one_lt_two_pow_width {cfg : Config} (hok : configOk cfg = true) (f : FieldId) :
    1 < 2 ^ (pos cfg f).width := by
  have hfits := (configOk_parts hok).1 f
  simp only [fieldFits, Bool.and_eq_true, decide_eq_true_eq] at hfits
  exact Nat.one_lt_two_pow (by omega)

/-- A truth value fits every field. -/
theorem bitValue_fits {cfg : Config} (hok : configOk cfg = true) (f : FieldId) (b : Bool) :
    (bitValue b).toNat < 2 ^ (pos cfg f).width := by
  have h := one_lt_two_pow_width hok f
  cases b
  · exact Nat.zero_lt_of_lt h
  · exact h

/-- The halves of an address and a length are whole registers (R32). -/
theorem dma_width {cfg : Config} (hok : configOk cfg = true) {f : FieldId}
    (hf : f ∈ [FieldId.dmaAddrLo, .dmaAddrHi, .dmaLenLo, .dmaLenHi]) : (pos cfg f).width = 16 := by
  simp only [configOk, Bool.and_eq_true, List.all_eq_true, beq_iff_eq, decide_eq_true_eq] at hok
  obtain ⟨⟨⟨⟨⟨⟨⟨⟨-, hdma⟩, -⟩, -⟩, -⟩, -⟩, -⟩, -⟩, -⟩ := hok
  exact hdma f hf

/-- A word fits a field of sixteen bits. -/
theorem word_fits {cfg : Config} {f : FieldId} (hf : (pos cfg f).width = 16) (v : Word) :
    v.toNat < 2 ^ (pos cfg f).width := by
  rw [hf]
  exact v.isLt

/-- A number that fits a field still fits it as a word. -/
theorem ofNat_fits {n k : Nat} (h : n < 2 ^ k) : (BitVec.ofNat 16 n).toNat < 2 ^ k := by
  rw [BitVec.toNat_ofNat]
  exact Nat.lt_of_le_of_lt (Nat.mod_le ..) h

theorem armFields_fit {cfg : Config} {d : Data} {p : Plan} (hok : configOk cfg = true)
    (h : armFits cfg d p = true) : ∀ w ∈ armFields cfg d p, w.2.toNat < 2 ^ (pos cfg w.1).width := by
  obtain ⟨hbs, hn⟩ := (armFits_iff ..).1 h
  have hdma {f : FieldId} (hf : f ∈ [FieldId.dmaAddrLo, .dmaAddrHi, .dmaLenLo, .dmaLenHi]) (v : Word) :
      v.toNat < 2 ^ (pos cfg f).width := word_fits (dma_width hok hf) v
  simp only [armFields, List.forall_mem_cons]
  exact ⟨bitValue_fits hok .., bitValue_fits hok .dtrxEn true, bitValue_fits hok .., ofNat_fits hbs,
    hdma (by decide) _, hdma (by decide) _, hdma (by decide) _, hdma (by decide) _, ofNat_fits hn, nofun⟩

/-- Settles O46: the armed fields are distinct and their values fit, so each stands in its shadow after the writes. -/
theorem darmLeavesTheTransferInTheShadows : Obligations.DarmLeavesTheTransferInTheShadows := by
  intro d p a l n s t f v hd hp hok h hplan hm hc
  cases hplan.trans (planNumbers_eq s.cfg p)
  obtain ⟨d', p', hd', hp', hfit, -, rfl⟩ := execDarm_next h
  obtain rfl : d' = d := Option.some.inj (hd'.symm.trans hd)
  obtain rfl : p' = p := Option.some.inj (hp'.symm.trans hp)
  have hmem : (f, v) ∈ armFields s.cfg d'.input p' := by
    rw [armFields_eq]
    cases p' <;> exact hm
  exact Bus.holds_fieldWrites hok hc (armFields_fit hok hfit) (by simp [armFields]) hmem _

end Sys2Proof.Machine
end

section
/-! `BIDLE` (43_data_unit.md R230): one pass of the bus-idle poll, from its read of BUS_IDLE on. -/

namespace Sys2Proof.Machine

open Sys2Proof

/-- A field of a volatile register is read from the device (R147). -/
theorem readField_of_volatile {s : State} {f : FieldId} (hc : cached s.cfg (pos s.cfg f).reg = false)
    (he : ¬ earlyRead s (pos s.cfg f).reg = true) :
    readField s f =
      .ok (getField (pos s.cfg f) s.bus.draws.nextRead, (s.bus.regRead s.cfg (pos s.cfg f).reg).2) := by
  have hnone := Bus.validShadow_eq_none_iff (b := s.bus) |>.2 (.inl hc)
  rw [readField_of_no_shadow hnone he, Bus.base_of_invalid hnone, Bus.setShadow_volatile hc]

/-- A pass of the poll after its read of a volatile BUS_IDLE, with the timeout of the poll recorded. -/
def State.pollBus (s : State) : State :=
  { s with
    bus := (s.bus.regRead s.cfg (pos s.cfg .busIdle).reg).2
    waitTmo := some s.cfg.bidleTimeout }

theorem exec_bidle_of_volatile {s : State} (hc : cached s.cfg (pos s.cfg .busIdle).reg = false)
    (he : ¬ earlyRead s (pos s.cfg .busIdle).reg = true) :
    exec .bidle s = s.pollBus.bidlePass (getField (pos s.cfg .busIdle) s.bus.draws.nextRead) := by
  simp only [exec, execBidle, readField_of_volatile hc he]
  rfl

theorem State.bidlePass_of_idle {x : Word} (h : x = 1) (s : State) : s.bidlePass x = .next s.bidleDone :=
  if_pos h

theorem State.bidlePass_of_not_expired {x : Word} {s : State} (h : x ≠ 1) (he : s.bus.draws.nextExpired = false) :
    s.bidlePass x = .next ({ s with bus := s.bus.drawExpired.2 } : State).bidleAgain := by
  simp only [State.bidlePass, if_neg h, Bus.drawExpired, he, if_neg Bool.false_ne_true]

theorem State.bidlePass_of_expired {x : Word} {s : State} (h : x ≠ 1) (he : s.bus.draws.nextExpired = true) :
    s.bidlePass x = if s.bidleHasNoTarget then .fault .unmodelled
      else .next ({ s with bus := s.bus.drawExpired.2 } : State).bidleExpired := by
  simp only [State.bidlePass, if_neg h, Bus.drawExpired, he, if_true]
  rfl

theorem State.bidleHasNoTarget_iff (s : State) :
    s.bidleHasNoTarget = true ↔ s.cfg.bidleFatal = true ∧ s.req.data = none := by
  simp [State.bidleHasNoTarget, Request.has, Request.errorOf_data]

/-- The expiry of the poll: its log entry, the raise that `P_BIDLE_FATAL` asks for, and its end (R230). -/
theorem State.bidleExpired_eq (s : State) :
    s.bidleExpired =
      { (if s.cfg.bidleFatal then (s.addLog [.bidleTimeout]).raise .timeout .data else s.addLog [.bidleTimeout]) with
        sub := none, upc := s.upc + 1 } := by
  unfold State.bidleExpired
  split <;> simp

theorem State.bidleExpired_bus (s : State) : s.bidleExpired.bus = s.bus := by
  obtain e | e := s.bidleExpired_cases <;> rw [e]
  · rfl
  · exact State.raise_bus ..

/-- Settles O47: the pass after the read of BUS_IDLE ends the poll, goes on, faults or expires. -/
theorem bidlePollsTheBus : Obligations.BidlePollsTheBus := by
  rintro s x e r rfl hc he rfl rfl
  have hdraws : drawsAfter 1 s.bus.draws = s.pollBus.bus.draws := drawsAfter_one _
  rw [hdraws, exec_bidle_of_volatile hc (by simp [he])]
  refine ⟨fun hidle => ⟨_, State.bidlePass_of_idle hidle _, rfl, rfl, rfl⟩, fun hbusy hexp => ?_,
    fun hbusy hexp hfatal hnone => ?_, fun hbusy hexp htarget => ?_⟩
  · exact ⟨_, State.bidlePass_of_not_expired hbusy hexp, rfl, List.append_assoc .., rfl⟩
  · rw [State.bidlePass_of_expired hbusy hexp]
    exact if_pos ((State.bidleHasNoTarget_iff _).2 ⟨hfatal, hnone⟩)
  · have hmeets : ¬ s.pollBus.bidleHasNoTarget = true := by
      rw [State.bidleHasNoTarget_iff]
      rintro ⟨hfatal, hnone⟩
      exact htarget.elim (fun h => Bool.false_ne_true (h.symm.trans hfatal)) (absurd hnone)
    have hbus := State.bidleExpired_bus { s.pollBus with bus := s.pollBus.bus.drawExpired.2 }
    refine ⟨_, _, (State.bidlePass_of_expired hbusy hexp).trans (if_neg hmeets), rfl, ?_, ?_, ?_⟩
    · rw [hbus]
      exact State.bidleExpired_eq _
    · rw [hbus]
      rfl
    · rw [hbus]
      rfl

end Sys2Proof.Machine
end

section
/-! Who writes the arena, memory, the log, the reset error, the settle flag and the window of R85: one condition on a
step, one branch for each of the 28 operations (43_data_unit.md R231, 10_state.md R29, R45, R49, 20_memory.md R70, R85). -/

namespace Sys2Proof.Machine

open Sys2Proof

/-! ## What an operation may write -/

/-- What a step from `s` to `t` by operation `i` writes of this state. Where a case of a proof gives no value for a
field, the operation leaves that part of the state as it is. -/
structure Writes (i : Instr) (s t : State) : Prop where
  arena : i = .dprep ∨ t.arena = s.arena ∧ t.mem = s.mem := by simp
  arenaBase : (∃ b, i = .init b) ∨ t.arenaBase = s.arenaBase := by simp
  log : s.log <+: t.log := by simp
  rstErr : (i = .rstseq ∨ i = .hwReset ∨ ∃ b, i = .init b) ∨ t.rstErr = s.rstErr := by simp
  settled : t.settled = s.settled ∨ i = .trig ∧ t.settled = false ∨
    ((∃ need o, i = .await need o) ∨ ∃ b, i = .init b) ∧ t.settled = true := by simp
  armed : t.armed = s.armed ∨ i = .trig ∧ t.armed = true ∨
    ((∃ need o, i = .await need o) ∨ i = .done ∨ ∃ b, i = .init b) ∧ t.armed = false := by simp

/-! ## The log of the shared operations (R45) -/

@[simp] theorem State.log_grows_raise (k : ErrKind) (o : Obj) (s : State) : s.log <+: (s.raise k o).log :=
  (s.raise_log k o).imp fun _ => Eq.symm

theorem State.log_grows_addLog (es : List LogEntry) (s : State) : s.log <+: (s.addLog es).log := ⟨es, rfl⟩

theorem State.log_grows_readResponse (o : CmdId) (c : CommandObj) (s : State) :
    s.log <+: (s.readResponse o c).log := by
  obtain e | ⟨b, w, -, e | e⟩ := s.readResponse_cases o c <;> rw [e]
  · exact State.log_grows_raise _ _ { s with bus := b }

theorem State.log_grows_captureRest (o : CmdId) (c : CommandObj) (v : Word) (s : State) :
    s.log <+: (s.captureRest o c v).log := by
  obtain e | ⟨es, e⟩ := s.captureRest_cases o c v <;> rw [e]
  exact (s.log_grows_addLog es).trans (State.log_grows_readResponse ..)

theorem State.log_grows_capture (o : CmdId) (c : CommandObj) (v : Word) (s : State) :
    s.log <+: (s.capture o c v).log := by
  obtain e | e | ⟨s1, w, ⟨rfl, -⟩ | ⟨rfl, -⟩, e⟩ := s.capture_cases o c v <;> rw [e]
  · exact State.log_grows_raise ..
  · exact State.log_grows_raise ..
  · exact State.log_grows_captureRest ..
  · have hentry : s.log <+: (s.ignoreCrc c v).log := ⟨_, rfl⟩
    exact hentry.trans (State.log_grows_captureRest ..)

theorem State.log_grows_bidleExpired (s : State) : s.log <+: s.bidleExpired.log := by
  have hentry := s.log_grows_addLog [.bidleTimeout]
  obtain e | e := s.bidleExpired_cases <;> rw [e]
  · exact hentry
  · exact hentry.trans (State.log_grows_raise ..)

/-! ## One lemma for each operation that needs more than its inversion -/

theorem execIrq_writes {s t : State} (h : execIrq s = .next t) : Writes .irq s t := by
  obtain ⟨-, -, rfl⟩ := execIrq_next h
  unfold State.handleEvents
  exact {}

theorem execAwait_writes {need : WaitSet} {o : Obj} {s t : State} (h : execAwait need o s = .next t) :
    Writes (.await need o) s t := by
  obtain ⟨ht, -, -, hlog, -, hctl, -⟩ := execAwait_frame h
  exact {
    arena := .inr (by rw [ht]; exact ⟨rfl, rfl⟩)
    arenaBase := .inr (by rw [ht])
    log := hlog.imp fun _ => Eq.symm
    rstErr := .inr (by rw [ht])
    settled := by
      obtain ⟨-, -, ⟨hset, -⟩ | ⟨hset, -⟩⟩ | ⟨-, -, hset, -⟩ := hctl <;> simp [hset]
    armed := by
      obtain ⟨-, harm, -⟩ | ⟨-, -, -, harm⟩ := hctl <;> simp [harm] }

theorem execCcapt_writes {o : CmdId} {s t : State} (h : execCcapt o s = .next t) : Writes (.ccapt o) s t := by
  obtain ⟨c, v, hc, -, -, rfl⟩ := execCcapt_next h
  have hlog := s.log_grows_capture o c v
  obtain ⟨⟨b, l, q, v', hu⟩, -⟩ := Captures.capture hc v
  rw [hu] at hlog ⊢
  exact { log := hlog }

theorem execDprep_writes {s t : State} (h : execDprep s = .next t) : Writes .dprep s t := by
  obtain ⟨d, -, rfl | rfl | ⟨g, -, rfl⟩ | ⟨a, -, -, -, rfl⟩⟩ := execDprep_next h
  · exact {}
  · exact {}
  · exact {}
  · unfold State.prepareChain
    exact {}

theorem execBidle_writes {s t : State} (h : execBidle s = .next t) : Writes .bidle s t := by
  obtain ⟨x, b, s1, -, rfl, rfl | ⟨-, rfl⟩ | rfl⟩ := execBidle_next h
  · exact {}
  · have hlog := State.log_grows_bidleExpired
      { s with bus := b.drawExpired.2, waitTmo := some s.cfg.bidleTimeout }
    obtain e | e := State.bidleExpired_cases _ <;> rw [e] at hlog ⊢
    · exact { log := hlog }
    · exact { log := hlog }
  · exact {}

/-- The end of a reset sequence, from a state that differs in the ports and the reset error. -/
theorem State.resetEnd_writes (s : State) (b : Bus) (e : ErrKind) :
    Writes .rstseq s { s with bus := b, rstErr := e }.resetEnd := by
  obtain ⟨-, ht⟩ | ⟨-, ht⟩ := State.resetEnd_cases { s with bus := b, rstErr := e } <;> rw [ht]
  · exact {}
  · exact {}

theorem execRstseq_writes {s t : State} (h : execRstseq s = .next t) : Writes .rstseq s t := by
  obtain ⟨-, rfl⟩ | ⟨x, b, s1, ph, n, hr, rfl, -, ⟨-, rfl⟩ | rfl | rfl | rfl⟩ := execRstseq_next h
  · exact {}
  · exact {}
  · exact State.resetEnd_writes ..
  · exact State.resetEnd_writes ..
  · exact {}

/-- Whatever operation runs writes of this state what it may. -/
theorem exec_writes {i : Instr} {s t : State} (h : exec i s = .next t) : Writes i s t := by
  cases i with
  | submit =>
    obtain ⟨-, -, -, rfl⟩ := execSubmit_next h
    unfold State.accept
    exact {}
  | setBusWidth => obtain ⟨-, -, -, rfl⟩ := execSetBusWidth_next h; exact {}
  | setClock => obtain ⟨-, -, rfl⟩ := execSetClock_next h; exact {}
  | hwReset => obtain ⟨-, -, -, rfl⟩ := execHwReset_next h; exact {}
  | irq => exact execIrq_writes h
  | regRead => obtain ⟨-, rfl⟩ := execRegRead_next h; exact {}
  | regWrite => cases h; exact {}
  | fieldRead => obtain ⟨v, b, -, rfl⟩ := execFieldRead_next h; exact {}
  | fieldWrite => obtain ⟨-, -, rfl⟩ := execFieldWrite_next h; exact {}
  | fieldForce => obtain ⟨-, -, rfl⟩ := execFieldForce_next h; exact {}
  | clrev => cases h; exact {}
  | await => exact execAwait_writes h
  | wchk => obtain ⟨-, rfl | rfl⟩ := execWchk_next h <;> exact {}
  | cissue => obtain ⟨c, -, -, -, rfl⟩ := execCissue_next h; exact {}
  | trig => obtain ⟨-, rfl⟩ := execTrig_next h; exact {}
  | ccapt => exact execCcapt_writes h
  | chkdir => obtain ⟨d, -, rfl | rfl⟩ := execChkdir_next h <;> exact {}
  | dmap => obtain ⟨d, -, rfl⟩ := execDmap_next h; exact {}
  | dprep => exact execDprep_writes h
  | darm => obtain ⟨d, p, -, -, -, -, rfl⟩ := execDarm_next h; exact {}
  | bidle => exact execBidle_writes h
  | dstat => obtain ⟨d, v, s1, -, -, rfl | rfl, rfl⟩ := execDstat_next h <;> exact {}
  | dunmap => cases h; exact {}
  | jerr => obtain ⟨e, -, rfl⟩ := execJerr_next h; exact {}
  | jmp => cases h; exact {}
  | done => obtain ⟨-, -, rfl⟩ := execDone_next h; exact {}
  | rstseq => exact execRstseq_writes h
  | init => obtain ⟨-, -, rfl⟩ := execInit_next h; exact {}

/-! ## The statement -/

/-- Settles O57: what every operation may write (`exec_writes`), and the trace goes on (`exec_continues`). -/
theorem stateIsWrittenOnlyWhereTheRulesSay : Obligations.StateIsWrittenOnlyWhereTheRulesSay := by
  intro i s t h
  have hw := exec_writes h
  refine ⟨fun hi => ?_, fun hi => ?_, hw.log.imp fun _ => Eq.symm, exec_continues h, hw.rstErr.resolve_right, ?_⟩
  · obtain ⟨harena, hmem⟩ := hw.arena.resolve_left hi
    exact ⟨harena, fun _ => by rw [hmem]⟩
  · exact hw.arenaBase.resolve_left (not_exists.2 hi)
  · have hset := hw.settled
    have harm := hw.armed
    refine ⟨fun h0 h1 => ?_, fun h0 h1 => ?_, fun h0 h1 => ?_, fun h0 h1 => ?_⟩
    · simpa [h0, h1] using hset
    · simpa [h0, h1] using hset
    · simpa [h0, h1] using harm
    · simpa [h0, h1] using harm

end Sys2Proof.Machine
end

section
/-! What only an initialised, idle engine takes (44_orchestrator.md): `SUBMIT` (R260, R261), `SET_BUS_WIDTH` (R270),
`SET_CLOCK` (R271) and the load of a hand-written program (R274). -/

namespace Sys2Proof.Machine

open Sys2Proof

/-! ## Refused before `INIT` and while busy (R260, R270-R272, R274, R350) -/

/-- What the upstream operations and a load share: before `INIT` and while busy the refusal, else the answer `a`. -/
def whenIdle (s : State) (a : Answer) : Answer :=
  if s.mode = none then .refused .notInitialised else if s.busy then .refused .engineBusy else a

theorem whenIdle_of_idle {s : State} (hm : s.mode ≠ none) (hb : s.busy = false) (a : Answer) : whenIdle s a = a := by
  rw [whenIdle, if_neg hm, hb]
  rfl

/-- An answer that is a refusal in an initialised, idle engine is one in every engine. -/
theorem whenIdle_refused {s : State} {a : Answer} (h : s.mode ≠ none → s.busy = false → ∃ r, a = .refused r) :
    ∃ r, whenIdle s a = .refused r := by
  unfold whenIdle
  split
  · exact ⟨_, rfl⟩
  · split
    · exact ⟨_, rfl⟩
    · exact h ‹_› (eq_false_of_ne_true ‹_›)

theorem whenIdle_of_not_idle {s : State} (h : s.mode = none ∨ s.busy = true) (a : Answer) :
    ∃ r, whenIdle s a = .refused r :=
  whenIdle_refused fun hm hb => absurd h (by simp [hm, hb])

/-! ## SUBMIT (R260, R261) -/

theorem exec_submit (sh : Shape) (cmd : Command) (sbc : Option Command) (data : Option Data) (stop : Option Command)
    (s : State) :
    exec (.submit sh cmd sbc data stop) s =
      whenIdle s (if requestOk s.cfg sh cmd sbc data stop then .next (s.accept cmd sbc data stop)
        else .refused .illFormedRequest) := rfl

/-- Words after the records that a `SUBMIT` announces make it ill-formed at the port (R261 item 2, R116). -/
theorem runPort_submit_leftover {i : Instr} (hwf : i.wf = true) (hport : atPort i = true) (hi : isSubmit i = true)
    (w : Word) (ws : List Word) (s : State) : runPort (encode i ++ w :: ws) s = .refused .illFormedRequest := by
  simp [runPort, portOp, decodeOfEncodeGivesTheInstructionBack i _ hwf, hport, hi]

/-- Settles O13: the check of `SUBMIT` is R261 (`requestOk_iff`), and leftover words are refused at the port. -/
theorem submitAcceptsExactlyWellFormedRequests : Obligations.SubmitAcceptsExactlyWellFormedRequests := by
  intro sh cmd sbc data stop s
  rw [exec_submit, ← requestOk_iff]
  refine ⟨fun hm hb hok => ?_, fun h => whenIdle_refused fun hm hb => ?_, fun w ws rest hwf hs => ?_⟩
  · rw [whenIdle_of_idle hm hb, if_pos hok]
    rfl
  · have hbad : ¬ requestOk s.cfg sh cmd sbc data stop = true := by simpa [hm, hb] using h
    exact ⟨_, if_neg hbad⟩
  · rw [step_port hs]
    exact runPort_submit_leftover hwf rfl rfl w ws _

/-! ## SET_BUS_WIDTH (R270, R113) -/

theorem exec_setBusWidth (w : BusWidth) (s : State) :
    exec (.setBusWidth w) s =
      whenIdle s (afterWrites s s.bus [.busWidth]
        { s with bus := s.bus.fieldWrite s.cfg .busWidth (busWidthCode s.cfg w) }) := rfl

theorem busWidthCode_eq (cfg : Config) (w : BusWidth) :
    busWidthCode cfg w = match w with | .one => cfg.bwCode1 | .four => cfg.bwCode4 | .eight => cfg.bwCode8 := by
  cases w <;> rfl

theorem BusWidth.ofCode_eq_none {c : BitVec 8} (h1 : c ≠ 1) (h4 : c ≠ 4) (h8 : c ≠ 8) : BusWidth.ofCode c = none := by
  rw [BusWidth.ofCode, if_neg h1, if_neg h4, if_neg h8]

/-- A selector that is no width spells no operation (R116). -/
theorem decode_busWidth_of_undefined {sel : BitVec 8} (h : BusWidth.ofCode sel = none) (ws : List Word) :
    decode (opWord 0x11 sel :: ws) = .error .undefinedId := by
  rw [decode_opWord]
  simp [decodeOp, decodeBusWidth, h]

/-- Settles O16: the hazard's fault, or what a normal field write leaves (`Bus.fieldWrite_spec`). -/
theorem setBusWidthWritesTheCode : Obligations.SetBusWidthWritesTheCode := by
  refine ⟨fun w s hm hb hearly => ?_, ?_, fun w s h => whenIdle_of_not_idle h _,
    fun sel ws h1 h4 h8 => ⟨_, decode_busWidth_of_undefined (BusWidth.ofCode_eq_none h1 h4 h8) ws⟩, rfl, rfl, rfl⟩
  · rw [exec_setBusWidth, whenIdle_of_idle hm hb]
    exact afterWrites_of_early ⟨_, List.mem_singleton_self _, hearly⟩ _
  · rintro w s x new reads r hm hb rfl hcalm hbase rfl
    rw [exec_setBusWidth, whenIdle_of_idle hm hb, busWidthCode_eq]
    exact ⟨_, afterWrites_of_not_early (by simpa using hcalm) _, rfl, Bus.fieldWrite_spec _ hbase⟩

/-! ## SET_CLOCK (R271) -/

theorem exec_setClock (rate : Option Nat) (s : State) :
    exec (.setClock rate) s = whenIdle s (.next { s with bus := s.bus.emit (.clock rate) }) := rfl

/-- Settles O17: the call is recorded on the host port; the words stand in the encoder's definition. -/
theorem setClockOnlyCallsTheClockService : Obligations.SetClockOnlyCallsTheClockService :=
  ⟨fun rate s hm hb => (exec_setClock rate s).trans (whenIdle_of_idle hm hb _),
    fun _ _ h => whenIdle_of_not_idle h _, fun _ => rfl, rfl⟩

/-! ## Loading a hand-written program (R274) -/

theorem step_load {s : State} {l : Load} {rest : List Input} (h : s.inputs = .load l :: rest) :
    step s = loadProgram l { s with inputs := rest } := by
  rw [step, h]

/-- A program's encodings decode to it. -/
theorem decodeProgram_encode {prog : List Instr} (h : ∀ i ∈ prog, i.wf = true) :
    decodeProgram (prog.map encode) = some prog := by
  induction prog with
  | nil => rfl
  | cons i prog ih =>
    obtain ⟨hi, hprog⟩ := List.forall_mem_cons.1 h
    simp [decodeProgram, decode_encode hi, ih hprog]

theorem commandOk_iff (c : Command) : commandOk c = true ↔ c.opcode.toNat < 64 ∧ c.rsp ≠ .reserved := by
  simp [commandOk]

/-- A load of an encoded program with command records that a request may have is decided by R274 alone. -/
theorem loadProgram_encode {l : Load} {prog : List Instr} (hprog : l.prog = prog.map encode)
    (hwf : ∀ i ∈ prog, i.wf = true)
    (hcmds : ∀ c, (l.sbc = some c ∨ l.cmd = some c ∨ l.stop = some c) → c.opcode.toNat < 64 ∧ c.rsp ≠ .reserved)
    (s : State) :
    loadProgram l s = whenIdle s (if programOk (Request.fresh l.cmd l.sbc l.stop l.data) prog then
      .next { s with req := Request.fresh l.cmd l.sbc l.stop l.data, prog := prog, upc := 0, busy := true }
      else .refused .badProgram) := by
  have hok {o : Option Command} (h : ∀ c, o = some c → c.opcode.toNat < 64 ∧ c.rsp ≠ .reserved) :
      o.all commandOk = true := by
    cases o with
    | none => rfl
    | some c => exact (commandOk_iff c).2 (h c rfl)
  have hsbc := hok fun c hc => hcmds c (.inl hc)
  have hcmd := hok fun c hc => hcmds c (.inr (.inl hc))
  have hstop := hok fun c hc => hcmds c (.inr (.inr hc))
  simp only [loadProgram, hprog, decodeProgram_encode hwf, hsbc, hcmd, hstop, Bool.and_true]
  rfl

/-- Settles O8: the loader's check is R274 (`programOk_iff`). -/
theorem loadRunsOnlyProgramsThatKeepTheConditions : Obligations.LoadRunsOnlyProgramsThatKeepTheConditions := by
  intro l prog s rest hs hprog hwf hcmds
  rw [step_load hs, loadProgram_encode hprog hwf hcmds, ← programOk_iff]
  refine ⟨?_, fun h => whenIdle_refused fun hm hb => ?_⟩
  · rintro ⟨hm, hb, hok⟩
    exact (whenIdle_of_idle (s := { s with inputs := rest }) hm hb _).trans (if_pos hok)
  · exact ⟨_, if_neg fun hok => h ⟨hm, hb, hok⟩⟩

end Sys2Proof.Machine
end

section
/-! `HW_RESET` (44_orchestrator.md R272): the start of the reset sequence, and its end with the call or without it
(45_reset_sequencer.md R300, R301). -/

namespace Sys2Proof.Machine

open Sys2Proof

/-! ## The passes of the sequence (R300, R301) -/

theorem State.resetFailedTest_of_bound {s : State} {n : Nat} (h : s.cfg.rstRetries ≤ n + 1) (phase : SubPhase) :
    s.resetFailedTest phase n = ({ s with rstErr := .resetFailed } : State).resetEnd :=
  if_pos h

/-- A failed test ends the sequence only at the retry bound (R301). -/
theorem State.bound_of_resetFailedTest_ends {s : State} {phase : SubPhase} {n : Nat}
    (h : (s.resetFailedTest phase n).sub = none) : s.cfg.rstRetries ≤ n + 1 := by
  by_contra hlt
  rw [State.resetFailedTest, if_neg hlt] at h
  cases h

theorem State.assertPass_of_failed {x : Word} {s : State} (h : x ≠ onesPattern s.cfg) (n : Nat) :
    s.assertPass x n = .next (s.resetFailedTest .assertReset n) :=
  if_neg h

theorem State.releasePass_of_zero {x : Word} (h : x = 0) (n : Nat) (s : State) : s.releasePass x n = s.resetEnd :=
  if_pos h

theorem State.releasePass_of_failed {x : Word} (h : x ≠ 0) (n : Nat) (s : State) :
    s.releasePass x n = s.resetFailedTest .release n :=
  if_neg h

/-- An assert pass ends the sequence only by a failed test at the bound (R300, R301). -/
theorem State.failed_of_assertPass_ends {s t : State} {x : Word} {n : Nat} (h : s.assertPass x n = .next t)
    (ht : t.sub = none) : x ≠ onesPattern s.cfg ∧ s.cfg.rstRetries ≤ n + 1 := by
  have hx : x ≠ onesPattern s.cfg := by
    intro hx
    rw [State.assertPass, if_pos hx] at h
    obtain ⟨-, rfl⟩ := afterWrites_next h
    cases ht
  rw [State.assertPass_of_failed hx] at h
  cases h
  exact ⟨hx, State.bound_of_resetFailedTest_ends ht⟩

theorem execRstseq_of_assert {s : State} {n : Nat} {x : Word} {b : Bus} (hs : s.sub = some ⟨.rstseq, .assertReset, n⟩)
    (hread : readField s .rstSts = .ok (x, b)) : execRstseq s = ({ s with bus := b } : State).assertPass x n := by
  simp only [execRstseq, resetStep, hs, hread]

theorem execRstseq_of_release {s : State} {n : Nat} {x : Word} {b : Bus} (hs : s.sub = some ⟨.rstseq, .release, n⟩)
    (hread : readField s .rstSts = .ok (x, b)) :
    execRstseq s = .next (({ s with bus := b } : State).releasePass x n) := by
  simp only [execRstseq, resetStep, hs, hread]

/-- A failed test of the assert phase at the bound ends the sequence with the error (R300, R301). -/
theorem execRstseq_of_assert_bound {s : State} {n : Nat} {x : Word} {b : Bus}
    (hs : s.sub = some ⟨.rstseq, .assertReset, n⟩) (hread : readField s .rstSts = .ok (x, b))
    (hx : x ≠ onesPattern s.cfg) (hbound : s.cfg.rstRetries ≤ n + 1) :
    execRstseq s = .next ({ s with bus := b, rstErr := .resetFailed } : State).resetEnd := by
  rw [execRstseq_of_assert hs hread, State.assertPass_of_failed, State.resetFailedTest_of_bound]
  · exact hbound
  · exact hx

/-- A failed test of the release phase at the bound ends the sequence with the error (R300, R301). -/
theorem execRstseq_of_release_bound {s : State} {n : Nat} {x : Word} {b : Bus}
    (hs : s.sub = some ⟨.rstseq, .release, n⟩) (hread : readField s .rstSts = .ok (x, b)) (hx : x ≠ 0)
    (hbound : s.cfg.rstRetries ≤ n + 1) :
    execRstseq s = .next ({ s with bus := b, rstErr := .resetFailed } : State).resetEnd := by
  rw [execRstseq_of_release hs hread, State.releasePass_of_failed hx, State.resetFailedTest_of_bound]
  exact hbound

/-- Which step ends the sequence, and with which reset error, does not depend on who runs it (R272, R300). -/
theorem execRstseq_end {s t : State} (h : execRstseq s = .next t) (ht : t.sub = none) :
    ∃ b e, ∀ r, execRstseq { s with inReset := r } =
      .next ({ s with inReset := r, bus := b, rstErr := e } : State).resetEnd := by
  unfold execRstseq resetStep at h
  split at h
  · rename_i n hphase
    split at h
    · cases h
    · rename_i x b hread
      obtain ⟨hx, hbound⟩ := State.failed_of_assertPass_ends h ht
      exact ⟨b, .resetFailed, fun r =>
        execRstseq_of_assert_bound (s := { s with inReset := r }) hphase hread hx hbound⟩
  · rename_i n hphase
    split at h <;> cases h
    rename_i x b hread
    by_cases hx : x = 0
    · refine ⟨b, s.rstErr, fun r => ?_⟩
      rw [execRstseq_of_release (s := { s with inReset := r }) hphase hread, State.releasePass_of_zero hx]
    · rw [State.releasePass_of_failed hx] at ht
      have hbound := State.bound_of_resetFailedTest_ends ht
      exact ⟨b, .resetFailed, fun r =>
        execRstseq_of_release_bound (s := { s with inReset := r }) hphase hread hx hbound⟩
  · obtain ⟨-, rfl⟩ := afterWrites_next h
    cases ht

/-! ## HW_RESET (R272) -/

theorem exec_hwReset (s : State) :
    exec .hwReset s =
      whenIdle s (afterWrites s s.bus [.rstN] ({ s with busy := true, inReset := true } : State).resetStart) := rfl

/-- Settles O54: the refusals, the start by a forced field write (`Bus.fieldForce_spec`), and the two forms of the
sequence's end (`State.resetEnd`) after the same read. -/
theorem hwResetRunsTheSequenceAndReturns : Obligations.HwResetRunsTheSequenceAndReturns := by
  refine ⟨fun s h => whenIdle_of_not_idle h _, ?_, fun s t u hfree ht hreset hrun => ?_⟩
  · rintro s rl y reads hm hb rfl hbase
    obtain ⟨htrace, -, hregs⟩ := Bus.fieldForce_spec 0 hbase
    rw [exec_hwReset, whenIdle_of_idle hm hb]
    exact ⟨fun hearly => afterWrites_of_early ⟨_, List.mem_singleton_self _, hearly⟩ _,
      fun hcalm => ⟨_, afterWrites_of_not_early (by simpa using hcalm) _, rfl, htrace, hregs⟩⟩
  · obtain ⟨b, e, hend⟩ := execRstseq_end hfree ht
    have hs : ({ s with inReset := true } : State) = s := by rw [← hreset]
    cases hfree.symm.trans (hend false)
    cases hrun.symm.trans (hs ▸ hend true)
    rfl

end Sys2Proof.Machine
end

section
/-! The program of a request (44_orchestrator.md): its expansion part by part (R263), and the operations that branch in
it and end it (R265 to R268). -/

namespace Sys2Proof.Machine

open Sys2Proof

/-! ## The expansion of a request (R263) -/

/-- Program (b) up to `L_STOP`. -/
def dataFront (cmd : Command) (sbc : Option Command) (d : Dir) (lStop : Nat) : List Instr :=
  [.chkdir, .jerr .data lStop] ++ sbcPart sbc lStop ++ issuePart cmd d (2 + sbcLength sbc) lStop ++
    armPart cmd d lStop ++ capturePart d lStop ++ [.bidle, .jerr .data lStop, .dstat]

theorem expand_data (cmd : Command) (sbc : Option Command) (d : Data) (stop : Option Command) :
    expand cmd sbc (some d) stop =
      dataFront cmd sbc d.dir (stopLabel sbc d.dir) ++ stopPart sbc stop (stopLabel sbc d.dir) ++ [.dunmap, .done] := by
  simp only [expand, dataProgram, dataFront, List.append_assoc]

/-- `L_STOP` is the index after the data steps. -/
theorem dataFront_length (cmd : Command) (sbc : Option Command) (d : Dir) (lStop : Nat) :
    (dataFront cmd sbc d lStop).length = stopLabel sbc d := by
  cases d <;> cases sbc <;> rfl

theorem sbcPart_eq (sbc : Option Command) (lStop : Nat) :
    sbcPart sbc lStop = sbc.elim [] fun c =>
      [.cissue .sbc, .trig, .await ⟨true, false, c.busy⟩ .sbc, .wchk .sbc, .jerr .sbc 8, .ccapt .sbc,
       .jerr .sbc lStop] := by
  cases sbc <;> rfl

theorem issuePart_eq (cmd : Command) (sbc : Option Command) (d : Dir) (lStop : Nat) :
    issuePart cmd d (2 + sbcLength sbc) lStop =
      if d = .write then
        [.cissue .cmd, .trig, .await ⟨true, false, cmd.busy⟩ .cmd, .wchk .cmd,
         .jerr .cmd (if sbc = none then 8 else 15), .ccapt .cmd, .jerr .cmd lStop]
      else if d = .read then [.cissue .cmd] else [] := by
  cases d <;> cases sbc <;> rfl

theorem capturePart_eq (d : Dir) (lStop : Nat) :
    capturePart d lStop = if d = .read then [.ccapt .cmd, .jerr .cmd lStop] else [] := by
  cases d <;> rfl

theorem stopPart_eq (sbc stop : Option Command) (lStop : Nat) :
    stopPart sbc stop lStop =
      if sbc = none then
        stop.elim [] fun c =>
          [.cissue .stop, .trig, .await ⟨true, false, c.busy⟩ .stop, .wchk .stop, .jerr .stop (lStop + 6), .ccapt .stop]
      else [] := by
  cases sbc <;> cases stop <;> rfl

/-- Settles O14: each part of the program is its bracketed lines, and the front's length is `L_STOP`. -/
theorem expansionIsTheProgramOfTheShape : Obligations.ExpansionIsTheProgramOfTheShape := by
  refine ⟨fun _ _ _ => rfl, fun cmd sbc d stop => ⟨dataFront cmd sbc d.dir (stopLabel sbc d.dir), ?_, ?_⟩⟩
  · rw [dataFront_length, ← sbcPart_eq, ← issuePart_eq, ← capturePart_eq]
    rfl
  · rw [dataFront_length, ← stopPart_eq, expand_data]

/-! ## Branches and the end of a program (R265 to R268) -/

theorem exec_jerr {o : Obj} {e : ErrKind} {s : State} (h : s.req.errorOf o = some e) (l : Nat) :
    exec (.jerr o l) s = .next (s.branchOnError e l) := by
  simp only [exec, execJerr, h]

theorem State.branchOnError_eq (e : ErrKind) (l : Nat) (s : State) :
    s.branchOnError e l = { s with upc := if e = .noError then s.upc + 1 else l } := by
  unfold State.branchOnError
  split <;> rfl

/-- Settles O50: the branch on the object's error, and the jump of `JMP`'s definition. -/
theorem branchesMoveOnlyTheCounter : Obligations.BranchesMoveOnlyTheCounter :=
  ⟨fun _ l _ _ h => (exec_jerr h l).trans (congrArg _ (State.branchOnError_eq ..)), fun _ _ => rfl⟩

theorem exec_done_of_unmapped {s : State} (hseg : s.segMap = none) (harena : s.arenaMap = none) :
    exec .done s = .next s.complete :=
  if_pos ⟨hseg, harena⟩

theorem exec_done_of_mapped {s : State} (h : s.segMap ≠ none ∨ s.arenaMap ≠ none) :
    exec .done s = .fault .unmodelled :=
  if_neg fun ⟨hseg, harena⟩ => h.elim (absurd hseg) (absurd harena)

/-- Settles O51: the record of `State.complete`, or the fault of a mapping still held. -/
theorem doneReportsAndFreesTheEngine : Obligations.DoneReportsAndFreesTheEngine :=
  fun _ => ⟨exec_done_of_unmapped, exec_done_of_mapped⟩

end Sys2Proof.Machine
end

section
/-! `RSTSEQ` (45_reset_sequencer.md R300, R301): its start, and each outcome of a pass from its read of RST_STS on. -/

namespace Sys2Proof.Machine

open Sys2Proof

/-! ## The outcomes of a pass (R300, R301) -/

theorem State.resetEnd_of_program {s : State} (h : s.inReset = false) :
    s.resetEnd = { s with sub := none, upc := s.upc + 1 } :=
  if_neg (ne_true_of_eq_false h)

/-- A failed test below the bound waits the interval and counts (R301). -/
theorem State.resetFailedTest_of_retry {s : State} {n : Nat} (h : n + 1 < s.cfg.rstRetries) (phase : SubPhase) :
    s.resetFailedTest phase n =
      { s with bus := s.bus.emit (.delay s.cfg.rstInterval), sub := some ⟨.rstseq, phase, n + 1⟩ } :=
  if_neg (Nat.not_le.2 h)

theorem State.assertPass_of_asserted {x : Word} {s : State} (h : x = onesPattern s.cfg) (n : Nat) :
    s.assertPass x n = afterWrites s s.bus [.rstN] s.resetRelease :=
  if_pos h

/-! ## The steps of the sequence (R300) -/

/-- Outside its two phases the sequence starts. -/
theorem execRstseq_of_outside {s : State}
    (h : ∀ n, s.sub ≠ some ⟨.rstseq, .assertReset, n⟩ ∧ s.sub ≠ some ⟨.rstseq, .release, n⟩) :
    execRstseq s = afterWrites s s.bus [.rstN] s.resetStart := by
  unfold execRstseq resetStep
  split
  · exact absurd ‹_› (h _).1
  · exact absurd ‹_› (h _).2
  · rfl

/-- In either phase a pass whose read does not end the phase is a failed test. -/
theorem execRstseq_of_failed {s : State} {phase : SubPhase} {n : Nat} {x : Word} {b : Bus}
    (hs : s.sub = some ⟨.rstseq, phase, n⟩) (hread : readField s .rstSts = .ok (x, b))
    (h : phase = .assertReset ∧ x ≠ onesPattern s.cfg ∨ phase = .release ∧ x ≠ 0) :
    execRstseq s = .next (({ s with bus := b } : State).resetFailedTest phase n) := by
  obtain ⟨rfl, hx⟩ | ⟨rfl, hx⟩ := h
  · rw [execRstseq_of_assert hs hread, State.assertPass_of_failed]
    exact hx
  · rw [execRstseq_of_release hs hread, State.releasePass_of_failed hx]

/-! ## The line (R300, R143, D34) -/

/-- The answer of a step that forces the line: the fault of an early base, else the state after the write. -/
theorem afterWrites_rstN (s t : State) :
    (EarlyBase s s.bus (pos s.cfg .rstN).reg → afterWrites s s.bus [.rstN] t = .fault .earlyFlagRead) ∧
    (¬ EarlyBase s s.bus (pos s.cfg .rstN).reg → afterWrites s s.bus [.rstN] t = .next t) :=
  ⟨fun hearly => afterWrites_of_early ⟨_, List.mem_singleton_self _, hearly⟩ t,
    fun hcalm => afterWrites_of_not_early (by simpa using hcalm) t⟩

/-- What a read of a register and then a forced field write leave (R143). -/
theorem Bus.regRead_fieldForce_spec {cfg : Config} {b : Bus} {r : RegId} {f : FieldId} (v : Word) {y : Word}
    {reads : List Event} (h : BaseOf cfg (b.regRead cfg r).2 (pos cfg f).reg y reads) :
    ((b.regRead cfg r).2.fieldForce cfg f v).trace = b.trace ++ [.regRead (off cfg r) b.draws.nextRead] ++ reads ++
      [.regWrite (off cfg (pos cfg f).reg) (putField (pos cfg f) y v)] ∧
    ShadowIs cfg (pos cfg f).reg (putField (pos cfg f) y v) b ((b.regRead cfg r).2.fieldForce cfg f v) ∧
    OnlyRegisters [r, (pos cfg f).reg] b ((b.regRead cfg r).2.fieldForce cfg f v) := by
  obtain ⟨htrace, -, hshadow, honly⟩ := Bus.fieldForce_spec v h
  exact ⟨htrace, hshadow, OnlyRegisters.trans
    (OnlyRegisters.mono (b.onlyRegisters_regRead cfg r) (by simp)) (OnlyRegisters.mono honly (by simp))⟩

/-! ## RSTSEQ -/

/-- A pass after its read of a volatile RST_STS. -/
def State.pollReset (s : State) : State :=
  { s with bus := (s.bus.regRead s.cfg (pos s.cfg .rstSts).reg).2 }

/-- Settles O53: the start and the release are forced writes of the line, and each pass reads RST_STS
(`readField_of_volatile`) and then ends its phase, waits, or ends the sequence at the bound. -/
theorem rstseqDrivesTheLineAndCountsRetries : Obligations.RstseqDrivesTheLineAndCountsRetries := by
  rintro s r rl v x b1 rfl rfl rfl rfl rfl
  refine ⟨fun y reads houtside hbase => ?_, fun hc he => ?_⟩
  · have hstep : exec .rstseq s = afterWrites s s.bus [.rstN] s.resetStart := execRstseq_of_outside houtside
    obtain ⟨hfault, hgo⟩ := afterWrites_rstN s s.resetStart
    obtain ⟨htrace, -, hregs⟩ := Bus.fieldForce_spec 0 hbase
    exact ⟨hstep ▸ hfault, fun hcalm => ⟨_, hstep.trans (hgo hcalm), rfl, htrace, hregs⟩⟩
  have hread := readField_of_volatile hc (ne_true_of_eq_false he)
  refine ⟨fun n y reads hs hx hbase => ?_, fun n hs hx hr => ?_, fun phase n hs hfails => ?_⟩
  · have hstep : exec .rstseq s = afterWrites s.pollReset s.pollReset.bus [.rstN] s.pollReset.resetRelease :=
      (execRstseq_of_assert hs hread).trans (State.assertPass_of_asserted (s := s.pollReset) hx n)
    obtain ⟨hfault, hgo⟩ := afterWrites_rstN s.pollReset s.pollReset.resetRelease
    exact ⟨hstep ▸ hfault, fun hcalm => ⟨_, hstep.trans (hgo hcalm), rfl, Bus.regRead_fieldForce_spec 1 hbase⟩⟩
  · have hstep : exec .rstseq s = .next s.pollReset.resetEnd :=
      (execRstseq_of_release hs hread).trans (congrArg _ (State.releasePass_of_zero hx n _))
    exact hstep.trans (congrArg _ (State.resetEnd_of_program hr))
  · have hstep : exec .rstseq s = .next (s.pollReset.resetFailedTest phase n) := execRstseq_of_failed hs hread hfails
    refine ⟨fun hretry => ?_, fun hbound hr => ?_⟩
    · exact hstep.trans (congrArg _ (State.resetFailedTest_of_retry (s := s.pollReset) hretry phase))
    · rw [hstep, State.resetFailedTest_of_bound (s := s.pollReset) hbound]
      exact congrArg _ (State.resetEnd_of_program hr)

end Sys2Proof.Machine
end

section
/-! The exception entry (60_exceptions.md R312): what an error leaves in the objects of the request, and the diagnostic
snapshot it takes (R46). -/

namespace Sys2Proof.Machine

open Sys2Proof

/-! ## An object takes an error (R26, R312) -/

/-- A snapshot that is taken replaces the object's own. -/
theorem CommandObj.fail_eq (k : ErrKind) (dg : Option Diag) (c : CommandObj) :
    c.fail k dg = { c with error := k, diag := if dg = none then c.diag else dg } := by
  cases dg <;> rfl

theorem DataObj.fail_eq (k : ErrKind) (dg : Option Diag) (d : DataObj) :
    d.fail k dg = { d with error := k, diag := if dg = none then d.diag else dg } := by
  cases dg <;> rfl

/-- The error reaches its own object, where the request has it, and no other. -/
theorem Request.errorOf_fail (q : Request) (k : ErrKind) (dg : Option Diag) (o p : Obj) :
    (q.fail k dg o).errorOf p = if p = o then (q.errorOf o).map fun _ => k else q.errorOf p := by
  obtain rfl | ⟨c, rfl⟩ := Obj.cases_toObj p
  · rw [Request.errorOf_data, Request.fail_data, Request.errorOf_data]
    by_cases h : o = .data
    · simp [h, Request.errorOf_data, Function.comp_def, DataObj.fail]
    · simp [h, Ne.symm h]
  · rw [Request.errorOf_toObj, Request.fail_command, Request.errorOf_toObj]
    by_cases h : c.toObj = o
    · simp [← h, Function.comp_def, CommandObj.fail]
    · simp [h]

/-! ## The diagnostic snapshot (R46) -/

theorem ErrKind.diagnosed_iff (k : ErrKind) : k.diagnosed = true ↔ k = .timeout ∨ k = .crcMismatch := by
  simp [ErrKind.diagnosed]

/-- Each register of the snapshot is its valid shadow. -/
theorem State.diagnose_shadow {s : State} {r : RegId} {x : Option Word}
    (h : (r, x) ∈ [(RegId.ctrl, s.diagnose.ctrl), (.blkCnt, s.diagnose.blkCnt), (.blkSize, s.diagnose.blkSize),
      (.cmdRspSize, s.diagnose.cmdRspSize)]) :
    x = s.bus.validShadow s.cfg r := by
  simp only [List.mem_cons, Prod.mk.injEq, List.not_mem_nil, or_false] at h
  obtain ⟨rfl, rfl⟩ | ⟨rfl, rfl⟩ | ⟨rfl, rfl⟩ | ⟨rfl, rfl⟩ := h <;> rfl

/-! ## The raise (R312) -/

/-- Settles O52: `State.raise_cases`, and what each object of the request then holds by the lemmas of `Request.fail`. -/
theorem raiseKeepsTheFirstError : Obligations.RaiseKeepsTheFirstError := by
  intro k o s
  obtain ⟨herr, hkeep⟩ | ⟨hnone, hraise⟩ := s.raise_cases k o
  · exact ⟨fun _ _ _ => hkeep, fun h => absurd h herr⟩
  refine ⟨fun e he hne => absurd (Option.some.inj (he.symm.trans hnone)) hne, fun _ => ?_⟩
  generalize hdg : (if k.diagnosed then some s.diagnose else none) = dg at hraise
  have hreq : (s.raise k o).req = s.req.fail k dg o := congrArg State.req hraise
  rw [hreq]
  refine ⟨dg, fun hk => ?_, fun ht hc => ?_, hraise, fun p => ?_, fun p c hp => ?_, fun d hd => ?_⟩
  · exact ⟨s.diagnose, hdg.symm.trans (if_pos (k.diagnosed_iff.2 hk)), fun r x => s.diagnose_shadow, rfl⟩
  · exact hdg.symm.trans (if_neg fun h => (k.diagnosed_iff.1 h).elim ht hc)
  · rw [Request.errorOf_fail, hnone, Option.map_some]
  · rw [Request.fail_command, hp, Option.map_some, ← apply_ite some, CommandObj.fail_eq]
  · rw [Request.fail_data, hd, Option.map_some, ← apply_ite some, DataObj.fail_eq]

end Sys2Proof.Machine
end

section
/-! The settle hazard (70_reset_and_hazards.md R360): in which states an operation can fault with an early flag read. -/

namespace Sys2Proof.Machine

open Sys2Proof

/-! ## The states with the hazard (R145, R360) -/

/-- A flag register cannot be read yet: the settle delay has not elapsed, in polling mode or with `P_SETTLE_IRQ`. -/
def State.Hazard (s : State) : Prop :=
  (s.mode = some .polling ∨ s.cfg.settleIrq = true) ∧ s.settled = false

theorem hazard_of_earlyRead {s : State} {r : RegId} (h : earlyRead s r = true) : s.Hazard := by
  obtain ⟨hmode, -, hset⟩ := (earlyRead_iff s r).1 h
  exact ⟨hmode, hset⟩

theorem hazard_of_readReg {s : State} {r : RegId} {f : Fault} (h : readReg s r = .error f) : s.Hazard :=
  hazard_of_earlyRead (readReg_error h).1

theorem hazard_of_readField {s : State} {g : FieldId} {f : Fault} (h : readField s g = .error f) : s.Hazard :=
  hazard_of_earlyRead (readField_error h).1

theorem hazard_of_afterWrites {s t : State} {b : Bus} {fs : List FieldId} {f : Fault}
    (h : afterWrites s b fs t = .fault f) : s.Hazard := by
  obtain ⟨g, -, ⟨hmode, -, hset⟩, -⟩ := (earlyWrites_iff ..).1 (afterWrites_fault h).1
  exact ⟨hmode, hset⟩

/-! ## Operations at the port (R100, R169, R260) -/

theorem whenIdle_fault {s : State} {a : Answer} {f : Fault} (h : whenIdle s a = .fault f) :
    s.busy = false ∧ a = .fault f := by
  unfold whenIdle at h
  split at h
  · cases h
  · split at h
    · cases h
    · exact ⟨eq_false_of_ne_true ‹_›, h⟩

theorem execIrq_fault {s : State} {f : Fault} (h : execIrq s = .fault f) : s.mode = some .interrupt ∧ s.Hazard := by
  unfold execIrq at h
  split at h
  · split at h <;> cases h
    exact ⟨‹_›, hazard_of_readReg ‹_›⟩
  · cases h

/-- An operation at the port faults only in an idle engine, or as the interrupt handler. -/
theorem exec_fault_atPort {i : Instr} {s : State} {f : Fault} (hport : atPort i = true) (h : exec i s = .fault f) :
    s.Hazard ∧ (s.busy = false ∨ s.mode = some .interrupt) := by
  cases i with
  | submit sh cmd sbc data stop =>
    obtain ⟨-, h⟩ := whenIdle_fault ((exec_submit ..).symm.trans h)
    split at h <;> cases h
  | setBusWidth w =>
    obtain ⟨hb, h⟩ := whenIdle_fault ((exec_setBusWidth ..).symm.trans h)
    exact ⟨hazard_of_afterWrites h, .inl hb⟩
  | setClock rate => cases (whenIdle_fault ((exec_setClock ..).symm.trans h)).2
  | hwReset =>
    obtain ⟨hb, h⟩ := whenIdle_fault ((exec_hwReset s).symm.trans h)
    exact ⟨hazard_of_afterWrites h, .inl hb⟩
  | irq =>
    obtain ⟨hm, hz⟩ := execIrq_fault h
    exact ⟨hz, .inr hm⟩
  | init b =>
    simp only [exec, execInit] at h
    repeat' split at h
    all_goals cases h
  | _ => cases hport

/-! ## Waits (R163, R164) -/

theorem finishWait_fault {s : State} {f : Fault} (h : finishWait s = .fault f) : s.Hazard := by
  unfold finishWait at h
  split at h <;> cases h
  exact hazard_of_readReg ‹_›

theorem awaitInterrupt_fault {need : WaitSet} {s : State} {f : Fault} (h : awaitInterrupt need s = .fault f) :
    s.Hazard := by
  unfold awaitInterrupt at h
  split at h
  · exact finishWait_fault h
  · cases h

theorem awaitPolled_fault {need : WaitSet} {v : Word} {s : State} {f : Fault} (h : awaitPolled need v s = .fault f) :
    s.Hazard := by
  unfold awaitPolled at h
  simp only at h
  split at h
  · exact finishWait_fault (s := s.latchMerge v false) h
  · cases h

theorem awaitPolling_fault {need : WaitSet} {s : State} {f : Fault} (h : awaitPolling need s = .fault f) :
    s.Hazard := by
  unfold awaitPolling at h
  split at h
  · exact finishWait_fault h
  · split at h
    · exact hazard_of_readReg ‹_›
    · have hz := awaitPolled_fault h
      exact hz

/-- A wait that is to start with the settle step reads no flag register. -/
theorem execAwait_early {need : WaitSet} {o : Obj} {s : State} (h : execAwait need o s = .fault .earlyFlagRead) :
    s.Hazard ∧ s.mustSettle = false := by
  have hnote : (s.noteWait o).mustSettle = s.mustSettle := rfl
  unfold execAwait at h
  split at h
  · simp only [hnote] at h
    cases hm : s.mode with
    | none => simp [hm] at h
    | some m =>
      cases hs : s.mustSettle <;> cases m <;> simp [hm, hs] at h
      · exact ⟨awaitInterrupt_fault (s := s.noteWait o) h, rfl⟩
      · exact ⟨awaitPolling_fault (s := s.noteWait o) h, rfl⟩
  · cases h

/-! ## Every operation -/

theorem execRegRead_fault {r : RegId} {s : State} {f : Fault} (h : execRegRead r s = .fault f) : s.Hazard := by
  unfold execRegRead at h
  split at h <;> cases h
  exact hazard_of_readReg ‹_›

theorem execFieldRead_fault {g : FieldId} {s : State} {f : Fault} (h : execFieldRead g s = .fault f) : s.Hazard := by
  unfold execFieldRead at h
  split at h <;> cases h
  exact hazard_of_readField ‹_›

theorem fieldWriteAnswer_fault {g : FieldId} {v : Word} {s t : State} {f : Fault}
    (h : fieldWriteAnswer g v s t = .fault f) : s.Hazard := by
  unfold fieldWriteAnswer at h
  split at h
  · exact hazard_of_afterWrites h
  · cases h

theorem execCissue_fault {o : CmdId} {s : State} {f : Fault} (h : execCissue o s = .fault f) : s.Hazard := by
  unfold execCissue at h
  split at h
  · cases h
  · split at h
    · cases h
    · exact hazard_of_afterWrites h

theorem execDarm_early {s : State} (h : execDarm s = .fault .earlyFlagRead) : s.Hazard := by
  unfold execDarm at h
  split at h
  · cases h
  · split at h
    · cases h
    · split at h
      · exact hazard_of_afterWrites h
      · cases h

theorem execBidle_early {s : State} (h : execBidle s = .fault .earlyFlagRead) : s.Hazard := by
  unfold execBidle at h
  split at h
  · exact hazard_of_readField ‹_›
  · unfold State.bidlePass at h
    simp only at h
    repeat' split at h
    all_goals cases h

theorem execRstseq_fault {s : State} {f : Fault} (h : execRstseq s = .fault f) : s.Hazard := by
  unfold execRstseq resetStep at h
  split at h
  · split at h
    · exact hazard_of_readField ‹_›
    · unfold State.assertPass at h
      split at h
      · exact hazard_of_afterWrites h
      · cases h
  · split at h <;> cases h
    exact hazard_of_readField ‹_›
  · exact hazard_of_afterWrites h

/-- An early flag read comes from a state with the hazard, whichever operation runs. -/
theorem hazard_of_exec {i : Instr} {s : State} (h : exec i s = .fault .earlyFlagRead) : s.Hazard := by
  cases i with
  | submit | setBusWidth | setClock | hwReset | irq | init => exact (exec_fault_atPort rfl h).1
  | regRead => exact execRegRead_fault h
  | fieldRead => exact execFieldRead_fault h
  | fieldWrite => exact fieldWriteAnswer_fault ((exec_fieldWrite ..).symm.trans h)
  | fieldForce => exact fieldWriteAnswer_fault ((exec_fieldForce ..).symm.trans h)
  | await => exact (execAwait_early h).1
  | cissue => exact execCissue_fault h
  | trig => exact hazard_of_afterWrites h
  | darm => exact execDarm_early h
  | bidle => exact execBidle_early h
  | rstseq => exact execRstseq_fault h
  | regWrite | clrev | dunmap | jmp => cases h
  | wchk | ccapt | chkdir | dmap | dprep | dstat | jerr | done =>
    -- these answer a state, a refusal, or the fault UNMODELLED (R314)
    simp only [exec, execWchk, execCcapt, execChkdir, execDmap, execDprep, execDstat, execJerr, execDone] at h
    repeat' split at h
    all_goals cases h

end Sys2Proof.Machine
end

section
/-! The engine's own programs (44_orchestrator.md R263): each trigger is followed by its wait, and what a step leaves of
the program and of the progress of a multi-step operation (10_state.md R50). -/

namespace Sys2Proof.Machine

open Sys2Proof

/-! ## Triggers and waits in a program (R263) -/

/-- Each trigger of the program is followed by a wait. -/
def TriggersWait (prog : List Instr) : Prop :=
  ∀ k, prog[k]? = some .trig → ∃ need o, prog[k + 1]? = some (.await need o)

@[simp] theorem triggersWait_nil : TriggersWait [] := fun _ h => nomatch h

@[simp] theorem triggersWait_cons (i : Instr) (is : List Instr) :
    TriggersWait (i :: is) ↔ (i = .trig → ∃ need o, is[0]? = some (.await need o)) ∧ TriggersWait is := by
  constructor
  · exact fun h => ⟨fun hi => h 0 (by simp [hi]), fun k hk => h (k + 1) hk⟩
  · rintro ⟨hhead, htail⟩ (_ | k) hk
    · exact hhead (by simpa using hk)
    · exact htail k hk

theorem TriggersWait.append {is js : List Instr} (hi : TriggersWait is) (hj : TriggersWait js) :
    TriggersWait (is ++ js) := by
  induction is with
  | nil => exact hj
  | cons i is ih =>
    rw [triggersWait_cons] at hi
    rw [List.cons_append, triggersWait_cons]
    refine ⟨fun htrig => ?_, ih hi.2⟩
    obtain ⟨need, o, hwait⟩ := hi.1 htrig
    exact ⟨need, o, by rw [List.getElem?_append_left (List.getElem?_eq_some_iff.1 hwait).1, hwait]⟩

theorem triggersWait_cphase (o : CmdId) (busy : Bool) (k : Nat) : TriggersWait (cphase o busy k) := by
  simp [cphase]

theorem triggersWait_sbcPart (sbc : Option Command) (l : Nat) : TriggersWait (sbcPart sbc l) := by
  cases sbc with
  | none => exact triggersWait_nil
  | some c => exact TriggersWait.append (triggersWait_cphase _ _ _) (by simp)

theorem triggersWait_issuePart (cmd : Command) (d : Dir) (k l : Nat) : TriggersWait (issuePart cmd d k l) := by
  cases d with
  | unset => exact triggersWait_nil
  | read => simp [issuePart]
  | write => exact TriggersWait.append (triggersWait_cphase _ _ _) (by simp)

theorem triggersWait_armPart (cmd : Command) (d : Dir) (l : Nat) : TriggersWait (armPart cmd d l) := by
  simp [armPart]

theorem triggersWait_capturePart (d : Dir) (l : Nat) : TriggersWait (capturePart d l) := by
  cases d <;> simp [capturePart]

theorem triggersWait_stopPart (sbc stop : Option Command) (l : Nat) : TriggersWait (stopPart sbc stop l) := by
  cases sbc with
  | some c => exact triggersWait_nil
  | none =>
    cases stop with
    | none => exact triggersWait_nil
    | some c => exact triggersWait_cphase _ _ _

/-- The program of every request waits after each of its triggers. -/
theorem triggersWait_expand (cmd : Command) (sbc : Option Command) (data : Option Data) (stop : Option Command) :
    TriggersWait (expand cmd sbc data stop) := by
  cases data with
  | none => exact TriggersWait.append (triggersWait_cphase _ _ _) (by simp)
  | some d =>
    rw [expand_data]
    refine TriggersWait.append (TriggersWait.append ?_ (triggersWait_stopPart _ _ _)) (by simp)
    refine TriggersWait.append (TriggersWait.append ?_ (triggersWait_capturePart _ _)) (by simp)
    refine TriggersWait.append ?_ (triggersWait_armPart _ _ _)
    refine TriggersWait.append ?_ (triggersWait_issuePart _ _ _ _)
    exact TriggersWait.append (by simp) (triggersWait_sbcPart _ _)

/-! ## What a step leaves of the program -/

@[simp] theorem State.resetEnd_prog (s : State) : s.resetEnd.prog = s.prog := by
  obtain ⟨-, e⟩ | ⟨-, e⟩ := s.resetEnd_cases <;> rw [e]

@[simp] theorem State.resetEnd_sub (s : State) : s.resetEnd.sub = none := by
  obtain ⟨-, e⟩ | ⟨-, e⟩ := s.resetEnd_cases <;> rw [e]

/-- After an operation the program is the same, ended, or a request's. -/
theorem exec_prog {i : Instr} {s t : State} (h : exec i s = .next t) :
    t.prog = s.prog ∨ t.prog = [] ∨ ∃ cmd sbc data stop, t.prog = expand cmd sbc data stop := by
  cases i with
  | submit sh cmd sbc data stop =>
    obtain ⟨-, -, -, rfl⟩ := execSubmit_next h
    exact .inr (.inr ⟨cmd, sbc, data, stop, rfl⟩)
  | setBusWidth => obtain ⟨-, -, -, rfl⟩ := execSetBusWidth_next h; exact .inl rfl
  | setClock => obtain ⟨-, -, rfl⟩ := execSetClock_next h; exact .inl rfl
  | hwReset => obtain ⟨-, -, -, rfl⟩ := execHwReset_next h; exact .inl rfl
  | irq => obtain ⟨-, -, rfl⟩ := execIrq_next h; exact .inl rfl
  | init => obtain ⟨-, -, rfl⟩ := execInit_next h; exact .inl rfl
  | done => obtain ⟨-, -, rfl⟩ := execDone_next h; exact .inr (.inl rfl)
  | rstseq =>
    obtain ⟨-, rfl⟩ | ⟨x, b, s1, ph, n, -, rfl, -, ⟨-, rfl⟩ | rfl | rfl | rfl⟩ := execRstseq_next h <;> simp
  | _ => exact .inl ((exec_keeps h).program rfl (by simp) (by simp)).2.2.1

theorem TriggersWait.exec {i : Instr} {s t : State} (hs : TriggersWait s.prog) (h : exec i s = .next t) :
    TriggersWait t.prog := by
  obtain e | e | ⟨cmd, sbc, data, stop, e⟩ := exec_prog h <;> rw [e]
  · exact hs
  · exact triggersWait_nil
  · exact triggersWait_expand _ _ _ _

/-! ## What a step leaves of the progress (R50) -/

/-- The engine stays at its operation: it is as busy as before, and its next operation is the same. -/
def Stays (s t : State) : Prop := t.busy = s.busy ∧ nextOp t = nextOp s

theorem Captures.sub {s u : State} (h : Captures s u) : u.sub = s.sub := by
  obtain ⟨⟨_, _, _, _, rfl⟩, -⟩ := h
  rfl

theorem execAwait_progress {need : WaitSet} {o : Obj} {s t : State} (h : execAwait need o s = .next t) {p : Progress}
    (hp : t.sub = some p) : p.op = .await ∧ Stays s t := by
  obtain ⟨ht, -, -, -, -, hctl, -⟩ := execAwait_frame h
  have hstays (hupc : t.upc = s.upc) : Stays s t := by
    rw [ht, hupc]
    exact ⟨rfl, rfl⟩
  obtain ⟨hupc, -, ⟨-, hsub⟩ | ⟨-, ⟨n, hsub⟩, -⟩⟩ | ⟨-, hsub, -⟩ := hctl <;> cases hsub.symm.trans hp
  · exact ⟨rfl, hstays hupc⟩
  · exact ⟨rfl, hstays hupc⟩

theorem execBidle_progress {s t : State} (h : execBidle s = .next t) {p : Progress} (hp : t.sub = some p) :
    p.op = .bidle ∧ Stays s t := by
  obtain ⟨x, b, s1, -, rfl, rfl | ⟨-, rfl⟩ | rfl⟩ := execBidle_next h
  · cases hp
  · obtain e | e := State.bidleExpired_cases _ <;> rw [e] at hp <;> cases hp
  · cases hp
    exact ⟨rfl, rfl, rfl⟩

theorem execRstseq_progress {s t : State} (h : execRstseq s = .next t) {p : Progress} (hp : t.sub = some p) :
    p.op = .rstseq ∧ Stays s t := by
  obtain ⟨-, rfl⟩ | ⟨x, b, s1, ph, n, -, rfl, -, ⟨-, rfl⟩ | rfl | rfl | rfl⟩ := execRstseq_next h
  · cases hp
    exact ⟨rfl, rfl, rfl⟩
  · cases hp
    exact ⟨rfl, rfl, rfl⟩
  · simp at hp
  · simp at hp
  · cases hp
    exact ⟨rfl, rfl, rfl⟩

/-- An operation of a program that takes one step leaves the progress record as it is. -/
theorem exec_sub {i : Instr} {s t : State} (h : exec i s = .next t) (hport : atPort i = false)
    (hone : ∀ p, progressOf p i = false) : t.sub = s.sub := by
  cases i with
  | submit | setBusWidth | setClock | hwReset | irq | init => cases hport
  | await => cases hone ⟨.await, .loop, 0⟩
  | bidle => cases hone ⟨.bidle, .loop, 0⟩
  | rstseq => cases hone ⟨.rstseq, .release, 0⟩
  | regWrite | clrev | dunmap | jmp => cases h; rfl
  | regRead => obtain ⟨-, rfl⟩ := execRegRead_next h; rfl
  | fieldRead => obtain ⟨v, b, -, rfl⟩ := execFieldRead_next h; rfl
  | fieldWrite => obtain ⟨-, -, rfl⟩ := execFieldWrite_next h; rfl
  | fieldForce => obtain ⟨-, -, rfl⟩ := execFieldForce_next h; rfl
  | wchk => obtain ⟨-, rfl | rfl⟩ := execWchk_next h <;> simp
  | cissue => obtain ⟨c, -, -, -, rfl⟩ := execCissue_next h; rfl
  | trig => obtain ⟨-, rfl⟩ := execTrig_next h; rfl
  | ccapt =>
    obtain ⟨c, v, hc, -, -, rfl⟩ := execCcapt_next h
    exact (Captures.capture hc v).sub
  | chkdir => obtain ⟨d, -, rfl | rfl⟩ := execChkdir_next h <;> simp
  | dmap => obtain ⟨d, -, rfl⟩ := execDmap_next h; rfl
  | dprep =>
    obtain ⟨d, -, rfl | rfl | ⟨g, -, rfl⟩ | ⟨a, -, -, -, rfl⟩⟩ := execDprep_next h
    · simp
    · simp
    · rfl
    · rfl
  | darm => obtain ⟨d, p, -, -, -, -, rfl⟩ := execDarm_next h; rfl
  | dstat => obtain ⟨d, v, s1, -, -, rfl | rfl, rfl⟩ := execDstat_next h <;> simp
  | jerr => obtain ⟨e, -, rfl⟩ := execJerr_next h; rfl
  | done => obtain ⟨-, -, rfl⟩ := execDone_next h; rfl

/-- Where progress belongs to the operation of a program that runs, what progress the step leaves belongs to it too, and
the engine stays at it. -/
theorem exec_progress {i : Instr} {s t : State} (h : exec i s = .next t) (hport : atPort i = false)
    (hs : ∀ p, s.sub = some p → progressOf p i = true) {p : Progress} (hp : t.sub = some p) :
    progressOf p i = true ∧ Stays s t := by
  by_cases hone : ∀ p, progressOf p i = false
  · rw [exec_sub h hport hone] at hp
    cases (hs p hp).symm.trans (hone p)
  · cases i with
    | await =>
      obtain ⟨hop, hstays⟩ := execAwait_progress h hp
      exact ⟨by simp [progressOf, hop], hstays⟩
    | bidle =>
      obtain ⟨hop, hstays⟩ := execBidle_progress h hp
      exact ⟨by simp [progressOf, hop], hstays⟩
    | rstseq =>
      obtain ⟨hop, hstays⟩ := execRstseq_progress h hp
      exact ⟨by simp [progressOf, hop], hstays⟩
    | _ => exact absurd (fun _ => rfl) hone

end Sys2Proof.Machine
end

section
/-! Runs of the engine's own programs (70_reset_and_hazards.md R360, 20_memory.md R85): every step keeps the condition
`OwnRun`, and under it no step reads a flag register early. -/

namespace Sys2Proof.Machine

open Sys2Proof

/-! ## The parts of `OwnRun` -/

/-- The part of `OwnRun` about what is fixed or to come: the settle hazard is not extended to interrupt mode, no
hand-written program is to be loaded, and each trigger of the program is followed by a wait. -/
def OwnProgram (s : State) : Prop :=
  s.cfg.settleIrq = false ∧ (∀ i ∈ s.inputs, notLoad i = true) ∧ TriggersWait s.prog

/-- Progress belongs to the running operation. -/
def ProgressInv (s : State) : Prop :=
  ∀ p, s.sub = some p → s.busy = true ∧ ∃ i, nextOp s = some i ∧ progressOf p i = true

/-- A wait that has begun its loop in polling mode has passed its settle step. -/
def LoopSettled (s : State) : Prop := s.inAwaitLoop = true → s.mode = some .polling → s.settled = true

/-- In polling mode the settle delay has elapsed, and no wait is to come. -/
def State.Quiet (s : State) : Prop := (s.mode = some .polling → s.settled = true) ∧ s.armed = false

/-- Except where a wait is next, the engine of an own run is quiet. -/
theorem ownRun_iff (s : State) :
    OwnRun s ↔ OwnProgram s ∧ ProgressInv s ∧ LoopSettled s ∧ (AtWait s ∨ s.Quiet) := by
  have hlast : (s.mode = some .polling → s.settled = false → AtWait s) ∧ (s.armed = true → AtWait s) ↔
      AtWait s ∨ s.Quiet := by
    unfold State.Quiet
    by_cases hw : AtWait s <;> simp [hw]
  rw [← hlast]
  constructor
  · rintro ⟨hirq, hin, htrig, hprog, hloop, hset⟩
    exact ⟨⟨hirq, hin, htrig⟩, hprog, hloop, hset⟩
  · rintro ⟨⟨hirq, hin, htrig⟩, hprog, hloop, hset⟩
    exact ⟨hirq, hin, htrig, hprog, hloop, hset⟩

theorem ownRun_of_quiet {t : State} (hown : OwnProgram t) (hprog : ProgressInv t) (hq : t.Quiet) : OwnRun t :=
  (ownRun_iff t).2 ⟨hown, hprog, fun _ => hq.1, .inr hq⟩

theorem quiet_of_ownRun {s : State} (h : OwnRun s) (hw : ¬ AtWait s) : s.Quiet :=
  ((ownRun_iff s).1 h).2.2.2.resolve_left hw

theorem quiet_of_idle {s : State} (h : OwnRun s) (hb : s.busy = false) : s.Quiet :=
  quiet_of_ownRun h fun ⟨hbusy, _⟩ => Bool.false_ne_true (hb.symm.trans hbusy)

/-! ## What every operation keeps of the parts -/

theorem OwnProgram.exec {i : Instr} {s t : State} (hs : OwnProgram s) (h : exec i s = .next t) : OwnProgram t := by
  obtain ⟨hirq, hin, htrig⟩ := hs
  have hk := exec_keeps h
  exact ⟨hk.cfg ▸ hirq, hk.inputs ▸ hin, htrig.exec h⟩

/-- Of all operations `TRIG` alone starts a settle delay and has a wait to come. -/
theorem State.Quiet.exec {i : Instr} {s t : State} (hs : s.Quiet) (h : exec i s = .next t) (hi : i ≠ .trig) :
    t.Quiet := by
  obtain ⟨hset, harm⟩ := hs
  obtain hm | ⟨-, b, -, rfl⟩ := exec_mode h
  · have hw := exec_writes h
    refine ⟨fun hp => ?_, ?_⟩
    · obtain e | ⟨htrig, -⟩ | ⟨-, e⟩ := hw.settled
      · exact e.trans (hset (hm.symm.trans hp))
      · exact absurd htrig hi
      · exact e
    · obtain e | ⟨htrig, -⟩ | ⟨-, e⟩ := hw.armed
      · exact e.trans harm
      · exact absurd htrig hi
      · exact e
  · obtain ⟨-, -, rfl⟩ := execInit_next h
    exact ⟨fun _ => rfl, rfl⟩

theorem progressInv_of_none {t : State} (h : t.sub = none) : ProgressInv t := fun _ hp => nomatch h.symm.trans hp

/-- Progress belongs to the operation the engine runs. -/
theorem ProgressInv.belongs {s : State} (hs : ProgressInv s) {i : Instr} (hi : nextOp s = some i) {p : Progress}
    (hp : s.sub = some p) : progressOf p i = true := by
  obtain ⟨-, j, hj, hpj⟩ := hs p hp
  cases hi.symm.trans hj
  exact hpj

theorem ProgressInv.exec {i : Instr} {s t : State} (hs : ProgressInv s) (hb : s.busy = true) (hi : nextOp s = some i)
    (hport : atPort i = false) (h : exec i s = .next t) : ProgressInv t := by
  intro p hp
  obtain ⟨hpi, hbusy, hnext⟩ := exec_progress h hport (fun _ => hs.belongs hi) hp
  exact ⟨hbusy.trans hb, i, hnext.trans hi, hpi⟩

/-! ## Operations at the port -/

/-- An operation at the port keeps the condition: it starts a program or a reset in an idle engine, or changes nothing
the condition speaks of. -/
theorem ownRun_exec_atPort {i : Instr} {s t : State} (hs : OwnRun s) (hport : atPort i = true)
    (h : exec i s = .next t) : OwnRun t := by
  have hown := ((ownRun_iff s).1 hs).1.exec h
  cases i with
  | submit sh cmd sbc data stop =>
    obtain ⟨-, hb, -, rfl⟩ := execSubmit_next h
    have hq := quiet_of_idle hs hb
    exact ownRun_of_quiet hown (progressInv_of_none rfl) hq
  | setBusWidth w =>
    obtain ⟨-, -, -, rfl⟩ := execSetBusWidth_next h
    exact hs
  | setClock rate =>
    obtain ⟨-, -, rfl⟩ := execSetClock_next h
    exact hs
  | hwReset =>
    obtain ⟨-, hb, -, rfl⟩ := execHwReset_next h
    have hq := quiet_of_idle hs hb
    refine ownRun_of_quiet hown (fun p hp => ?_) hq
    cases hp
    exact ⟨rfl, .rstseq, rfl, rfl⟩
  | irq =>
    obtain ⟨-, -, rfl⟩ := execIrq_next h
    exact hs
  | init b =>
    obtain ⟨-, -, rfl⟩ := execInit_next h
    exact ownRun_of_quiet hown (progressInv_of_none rfl) ⟨fun _ => rfl, rfl⟩
  | _ => cases hport

/-! ## Operations of a program -/

/-- A wait that starts with no settle step in polling mode finds the delay elapsed (R164). -/
theorem settled_of_not_mustSettle {s : State} (hs : LoopSettled s) (hnot : s.mustSettle = false)
    (hm : s.mode = some .polling) : s.settled = true := by
  cases hl : s.inAwaitLoop with
  | true => exact hs hl hm
  | false => simpa [State.mustSettle, hm, hl] using hnot

/-- In polling mode every step of a wait leaves the delay elapsed (R164). -/
theorem execAwait_settled {need : WaitSet} {o : Obj} {s t : State} (hs : LoopSettled s)
    (h : execAwait need o s = .next t) (hm : s.mode = some .polling) : t.settled = true := by
  obtain ⟨-, ⟨-, rfl⟩ | ⟨hnot, -⟩⟩ := execAwait_next h
  · rfl
  · have hset := settled_of_not_mustSettle hs hnot hm
    simpa [hset] using (execAwait_writes h).settled

/-- A wait that has not returned is still next; one that has leaves no wait to come. -/
theorem execAwait_atWait {need : WaitSet} {o : Obj} {s t : State} (hw : AtWait s)
    (h : execAwait need o s = .next t) : AtWait t ∨ t.armed = false := by
  obtain ⟨ht, -, -, -, -, ⟨hupc, -⟩ | ⟨-, -, -, harm⟩, -⟩ := execAwait_frame h
  · rw [ht, hupc]
    exact .inl hw
  · exact .inr harm

theorem ownRun_execAwait {need : WaitSet} {o : Obj} {s t : State} (hs : OwnRun s) (hw : AtWait s)
    (hi : nextOp s = some (.await need o)) (h : execAwait need o s = .next t) : OwnRun t := by
  obtain ⟨hown, hprog, hloop, -⟩ := (ownRun_iff s).1 hs
  have hmode : t.mode = s.mode := by rw [(execAwait_frame h).1]
  have hset (hm : t.mode = some .polling) : t.settled = true := execAwait_settled hloop h (hmode.symm.trans hm)
  exact (ownRun_iff t).2 ⟨hown.exec (i := .await need o) h, hprog.exec hw.1 hi rfl h, fun _ => hset,
    (execAwait_atWait hw h).imp_right fun harm => ⟨hset, harm⟩⟩

theorem nextOp_in_program {s : State} {i : Instr} (hi : nextOp s = some i) (hr : i ≠ .rstseq) :
    s.inReset = false ∧ s.prog[s.upc]? = some i := by
  unfold nextOp at hi
  split at hi
  · cases hi
    exact absurd rfl hr
  · exact ⟨eq_false_of_ne_true ‹_›, hi⟩

/-- After a trigger the program's wait is next. -/
theorem ownRun_execTrig {s t : State} (hs : OwnRun s) (hb : s.busy = true) (hi : nextOp s = some .trig)
    (h : execTrig s = .next t) : OwnRun t := by
  obtain ⟨hown, hprog, hloop, -⟩ := (ownRun_iff s).1 hs
  obtain ⟨hr, hat⟩ := nextOp_in_program hi (by simp)
  obtain ⟨need, o, hwait⟩ := hown.2.2 _ hat
  have hown' := hown.exec (i := .trig) h
  have hprog' := hprog.exec hb hi rfl h
  obtain ⟨-, rfl⟩ := execTrig_next h
  have hsub : s.sub = none := Option.eq_none_iff_forall_ne_some.2 fun p hp => by cases hprog.belongs hi hp
  refine (ownRun_iff _).2 ⟨hown', hprog', fun hl => ?_, .inl ⟨hb, need, o, ?_⟩⟩
  · simp [State.inAwaitLoop, hsub] at hl
  · simpa [nextOp, hr] using hwait

/-- An operation of a running program keeps the condition: it is a wait, a trigger that a wait follows, or an operation
of a quiet engine. -/
theorem ownRun_exec_program {i : Instr} {s t : State} (hs : OwnRun s) (hb : s.busy = true) (hi : nextOp s = some i)
    (hport : atPort i = false) (h : exec i s = .next t) : OwnRun t := by
  by_cases hw : AtWait s
  · have ⟨_, need, o, hwait⟩ := hw
    cases hi.symm.trans hwait
    exact ownRun_execAwait hs hw hi h
  by_cases htrig : i = .trig
  · subst htrig
    exact ownRun_execTrig hs hb hi h
  obtain ⟨hown, hprog, -, -⟩ := (ownRun_iff s).1 hs
  exact ownRun_of_quiet (hown.exec h) (hprog.exec hb hi hport h) ((quiet_of_ownRun hs hw).exec h htrig)

/-! ## No early flag read (R360) -/

/-- In an own run the hazard is one of polling mode, and a wait is next. -/
theorem atWait_of_hazard {s : State} (hs : OwnRun s) (hz : s.Hazard) : s.mode = some .polling ∧ AtWait s := by
  obtain ⟨hirq, -, -, -, -, hset, -⟩ := hs
  obtain ⟨hmode, hunset⟩ := hz
  have hm : s.mode = some .polling := by simpa [hirq] using hmode
  exact ⟨hm, hset hm hunset⟩

/-- At the port nothing faults while a wait is next: the engine is busy, and has no handler in polling mode. -/
theorem not_early_atPort {i : Instr} {s : State} (hs : OwnRun s) (hport : atPort i = true) :
    exec i s ≠ .fault .earlyFlagRead := by
  intro h
  obtain ⟨hz, hidle | hirq⟩ := exec_fault_atPort hport h
  · exact Bool.false_ne_true (hidle.symm.trans (atWait_of_hazard hs hz).2.1)
  · cases hirq.symm.trans (atWait_of_hazard hs hz).1

/-- Of a program only the wait can run while the delay has not elapsed, and it then starts with its settle step. -/
theorem not_early_program {i : Instr} {s : State} (hs : OwnRun s) (hi : nextOp s = some i) :
    exec i s ≠ .fault .earlyFlagRead := by
  intro h
  have hz := hazard_of_exec h
  obtain ⟨hm, -, need, o, hwait⟩ := atWait_of_hazard hs hz
  cases hi.symm.trans hwait
  have hset := settled_of_not_mustSettle ((ownRun_iff s).1 hs).2.2.1 (execAwait_early h).2 hm
  exact Bool.false_ne_true (hz.2.symm.trans hset)

/-! ## Every step -/

/-- The orchestrator's move faults as its operation does, or by a rule of its own. -/
theorem orchestrate_fault {s : State} {f : Fault} (h : orchestrate s = .fault f) :
    f = .unmodelled ∨ ∃ i, nextOp s = some i ∧ exec i s = .fault f := by
  unfold orchestrate at h
  split at h
  · split at h
    · obtain hex | ⟨hf, -⟩ := holdWhileArmed_fault h
      · exact .inr ⟨_, ‹_›, hex⟩
      · exact .inl hf
    · cases h
      exact .inl rfl
  · cases h

theorem runPort_fault {ws : List Word} {s : State} {f : Fault} (h : runPort ws s = .fault f) :
    ∃ i, atPort i = true ∧ exec i s = .fault f := by
  unfold runPort at h
  split at h
  · exact ⟨_, (portOp_ok ‹_›).1, h⟩
  · cases h

/-- A load answers a state or is refused (R274). -/
theorem loadProgram_ne_fault (l : Load) (s : State) (f : Fault) : loadProgram l s ≠ .fault f := by
  intro h
  simp only [loadProgram] at h
  repeat' split at h
  all_goals cases h

/-- A step faults as an operation of the program or at the port does, or by a rule of the orchestrator. -/
theorem step_fault {s : State} {f : Fault} (h : step s = .fault f) :
    f = .unmodelled ∨ ∃ i, (nextOp { s with inputs := s.inputs.tail } = some i ∨ atPort i = true) ∧
      exec i { s with inputs := s.inputs.tail } = .fault f := by
  cases hin : s.inputs with
  | nil =>
    rw [step_orchestrator (.inl ⟨hin, rfl⟩)] at h
    exact (orchestrate_fault h).imp_right fun ⟨i, hi, hex⟩ => ⟨i, .inl hi, hex⟩
  | cons inp rest =>
    cases inp with
    | orchestrator =>
      rw [step_orchestrator (.inr hin)] at h
      exact (orchestrate_fault h).imp_right fun ⟨i, hi, hex⟩ => ⟨i, .inl hi, hex⟩
    | port ws =>
      rw [step_port hin] at h
      exact .inr ((runPort_fault h).imp fun i ⟨hport, hex⟩ => ⟨.inr hport, hex⟩)
    | load l =>
      rw [step_load hin] at h
      exact absurd h (loadProgram_ne_fault l _ f)

theorem ownRun_of_powerOn {s : State} (h : PowerOn s) (hirq : s.cfg.settleIrq = false)
    (hin : ∀ i ∈ s.inputs, notLoad i = true) : OwnRun s := by
  have hprog : s.prog = [] := by rw [h.2]; rfl
  have hq : s.Quiet := by rw [h.2]; exact ⟨fun _ => rfl, rfl⟩
  exact ownRun_of_quiet ⟨hirq, hin, hprog ▸ triggersWait_nil⟩ (progressInv_of_none (by rw [h.2]; rfl)) hq

/-- With its turn taken an own run is one still. -/
theorem ownRun_taken {s : State} (hs : OwnRun s) : OwnRun { s with inputs := s.inputs.tail } := by
  obtain ⟨hirq, hin, hrest⟩ := hs
  exact ⟨hirq, fun i hi => hin i (List.mem_of_mem_tail hi), hrest⟩

theorem ownRun_step {s t : State} (hs : OwnRun s) (h : step s = .next t) : OwnRun t := by
  obtain ⟨s0, rfl, hcases⟩ := step_next h
  have hs0 := ownRun_taken hs
  obtain ⟨-, rfl⟩ | ⟨hb, -, i, hi, hex⟩ | ⟨ws, i, -, hport, hex⟩ | ⟨l, hload, -⟩ := hcases
  · exact hs0
  · cases hport : atPort i with
    | true => exact ownRun_exec_atPort hs0 hport hex
    | false => exact ownRun_exec_program hs0 hb hi hport hex
  · exact ownRun_exec_atPort hs0 (portOp_ok hport).1 hex
  · cases hs.2.1 _ (List.mem_of_mem_head? hload)

/-- Settles O60: `OwnRun` holds at power-on (`ownRun_of_powerOn`) and is kept by every step (`ownRun_step`), and under
it neither the port nor the program reads a flag register early. -/
theorem ownProgramsNeverReadFlagsEarly : Obligations.OwnProgramsNeverReadFlagsEarly := by
  refine ⟨fun s => ownRun_of_powerOn, fun s hs => ⟨?_, fun h => ?_, fun t => ownRun_step hs⟩⟩
  · obtain ⟨-, -, -, -, -, -, harm⟩ := hs
    exact harm
  · obtain hf | ⟨i, hi | hport, hex⟩ := step_fault h
    · cases hf
    · exact not_early_program (ownRun_taken hs) hi hex
    · exact not_early_atPort (ownRun_taken hs) hport hex

end Sys2Proof.Machine
end

section
/-! Before and at initialisation (70_reset_and_hazards.md R350, R352, R354): what an engine without a mode refuses, and
what `INIT` leaves at the ports. -/

namespace Sys2Proof.Machine

open Sys2Proof

/-! ## Before `INIT` (R350) -/

theorem whenIdle_of_uninitialised {s : State} (h : s.mode = none) (a : Answer) :
    whenIdle s a = .refused .notInitialised := if_pos h

theorem exec_irq_of_uninitialised {s : State} (h : s.mode = none) : exec .irq s = .refused .noHandler :=
  if_neg (by simp [h])

/-- Of the operations at the port an engine without a mode refuses all but `INIT`. -/
theorem exec_atPort_of_uninitialised {i : Instr} {s : State} (hm : s.mode = none) (hport : atPort i = true) :
    (∃ r, exec i s = .refused r) ∨ ∃ b, i = .init b := by
  cases i with
  | submit | setBusWidth | setClock | hwReset => exact .inl ⟨_, whenIdle_of_uninitialised hm _⟩
  | irq => exact .inl ⟨_, exec_irq_of_uninitialised hm⟩
  | init b => exact .inr ⟨b, rfl⟩
  | _ => cases hport

theorem runPort_of_uninitialised {s : State} (hm : s.mode = none) (ws : List Word) :
    (∃ r, runPort ws s = .refused r) ∨ ∃ b ws', decode ws = .ok (.init b, ws') := by
  unfold runPort
  split
  · rename_i i hop
    obtain ⟨hport, rest, hdec, -⟩ := portOp_ok hop
    obtain hrefused | ⟨b, rfl⟩ := exec_atPort_of_uninitialised hm hport
    · exact .inl hrefused
    · exact .inr ⟨b, rest, hdec⟩
  · exact .inl ⟨_, rfl⟩

theorem orchestrate_idle {s : State} (h : s.busy = false) : orchestrate s = .next s :=
  if_neg (ne_true_of_eq_false h)

/-! ## INIT (R352) -/

theorem exec_init_of_initialised {s : State} (h : s.mode ≠ none) (irqOk : Bool) :
    exec (.init irqOk) s = .refused .alreadyInitialised :=
  if_pos (Option.isSome_iff_ne_none.2 h)

theorem exec_init_of_badFieldMap {s : State} (hm : s.mode = none) (hc : configOk s.cfg = false) (irqOk : Bool) :
    exec (.init irqOk) s = .refused .badFieldMap := by
  simp [exec, execInit, hm, hc]

theorem exec_init_completes {s : State} (hm : s.mode = none) (hc : configOk s.cfg = true) (irqOk : Bool) :
    ∃ t, exec (.init irqOk) s = .next t := by
  simp [exec, execInit, hm, hc]

/-- Settles O10: the refusals of an engine without a mode, the wait of an idle engine, and an `INIT` with parameters
that pass the checks. -/
theorem onlyInitIsAcceptedBeforeInitialisation : Obligations.OnlyInitIsAcceptedBeforeInitialisation := by
  refine ⟨fun s dev ⟨hcap, hs⟩ => ⟨hcap, ?_⟩, fun s sh cmd sbc data stop hm => whenIdle_of_uninitialised hm _,
    fun s w hm => whenIdle_of_uninitialised hm _, fun s rate hm => whenIdle_of_uninitialised hm _,
    fun s hm => whenIdle_of_uninitialised hm _, fun s hm => exec_irq_of_uninitialised hm,
    fun s ws rest hm hs => ?_, fun s l rest hm hs => ?_, fun s rest hp hs => ?_, fun s irqOk hp hc => ?_⟩
  · rw [hs]
  · rw [step_port hs]
    exact runPort_of_uninitialised (s := { s with inputs := rest }) hm ws
  · rw [step_load hs]
    exact if_pos hm
  · obtain ⟨-, hb, -⟩ := powerOn_column hp
    rw [step_orchestrator (.inr hs)]
    exact orchestrate_idle (s := { s with inputs := rest }) hb
  · obtain ⟨hm, -⟩ := powerOn_column hp
    exact exec_init_completes hm hc irqOk

/-! ## The mask (R354) -/

/-- With every shadow `INVALID` the base of a field write is a read (R141). -/
theorem baseOf_invalidate (cfg : Config) (b : Bus) (r : RegId) :
    BaseOf cfg b.invalidate r b.draws.nextRead [.regRead (off cfg r) b.draws.nextRead] :=
  .inr ⟨.inr (RegFile.at_replicate none r), rfl, rfl⟩

/-- After a field write whose base is a read the device register holds the new value, written or left as it was read,
where a write is not a clearing one (R75, R142). -/
theorem Bus.fieldWrite_dev_of_read {cfg : Config} {b : Bus} {f : FieldId}
    (h : b.validShadow cfg (pos cfg f).reg = none) (he : (pos cfg f).reg ≠ .event) (hs : (pos cfg f).reg ≠ .status)
    (v : Word) :
    RegFile.at (b.fieldWrite cfg f v).dev (pos cfg f).reg = putField (pos cfg f) b.draws.nextRead v := by
  have hbase : (b.base cfg (pos cfg f).reg).1 = b.draws.nextRead := by rw [Bus.base_of_invalid h]
  simp only [Bus.fieldWrite, Bus.storeIfChanged, hbase]
  split
  · rename_i hsame
    rw [Bus.base_dev_of_read h, hsame]
  · rw [Bus.store_dev, RegFile.at_put_same, deviceAfterWrite_other he hs]

/-- What `INIT` leaves at the ports: one read of INT_MASK, its write where that changes it, and no other shadow valid
(R352, R354). -/
theorem Bus.initMask_spec {cfg : Config} (hc : configOk cfg = true) (irqOk : Bool) (b : Bus) {new : Word}
    (hnew : new = putField (pos cfg .intMask) b.draws.nextRead (maskOf irqOk)) :
    (b.initMask cfg irqOk).trace = b.trace ++ [.regRead (off cfg .intMask) b.draws.nextRead] ++
      (if new = b.draws.nextRead then [] else [.regWrite (off cfg .intMask) new]) ∧
    (∀ r, r ≠ .intMask → RegFile.at (b.initMask cfg irqOk).shadow r = none ∧
      RegFile.at (b.initMask cfg irqOk).dev r = RegFile.at b.dev r) ∧
    (cached cfg .intMask = true → RegFile.at (b.initMask cfg irqOk).shadow .intMask = some new) ∧
    RegFile.at (b.initMask cfg irqOk).dev .intMask = new := by
  have hreg : (pos cfg .intMask).reg = .intMask := (configOk_parts hc).2.2.1
  have hbase := baseOf_invalidate cfg b (pos cfg .intMask).reg
  have hnone : b.invalidate.validShadow cfg (pos cfg .intMask).reg = none :=
    Bus.validShadow_eq_none_iff.2 (.inr (RegFile.at_replicate none _))
  have hdev := Bus.fieldWrite_dev_of_read hnone (by simp [hreg]) (by simp [hreg]) (maskOf irqOk)
  obtain ⟨htrace, -, hshadow, honly⟩ := Bus.fieldWrite_spec (maskOf irqOk) hbase
  rw [hreg] at htrace hshadow honly hdev
  subst hnew
  exact ⟨htrace, fun r hr => ⟨Bus.initMask_shadow_other hc irqOk b hr, (honly r (by simpa using hr)).2⟩, hshadow.1,
    hdev⟩

/-- Settles O11: the refusals, or the state of `execInit_next`, whose ports are those of `Bus.initMask` after the base
was drawn and the handler registered. -/
theorem initProgramsTheMaskAndSelectsTheMode : Obligations.InitProgramsTheMaskAndSelectsTheMode := by
  refine fun s irqOk => ⟨fun hm => exec_init_of_initialised hm irqOk,
    fun hm hc => exec_init_of_badFieldMap hm hc irqOk, fun hm hc => ?_⟩
  obtain ⟨t, ht⟩ := exec_init_completes hm hc irqOk
  obtain ⟨htrace, hother, hmask, hdev⟩ := Bus.initMask_spec hc irqOk s.bus rfl
  obtain ⟨-, -, rfl⟩ := execInit_next ht
  refine ⟨_, _, ht, rfl, rfl, ⟨_, rfl, Draws.nextBase_aligned ..⟩, ?_⟩
  cases irqOk with
  | true => exact ⟨congrArg (· ++ [Event.registerIrq]) htrace, hother, hmask, hdev⟩
  | false => exact ⟨htrace.trans (List.append_nil _).symm, hother, hmask, hdev⟩

end Sys2Proof.Machine
end

section
/-! The frame of the reset sequence (45_reset_sequencer.md R302, 70_reset_and_hazards.md R356). -/

namespace Sys2Proof.Machine

open Sys2Proof

/-! ## At the ports -/

/-- Of the shadows and the device's registers only the line's and the status field's change, and the status field's
shadow only where it is cached. -/
def Bus.ResetFrame (cfg : Config) (a b : Bus) : Prop :=
  OnlyRegisters [(pos cfg .rstN).reg, (pos cfg .rstSts).reg] a b ∧
  (cached cfg (pos cfg .rstSts).reg = false →
    ∀ q, q ≠ (pos cfg .rstN).reg → RegFile.at b.shadow q = RegFile.at a.shadow q)

theorem Bus.resetFrame_trans {cfg : Config} {a b c : Bus} (h : a.ResetFrame cfg b) (h' : b.ResetFrame cfg c) :
    a.ResetFrame cfg c :=
  ⟨OnlyRegisters.trans h.1 h'.1, fun hc q hq => (h'.2 hc q hq).trans (h.2 hc q hq)⟩

theorem Bus.resetFrame_emit (cfg : Config) (e : Event) (b : Bus) : b.ResetFrame cfg (b.emit e) :=
  ⟨fun _ _ => ⟨rfl, rfl⟩, fun _ _ _ => rfl⟩

theorem Bus.resetFrame_force (cfg : Config) (v : Word) (b : Bus) : b.ResetFrame cfg (b.fieldForce cfg .rstN v) := by
  obtain ⟨x, reads, hbase⟩ := BaseOf.exists cfg b (pos cfg .rstN).reg
  obtain ⟨-, -, -, honly⟩ := Bus.fieldForce_spec v hbase
  exact ⟨OnlyRegisters.mono honly (by simp), fun _ q hq => (honly q (by simpa using hq)).1⟩

theorem Bus.resetFrame_base (cfg : Config) (b : Bus) : b.ResetFrame cfg (b.base cfg (pos cfg .rstSts).reg).2 := by
  obtain ⟨x, reads, hbase⟩ := BaseOf.exists cfg b (pos cfg .rstSts).reg
  obtain ⟨-, -, -, -, honly⟩ := Bus.base_spec hbase
  exact ⟨OnlyRegisters.mono honly (by simp), fun hc _ _ => by rw [Bus.base_shadow_volatile hc]⟩

/-- A field read leaves the ports as the base of a field write of its register does (R141, R147). -/
theorem readField_bus {s : State} {f : FieldId} {x : Word} {b : Bus} (h : readField s f = .ok (x, b)) :
    b = (s.bus.base s.cfg (pos s.cfg f).reg).2 := by
  obtain ⟨y, hy, e⟩ | ⟨hnone, -, e⟩ := readField_ok h <;> cases e
  · rw [Bus.base_of_valid hy]
  · rw [Bus.base_of_invalid hnone]

/-! ## The states of the sequence -/

/-- What a step of the reset sequence may change. -/
def ResetWrites (s t : State) : Prop :=
  t = { s with
    bus := t.bus, rstErr := t.rstErr, sub := t.sub, upc := t.upc, busy := t.busy, inReset := t.inReset } ∧
  s.bus.ResetFrame s.cfg t.bus

theorem resetWrites_resetEnd (s : State) : ResetWrites s s.resetEnd := by
  obtain ⟨-, e⟩ | ⟨-, e⟩ := s.resetEnd_cases <;> rw [e]
  · exact ⟨rfl, Bus.resetFrame_emit ..⟩
  · exact ⟨rfl, OnlyRegisters.refl _ _, fun _ _ _ => rfl⟩

theorem execRstseq_resetWrites {s t : State} (h : execRstseq s = .next t) : ResetWrites s t := by
  obtain ⟨-, rfl⟩ | ⟨x, b, s1, ph, n, hread, rfl, -, ht⟩ := execRstseq_next h
  · exact ⟨rfl, Bus.resetFrame_force ..⟩
  have hb : s.bus.ResetFrame s.cfg b := by
    rw [readField_bus hread]
    exact Bus.resetFrame_base ..
  obtain ⟨-, rfl⟩ | rfl | rfl | rfl := ht
  · exact ⟨rfl, Bus.resetFrame_trans hb (Bus.resetFrame_force ..)⟩
  · obtain ⟨ht, hend⟩ := resetWrites_resetEnd { s with bus := b }
    exact ⟨ht, Bus.resetFrame_trans hb hend⟩
  · obtain ⟨ht, hend⟩ := resetWrites_resetEnd { s with bus := b, rstErr := .resetFailed }
    exact ⟨ht, Bus.resetFrame_trans hb hend⟩
  · exact ⟨rfl, Bus.resetFrame_trans hb (Bus.resetFrame_emit ..)⟩

/-- Settles O55: each step of the sequence is a read of the status field, a write of the line, or an event. -/
theorem resetTouchesOnlyItsOwnState : Obligations.ResetTouchesOnlyItsOwnState := by
  rintro i s t (rfl | rfl) h
  · exact execRstseq_resetWrites h
  · obtain ⟨-, -, -, rfl⟩ := execHwReset_next h
    exact ⟨rfl, Bus.resetFrame_force ..⟩

end Sys2Proof.Machine
end
